-- ==== Sys2Proof/Word.lean ====
section
/-! DEFINITION. The machine words of the DM412 (00 Conventions, Words, Bytes and Addresses): 16-bit words of two
bytes, 20-bit word addresses, records of sixteen words. -/

namespace Sys2Proof

/-- One byte of a memory word. -/
abbrev Byte := BitVec 8

/-- One memory word: the upper byte is bits 15 to 8, the lower byte bits 7 to 0. -/
abbrev Word := BitVec 16

/-- A word address: 20 address lines. -/
abbrev Addr := BitVec 20

/-- A value of the Time Base's millisecond count. -/
abbrev Count := BitVec 32

/-- A record: w0 to w15. -/
abbrev Record := Vector Word 16

/-- A slot of the record area, numbered from 0 at its base (R2). -/
abbrev Slot := Fin 512

/-- A tally slot number t (R6). -/
abbrev TallySlot := Fin 384

/-- A meter run. -/
abbrev Run := Fin 12

/-- An outlet channel. -/
abbrev Chan := Fin 4

/-- A word position within a slot (R2). -/
abbrev Pos := Fin 16

end Sys2Proof
end

