-- ==== Sys2Proof/Syntax.lean ====
section
/-! DEFINITION. The commands of the DM412: one constructor for each row of spec/opcode_table.json. -/

namespace Sys2Proof

/-- The byte lanes of a write (R12). -/
inductive Lanes where
  | both
  | upper
  | lower
  deriving DecidableEq, Repr

/-- What a bus cycle does at its address: a word read, or a write of data on lanes (section 1.4). -/
inductive BusOp where
  | read
  | write (data : Word) (lanes : Lanes)
  deriving DecidableEq, Repr

/-- A command: an event that reaches the part. Records reach the part word by word; a record or command row is the
controller's write of ONE word of its slot, the one meant to complete it (R36; log entry 2). -/
inductive Instr where
  /-- CONTROLLER_CYCLE (R17): the controller begins a bus cycle. -/
  | controllerCycle (addr : Addr) (op : BusOp)
  /-- MEMORY_CYCLE_COMPLETE (R23): the memory cycle in progress completes. -/
  | memoryCycleComplete
  /-- COMMIT_COMPLETE (R42): the sixteenth word of a commit completes. -/
  | commitComplete
  /-- EVENT_APPEND_COMPLETE (R165): the sixteenth word of an event append completes. -/
  | eventAppendComplete
  /-- REWRITE_COMPLETE (R30): the sixteenth word of a part-record rewrite completes. -/
  | rewriteComplete
  /-- LOADING_READ_COMPLETE (R31): the sixteenth word of a loading read completes. -/
  | loadingReadComplete
  /-- DRAIN_COMPLETE (R177). -/
  | drainComplete
  /-- RESET_ASSERT (R168). -/
  | resetAssert
  /-- RESET_RELEASE (R168), with the levels of the straps GB3 to GB0 and SC5 to SC0. -/
  | resetRelease (gb : BitVec 4) (sc : BitVec 6)
  /-- TALLY_RECORD (R65): word p of tally slot t is written with v. -/
  | tallyRecord (t : TallySlot) (p : Pos) (v : Word)
  /-- STATION_DESCRIPTOR (R139): word p of slot 0 is written with v. -/
  | stationDescriptor (p : Pos) (v : Word)
  /-- CHANNEL_DESCRIPTOR (R143): word p of slot 1 + c is written with v. -/
  | channelDescriptor (c : Chan) (p : Pos) (v : Word)
  /-- RUN_DESCRIPTOR (R146): word p of slot 5 + r is written with v. -/
  | runDescriptor (r : Run) (p : Pos) (v : Word)
  /-- CLEAR_RUN(run), command 1 (R149): word p of its command record is written. -/
  | clearRun (tag run : Word) (p : Pos)
  /-- CLEAR_CHANNEL(ch), command 2 (R149). -/
  | clearChannel (tag ch : Word) (p : Pos)
  /-- CLEAR_DEFICIT(ch), command 3 (R150). -/
  | clearDeficit (tag ch : Word) (p : Pos)
  /-- CLEAR_CAPTURE, command 4 (R50). -/
  | clearCapture (tag : Word) (p : Pos)
  /-- SET_SERVICE(ch, in), command 5 with argument B = 1 (R151). -/
  | setServiceIn (tag ch : Word) (p : Pos)
  /-- SET_SERVICE(ch, out), command 5 with argument B = 0 (R151). -/
  | setServiceOut (tag ch : Word) (p : Pos)
  /-- CALIBRATE(ch, k), command 6 (R127). -/
  | calibrate (tag ch k : Word) (p : Pos)
  /-- UNBIND_RUN(run), command 7 (R73). -/
  | unbindRun (tag run : Word) (p : Pos)
  /-- RELEASE_HISTORY(run), command 8 (R74). -/
  | releaseHistory (tag run : Word) (p : Pos)
  /-- RESTART, command 9 (R153). -/
  | restart (tag : Word) (p : Pos)
  /-- STATUS_READ (R159): the controller's read of flag word w of the status record completes. -/
  | statusRead (w : Pos)
  /-- ASSEMBLY_EXPIRED (R37): the expiry timer of the slot's ASSEMBLING entry runs out. -/
  | assemblyExpired (slot : Slot)
  /-- HISTORY_EXPIRY (R57). -/
  | historyExpiry (t : TallySlot)
  /-- STALENESS_EXPIRY (R80). -/
  | stalenessExpiry (r : Run)
  /-- HORIZON_EXPIRY (R81). -/
  | horizonExpiry (r : Run)
  /-- SUBSTITUTION_STEP (R84). -/
  | substitutionStep (r : Run)
  /-- BASE_PERIOD_EXPIRY (R123). -/
  | basePeriodExpiry (c : Chan)
  /-- PRECHECK_EXPIRY (R112), with the proof contact's reading: closed or open. -/
  | precheckExpiry (c : Chan) (closed : Bool)
  /-- DRIVE_EXPIRY (R113). -/
  | driveExpiry (c : Chan)
  /-- PROOF_WINDOW_EXPIRY (R114). -/
  | proofWindowExpiry (c : Chan)
  /-- REST_END (R116). -/
  | restEnd (c : Chan)
  /-- PROOF_CLOSURE (R113): the proof contact closes. -/
  | proofClosure (c : Chan)
  /-- METER_PULSE (R124): one rising edge of the odorant meter. -/
  | meterPulse (c : Chan)
  /-- COMMAND_RECORD (R147): word p of slot 17 is written with v. -/
  | commandRecord (p : Pos) (v : Word)
  deriving DecidableEq, Repr

end Sys2Proof
end

