-- ==== Sys2Proof/Decode.lean ====
section
/-! DEFINITION. The commands that words of the opcode table's bits spell. spec/opcode_table.json gives no row any
bits ("fields": [] and no fixed bits), so no word spells a command. -/

namespace Sys2Proof

/-- The command an opcode-table word spells: none, as the table gives no row bits (98_reader, n_rows_with_fixed 0). -/
def decodeTableWord (_nbits _w : Nat) : Option Instr := none

end Sys2Proof
end

