-- ==== Sys2Proof/Config.lean ====
section
/-! DEFINITION. The capacities the spec fixes, and the free values: what the spec leaves to the world and nothing
in the model may fix. -/

namespace Sys2Proof.Config

/-- Entries of the assembly pool (R33). -/
def poolSize : Nat := 8

/-- Records the event queue holds (R164). -/
def eventQueueSize : Nat := 16

/-- The most strokes the owed count and the stroke credit hold (R92). -/
def maxStrokes : Nat := 4095

/-- The largest value of a 16-bit saturating count (R46, R164). -/
def max16 : Nat := 2 ^ 16 - 1

/-- The largest value of a 32-bit saturating count (R92, R126). -/
def max32 : Nat := 2 ^ 32 - 1

/-- The largest volume E, C and the unrouted volume hold (R53). -/
def max48 : Nat := 2 ^ 48 - 1

/-- What a byte of the record memory that nothing has written reads as. DESIGN CHOICE (log entry 7), unsafe:
the spec says only that such a slot "holds prior content" (R3, R4). -/
def priorByte : Byte := 0

/-- FREE VALUE (log entry 5): when several of the part's own timers are due at once, which is taken first. -/
opaque freeOrder : Nat → Nat

/-- FREE VALUE (log entry 5): what a proof contact reads when the part's own precheck timer expires. -/
opaque freeContact : Nat → Chan → Bool

/-- FREE VALUE (log entry 14): whether the controller cycle held through reset is present at the Port Arbiter's
first grant decision after the release. -/
opaque freeHeldCyclePresent : Nat → Bool

/-- FREE VALUE (log entry 26): whether the controller's next cycle arrives while the decision at the end of its last
one is being taken (R24). -/
opaque freeNextCyclePresent : Nat → Bool

end Sys2Proof.Config
end

