-- ==== Sys2Proof/Machine/State.lean ====
section
/-! DEFINITION. The state of the DM412, block by block as the manual's block table lists what each block owns, and
the state right after the release of reset. Plain data throughout. Times inside the state (`Nat`) are milliseconds
since the release of reset; the count the part publishes is that number modulo 2^32 (log entry 3). -/

namespace Sys2Proof.Machine

/-- The manual gives the part no event that stops it: no meaning faults. -/
inductive Fault
  deriving DecidableEq, Repr

/-- Why a step gives no next state. -/
inductive Refusal where
  /-- Raised by `exec` alone, for a command with no meaning yet; safe. No arm raises it. -/
  | notModelled (mnemonic : String)
  deriving DecidableEq, Repr

/-! ### Load Controller -/

/-- The device states (R167). -/
inductive DeviceState where
  | loading
  | running
  | fallback
  | draining
  deriving DecidableEq, Repr

/-- The guard modes a station descriptor can name (R138); NONE is the mode of no descriptor in force (R45). -/
inductive GuardMode where
  | latched
  | persistent
  deriving DecidableEq, Repr

/-- A station descriptor (R138). -/
structure StationDescriptor where
  stationCode : Nat
  guard : GuardMode
  historyHold : Nat
  assemblyTimeout : Nat
  eventFilter : BitVec 6
  attentionMask : BitVec 9
  starvationLimit : Nat
  deriving DecidableEq, Repr

/-- The outcomes of a command (R148, R183). -/
inductive CommandOutcome where
  | none
  | done
  | started
  | badArgument
  | wrongState
  | busy
  deriving DecidableEq, Repr

/-- The content of the result record (R148). -/
structure ResultContent where
  tag : Word
  code : Word
  outcome : CommandOutcome
  time : Count
  detail : Nat
  deriving DecidableEq, Repr

/-- What led to the load in progress or to the drain before it (R175). -/
inductive LoadCause where
  | reset
  | restart (tag : Word)
  | stationAccepted
  deriving DecidableEq, Repr

/-- The best record the scan has found for a run (R174). -/
structure ScanBest where
  slot : TallySlot
  sequence : Word
  total : Nat
  rate : Nat
  deriving DecidableEq, Repr

/-- The tally band scan in progress (R174). -/
structure Scan where
  best : Vector (Option ScanBest) 12
  others : Vector (List TallySlot) 12
  valid : Nat
  deriving DecidableEq, Repr

/-- The state of the Load Controller. -/
structure Loader where
  /-- RESET_n is asserted (R168). -/
  resetAsserted : Bool
  device : DeviceState
  /-- The sampled GB straps (R1). -/
  baseSelect : BitVec 4
  /-- The sampled SC straps (R1). -/
  stationCode : BitVec 6
  /-- The station descriptor in force (R136). -/
  station : Option StationDescriptor
  result : ResultContent
  /-- The slot whose loading read is requested (R31, R169). -/
  loadSlot : Option Slot
  cause : LoadCause
  /-- The first failing reason of slot 0's record at the load, 0 while none is found (R170). -/
  fallbackReason : Nat
  scan : Scan
  deriving DecidableEq, Repr

/-! ### Controller Port, Memory Port, Memory Agent -/

/-- The progress of the controller's forwarded cycle (section 2.1). A waiting read whose slot is under write is
held (R19), which is computed; a complete cycle is no cycle. -/
inductive Progress where
  | waiting
  | running
  /-- Held while RESET_n is asserted (R16). -/
  | stopped
  deriving DecidableEq, Repr

/-- The controller bus cycle in progress (section 2.1). -/
structure CpCycle where
  addr : Addr
  op : BusOp
  progress : Progress
  deriving DecidableEq, Repr

/-- The state of the Controller Port. -/
structure ControllerPort where
  cycle : Option CpCycle
  /-- The wait line is asserted (R20). -/
  waitLine : Bool
  /-- The data word last presented to the controller (R17). -/
  readData : Word
  deriving DecidableEq, Repr

/-- Who a memory cycle runs for (R23). -/
inductive Requester where
  | controller
  | agent
  deriving DecidableEq, Repr

/-- The memory cycle in progress (R23). -/
structure MemCycle where
  requester : Requester
  addr : Addr
  op : BusOp
  deriving DecidableEq, Repr

/-- The kinds of work item (section 2.4). -/
inductive ItemKind where
  | commit
  | eventAppend
  | rewrite
  | loadingRead
  deriving DecidableEq, Repr

/-- The Memory Agent's current item: the words to be written, or the words read so far, and the position of the
next word. -/
structure Item where
  kind : ItemKind
  slot : Slot
  words : Record
  next : Nat
  deriving DecidableEq, Repr

/-! ### Record Verifier -/

/-- An ASSEMBLING pool entry (R33); a position not yet present holds no value. -/
structure Assembly where
  slot : Slot
  words : Vector (Option Word) 16
  openedAt : Nat
  timeout : Nat
  deriving DecidableEq, Repr

/-- A COMMITTING pool entry (R33, R41): the opened time and timeout it had as an ASSEMBLING one. -/
structure Commit where
  slot : Slot
  words : Record
  openedAt : Nat
  timeout : Nat
  deriving DecidableEq, Repr

/-- The first-fault capture (R49). The header's numbers are words because a load takes them as they stand (R180). -/
structure Capture where
  occupied : Bool
  reason : Word
  slot : Word
  time : Count
  /-- The count of refusals since capture (R46). -/
  since : Nat
  guard : Word
  /-- The body; none when the Record Verifier does not hold it (R51). -/
  body : Option Record
  deriving DecidableEq, Repr

/-- A word-level refusal's code and slot (R48). -/
structure WordRefusal where
  code : Nat
  slot : Slot
  deriving DecidableEq, Repr

/-- The state of the Record Verifier. The pool's FREE entries are those of the eight not listed (R33). -/
structure Verifier where
  assembling : List Assembly
  /-- The commit queue: the COMMITTING entries, oldest first (R41). -/
  committing : List Commit
  capture : Capture
  refusals : Nat
  lastRefusal : Option WordRefusal
  takenSince : Bool
  deriving DecidableEq, Repr

/-! ### Run Table -/

/-- The conditions of a run (R54). -/
inductive RunCondition where
  | retired
  | unbound
  | live
  | stale
  | lost
  deriving DecidableEq, Repr

/-- A bound run's freshness timers: their start and the two intervals taken there, in milliseconds (R79). -/
structure Freshness where
  start : Nat
  staleness : Nat
  horizon : Nat
  deriving DecidableEq, Repr

/-- A running substitution timer (R82): the staleness expiry its steps count from, and the steps fallen due and
taken or passed over. -/
structure Substitution where
  base : Nat
  steps : Nat
  deriving DecidableEq, Repr

/-- A run entry (R53). -/
structure RunEntry where
  condition : RunCondition
  held : Bool
  awaitingBaseline : Bool
  currentSlot : Option TallySlot
  shadowSequence : Word
  shadowTotal : Nat
  shadowRate : Nat
  shadowTime : Count
  /-- When the age was last restarted; none while it has never run since reset (R53). -/
  ageStart : Option Nat
  estimated : Nat
  credit : Nat
  unrouted : Nat
  historyCount : Nat
  freshness : Option Freshness
  substitution : Option Substitution
  deriving DecidableEq, Repr

/-- A run descriptor (R145). -/
structure RunDescriptor where
  enabled : Bool
  primary : Chan
  alternatePresent : Bool
  alternate : Chan
  maxFlow : Nat
  fallbackFlow : Nat
  staleness : Nat
  horizon : Nat
  slack : Nat
  deriving DecidableEq, Repr

/-- The state of a tally slot's map entry (R55). -/
inductive Claim where
  | free
  | current (r : Run)
  | history (r : Run) (expires : Nat)
  deriving DecidableEq, Repr

/-- The state of the Run Table. -/
structure RunTable where
  runs : Vector RunEntry 12
  descriptors : Vector (Option RunDescriptor) 12
  slots : Vector Claim 384
  deriving DecidableEq, Repr

/-! ### Channel Units -/

/-- The service states (R108). -/
inductive ServiceState where
  | unconfigured
  | outOfService
  | inService
  | calibrating
  | failed
  deriving DecidableEq, Repr

/-- The sequencer phases (R110). -/
inductive Phase where
  | idle
  | precheck
  | drive
  | proof
  | rest
  deriving DecidableEq, Repr

/-- The stroke kinds (R110). -/
inductive StrokeKind where
  | ordinary
  | calibration
  deriving DecidableEq, Repr

/-- The calibration outcomes (R126). -/
inductive CalOutcome where
  | none
  | okApplied
  | okNotApplied
  | outOfTolerance
  | missed
  | aborted
  deriving DecidableEq, Repr

/-- A channel descriptor (R141). -/
structure ChannelDescriptor where
  startInService : Bool
  autoApply : Bool
  nominal : Nat
  dose : Nat
  driveTime : Nat
  minPeriod : Nat
  proofWindow : Nat
  precheckTime : Nat
  missWindow : Nat
  missLimit : Nat
  highMark : Nat
  lowMark : Nat
  basePeriod : Nat
  pulseVolume : Nat
  tolerance : Nat
  deriving DecidableEq, Repr

/-- The stroke times a stroke takes when it begins (R110), in milliseconds. -/
structure StrokeTimes where
  precheck : Nat
  drive : Nat
  window : Nat
  period : Nat
  deriving DecidableEq, Repr

/-- The stroke sequencer (R110) and the two outputs it drives (R117). -/
structure Sequencer where
  phase : Phase
  kind : Option StrokeKind
  times : StrokeTimes
  /-- When PRECHECK began. -/
  precheckStart : Nat
  /-- The rest reference: the drive start, or the moment of a STUCK finding. -/
  restRef : Nat
  proven : Bool
  finishing : Bool
  /-- The stroke drive output STK is asserted. -/
  strokeOut : Bool
  /-- The wetting source WET is on. -/
  wetting : Bool
  deriving DecidableEq, Repr

/-- The calibration state (R126). -/
structure Calibration where
  active : Bool
  /-- N, the strokes required. -/
  required : Nat
  proven : Nat
  windowOpen : Bool
  pulses : Nat
  lastOutcome : CalOutcome
  lastMeasured : Nat
  deriving DecidableEq, Repr

/-- A running base-period timer (R123), in milliseconds. -/
structure BaseTimer where
  period : Nat
  next : Nat
  deriving DecidableEq, Repr

/-- The state of one Channel Unit (R92, R108, R110, R118, R124, R126). -/
structure Channel where
  service : ServiceState
  descriptor : Option ChannelDescriptor
  /-- The working displacement, nL; 0 while the channel has none. -/
  working : Nat
  residue : Nat
  owed : Nat
  credit : Nat
  deficit : Nat
  /-- The restrict line RST is asserted (R105). -/
  restrict : Bool
  attempts : Nat
  misses : Nat
  seq : Sequencer
  /-- The delivered odorant, µL. -/
  delivered : Count
  /-- The meter remainder, nL. -/
  remainder : Nat
  cal : Calibration
  baseTimer : Option BaseTimer
  deriving DecidableEq, Repr

/-! ### Report Unit -/

/-- The events (R183). -/
inductive EventCode where
  | recordRefused
  | wordRefused
  | assemblyExpired
  | runBound
  | runMigrated
  | runUnbound
  | runStale
  | runLost
  | runLive
  | runBaseline
  | runHeld
  | strokeMissed
  | proofStuck
  | channelFailed
  | channelService
  | restrictOn
  | restrictOff
  | deficitStarted
  | calibrationEnd
  | commandTaken
  | loadDone
  | fallbackEntered
  | descriptorApplied
  deriving DecidableEq, Repr

/-- An event record (R164). -/
structure EventRecord where
  code : EventCode
  time : Count
  subject : Nat
  detail : Nat
  value : Nat
  deriving DecidableEq, Repr

/-- The seven flag words w2 to w8 of the status record (R155). -/
abbrev FlagWords := Vector Word 7

/-- The state of the Report Unit. -/
structure ReportUnit where
  latched : FlagWords
  shown : FlagWords
  /-- The pending set of the status rewrite in progress (R158). -/
  pendingShown : FlagWords
  /-- The dirty marks of the part slots 18 to 37 (R162). -/
  dirty : Vector Bool 20
  events : List EventRecord
  dropped : Nat
  ringNext : Fin 64
  /-- The attention line is asserted (R161). -/
  attention : Bool
  deriving DecidableEq, Repr

/-! ### The machine -/

/-- The state of the part and of the record memory behind it. -/
structure State where
  /-- The commands that wait, first in, first out. -/
  pending : List Instr
  /-- Milliseconds since the release of reset (log entry 3). -/
  uptime : Nat
  lc : Loader
  cp : ControllerPort
  mp : Option MemCycle
  passOver : Nat
  ma : Option Item
  rv : Verifier
  rt : RunTable
  channels : Vector Channel 4
  ru : ReportUnit
  /-- The record memory: (byte key, byte), in canonical form. -/
  mem : List Host.Cell
  /-- The model's own: how many free values have been used (log entry 5). -/
  freeUsed : Nat
  deriving DecidableEq, Repr

/-! ### Values after the release of reset -/

/-- A run entry after reset (R53). -/
def RunEntry.reset : RunEntry :=
  ⟨.retired, false, false, none, 0, 0, 0, 0, none, 0, 0, 0, 0, none, none⟩

/-- An IDLE sequencer with its outputs off (R110, R117). R110 gives it no stroke and says nothing of the stroke times,
the rest reference and the precheck's start it then holds: 0 for each is a DESIGN CHOICE (log entry 8), which no rule
reads while the phase is IDLE. -/
def Sequencer.idle : Sequencer := ⟨.idle, none, ⟨0, 0, 0, 0⟩, 0, 0, false, false, false, false⟩

/-- The calibration state after reset (R126). -/
def Calibration.reset : Calibration := ⟨false, 0, 0, false, 0, .none, 0⟩

/-- A Channel Unit after reset (R92, R108, R110, R118, R124, R126). -/
def Channel.reset : Channel :=
  ⟨.unconfigured, none, 0, 0, 0, 0, 0, false, 0, 0, Sequencer.idle, 0, 0, Calibration.reset, none⟩

/-- The unoccupied capture, all header fields 0, no body held (R51). -/
def Capture.empty : Capture := ⟨false, 0, 0, 0, 0, 0, none⟩

/-- A scan that has read nothing (R174). -/
def Scan.empty : Scan := ⟨Vector.replicate 12 none, Vector.replicate 12 [], 0⟩

/-- The Run Table after reset: every run RETIRED, every tally slot FREE (R53, R55). -/
def RunTable.reset : RunTable :=
  ⟨Vector.replicate 12 RunEntry.reset, Vector.replicate 12 none, Vector.replicate 384 .free⟩

/-- No flag (R157). -/
def FlagWords.none : FlagWords := Vector.replicate 7 0

/-- The Report Unit after reset (R166). -/
def ReportUnit.reset : ReportUnit :=
  ⟨FlagWords.none, FlagWords.none, FlagWords.none, Vector.replicate 20 false, [], 0, 0, false⟩

/-- The result record's content until a load sets it: tag 0, code 0, outcome NONE (R175; log entry 8). -/
def ResultContent.reset : ResultContent := ⟨0, 0, .none, 0, 0⟩

/-- The part at the release of reset, before the Memory Agent takes the first loading read: LOADING with slot 0
requested (R168, R169). -/
def State.released (gb : BitVec 4) (sc : BitVec 6) : State where
  pending := []
  uptime := 0
  lc := ⟨false, .loading, gb, sc, none, ResultContent.reset, some 0, .reset, 0, Scan.empty⟩
  cp := ⟨none, false, 0⟩
  mp := none
  passOver := 0
  ma := none
  rv := ⟨[], [], Capture.empty, 0, none, false⟩
  rt := RunTable.reset
  channels := Vector.replicate 4 Channel.reset
  ru := ReportUnit.reset
  mem := []
  freeUsed := 0

/-- The machine right after reset: straps at 0 (DESIGN CHOICE, log entry 8), LOADING, and the first loading read
granted the idle memory port for w0 of slot 0 (R24, R32, R169), 0 at the positions of its words, none of which is read
yet (DESIGN CHOICE, log entry 30). -/
def State.reset : State :=
  { State.released 0 0 with
    ma := some ⟨.loadingRead, 0, Vector.replicate 16 0, 0⟩
    mp := some ⟨.agent, 0, .read⟩ }

end Sys2Proof.Machine
end

