-- ==== Sys2Proof/Machine/Ops.lean ====
section
/-! DEFINITION. The named operations over memory, addresses, records and the parts of the state: byte order, the
check word, the record area's layout, and the accessors every block's rules use. -/

namespace Sys2Proof.Machine

/-! ### Words and numbers (R179) -/

/-- The upper byte of a word. -/
def hiByte (w : Word) : Byte := w.extractLsb' 8 8

/-- The lower byte of a word. -/
def loByte (w : Word) : Byte := w.extractLsb' 0 8

/-- The word of two bytes, the upper first. -/
def joinBytes (hi lo : Byte) : Word := hi ++ lo

/-- A number held in two words, most significant first. -/
def num2 (a b : Word) : Nat := a.toNat * 2 ^ 16 + b.toNat

/-- A number held in three words, most significant first. -/
def num3 (a b c : Word) : Nat := (a.toNat * 2 ^ 16 + b.toNat) * 2 ^ 16 + c.toNat

/-- Word i of a number held in consecutive words, counting from the least significant. -/
def wordOf (n i : Nat) : Word := BitVec.ofNat 16 (n / 2 ^ (16 * i))

/-- A number from 0 to `limit` that stays at `limit` when an addition would carry it beyond (00 Conventions). -/
def satAdd (limit a b : Nat) : Nat := min (a + b) limit

/-- A flag's bit. -/
def bit (b : Bool) : Nat := if b then 1 else 0

/-! ### The check word (R9) -/

/-- One bit presented to the check word register. -/
def crcBit (reg : Word) (presented : Bool) : Word :=
  if presented != reg.msb then (reg <<< 1) ^^^ 0x1021#16 else reg <<< 1

/-- One word presented, bit 15 first. -/
def crcWord (reg : Word) (w : Word) : Word :=
  [15, 14, 13, 12, 11, 10, 9, 8, 7, 6, 5, 4, 3, 2, 1, 0].foldl (fun g i => crcBit g (w.getLsbD i)) reg

/-- The check word of a record, over w0 to w14 (R9). -/
def checkWord (r : Record) : Word := (r.toList.take 15).foldl crcWord 0xFFFF#16

/-- The record is intact (R10). -/
def intact (r : Record) : Bool := r[15] == checkWord r

/-- The record with its check word in w15 (R10). -/
def withCheck (r : Record) : Record := r.set 15 (checkWord r)

/-- The kind in a record's w0 (R8). -/
def recordKind (r : Record) : Nat := (hiByte r[0]).toNat

/-- The index in a record's w0 (R8). -/
def recordIndex (r : Record) : Nat := (loByte r[0]).toNat

/-- A w0 of this kind and index (R8). -/
def headWord (kind index : Nat) : Word := BitVec.ofNat 16 (kind * 256 + index)

/-! ### The record area (section 1) -/

/-- The address of word p of a slot (R2). -/
def slotAddr (gb : BitVec 4) (slot : Slot) (p : Pos) : Addr :=
  BitVec.ofNat 20 (gb.toNat * 65536 + slot.val * 16 + p.val)

/-- The slot and word position of an address, or none outside the record area (R2). -/
def decompose (gb : BitVec 4) (a : Addr) : Option (Slot × Pos) :=
  if a.extractLsb' 16 4 = gb ∧ a.extractLsb' 13 3 = 0 then
    some ((a.extractLsb' 4 9).toFin, (a.extractLsb' 0 4).toFin)
  else none

/-- The classes of slot (section 1.2). -/
inductive SlotClass where
  | controller
  | part
  | openSlot
  deriving DecidableEq, Repr

/-- The class of a slot (the slot map of section 1.2). -/
def slotClass (k : Slot) : SlotClass :=
  if k.val ≤ 17 then .controller
  else if k.val ≤ 37 then .part
  else if k.val ≤ 63 then .openSlot
  else if k.val ≤ 127 then .part
  else .controller

/-- The kind expected at w0 of a slot's record (the slot map of section 1.2). -/
def expectedKind (k : Slot) : Nat :=
  if k.val = 0 then 0x51
  else if k.val ≤ 4 then 0x52
  else if k.val ≤ 16 then 0x53
  else if k.val = 17 then 0x54
  else if k.val = 18 then 0x61
  else if k.val = 19 then 0x62
  else if k.val = 20 then 0x63
  else if k.val ≤ 21 then 0
  else if k.val ≤ 25 then 0x65
  else if k.val ≤ 37 then 0x66
  else if k.val ≤ 63 then 0
  else if k.val ≤ 127 then 0x67
  else 0x55

/-- The index expected at w0 of a slot's record; a tally record's names its run and is not fixed by the slot. -/
def expectedIndex (k : Slot) : Nat :=
  if k.val = 0 then 0
  else if k.val ≤ 4 then k.val - 1
  else if k.val ≤ 16 then k.val - 5
  else if k.val ≤ 21 then 0
  else if k.val ≤ 25 then k.val - 22
  else if k.val ≤ 37 then k.val - 26
  else if k.val ≤ 63 then 0
  else if k.val ≤ 127 then k.val - 64
  else 0

/-- The slot of tally slot t (R6). -/
def tallySlotOf (t : TallySlot) : Slot := ⟨128 + t.val, by omega⟩

/-- The tally slot number of a slot of the tally band (R6). -/
def asTally (k : Slot) : Option TallySlot :=
  if h : 128 ≤ k.val then some ⟨k.val - 128, by omega⟩ else none

/-- The channel of a channel descriptor's slot. -/
def asChannelSlot (k : Slot) : Option Chan :=
  if h : 1 ≤ k.val ∧ k.val ≤ 4 then some ⟨k.val - 1, by omega⟩ else none

/-- The run of a run descriptor's slot. -/
def asRunSlot (k : Slot) : Option Run :=
  if h : 5 ≤ k.val ∧ k.val ≤ 16 then some ⟨k.val - 5, by omega⟩ else none

/-- The channel of a channel report's slot. -/
def asChannelReport (k : Slot) : Option Chan :=
  if h : 22 ≤ k.val ∧ k.val ≤ 25 then some ⟨k.val - 22, by omega⟩ else none

/-- The run of a run report's slot. -/
def asRunReport (k : Slot) : Option Run :=
  if h : 26 ≤ k.val ∧ k.val ≤ 37 then some ⟨k.val - 26, by omega⟩ else none

/-- The slot of a channel descriptor. -/
def channelDescriptorSlot (c : Chan) : Slot := ⟨1 + c.val, by omega⟩

/-- The slot of a run descriptor. -/
def runDescriptorSlot (r : Run) : Slot := ⟨5 + r.val, by omega⟩

/-- The channel a number names, if it is 0 to 3. -/
def asChan (n : Nat) : Option Chan := if h : n < 4 then some ⟨n, h⟩ else none

/-- The run a number names, if it is 0 to 11. -/
def asRun (n : Nat) : Option Run := if h : n < 12 then some ⟨n, h⟩ else none

/-! ### The record memory (00 Conventions; log entry 7) -/

/-- The byte at a key: what is listed, or what an unlisted byte reads as. -/
def memByte : List Host.Cell → Nat → Byte
  | [], _ => Config.priorByte
  | (k, b) :: rest, a => if k = a then b else memByte rest a

/-- The list with the byte at a key set, in canonical form: keys rising, and a byte of the prior value not listed. -/
def setByte : List Host.Cell → Nat → Byte → List Host.Cell
  | [], a, v => if v = Config.priorByte then [] else [(a, v)]
  | (k, b) :: rest, a, v =>
    if a < k then (if v = Config.priorByte then (k, b) :: rest else (a, v) :: (k, b) :: rest)
    else if a = k then (if v = Config.priorByte then rest else (a, v) :: rest)
    else (k, b) :: setByte rest a v

/-- The keys rise from above `low`, every key is a byte of the memory, and no entry holds the prior value. -/
def memWfFrom : Nat → List Host.Cell → Bool
  | _, [] => true
  | low, (k, b) :: rest =>
    decide (low ≤ k) && decide (k < 2 ^ 21) && decide (b ≠ Config.priorByte) && memWfFrom (k + 1) rest

/-- The memory's canonical form: equal memories are equal lists. -/
def Memory.wf (m : List Host.Cell) : Bool := memWfFrom 0 m

/-- The key of a word's upper byte. -/
def upperKey (a : Addr) : Nat := 2 * a.toNat

/-- The key of a word's lower byte. -/
def lowerKey (a : Addr) : Nat := 2 * a.toNat + 1

/-- The word memory holds at an address. -/
def readWord (m : List Host.Cell) (a : Addr) : Word := joinBytes (memByte m (upperKey a)) (memByte m (lowerKey a))

/-- A write of data on its lanes (R18): a one-lane write leaves the other byte as memory held it. -/
def writeWord (m : List Host.Cell) (a : Addr) (v : Word) : Lanes → List Host.Cell
  | .both => setByte (setByte m (upperKey a) (hiByte v)) (lowerKey a) (loByte v)
  | .upper => setByte m (upperKey a) (hiByte v)
  | .lower => setByte m (lowerKey a) (loByte v)

/-- The sixteen words of a slot in memory. -/
def readSlot (m : List Host.Cell) (gb : BitVec 4) (slot : Slot) : Record :=
  Vector.ofFn fun p => readWord m (slotAddr gb slot p)

/-! ### Time (log entries 3 and 4) -/

/-- The millisecond count: 32 bits, wrapping (00 Conventions). -/
def State.count (s : State) : Count := BitVec.ofNat 32 s.uptime

/-- The state once a timer that ends at `deadline` has run out: whatever of its interval is left has elapsed
(log entry 4). -/
def State.elapseTo (s : State) (deadline : Nat) : State := { s with uptime := max s.uptime deadline }

/-! ### Accessors -/

/-- The Channel Unit of channel c. -/
def State.chan (s : State) (c : Chan) : Channel := s.channels[c]

/-- The state with channel c's unit replaced, no mark set. -/
def State.setChan (s : State) (c : Chan) (x : Channel) : State := { s with channels := s.channels.set c.val x }

/-- The entry of run r. -/
def State.run (s : State) (r : Run) : RunEntry := s.rt.runs[r]

/-- The state with run r's entry replaced, no mark set. -/
def State.setRun (s : State) (r : Run) (e : RunEntry) : State :=
  { s with rt := { s.rt with runs := s.rt.runs.set r.val e } }

/-- The run descriptor in force for run r. -/
def State.runDescriptor (s : State) (r : Run) : Option RunDescriptor := s.rt.descriptors[r]

/-- The map entry of tally slot t. -/
def State.claim (s : State) (t : TallySlot) : Claim := s.rt.slots[t]

/-- The state with tally slot t's map entry replaced. -/
def State.setClaim (s : State) (t : TallySlot) (x : Claim) : State :=
  { s with rt := { s.rt with slots := s.rt.slots.set t.val x } }

/-- A run's age in milliseconds, saturating (R53). -/
def State.age (s : State) (r : Run) : Nat :=
  match (s.run r).ageStart with
  | none => 0
  | some t => min (s.uptime - t) Config.max32

/-- The condition means the run is bound (R54). -/
def RunCondition.bound : RunCondition → Bool
  | .retired => false
  | .unbound => false
  | .live => true
  | .stale => true
  | .lost => true

/-- The service state has the channel in service: strokes reach their rest (R120). -/
def ServiceState.delivering : ServiceState → Bool
  | .inService => true
  | .calibrating => true
  | .unconfigured => false
  | .outOfService => false
  | .failed => false

/-- Pool entries in use, ASSEMBLING or COMMITTING (R33). -/
def Verifier.inUse (v : Verifier) : Nat := v.assembling.length + v.committing.length

/-- The starvation limit in force (R25). -/
def State.starvationLimit (s : State) : Nat :=
  match s.lc.station with
  | none => 8
  | some d => d.starvationLimit

/-- The assembly timeout in force (R35, R139). -/
def State.assemblyTimeout (s : State) : Nat :=
  match s.lc.station with
  | none => 1000
  | some d => d.assemblyTimeout

/-- The history hold in force, in milliseconds (R56). Without a station descriptor no slot enters HISTORY (R139);
the model holds such a slot for 0 ms (log entry 17). -/
def State.historyHold (s : State) : Nat :=
  match s.lc.station with
  | none => 0
  | some d => d.historyHold * 60000

/-- The code of the guard mode in force: 0 NONE, 1 LATCHED, 2 PERSISTENT (R45, R182). -/
def State.guardCode (s : State) : Nat :=
  match s.lc.station with
  | none => 0
  | some d => match d.guard with
    | .latched => 1
    | .persistent => 2

end Sys2Proof.Machine
end

