-- ==== Sys2Proof/Machine/Operands.lean ====
section
/-! DEFINITION. The record formats of section 12: the code tables (R183), reading the controller-written records
with their FIELD_RANGE check (R137, R179, R181), and the words of the part-written records (R180, R182). -/

namespace Sys2Proof.Machine

/-! ### Code tables (R183) -/

/-- The code of a device state. -/
def DeviceState.code : DeviceState → Nat
  | .loading => 0
  | .running => 1
  | .fallback => 2
  | .draining => 3

/-- The code of a command outcome. -/
def CommandOutcome.code : CommandOutcome → Nat
  | .none => 0
  | .done => 1
  | .started => 2
  | .badArgument => 3
  | .wrongState => 4
  | .busy => 5

/-- The code of a service state. -/
def ServiceState.code : ServiceState → Nat
  | .unconfigured => 0
  | .outOfService => 1
  | .inService => 2
  | .calibrating => 3
  | .failed => 4

/-- The code of a sequencer phase. -/
def Phase.code : Phase → Nat
  | .idle => 0
  | .precheck => 1
  | .drive => 2
  | .proof => 3
  | .rest => 4

/-- The code of a run condition. -/
def RunCondition.code : RunCondition → Nat
  | .retired => 0
  | .unbound => 1
  | .live => 2
  | .stale => 3
  | .lost => 4

/-- The code of a calibration outcome. -/
def CalOutcome.code : CalOutcome → Nat
  | .none => 0
  | .okApplied => 1
  | .okNotApplied => 2
  | .outOfTolerance => 3
  | .missed => 4
  | .aborted => 5

/-- The calibration outcome of a code, if it names one. -/
def CalOutcome.ofCode : Nat → Option CalOutcome
  | 0 => some .none
  | 1 => some .okApplied
  | 2 => some .okNotApplied
  | 3 => some .outOfTolerance
  | 4 => some .missed
  | 5 => some .aborted
  | _ => Option.none

/-- The code of a stroke kind. -/
def StrokeKind.code : StrokeKind → Nat
  | .ordinary => 0
  | .calibration => 1

/-- The code of an event. -/
def EventCode.code : EventCode → Nat
  | .recordRefused => 1
  | .wordRefused => 2
  | .assemblyExpired => 3
  | .runBound => 4
  | .runMigrated => 5
  | .runUnbound => 6
  | .runStale => 7
  | .runLost => 8
  | .runLive => 9
  | .runBaseline => 10
  | .runHeld => 11
  | .strokeMissed => 12
  | .proofStuck => 13
  | .channelFailed => 14
  | .channelService => 15
  | .restrictOn => 16
  | .restrictOff => 17
  | .deficitStarted => 18
  | .calibrationEnd => 19
  | .commandTaken => 20
  | .loadDone => 21
  | .fallbackEntered => 22
  | .descriptorApplied => 23

/-- The group of an event, G0 to G5. -/
def EventCode.group : EventCode → Nat
  | .recordRefused => 0
  | .wordRefused => 0
  | .assemblyExpired => 0
  | .runBound => 2
  | .runMigrated => 2
  | .runUnbound => 2
  | .runStale => 1
  | .runLost => 1
  | .runLive => 1
  | .runBaseline => 1
  | .runHeld => 1
  | .strokeMissed => 3
  | .proofStuck => 3
  | .channelFailed => 4
  | .channelService => 4
  | .restrictOn => 4
  | .restrictOff => 4
  | .deficitStarted => 4
  | .calibrationEnd => 4
  | .commandTaken => 5
  | .loadDone => 5
  | .fallbackEntered => 5
  | .descriptorApplied => 5

/-! ### Controller-written records (R181) -/

/-- The words from position `lo` to w14 are all 0: spare words (R179). -/
def spareFrom (r : Record) (lo : Nat) : Bool := ((r.toList.take 15).drop lo).all (· == 0)

/-- A guard mode's encoding (R181). -/
def GuardMode.ofCode : Nat → Option GuardMode
  | 1 => some .latched
  | 2 => some .persistent
  | _ => none

/-- The station descriptor a record carries, or none where FIELD_RANGE fails (R137, R138). -/
def readStation (r : Record) : Option StationDescriptor :=
  match GuardMode.ofCode r[2].toNat with
  | none => none
  | some g =>
    if r[1].toNat ≤ 63 ∧ 1 ≤ r[3].toNat ∧ r[3].toNat ≤ 10080 ∧ 10 ≤ r[4].toNat ∧ r[4].toNat ≤ 60000 ∧
        r[5].toNat < 2 ^ 6 ∧ r[6].toNat < 2 ^ 9 ∧ 1 ≤ r[7].toNat ∧ r[7].toNat ≤ 64 ∧ spareFrom r 8 = true then
      some ⟨r[1].toNat, g, r[3].toNat, r[4].toNat, r[5].extractLsb' 0 6, r[6].extractLsb' 0 9, r[7].toNat⟩
    else none

/-- A channel descriptor's fields as its words hold them, unchecked. -/
def channelFields (r : Record) : ChannelDescriptor :=
  ⟨r[1].getLsbD 0, r[1].getLsbD 1, num2 r[2] r[3], r[4].toNat, r[5].toNat, r[6].toNat, r[7].toNat, r[8].toNat,
    (hiByte r[9]).toNat, (loByte r[9]).toNat, r[10].toNat, r[11].toNat, r[12].toNat, r[13].toNat, r[14].toNat⟩

/-- The ranges of a channel descriptor's fields and the constraints between them (R141). -/
def ChannelDescriptor.inRange (d : ChannelDescriptor) : Bool :=
  decide (1000 ≤ d.nominal ∧ d.nominal ≤ 2000000) && decide (1000 ≤ d.dose ∧ d.dose ≤ 60000) &&
  decide (10 ≤ d.driveTime ∧ d.driveTime ≤ 2000) &&
  decide (100 ≤ d.minPeriod ∧ d.minPeriod ≤ 60000 ∧ d.proofWindow ≤ d.minPeriod) &&
  decide (20 ≤ d.proofWindow ∧ d.proofWindow ≤ 5000 ∧ d.driveTime ≤ d.proofWindow) &&
  decide (1 ≤ d.precheckTime ∧ d.precheckTime ≤ 100) && decide (4 ≤ d.missWindow ∧ d.missWindow ≤ 255) &&
  decide (1 ≤ d.missLimit ∧ d.missLimit ≤ d.missWindow) && decide (1 ≤ d.highMark ∧ d.highMark ≤ 4095) &&
  decide (d.lowMark < d.highMark) && decide (1 ≤ d.basePeriod ∧ d.basePeriod ≤ 3600) &&
  decide (1 ≤ d.pulseVolume ∧ d.pulseVolume ≤ 65535) && decide (1 ≤ d.tolerance ∧ d.tolerance ≤ 50)

/-- The channel descriptor a record carries, or none where FIELD_RANGE fails (R137, R141). -/
def readChannel (r : Record) : Option ChannelDescriptor :=
  if r[1].toNat < 4 ∧ (channelFields r).inRange = true then some (channelFields r) else none

/-- A run descriptor's fields as its words hold them, unchecked. -/
def runFields (r : Record) : RunDescriptor :=
  ⟨r[1].getLsbD 0, (r[1].extractLsb' 4 2).toFin, r[1].getLsbD 1, (r[1].extractLsb' 8 2).toFin, num2 r[2] r[3],
    num2 r[4] r[5], r[6].toNat, r[7].toNat, num2 r[8] r[9]⟩

/-- The bits of a run descriptor's w1 that no field uses. -/
def runSpareMask : Word := 0xFCCC#16

/-- The ranges of a run descriptor's fields and the constraints between them (R145). -/
def RunDescriptor.inRange (d : RunDescriptor) : Bool :=
  decide (if d.alternatePresent = true then d.alternate ≠ d.primary else d.alternate = 0) &&
  decide (1 ≤ d.maxFlow ∧ d.maxFlow ≤ 1000000) && decide (d.fallbackFlow ≤ d.maxFlow) &&
  decide (5 ≤ d.staleness ∧ d.staleness ≤ 3600) && decide (d.staleness < d.horizon ∧ d.horizon ≤ 65535) &&
  decide (d.slack ≤ 1000000000)

/-- The run descriptor a record carries, or none where FIELD_RANGE fails (R137, R145). -/
def readRun (r : Record) : Option RunDescriptor :=
  if r[1] &&& runSpareMask = 0 ∧ spareFrom r 10 = true ∧ (runFields r).inRange = true then some (runFields r) else none

/-- A command record's fields (R147). -/
structure CommandFields where
  tag : Word
  code : Word
  a : Word
  b : Word
  deriving DecidableEq, Repr

/-- The command a record carries, or none where FIELD_RANGE fails: only the spare words are looked at (R147). -/
def readCommand (r : Record) : Option CommandFields :=
  if spareFrom r 5 = true then some ⟨r[1], r[2], r[3], r[4]⟩ else none

/-- The command record with this tag, code and arguments, check word included (R147, R181). -/
def commandRecordOf (tag code a b : Word) : Record :=
  withCheck #v[0x5400, tag, code, a, b, 0, 0, 0, 0, 0, 0, 0, 0, 0, 0, 0]

/-- A tally record's fields (R58). -/
structure TallyFields where
  sequence : Word
  total : Nat
  rate : Nat
  deriving DecidableEq, Repr

/-- A tally record's fields; every value of them is in range (R58). -/
def readTally (r : Record) : TallyFields := ⟨r[1], num3 r[2] r[3] r[4], num2 r[5] r[6]⟩

/-- How many of the listed fields differ. -/
def countTrue (l : List Bool) : Nat := (l.filter id).length

/-- The number of fields that differ from the station descriptor in force before; all seven where none was (R136). -/
def stationChanges (old : Option StationDescriptor) (d : StationDescriptor) : Nat :=
  match old with
  | none => 7
  | some o => countTrue [o.stationCode != d.stationCode, o.guard != d.guard, o.historyHold != d.historyHold,
      o.assemblyTimeout != d.assemblyTimeout, o.eventFilter != d.eventFilter, o.attentionMask != d.attentionMask,
      o.starvationLimit != d.starvationLimit]

/-- The number of fields that differ from the channel descriptor in force before; all fifteen where none was. -/
def channelChanges (old : Option ChannelDescriptor) (d : ChannelDescriptor) : Nat :=
  match old with
  | none => 15
  | some o => countTrue [o.startInService != d.startInService, o.autoApply != d.autoApply, o.nominal != d.nominal,
      o.dose != d.dose, o.driveTime != d.driveTime, o.minPeriod != d.minPeriod, o.proofWindow != d.proofWindow,
      o.precheckTime != d.precheckTime, o.missWindow != d.missWindow, o.missLimit != d.missLimit,
      o.highMark != d.highMark, o.lowMark != d.lowMark, o.basePeriod != d.basePeriod,
      o.pulseVolume != d.pulseVolume, o.tolerance != d.tolerance]

/-- The number of fields that differ from the run descriptor in force before; all nine where none was. -/
def runChanges (old : Option RunDescriptor) (d : RunDescriptor) : Nat :=
  match old with
  | none => 9
  | some o => countTrue [o.enabled != d.enabled, o.primary != d.primary, o.alternatePresent != d.alternatePresent,
      o.alternate != d.alternate, o.maxFlow != d.maxFlow, o.fallbackFlow != d.fallbackFlow,
      o.staleness != d.staleness, o.horizon != d.horizon, o.slack != d.slack]

/-- A physics field of the channel descriptor changes (R141, R142). -/
def physicsChanges (o d : ChannelDescriptor) : Bool :=
  o.nominal != d.nominal || o.driveTime != d.driveTime || o.minPeriod != d.minPeriod ||
  o.proofWindow != d.proofWindow || o.precheckTime != d.precheckTime || o.pulseVolume != d.pulseVolume

/-! ### Part-written records (R180, R182) -/

/-- A part record: w0 from the slot map, its content, and the check word (R4, R10). -/
def partRecord (kind index : Nat) (content : Vector Word 14) : Record :=
  withCheck #v[headWord kind index, content[0], content[1], content[2], content[3], content[4], content[5], content[6], content[7], content[8], content[9], content[10], content[11], content[12],
    content[13], 0]

/-- The result record. -/
def resultRecord (x : ResultContent) : Record :=
  partRecord 0x61 0 #v[x.tag, x.code, BitVec.ofNat 16 x.outcome.code, wordOf x.time.toNat 1, wordOf x.time.toNat 0,
    wordOf x.detail 1, wordOf x.detail 0, 0, 0, 0, 0, 0, 0, 0]

/-- The status record, taken at this moment (R155): the time of the rewrite and the pool occupancy are those of the
snapshot. -/
def statusRecord (s : State) : Record :=
  partRecord 0x62 0 #v[BitVec.ofNat 16 (s.lc.device.code * 256 + s.lc.stationCode.toNat),
    s.ru.latched[0], s.ru.latched[1], s.ru.latched[2], s.ru.latched[3], s.ru.latched[4], s.ru.latched[5],
    s.ru.latched[6], BitVec.ofNat 16 s.ru.ringNext.val, BitVec.ofNat 16 s.ru.dropped, BitVec.ofNat 16 s.rv.refusals,
    wordOf s.count.toNat 1, wordOf s.count.toNat 0, BitVec.ofNat 16 s.rv.inUse]

/-- The capture header (R49). -/
def captureHeader (x : Capture) : Record :=
  partRecord 0x63 0 #v[BitVec.ofNat 16 (bit x.occupied), x.reason, x.slot, wordOf x.time.toNat 1, wordOf x.time.toNat 0,
    BitVec.ofNat 16 x.since, x.guard, 0, 0, 0, 0, 0, 0, 0]

/-- The stroke balance: the owed count, or bit 12 and the credit while the credit is above 0 (R180). -/
def strokeBalance (x : Channel) : Nat := if x.credit = 0 then x.owed else 0x1000 + x.credit

/-- The nominal displacement a channel report carries (R171): that of the descriptor in force. R171 and R163 do not say
what an UNCONFIGURED channel's report carries there: 0 is a DESIGN CHOICE (log entry 29). -/
def Channel.nominal (x : Channel) : Nat :=
  match x.descriptor with
  | none => 0
  | some d => d.nominal

/-- The channel report of channel c, with its flag byte as latched (R163). -/
def channelReport (c : Chan) (flags : Byte) (x : Channel) : Record :=
  partRecord 0x65 c.val #v[BitVec.ofNat 16 (flags.toNat * 256 + x.working / 2 ^ 16), wordOf x.working 0,
    BitVec.ofNat 16 (x.attempts * 256 + x.nominal / 2 ^ 16), wordOf x.nominal 0,
    BitVec.ofNat 16 (x.misses * 256 + x.service.code * 16 + x.seq.phase.code),
    BitVec.ofNat 16 (x.cal.lastOutcome.code * 2 ^ 13 + strokeBalance x),
    wordOf x.cal.lastMeasured 1, wordOf x.cal.lastMeasured 0, wordOf x.residue 1, wordOf x.residue 0,
    wordOf x.deficit 1, wordOf x.deficit 0, wordOf x.delivered.toNat 1, wordOf x.delivered.toNat 0]

/-- The word of a run report's current slot: 0xFFFF where it has none (R180). -/
def currentSlotWord : Option TallySlot → Word
  | none => 0xFFFF#16
  | some t => BitVec.ofNat 16 t.val

/-- The run report of run r (R163). -/
def runReport (r : Run) (e : RunEntry) : Record :=
  partRecord 0x66 r.val #v[BitVec.ofNat 16 (e.condition.code * 2 ^ 12 + bit e.held * 2 ^ 11 + bit e.awaitingBaseline * 2 ^ 10),
    currentSlotWord e.currentSlot, BitVec.ofNat 16 e.historyCount,
    wordOf e.estimated 2, wordOf e.estimated 1, wordOf e.estimated 0, wordOf e.credit 2, wordOf e.credit 1,
    wordOf e.credit 0, wordOf e.unrouted 2, wordOf e.unrouted 1, wordOf e.unrouted 0,
    wordOf e.shadowTime.toNat 1, wordOf e.shadowTime.toNat 0]

/-- The event record at ring position p (R29, R164). -/
def eventRecordAt (p : Fin 64) (e : EventRecord) : Record :=
  partRecord 0x67 p.val #v[BitVec.ofNat 16 e.code.code, wordOf e.time.toNat 1, wordOf e.time.toNat 0,
    BitVec.ofNat 16 e.subject, BitVec.ofNat 16 e.detail, wordOf e.value 2, wordOf e.value 1, wordOf e.value 0,
    0, 0, 0, 0, 0, 0]

/-- What a valid channel report restores at loading (R171, R180). -/
structure ChannelRestore where
  wasCalibrating : Bool
  lastOutcome : CalOutcome
  lastMeasured : Nat
  owed : Nat
  credit : Nat
  residue : Nat
  deficit : Nat
  delivered : Count
  working : Nat
  nominal : Nat
  deriving DecidableEq, Repr

/-- The content of a channel report, or none where a code names no value or the stroke balance is out of range
(R171, R180). The frame is tested apart. -/
def readChannelReport (r : Record) : Option ChannelRestore :=
  let service := (r[5].extractLsb' 4 4).toNat
  let phase := (r[5].extractLsb' 0 4).toNat
  let balance := (r[6].extractLsb' 0 12).toNat
  let banked := r[6].getLsbD 12
  match CalOutcome.ofCode (r[6].extractLsb' 13 3).toNat with
  | none => none
  | some o =>
    if service ≤ 4 ∧ phase ≤ 4 then
      some ⟨service == 3, o, num2 r[7] r[8], if banked then 0 else balance, if banked then balance else 0,
        num2 r[9] r[10], num2 r[11] r[12], r[13] ++ r[14], (loByte r[1]).toNat * 2 ^ 16 + r[2].toNat,
        (loByte r[3]).toNat * 2 ^ 16 + r[4].toNat⟩
    else none

/-- The C a run report holds, or none where its condition code names no condition (R172, R180). -/
def readRunReport (r : Record) : Option Nat :=
  if (r[1].extractLsb' 12 4).toNat ≤ 4 then some (num3 r[7] r[8] r[9]) else none

/-- The ring next position a status record holds, or none out of range (R173). -/
def readRingNext (r : Record) : Option (Fin 64) :=
  if h : r[9].toNat < 64 then some ⟨r[9].toNat, h⟩ else none

/-- The capture a header record holds, its fields as they stand, or none while it is marked unoccupied (R51, R180). -/
def readCaptureHeader (r : Record) : Option Capture :=
  if r[1].getLsbD 0 = true then some ⟨true, r[2], r[3], r[4] ++ r[5], r[6].toNat, r[7], none⟩ else none

end Sys2Proof.Machine
end

