-- ==== Sys2Proof/Machine/Flags.lean ====
section
/-! DEFINITION. The Report Unit's operations (section 10): the status flags and their places, latching, read-to-clear,
the attention line, dirty marks, raising events; and the accessors that mark a report dirty when it changes. -/

namespace Sys2Proof.Machine

/-! ### Dirty marks (R162) -/

/-- The marked slots 18 to 37, numbered from 0. -/
abbrev PartSlot := Fin 20

/-- Slot 18. -/
def PartSlot.result : PartSlot := 0

/-- Slot 19. -/
def PartSlot.status : PartSlot := 1

/-- Slot 20. -/
def PartSlot.captureHeader : PartSlot := 2

/-- Slot 21. -/
def PartSlot.captureBody : PartSlot := 3

/-- Slot 22 + c. -/
def PartSlot.channel (c : Chan) : PartSlot := ⟨4 + c.val, by omega⟩

/-- Slot 26 + r. -/
def PartSlot.run (r : Run) : PartSlot := ⟨8 + r.val, by omega⟩

/-- The slot of the record area a mark belongs to. -/
def PartSlot.slot (k : PartSlot) : Slot := ⟨18 + k.val, by omega⟩

/-- The mark of a part slot is set; a mark already set stays (R162). -/
def State.mark (k : PartSlot) (s : State) : State :=
  { s with ru := { s.ru with dirty := s.ru.dirty.set k.val true } }

/-- The mark of a part slot is cleared, at the start of its rewrite (R30). -/
def State.unmark (k : PartSlot) (s : State) : State :=
  { s with ru := { s.ru with dirty := s.ru.dirty.set k.val false } }

/-! ### Flags (R156, R182) -/

/-- The station flags, in the order of their bits in w2. -/
inductive StationFlag where
  | poolFull
  | assemblyExpired
  | protectedWrite
  | partialWord
  | notReady
  | notConfigured
  | eventDropped
  | recordRefused
  | captureOccupied
  | fallback
  deriving DecidableEq, Repr

/-- The bit of a station flag in w2. -/
def StationFlag.bit : StationFlag → Nat
  | .poolFull => 0
  | .assemblyExpired => 1
  | .protectedWrite => 2
  | .partialWord => 3
  | .notReady => 4
  | .notConfigured => 5
  | .eventDropped => 6
  | .recordRefused => 7
  | .captureOccupied => 8
  | .fallback => 9

/-- The flags of a channel's flag byte. -/
inductive ChannelFlag where
  | miss
  | stuck
  | calDone
  | calFail
  | failed
  | restrict
  | deficit
  | outOfService
  deriving DecidableEq, Repr

/-- The bit of a channel flag in its byte. -/
def ChannelFlag.bit : ChannelFlag → Nat
  | .miss => 0
  | .stuck => 1
  | .calDone => 2
  | .calFail => 3
  | .failed => 4
  | .restrict => 5
  | .deficit => 6
  | .outOfService => 7

/-- The flag words of the runs, w5 to w8. -/
inductive RunFlag where
  | refused
  | held
  | stale
  | lost
  deriving DecidableEq, Repr

/-- The place of a run flag's word among w2 to w8. -/
def RunFlag.word : RunFlag → Fin 7
  | .refused => 3
  | .held => 4
  | .stale => 5
  | .lost => 6

/-- A flag of the status record. -/
inductive Flag where
  | station (f : StationFlag)
  | channel (c : Chan) (f : ChannelFlag)
  | run (f : RunFlag) (r : Run)
  deriving DecidableEq, Repr

/-- Where channel c's flag byte begins in its word: channels 0 and 2 have the upper byte (R156). -/
def channelShift (c : Chan) : Nat := if c.val % 2 = 0 then 8 else 0

/-- The word of channel c's flag byte among w2 to w8. -/
def channelFlagWord (c : Chan) : Fin 7 := ⟨1 + c.val / 2, by omega⟩

/-- The word of a flag among w2 to w8. -/
def Flag.word : Flag → Fin 7
  | .station _ => 0
  | .channel c _ => channelFlagWord c
  | .run f _ => f.word

/-- The bit of a flag in its word. -/
def Flag.bit : Flag → Nat
  | .station f => f.bit
  | .channel c f => channelShift c + f.bit
  | .run _ r => r.val

/-- The flag's word with its bit alone set. -/
def Flag.mask (f : Flag) : Word := 1#16 <<< f.bit

/-- The flag is in the set. -/
def FlagWords.has (w : FlagWords) (f : Flag) : Bool := w[f.word].getLsbD f.bit

/-- The set with the flag. -/
def FlagWords.add (w : FlagWords) (f : Flag) : FlagWords := w.set f.word.val (w[f.word] ||| f.mask)

/-- The set without the flag. -/
def FlagWords.remove (w : FlagWords) (f : Flag) : FlagWords := w.set f.word.val (w[f.word] &&& ~~~f.mask)

/-- Channel c's flag byte of a set. -/
def channelByte (w : FlagWords) (c : Chan) : Byte := w[channelFlagWord c].extractLsb' (channelShift c) 8

/-! ### The attention line (R161) -/

/-- All bits of a word when the flag is set. -/
def wordIf (b : Bool) (w : Word) : Word := if b then w else 0

/-- The flags an attention mask enables: its nine groups over w2 to w8. -/
def enabledFlags (m : BitVec 9) : FlagWords :=
  #v[wordIf (m.getLsbD 0) 0xFFFF#16,
    wordIf (m.getLsbD 1) 0xFF00#16 ||| wordIf (m.getLsbD 2) 0x00FF#16,
    wordIf (m.getLsbD 3) 0xFF00#16 ||| wordIf (m.getLsbD 4) 0x00FF#16,
    wordIf (m.getLsbD 5) 0xFFFF#16, wordIf (m.getLsbD 6) 0xFFFF#16, wordIf (m.getLsbD 7) 0xFFFF#16,
    wordIf (m.getLsbD 8) 0xFFFF#16]

/-- The attention mask in force; without a station descriptor every group is enabled (R139). -/
def State.attentionMask (s : State) : BitVec 9 :=
  match s.lc.station with
  | none => 0x1FF#9
  | some d => d.attentionMask

/-- At least one flag of the first set lies in the second. -/
def anyIn (l e : FlagWords) : Bool :=
  l[0] &&& e[0] != 0 || l[1] &&& e[1] != 0 || l[2] &&& e[2] != 0 || l[3] &&& e[3] != 0 || l[4] &&& e[4] != 0 ||
  l[5] &&& e[5] != 0 || l[6] &&& e[6] != 0

/-- A latched flag lies in a group the mask in force enables. -/
def State.attentionDue (s : State) : Bool := anyIn s.ru.latched (enabledFlags s.attentionMask)

/-- The attention line is evaluated (R161). -/
def State.evalAttention (s : State) : State := { s with ru := { s.ru with attention := s.attentionDue } }

/-! ### Latching (R157, R158) -/

/-- A channel flag's channel has its report marked dirty, since the report repeats the byte (R157). -/
def State.markFlagReport (f : Flag) (s : State) : State :=
  match f with
  | .station _ => s
  | .channel c _ => s.mark (.channel c)
  | .run _ _ => s

/-- The flag's latch is set, and the flag leaves the shown and the pending set (R157, R158). -/
def State.setLatch (f : Flag) (s : State) : State :=
  { s with ru := { s.ru with latched := s.ru.latched.add f, shown := s.ru.shown.remove f,
                             pendingShown := s.ru.pendingShown.remove f } }

/-- A flag's event occurs or its condition begins (R157). A latch set from clear re-evaluates the attention line. -/
def State.latch (f : Flag) (s : State) : State :=
  let s' := ((s.setLatch f).mark .status).markFlagReport f
  if s.ru.latched.has f then s' else s'.evalAttention

/-! ### Conditions and read-to-clear (R156, R159) -/

/-- The bits of channel c's conditions in its flag byte. -/
def channelConditions (x : Channel) : Byte :=
  BitVec.ofNat 8 (bit (x.service == .failed) * 16 + bit x.restrict * 32 + bit (decide (0 < x.deficit)) * 64 +
    bit (x.service == .outOfService) * 128)

/-- The word of the runs that satisfy a test. -/
def runWord (s : State) (p : RunEntry → Bool) : Word :=
  (List.finRange 12).foldl (fun w (r : Run) => if p (s.run r) then w ||| (1#16 <<< r.val) else w) 0

/-- The condition flags whose condition is present, as flag words; event flags have no condition (R156). -/
def State.conditions (s : State) : FlagWords :=
  #v[BitVec.ofNat 16 (bit s.rv.capture.occupied * 256 + bit (s.lc.device == .fallback) * 512),
    channelConditions (s.chan 0) ++ channelConditions (s.chan 1),
    channelConditions (s.chan 2) ++ channelConditions (s.chan 3),
    0, runWord s (·.held), runWord s (·.condition == .stale), runWord s (·.condition == .lost)]

/-- The flag words' place of a word position of the status record, w2 to w8. -/
def flagWordOf (p : Pos) : Option (Fin 7) := if h : 2 ≤ p.val ∧ p.val ≤ 8 then some ⟨p.val - 2, by omega⟩ else none

/-- The flags of word w that a read returning v clears: set in v, shown, and with no condition present (R159). -/
def State.clearedBy (s : State) (w : Fin 7) (v : Word) : Word :=
  v &&& s.ru.shown[w] &&& ~~~s.conditions[w]

/-- The channels whose byte of word w holds a cleared flag have their reports marked. -/
def State.markCleared (w : Fin 7) (cleared : Word) (s : State) : State :=
  (List.finRange 4).foldl (fun s (c : Chan) =>
    if channelFlagWord c = w ∧ cleared.extractLsb' (channelShift c) 8 ≠ 0 then s.mark (.channel c) else s) s

/-- The flags of word w in `cleared` are cleared and withdrawn from the shown set (R158, R159). -/
def State.dropFlags (w : Fin 7) (cleared : Word) (s : State) : State :=
  { s with ru := { s.ru with latched := s.ru.latched.set w.val (s.ru.latched[w] &&& ~~~cleared),
                             shown := s.ru.shown.set w.val (s.ru.shown[w] &&& ~~~cleared) } }

/-- The Report Unit is handed a completed read of the status record: word position and value returned (R159). -/
def State.statusReadDone (p : Pos) (v : Word) (s : State) : State :=
  match flagWordOf p with
  | none => s
  | some w =>
    let cleared := s.clearedBy w v
    if cleared = 0 then s.evalAttention
    else (((s.dropFlags w cleared).markCleared w cleared).mark .status).evalAttention

/-! ### Events (R164) -/

/-- The event's group passes the event filter in force; every group passes without a station descriptor. -/
def State.passes (s : State) (e : EventCode) : Bool :=
  match s.lc.station with
  | none => true
  | some d => d.eventFilter.getLsbD e.group

/-- An event is dropped from a full queue (R164). -/
def State.dropEvent (s : State) : State :=
  (({ s with ru := { s.ru with dropped := satAdd Config.max16 s.ru.dropped 1 } } : State).latch
    (.station .eventDropped)).mark .status

/-- The event record joins the tail of the queue. -/
def State.queueEvent (e : EventRecord) (s : State) : State :=
  { s with ru := { s.ru with events := s.ru.events ++ [e] } }

/-- A block raises an event: filtered, queued or dropped (R164). -/
def State.raise (e : EventCode) (subject detail value : Nat) (s : State) : State :=
  if s.passes e then
    if s.ru.events.length < Config.eventQueueSize then
      s.queueEvent ⟨e, s.count, subject, detail, value⟩
    else s.dropEvent
  else s

/-! ### Report fields that change (R77, R163) -/

/-- Two channel units agree in every field their channel report carries (R163, R171). -/
def sameReport (x y : Channel) : Bool :=
  decide (x.service = y.service ∧ x.seq.phase = y.seq.phase ∧ x.cal.lastOutcome = y.cal.lastOutcome ∧
    x.cal.lastMeasured = y.cal.lastMeasured ∧ x.working = y.working ∧ x.nominal = y.nominal ∧
    x.residue = y.residue ∧ x.attempts = y.attempts ∧ x.misses = y.misses ∧ x.owed = y.owed ∧
    x.credit = y.credit ∧ x.deficit = y.deficit ∧ x.delivered = y.delivered)

/-- Two run entries agree in every field their run report carries (R77, R163). -/
def sameRunReport (x y : RunEntry) : Bool :=
  decide (x.condition = y.condition ∧ x.held = y.held ∧ x.awaitingBaseline = y.awaitingBaseline ∧
    x.currentSlot = y.currentSlot ∧ x.historyCount = y.historyCount ∧ x.estimated = y.estimated ∧
    x.credit = y.credit ∧ x.unrouted = y.unrouted ∧ x.shadowTime = y.shadowTime)

/-- Channel c's unit becomes x; a change of a field its report carries marks the report (R163). -/
def State.putChan (c : Chan) (x : Channel) (s : State) : State :=
  if sameReport (s.chan c) x then s.setChan c x else (s.setChan c x).mark (.channel c)

/-- Run r's entry becomes e; a change of a field its report carries marks the report (R77). -/
def State.putRun (r : Run) (e : RunEntry) (s : State) : State :=
  if sameRunReport (s.run r) e then s.setRun r e else (s.setRun r e).mark (.run r)

/-- The device state becomes d: the status record is marked dirty (R155, R167). -/
def State.setDevice (d : DeviceState) (s : State) : State :=
  ({ s with lc := { s.lc with device := d } } : State).mark .status

end Sys2Proof.Machine
end

