-- ==== Sys2Proof/Machine/Demand.lean ====
section
/-! DEFINITION. The demand state of a channel (section 6): crossings and their distribution, the restrict line, and
the beginning of a stroke by the sequencer (R111). -/

namespace Sys2Proof.Machine

/-- The quantum, pL (R92). -/
def Channel.quantum (x : Channel) : Nat := x.working * 1000

/-! ### The restrict line (R105, R106) -/

/-- The line goes from deasserted to asserted: RESTRICT_ON, and RESTRICT latches. -/
def State.assertRestrict (c : Chan) (d : ChannelDescriptor) (s : State) : State :=
  ((s.setChan c { s.chan c with restrict := true }).raise .restrictOn c.val d.highMark (s.chan c).owed).latch
    (.channel c .restrict)

/-- The line goes from asserted to deasserted: RESTRICT_OFF. -/
def State.deassertRestrict (c : Chan) (d : ChannelDescriptor) (s : State) : State :=
  (s.setChan c { s.chan c with restrict := false }).raise .restrictOff c.val d.lowMark (s.chan c).owed

/-- The restrict line is evaluated on the owed count and the marks in force (R105); an UNCONFIGURED channel has no
marks, and its line is not evaluated (R106). -/
def State.evalRestrict (c : Chan) (s : State) : State :=
  match (s.chan c).descriptor with
  | none => s
  | some d =>
    if d.highMark ≤ (s.chan c).owed then
      if (s.chan c).restrict then s else s.assertRestrict c d
    else if (s.chan c).owed ≤ d.lowMark then
      if (s.chan c).restrict then s.deassertRestrict c d else s
    else s

/-! ### Strokes begin (R111) -/

/-- The calibration has a stroke due (R128). -/
def Channel.calibrationDue (x : Channel) : Bool := x.cal.active && decide (x.cal.proven < x.cal.required)

/-- The kind of stroke an IDLE sequencer begins now, if any (R111). -/
def Channel.strokeDue (x : Channel) : Option StrokeKind :=
  match x.service with
  | .inService => if 0 < x.owed then some .ordinary else none
  | .calibrating => if x.calibrationDue then some .calibration else none
  | .unconfigured => none
  | .outOfService => none
  | .failed => none

/-- The sequencer at the start of PRECHECK: kind and times taken, the wetting source on (R110, R112). The rest reference
is set at the start of DRIVE or at a STUCK finding (R112, R113); R110 does not say what it holds before that: 0 through
PRECHECK is a DESIGN CHOICE (log entry 8), which no rule reads. -/
def Sequencer.begin (kind : StrokeKind) (d : ChannelDescriptor) (now : Nat) : Sequencer :=
  ⟨.precheck, some kind, ⟨d.precheckTime, d.driveTime, d.proofWindow, d.minPeriod⟩, now, 0, false, false, false, true⟩

/-- The sequencer's test of R111: an IDLE sequencer with a stroke due begins it in the same step. -/
def State.tryBegin (c : Chan) (s : State) : State :=
  match (s.chan c).seq.phase, (s.chan c).strokeDue, (s.chan c).descriptor with
  | .idle, some k, some d => s.putChan c { s.chan c with seq := Sequencer.begin k d s.uptime }
  | _, _, _ => s

/-! ### Crossings (R98, R99) -/

/-- The channel after n crossings: credit absorbs first, then the owed count up to its cap, then the deficit (R99). -/
def Channel.takeCrossings (x : Channel) (n : Nat) : Channel :=
  let absorbed := min x.credit n
  let owing := min (n - absorbed) (Config.maxStrokes - x.owed)
  { x with credit := x.credit - absorbed, owed := x.owed + owing,
           deficit := satAdd Config.max32 x.deficit (n - absorbed - owing) }

/-- DEFICIT_STARTED is raised, and DEFICIT latches, when the deficit rises from 0 (R99). -/
def State.deficitStart (c : Chan) (before cause : Nat) (s : State) : State :=
  if before = 0 ∧ 0 < (s.chan c).deficit then
    (s.raise .deficitStarted c.val cause (s.chan c).deficit).latch (.channel c .deficit)
  else s

/-- n crossings are distributed, the restrict line not yet evaluated (R99). -/
def State.distribute (c : Chan) (n cause : Nat) (s : State) : State :=
  (s.putChan c ((s.chan c).takeCrossings n)).deficitStart c (s.chan c).deficit cause

/-- The residue is divided by the quantum: the remainder stays (R98). -/
def Channel.reduceResidue (x : Channel) : Channel := { x with residue := x.residue % x.quantum }

/-- Crossings are counted against the quantum and distributed; with none nothing else changes (R98). -/
def State.countCrossings (c : Chan) (cause : Nat) (s : State) : State :=
  let n := (s.chan c).residue / (s.chan c).quantum
  if n = 0 then s else (s.putChan c (s.chan c).reduceResidue).distribute c n cause

/-- What follows a change of the owed count: the restrict line is evaluated and the sequencer's test is made. -/
def State.owedChanged (c : Chan) (s : State) : State := (s.evalRestrict c).tryBegin c

/-- Crossings are counted, and after a distribution the restrict line is evaluated (R98, R99). -/
def State.countAndSettle (c : Chan) (cause : Nat) (s : State) : State :=
  if (s.chan c).residue / (s.chan c).quantum = 0 then s else (s.countCrossings c cause).owedChanged c

/-- The demand of V litres is added to the channel: V × D pL, exactly (R97), and the crossings of the sum are counted:
its remainder is the new residue, so the report is marked where that differs from the old one (R98, R163). -/
def State.addDemand (c : Chan) (volume cause : Nat) (s : State) : State :=
  match (s.chan c).descriptor with
  | none => s
  | some d =>
    let sum := (s.chan c).residue + volume * d.dose
    let s1 := s.putChan c { s.chan c with residue := sum % (s.chan c).quantum }
    if sum / (s.chan c).quantum = 0 then s1 else (s1.distribute c (sum / (s.chan c).quantum) cause).owedChanged c

/-- A single crossing demanded by a base-period expiry, cause 13 (R123). -/
def State.demandStroke (c : Chan) (s : State) : State := (s.distribute c 1 13).owedChanged c

/-! ### Routing (R93 to R95) -/

/-- The channel can receive a volume in its primary's place (R93). -/
def ServiceState.usable : ServiceState → Bool
  | .inService => true
  | .calibrating => true
  | .unconfigured => false
  | .outOfService => false
  | .failed => false

/-- The channel of the run descriptor that receives a volume, after stage 2 (R93). -/
def State.receiver (s : State) (d : RunDescriptor) : Chan :=
  if !(s.chan d.primary).service.usable && d.alternatePresent && (s.chan d.alternate).service.usable then d.alternate
  else d.primary

/-- The volume is added to the run's unrouted volume (R95). -/
def State.addUnrouted (r : Run) (volume : Nat) (s : State) : State :=
  s.putRun r { s.run r with unrouted := satAdd Config.max48 (s.run r).unrouted volume }

/-- The Dose Router takes a volume of run r (R93). A volume of 0 is not handed over. -/
def State.route (r : Run) (volume : Nat) (s : State) : State :=
  if volume = 0 then s
  else
    match s.runDescriptor r with
    | none => s
    | some d =>
      if (s.chan (s.receiver d)).service = .unconfigured then s.addUnrouted r volume
      else s.addDemand (s.receiver d) volume r.val

end Sys2Proof.Machine
end

