-- ==== Sys2Proof/Machine/Runs.lean ====
section
/-! DEFINITION. The Run Table's operations (sections 4 and 5): history, the tally checks, acceptance with placement
and kind, reconciliation, holds, unbinding and retirement. -/

namespace Sys2Proof.Machine

/-! ### History (R56, R57) -/

/-- The slot run r leaves becomes HISTORY with the hold in force, and the run's history count grows by 1 (R56). -/
def State.enterHistory (r : Run) (t : TallySlot) (s : State) : State :=
  ((s.setClaim t (.history r (s.uptime + s.historyHold))).putRun r
    { s.run r with historyCount := (s.run r).historyCount + 1 }).mark (.run r)

/-! ### Freshness (R79) -/

/-- The freshness timers of a run started at `now`, with the intervals of its descriptor in force (R79). -/
def startFreshness (d : Option RunDescriptor) (now : Nat) : Option Freshness :=
  match d with
  | none => none
  | some d => some ⟨now, d.staleness * 1000, d.horizon * 1000⟩

/-! ### Tally checks (R59 to R64) -/

/-- The slot's claim admits the run's record (R61): FREE, or the run's own CURRENT slot. -/
def Claim.admits (x : Claim) (r : Run) : Bool :=
  match x with
  | .free => true
  | .current q => decide (q = r)
  | .history _ _ => false

/-- SEQUENCE and IMPLAUSIBLE are made for the run: bound and not awaiting a baseline (R62, R64). -/
def RunEntry.comparable (e : RunEntry) : Bool := e.condition.bound && !e.awaitingBaseline

/-- The whole seconds of an age, rounded up (R64). -/
def ageSeconds (age : Nat) : Nat := (age + 999) / 1000

/-- The record passes both tests of R64 against the run descriptor in force. -/
def plausible (d : Option RunDescriptor) (age : Nat) (shadowTotal : Nat) (x : TallyFields) : Bool :=
  match d with
  | none => true
  | some d =>
    decide (x.rate ≤ d.maxFlow) && decide (x.total - shadowTotal ≤ d.maxFlow * ageSeconds age + d.slack)

/-- The first of the tally checks 6 to 10 that fails for a run that is not RETIRED; 0 where all pass. -/
def State.tallyRunReason (s : State) (r : Run) (t : TallySlot) (x : TallyFields) : Nat :=
  let e := s.run r
  if e.held then 6
  else if !(s.claim t).admits r then 7
  else if e.comparable && decide (x.sequence ≠ e.shadowSequence + 1) then 8
  else if e.condition.bound && decide (x.total < e.shadowTotal) then 9
  else if e.comparable && !plausible (s.runDescriptor r) (s.age r) e.shadowTotal x then 10
  else 0

/-- The first failing check of codes 5 to 10 of a tally record, 0 where all pass (R59). -/
def State.tallyReason (s : State) (t : TallySlot) (w : Record) : Nat :=
  match asRun (recordIndex w) with
  | none => 5
  | some r => if (s.run r).condition = .retired then 5 else s.tallyRunReason r t (readTally w)

/-! ### Reconciliation (R87) -/

/-- The run entry after netting the increment: E becomes 0, C changes (R87). -/
def RunEntry.reconciled (e : RunEntry) (increment : Nat) : RunEntry :=
  if e.estimated ≤ increment then
    { e with credit := e.credit - min e.credit (increment - e.estimated), estimated := 0 }
  else { e with credit := satAdd Config.max48 e.credit (e.estimated - increment), estimated := 0 }

/-- The volume dosed by a reconciliation (R87). -/
def RunEntry.dosed (e : RunEntry) (increment : Nat) : Nat :=
  if e.estimated ≤ increment then increment - e.estimated - min e.credit (increment - e.estimated) else 0

/-! ### Acceptance (R65 to R70) -/

/-- RUN_LIVE with E at the hand-off, where the acceptance ends a STALE or LOST spell (R88). -/
def State.raiseRunLive (r : Run) (t : TallySlot) (before : RunEntry) (s : State) : State :=
  match before.condition with
  | .stale => s.raise .runLive r.val t.val before.estimated
  | .lost => s.raise .runLive r.val t.val before.estimated
  | .retired => s
  | .unbound => s
  | .live => s

/-- The slot becomes the run's CURRENT slot. -/
def State.makeCurrent (r : Run) (t : TallySlot) (s : State) : State :=
  (s.setClaim t (.current r)).putRun r { s.run r with currentSlot := some t }

/-- The run leaves its current slot, which enters HISTORY (R56). -/
def State.leaveSlot (r : Run) (s : State) : State :=
  match (s.run r).currentSlot with
  | none => s
  | some old => s.enterHistory r old

/-- The number of a run's current slot, for its events. -/
def RunEntry.slotNumber (e : RunEntry) : Nat :=
  match e.currentSlot with
  | none => 0
  | some t => t.val

/-- A migration: the old slot enters HISTORY, the new one becomes CURRENT, RUN_MIGRATED (R69). -/
def State.migrate (r : Run) (t : TallySlot) (s : State) : State :=
  ((s.leaveSlot r).makeCurrent r t).raise .runMigrated r.val t.val (s.run r).slotNumber

/-- The placement of a bound run's record: in place, or a migration into a FREE slot (R65). -/
def State.placeBound (r : Run) (t : TallySlot) (s : State) : State :=
  match s.claim t with
  | .free => s.migrate r t
  | .current _ => s
  | .history _ _ => s

/-- The binding baseline of an UNBOUND run (R66). -/
def State.bindRun (r : Run) (t : TallySlot) (x : TallyFields) (s : State) : State :=
  ((s.makeCurrent r t).raise .runBound r.val t.val x.total).raise .runBaseline r.val t.val 0

/-- The load baseline of a run awaiting one (R67). -/
def State.loadBaseline (r : Run) (t : TallySlot) (x : TallyFields) (s : State) : State :=
  let e := s.run r
  let s1 := s.placeBound r t
  ((s1.raise .runBaseline r.val t.val (x.total - e.shadowTotal)).raiseRunLive r t e).putRun r
    { s1.run r with estimated := 0, awaitingBaseline := false }

/-- The ordinary acceptance of a bound run (R68, R87): reconciliation, RUN_LIVE, and the volume to the Dose Router. -/
def State.ordinaryAcceptance (r : Run) (t : TallySlot) (x : TallyFields) (s : State) : State :=
  let e := s.run r
  let s1 := s.placeBound r t
  let increment := x.total - e.shadowTotal
  ((s1.putRun r ((s1.run r).reconciled increment)).raiseRunLive r t e).route r (e.dosed increment)

/-- What every acceptance ends with (R70): shadow, age, LIVE, timers restarted, substitution stopped, report marked. -/
def State.acceptCommon (r : Run) (x : TallyFields) (s : State) : State :=
  (s.putRun r { s.run r with
    shadowSequence := x.sequence, shadowTotal := x.total, shadowRate := x.rate, shadowTime := s.count,
    ageStart := some s.uptime, condition := .live,
    freshness := startFreshness (s.runDescriptor r) s.uptime, substitution := none }).mark (.run r)

/-- The acceptance of a tally of run r in slot t (R65): placement, kind, then the effects common to all. -/
def State.acceptTally (r : Run) (t : TallySlot) (x : TallyFields) (s : State) : State :=
  let e := s.run r
  let s1 :=
    if !e.condition.bound then s.bindRun r t x
    else if e.awaitingBaseline then s.loadBaseline r t x
    else s.ordinaryAcceptance r t x
  s1.acceptCommon r x

/-! ### Holds (R71, R72) -/

/-- The Run Table holds a run: RUN_HELD, HELD latches, report marked; nothing if it is held or RETIRED (R71). -/
def State.holdRun (r : Run) (reason : Nat) (slot : Slot) (s : State) : State :=
  if (s.run r).held ∨ (s.run r).condition = .retired then s
  else ((s.putRun r { s.run r with held := true }).raise .runHeld r.val reason slot.val).latch (.run .held r)

/-! ### Unbinding and retirement (R73, R75) -/

/-- A run entry that leaves its binding: E, C and unrouted volume 0, flags clear, timers stopped; the shadow stays. -/
def RunEntry.released (e : RunEntry) (condition : RunCondition) : RunEntry :=
  { e with condition := condition, currentSlot := none, estimated := 0, credit := 0, unrouted := 0, held := false,
           awaitingBaseline := false, freshness := none, substitution := none }

/-- A bound run's slot enters HISTORY and the run takes the condition, RUN_UNBOUND with its cause (R73, R75). -/
def State.unbind (r : Run) (condition : RunCondition) (cause : Nat) (s : State) : State :=
  let s1 := s.leaveSlot r
  ((s1.putRun r ((s1.run r).released condition)).raise .runUnbound r.val cause (s.run r).slotNumber).mark (.run r)

/-- A run that is not RETIRED is retired (R75). -/
def State.retire (r : Run) (s : State) : State :=
  if (s.run r).condition.bound then s.unbind r .retired 2
  else (s.putRun r ((s.run r).released .retired)).mark (.run r)

/-- The number of tally slots in HISTORY for run r. -/
def State.historySlots (s : State) (r : Run) : Nat :=
  (s.rt.slots.toList.filter fun x => match x with
    | .history q _ => decide (q = r)
    | .free => false
    | .current _ => false).length

/-- A claim with run r's history released (R74). -/
def Claim.releasedFor (r : Run) (x : Claim) : Claim :=
  match x with
  | .history q y => if q = r then .free else .history q y
  | .free => .free
  | .current q => .current q

/-- Every slot in HISTORY for run r becomes FREE (R74). -/
def State.releaseHistory (r : Run) (s : State) : State :=
  (({ s with rt := { s.rt with slots := s.rt.slots.map (Claim.releasedFor r) } } : State).putRun r
    { s.run r with historyCount := 0 }).mark (.run r)

/-! ### Substitution (R82 to R84) -/

/-- The volume of the nth step of a spell: the shadow rate while its age is within the horizon, then the fallback
flow in force (R83). -/
def stepVolume (f : Freshness) (d : Option RunDescriptor) (rate n : Nat) : Nat :=
  if f.staleness + 1000 * n ≤ f.horizon then rate
  else match d with
    | none => 0
    | some d => d.fallbackFlow

/-- The volume by which E grows at a step (R84). -/
def RunEntry.substituted (e : RunEntry) (volume : Nat) : Nat := min volume (Config.max48 - e.estimated)

/-- A substitution step is carried out: E grows, and the substituted volume is routed (R84). -/
def State.substitute (r : Run) (volume : Nat) (s : State) : State :=
  let grown := (s.run r).substituted volume
  (s.putRun r { s.run r with estimated := (s.run r).estimated + grown }).route r grown

end Sys2Proof.Machine
end

