-- ==== Sys2Proof/Machine/Sequencer.lean ====
section
/-! DEFINITION. The stroke sequencer's operations (section 7), the miss window (R118), and the ends of a calibration
(section 8). -/

namespace Sys2Proof.Machine

/-! ### The ends of a calibration (R134) -/

/-- The flag a calibration outcome latches (R134). -/
def CalOutcome.flag : CalOutcome → ChannelFlag
  | .okApplied => .calDone
  | .okNotApplied => .calDone
  | .none => .calFail
  | .outOfTolerance => .calFail
  | .missed => .calFail
  | .aborted => .calFail

/-- The window pulses after an end: discarded where the calibration ended without a measurement (R130). What the field
holds after an end no rule says, nor reads: 0 after the discarding, and the count kept after a measurement, are a DESIGN
CHOICE (log entry 33). -/
def CalOutcome.pulsesKept : CalOutcome → Nat → Nat
  | .okApplied, p => p
  | .okNotApplied, p => p
  | .outOfTolerance, p => p
  | .none, _ => 0
  | .missed, _ => 0
  | .aborted, _ => 0

/-- The calibration state after an end (R134, points 1 and 2). -/
def Calibration.ended (x : Calibration) (o : CalOutcome) (measured : Nat) : Calibration :=
  ⟨false, 0, 0, false, o.pulsesKept x.pulses, o, measured⟩

/-- The end effects of a calibration (R134): state, report mark, flag, CALIBRATION_END, service state. -/
def State.endCalibration (c : Chan) (o : CalOutcome) (measured : Nat) (service : ServiceState) (s : State) : State :=
  ((((s.putChan c { s.chan c with cal := (s.chan c).cal.ended o measured, service := service }).mark
    (.channel c)).latch (.channel c o.flag)).raise .calibrationEnd c.val o.code measured)

/-! ### The miss window (R118) -/

/-- An attempt is counted, and a miss where the stroke was missed or STUCK. -/
def Channel.countAttempt (x : Channel) (miss : Bool) : Channel :=
  { x with attempts := x.attempts + 1, misses := x.misses + bit miss }

/-- The channel fails: CHANNEL_FAILED with M and the owed count, both counts 0, the sequencer IDLE (R118). -/
def State.failChannel (c : Chan) (d : ChannelDescriptor) (s : State) : State :=
  ((s.putChan c { s.chan c with service := .failed, attempts := 0, misses := 0, seq := Sequencer.idle }).raise
    .channelFailed c.val d.missLimit (s.chan c).owed).latch (.channel c .failed)

/-- Both window counts become 0. -/
def State.clearWindow (c : Chan) (s : State) : State := s.putChan c { s.chan c with attempts := 0, misses := 0 }

/-- The window is full of misses: what that does by the service state found (R118, R120, R132). -/
def State.windowFull (c : Chan) (d : ChannelDescriptor) (s : State) : State :=
  match (s.chan c).service with
  | .inService => s.failChannel c d
  | .calibrating => (s.endCalibration c .missed 0 .inService).failChannel c d
  | .unconfigured => s.clearWindow c
  | .outOfService => s.clearWindow c
  | .failed => s.clearWindow c

/-- The two tests of the miss window after a count, in order (R118). -/
def State.testWindow (c : Chan) (s : State) : State :=
  match (s.chan c).descriptor with
  | none => s
  | some d =>
    if d.missLimit ≤ (s.chan c).misses then s.windowFull c d
    else if d.missWindow ≤ (s.chan c).attempts then s.clearWindow c
    else s

/-! ### Phases (R110 to R117) -/

/-- The sequencer in REST, its outputs off (R116); the stroke is no longer finishing (R120). -/
def Sequencer.toRest (q : Sequencer) : Sequencer :=
  { q with phase := .rest, strokeOut := false, wetting := false, finishing := false }

/-- After its outcome a stroke rests where the channel is in service, and otherwise the sequencer returns to IDLE
without a rest (R120); a sequencer that failing the channel sent to IDLE stays there (R118). -/
def State.afterOutcome (c : Chan) (s : State) : State :=
  match (s.chan c).seq.phase with
  | .idle => s
  | _ => s.putChan c { s.chan c with
      seq := if (s.chan c).service.delivering then (s.chan c).seq.toRest else Sequencer.idle }

/-- The stroke in progress is one that the calibration in progress began: a CALIBRATION stroke not left over from an
aborted calibration (R132). -/
def Channel.ownStroke (x : Channel) : Bool :=
  x.cal.active && decide (x.seq.kind = some .calibration) && !x.seq.finishing

/-- The code of the stroke in progress, for its events' details. -/
def Sequencer.kindCode (q : Sequencer) : Nat :=
  match q.kind with
  | none => 0
  | some k => k.code

/-- A STUCK stroke's rest counts from the finding (R112). -/
def Sequencer.restFrom (q : Sequencer) (stuck : Bool) (now : Nat) : Sequencer :=
  { q with restRef := if stuck then now else q.restRef }

/-- The flag and event of a missed or STUCK stroke (R112, R114). Its outputs turn off where the sequencer leaves the
phase, in the same step. -/
def State.reportMiss (c : Chan) (stuck : Bool) (s : State) : State :=
  let s1 := s.latch (.channel c (if stuck then .stuck else .miss))
  let s2 := s1.raise (if stuck then .proofStuck else .strokeMissed) c.val (s1.chan c).seq.kindCode (s1.chan c).misses
  s2.putChan c { s2.chan c with seq := (s2.chan c).seq.restFrom stuck s2.uptime }

/-- The miss count has reached M. -/
def Channel.missesFull (x : Channel) : Bool :=
  match x.descriptor with
  | none => false
  | some d => decide (d.missLimit ≤ x.misses)

/-- A calibration whose own stroke was missed or STUCK ends MISSED; where the window is full of misses the end
comes with the failing of the channel instead (R132). -/
def State.calibrationMissed (c : Chan) (own : Bool) (s : State) : State :=
  if own && !(s.chan c).missesFull then s.endCalibration c .missed 0 .inService else s

/-- A stroke is missed, or found STUCK (R112, R114). -/
def State.missStroke (c : Chan) (stuck : Bool) (s : State) : State :=
  let own := (s.chan c).ownStroke
  let s1 := (s.putChan c ((s.chan c).countAttempt true)).reportMiss c stuck
  ((s1.calibrationMissed c own).testWindow c).afterOutcome c

/-! ### Proof (R113 to R115, R129) -/

/-- A proven stroke set against the channel's demand: an ordinary stroke lowers the owed count (R115), a
calibration stroke lowers it or adds to the credit (R129). -/
def Channel.deliver (x : Channel) (kind : Option StrokeKind) : Channel :=
  match kind with
  | none => x
  | some .ordinary => { x with owed := x.owed - 1 }
  | some .calibration =>
    if 0 < x.owed then { x with owed := x.owed - 1 }
    else if x.credit < Config.maxStrokes then { x with credit := x.credit + 1 }
    else x

/-- A proven stroke of the calibration in progress adds 1 to its proven count (R128). -/
def Channel.countProven (x : Channel) (own : Bool) : Channel :=
  if own && x.cal.active then { x with cal := { x.cal with proven := x.cal.proven + 1 } } else x

/-- A stroke still in progress is marked proven. -/
def Sequencer.markProven (q : Sequencer) : Sequencer :=
  match q.phase with
  | .idle => q
  | .precheck => { q with proven := true }
  | .drive => { q with proven := true }
  | .proof => { q with proven := true }
  | .rest => { q with proven := true }

/-- A stroke proven in DRIVE of a channel in service is no longer finishing (R120). -/
def Sequencer.stillDriving (q : Sequencer) (delivering : Bool) : Sequencer :=
  { q with finishing := q.finishing && !delivering }

/-- What a proof does to the sequencer: in DRIVE the drive runs to its end (R113); in PROOF the stroke goes to its
rest or, out of service, to IDLE (R114, R120). -/
def State.afterProof (c : Chan) (s : State) : State :=
  match (s.chan c).seq.phase with
  | .drive => s.putChan c { s.chan c with seq := (s.chan c).seq.stillDriving (s.chan c).service.delivering }
  | .proof => s.afterOutcome c
  | .idle => s
  | .precheck => s
  | .rest => s

/-- The restrict line is evaluated where a delivery changed the owed count (R105). -/
def State.deliverStroke (c : Chan) (kind : Option StrokeKind) (s : State) : State :=
  let s1 := s.putChan c ((s.chan c).deliver kind)
  if (s1.chan c).owed = (s.chan c).owed then s1 else s1.evalRestrict c

/-- The stroke is proven (R113, R115, R129): the attempt is counted, the delivery set against demand. -/
def State.proveStroke (c : Chan) (s : State) : State :=
  let own := (s.chan c).ownStroke
  let kind := (s.chan c).seq.kind
  let s1 := (s.putChan c ((s.chan c).countAttempt false)).testWindow c
  let s2 := s1.setChan c { s1.chan c with seq := (s1.chan c).seq.markProven }
  let s3 := s2.deliverStroke c kind
  (s3.setChan c ((s3.chan c).countProven own)).afterProof c

/-! ### Leaving service (R119, R133) -/

/-- The stroke in progress when the channel leaves service, by its phase (R119). -/
def Sequencer.leave (q : Sequencer) : Sequencer :=
  match q.phase with
  | .idle => q
  | .precheck => Sequencer.idle
  | .drive => { q with finishing := true }
  | .proof => { q with finishing := true }
  | .rest => Sequencer.idle

/-- The channel goes out of service: stroke in progress treated by its phase, CHANNEL_SERVICE with the former state,
OUT_OF_SERVICE latches (R109, R119). -/
def State.goOutOfService (c : Chan) (former : ServiceState) (s : State) : State :=
  ((s.putChan c { s.chan c with service := .outOfService, seq := (s.chan c).seq.leave }).raise .channelService c.val
    ServiceState.outOfService.code former.code).latch (.channel c .outOfService)

/-- The channel goes in service: CHANNEL_SERVICE with the former state, and the sequencer's test (R109, R111). -/
def State.goInService (c : Chan) (former : ServiceState) (s : State) : State :=
  ((s.putChan c { s.chan c with service := .inService }).raise .channelService c.val ServiceState.inService.code
    former.code).tryBegin c

/-- A calibration's own stroke at the start of a reload, treated as by R119; an ordinary stroke keeps its course
(R122, R133). -/
def Sequencer.leaveCalibration (q : Sequencer) : Sequencer :=
  match q.kind with
  | none => q
  | some .ordinary => q
  | some .calibration => q.leave

/-- The start of a reload aborts the channel's calibration and returns it to IN_SERVICE (R133). -/
def State.reloadChannel (s : State) (c : Chan) : State :=
  match (s.chan c).service with
  | .calibrating =>
    let s1 := s.endCalibration c .aborted 0 .inService
    (s1.putChan c { s1.chan c with seq := (s1.chan c).seq.leaveCalibration }).tryBegin c
  | .unconfigured => s
  | .outOfService => s
  | .inService => s
  | .failed => s

/-! ### The measured displacement (R130, R131) -/

/-- The measured displacement m, nL (R130). -/
def Channel.measured (x : Channel) (d : ChannelDescriptor) : Nat :=
  min (x.cal.pulses * d.pulseVolume / x.cal.required) Config.max32

/-- The measurement is within tolerance and can serve as a working displacement (R131). -/
def withinTolerance (m : Nat) (d : ChannelDescriptor) : Bool :=
  decide ((max m d.nominal - min m d.nominal) * 100 ≤ d.nominal * d.tolerance) &&
  decide (1000 ≤ m ∧ m ≤ 2000000)

/-- The outcome of a completed calibration (R131). -/
def completionOutcome (m : Nat) (d : ChannelDescriptor) : CalOutcome :=
  if withinTolerance m d then (if d.autoApply then .okApplied else .okNotApplied) else .outOfTolerance

/-- An applied measurement becomes the working displacement, a change of quantum (R103, R131). -/
def State.applyMeasured (c : Chan) (o : CalOutcome) (m : Nat) (s : State) : State :=
  match o with
  | .okApplied => (s.putChan c { s.chan c with working := m }).countAndSettle c 12
  | .none => s
  | .okNotApplied => s
  | .outOfTolerance => s
  | .missed => s
  | .aborted => s

/-- The calibration completes at the end of its last stroke's rest (R131). -/
def State.completeCalibration (c : Chan) (s : State) : State :=
  match (s.chan c).descriptor with
  | none => s
  | some d =>
    let m := (s.chan c).measured d
    let o := completionOutcome m d
    (s.endCalibration c o m .inService).applyMeasured c o m

/-- The stroke whose rest ends is the last of the calibration in progress (R128, R131). -/
def Channel.lastCalibrationStroke (x : Channel) : Bool :=
  x.cal.active && decide (x.seq.kind = some .calibration) && decide (x.cal.required ≤ x.cal.proven)

end Sys2Proof.Machine
end

