-- ==== Sys2Proof/Machine/Verifier.lean ====
section
/-! DEFINITION. The Record Verifier's refusals and capture (section 3), the owners' decisions on descriptors and
tallies (sections 4 and 9), and the start of a drain (R177). -/

namespace Sys2Proof.Machine

/-! ### Counts (R46) -/

/-- The count since capture takes one refusal (R46); the header is marked where the count changes (R162). -/
def State.countSince (s : State) : State :=
  if s.rv.capture.since < Config.max16 then
    ({ s with rv := { s.rv with capture := { s.rv.capture with since := s.rv.capture.since + 1 } } } :
      State).mark .captureHeader
  else s

/-- One refusal is counted: the refusal count and, while the capture is occupied, the count since capture (R46). -/
def State.countRefusal (s : State) : State :=
  let s1 : State := ({ s with rv := { s.rv with refusals := satAdd Config.max16 s.rv.refusals 1 } } : State).mark .status
  if s.rv.capture.occupied then s1.countSince else s1

/-! ### Word-level refusals (R47, R48) -/

/-- The station flag of a word-level refusal's code (R47). -/
def wordRefusalFlag (code : Nat) : StationFlag :=
  if code = 20 then .protectedWrite
  else if code = 21 then .partialWord
  else if code = 22 then .poolFull
  else if code = 23 then .notReady
  else .notConfigured

/-- The refusal raises an event: it differs from the last one, or a word has been taken since (R48). -/
def Verifier.newRefusal (v : Verifier) (code : Nat) (slot : Slot) : Bool :=
  match v.lastRefusal with
  | none => true
  | some x => decide (x.code ≠ code) || decide (x.slot ≠ slot) || v.takenSince

/-- The memory of the last word-level refusal is set to this one (R48). -/
def State.rememberRefusal (code : Nat) (slot : Slot) (s : State) : State :=
  { s with rv := { s.rv with lastRefusal := some ⟨code, slot⟩, takenSince := false } }

/-- A word-level refusal: flag, counts, event by R48, memory (R47). -/
def State.refuseWord (code : Nat) (slot : Slot) (p : Pos) (s : State) : State :=
  let s1 := (s.latch (.station (wordRefusalFlag code))).countRefusal
  (if s.rv.newRefusal code slot then s1.raise .wordRefused slot.val code p.val else s1).rememberRefusal code slot

/-- The ASSEMBLING entry of a slot is discarded (R38). -/
def State.discardAssembly (slot : Slot) (s : State) : State :=
  { s with rv := { s.rv with assembling := s.rv.assembling.filter fun e => decide (e.slot ≠ slot) } }

/-! ### The first-fault capture (R49, R50) -/

/-- The capture is filled with a refused record (R49). -/
def State.fillCapture (reason : Nat) (slot : Slot) (w : Record) (s : State) : State :=
  ((({ s with rv := { s.rv with capture :=
      ⟨true, BitVec.ofNat 16 reason, BitVec.ofNat 16 slot.val, s.count, 0, BitVec.ofNat 16 s.guardCode, some w⟩ } } :
    State).mark .captureHeader).mark .captureBody).latch (.station .captureOccupied)

/-- The capture is cleared: its header fields become 0 and the header is marked; the body stays (R50). -/
def State.clearCaptureHeader (s : State) : State :=
  ({ s with rv := { s.rv with capture := { Capture.empty with body := s.rv.capture.body } } } : State).mark .captureHeader

/-! ### Record-level refusals (R43 to R45) -/

/-- The run a slot's claim is CURRENT for. -/
def Claim.currentRun : Claim → Option Run
  | .free => none
  | .current r => some r
  | .history _ _ => none

/-- The run a record-level refusal is attributed to (R44). -/
def State.attributed (s : State) (slot : Slot) (reason : Nat) (w : Record) : Option Run :=
  match asTally slot with
  | some t => if reason = 1 ∨ reason = 2 then (s.claim t).currentRun else asRun (recordIndex w)
  | none => asRunSlot slot

/-- The reasons that hold a run in LATCHED mode: only in the tally band (R45). -/
def holdsRun (slot : Slot) (reason : Nat) : Bool :=
  decide (128 ≤ slot.val) && decide (reason ∈ [1, 2, 7, 8, 9, 10])

/-- The attributed run's REFUSED flag (R43, point 4). -/
def State.latchRefused (r : Option Run) (s : State) : State :=
  match r with
  | none => s
  | some r => s.latch (.run .refused r)

/-- The hold of the attributed run where the guard mode requires it (R43, point 7). -/
def State.holdAttributed (r : Option Run) (reason : Nat) (slot : Slot) (s : State) : State :=
  match r with
  | none => s
  | some r => if s.guardCode = 1 ∧ holdsRun slot reason = true then s.holdRun r reason slot else s

/-- A completed record is refused with a reason (R43); its entry has been freed. -/
def State.refuseRecord (slot : Slot) (w : Record) (reason : Nat) (s : State) : State :=
  let run := s.attributed slot reason w
  let s1 := (s.raise .recordRefused slot.val reason w[0].toNat).latch (.station .recordRefused)
  let s2 := (s1.latchRefused run).countRefusal
  let s3 := if s2.rv.capture.occupied then s2 else s2.fillCapture reason slot w
  s3.holdAttributed run reason slot

/-! ### The drain (R177) -/

/-- Every ASSEMBLING entry is discarded (R38). -/
def State.discardAll (s : State) : State := { s with rv := { s.rv with assembling := [] } }

/-- Every base-period timer is stopped (R123). -/
def State.stopBaseTimers (s : State) : State :=
  { s with channels := s.channels.map fun x => { x with baseTimer := none } }

/-- The device moves to DRAINING for a cause (R167, R177). -/
def State.startDrain (cause : LoadCause) (s : State) : State :=
  let s1 := s.discardAll.stopBaseTimers
  ({ s1 with lc := { s1.lc with cause := cause } } : State).setDevice .draining

/-! ### What an owner answers (R40) -/

/-- An owner refuses a record with a reason from 4 to 12, its state unchanged, or accepts it with its effects. -/
inductive Decision where
  | refuse (reason : Nat)
  | accept (s : State)

/-- The station descriptor is put in force with the effects of R139, and the attention line is evaluated (R161). -/
def State.putStation (d : Option StationDescriptor) (s : State) : State :=
  ({ s with lc := { s.lc with station := d } } : State).evalAttention

/-- The acceptance of a station descriptor (R136, R139, R140). -/
def State.acceptStation (d : StationDescriptor) (w : Record) (s : State) : State :=
  let s1 := (s.putStation (some d)).raise .descriptorApplied 0 (stationChanges s.lc.station d) w[15].toNat
  if s.lc.device = .fallback then s1.startDrain .stationAccepted else s1

/-- The Load Controller's decision on a station descriptor: FIELD_RANGE, then STATION_MISMATCH (R138). -/
def State.decideStation (w : Record) (s : State) : Decision :=
  match readStation w with
  | none => .refuse 4
  | some d => if d.stationCode = s.lc.stationCode.toNat then .accept (s.acceptStation d w) else .refuse 12

/-- Channel c's descriptor becomes d; nothing else. -/
def State.putDescriptor (c : Chan) (d : ChannelDescriptor) (s : State) : State :=
  s.putChan c { s.chan c with descriptor := some d }

/-- The working displacement becomes the nominal and crossings are counted, the line not yet evaluated (R103). -/
def State.takeNominal (c : Chan) (d : ChannelDescriptor) (s : State) : State :=
  (s.putChan c { s.chan c with working := d.nominal }).countCrossings c 12

/-- The effects of a descriptor on a channel that already has one in force (R143). -/
def State.reconfigure (c : Chan) (o d : ChannelDescriptor) (s : State) : State :=
  let s1 := s.putDescriptor c d
  let s2 := if o.nominal = d.nominal then s1 else s1.takeNominal c d
  let s3 := if o.missWindow = d.missWindow ∧ o.missLimit = d.missLimit then s2 else s2.clearWindow c
  if (s3.chan c).owed = (s.chan c).owed ∧ o.highMark = d.highMark ∧ o.lowMark = d.lowMark then s3
  else s3.owedChanged c

/-- The first descriptor accepted for an UNCONFIGURED channel configures it (R144). -/
def State.configure (c : Chan) (d : ChannelDescriptor) (w : Record) (s : State) : State :=
  let s1 := ((s.putDescriptor c d).takeNominal c d).clearWindow c
  let s2 := s1.raise .descriptorApplied (channelDescriptorSlot c).val (channelChanges none d) w[15].toNat
  (s2.goOutOfService c .unconfigured).evalRestrict c

/-- The acceptance of a channel descriptor (R136, R143, R144). -/
def State.acceptChannel (c : Chan) (d : ChannelDescriptor) (w : Record) (s : State) : State :=
  match (s.chan c).descriptor with
  | none => s.configure c d w
  | some o =>
    (s.reconfigure c o d).raise .descriptorApplied (channelDescriptorSlot c).val (channelChanges (some o) d) w[15].toNat

/-- A change of a physics field is barred in this service state (R142). -/
def ServiceState.physicsBarred : ServiceState → Bool
  | .inService => true
  | .calibrating => true
  | .failed => true
  | .unconfigured => false
  | .outOfService => false

/-- CONFIG_STATE fails (R142). -/
def Channel.configState (x : Channel) (d : ChannelDescriptor) : Bool :=
  match x.descriptor with
  | none => false
  | some o => physicsChanges o d && x.service.physicsBarred

/-- The Channel Unit's decision on a channel descriptor: FIELD_RANGE, then CONFIG_STATE (R141, R142). -/
def State.decideChannel (c : Chan) (w : Record) (s : State) : Decision :=
  match readChannel w with
  | none => .refuse 4
  | some d => if (s.chan c).configState d then .refuse 11 else .accept (s.acceptChannel c d w)

/-- Run r's descriptor becomes d; nothing else. -/
def State.putRunDescriptor (r : Run) (d : RunDescriptor) (s : State) : State :=
  { s with rt := { s.rt with descriptors := s.rt.descriptors.set r.val (some d) } }

/-- The effect of the enabled field (R146): retirement, or an enabling of a RETIRED run. -/
def State.applyEnabled (r : Run) (d : RunDescriptor) (s : State) : State :=
  if d.enabled then
    if (s.run r).condition = .retired then (s.putRun r { s.run r with condition := .unbound }).mark (.run r) else s
  else if (s.run r).condition = .retired then s
  else s.retire r

/-- The acceptance of a run descriptor: retirement before the other fields, DESCRIPTOR_APPLIED (R136, R146). -/
def State.acceptRun (r : Run) (d : RunDescriptor) (w : Record) (s : State) : State :=
  ((s.applyEnabled r d).putRunDescriptor r d).raise .descriptorApplied (runDescriptorSlot r).val
    (runChanges (s.runDescriptor r) d) w[15].toNat

/-- The Run Table's decision on a run descriptor: FIELD_RANGE (R145). -/
def State.decideRun (r : Run) (w : Record) (s : State) : Decision :=
  match readRun w with
  | none => .refuse 4
  | some d => .accept (s.acceptRun r d w)

/-- The Run Table's decision on a tally record (R59 to R65). -/
def State.decideTally (t : TallySlot) (w : Record) (s : State) : Decision :=
  match asRun (recordIndex w) with
  | none => .refuse 5
  | some r =>
    if s.tallyReason t w = 0 then .accept (s.acceptTally r t (readTally w)) else .refuse (s.tallyReason t w)

end Sys2Proof.Machine
end

