-- ==== Sys2Proof/Machine/Commands.lean ====
section
/-! DEFINITION. The command executor (section 9.5): the order of R147, each command's own outcome and effect, and the
result record with COMMAND_TAKEN (R148). -/

namespace Sys2Proof.Machine

/-- What executing a command gives: the outcome, its detail, and the state with the command's own effects. -/
structure CommandResult where
  outcome : CommandOutcome
  detail : Nat
  state : State

/-! ### Arguments (R147) -/

/-- Argument A suits the command code. -/
def argumentA (code a : Nat) : Bool :=
  if code = 1 ∨ code = 7 ∨ code = 8 then decide (a < 12)
  else if code = 4 ∨ code = 9 then decide (a = 0)
  else decide (a < 4)

/-- Argument B suits the command code. -/
def argumentB (code b : Nat) : Bool :=
  if code = 5 then decide (b ≤ 1) else if code = 6 then decide (b ≤ 6) else decide (b = 0)

/-! ### Each command -/

/-- CLEAR_RUN (R72, R149). -/
def State.clearRun (r : Run) (s : State) : CommandResult :=
  if (s.run r).held then ⟨.done, 1, (s.putRun r { s.run r with held := false }).mark (.run r)⟩ else ⟨.done, 0, s⟩

/-- CLEAR_CHANNEL (R109, R149). -/
def State.clearChannel (c : Chan) (s : State) : CommandResult :=
  match (s.chan c).service with
  | .failed => ⟨.done, 0, (s.clearWindow c).goInService c .failed⟩
  | .unconfigured => ⟨.wrongState, ServiceState.unconfigured.code, s⟩
  | .outOfService => ⟨.wrongState, ServiceState.outOfService.code, s⟩
  | .inService => ⟨.wrongState, ServiceState.inService.code, s⟩
  | .calibrating => ⟨.wrongState, ServiceState.calibrating.code, s⟩

/-- CLEAR_DEFICIT (R102, R150). -/
def State.clearDeficit (c : Chan) (s : State) : CommandResult :=
  ⟨.done, (s.chan c).deficit, (s.setChan c { s.chan c with deficit := 0 }).mark (.channel c)⟩

/-- CLEAR_CAPTURE (R50, R150). -/
def State.clearCapture (s : State) : CommandResult :=
  ⟨.done, if s.rv.capture.occupied then s.rv.capture.reason.toNat else 0, s.clearCaptureHeader⟩

/-- SET_SERVICE(ch, in) (R151). -/
def State.setServiceIn (c : Chan) (s : State) : CommandResult :=
  match (s.chan c).service with
  | .outOfService => ⟨.done, ServiceState.outOfService.code, s.goInService c .outOfService⟩
  | .inService => ⟨.done, ServiceState.inService.code, s⟩
  | .unconfigured => ⟨.wrongState, ServiceState.unconfigured.code, s⟩
  | .calibrating => ⟨.wrongState, ServiceState.calibrating.code, s⟩
  | .failed => ⟨.wrongState, ServiceState.failed.code, s⟩

/-- SET_SERVICE(ch, out) (R119, R133, R151). -/
def State.setServiceOut (c : Chan) (s : State) : CommandResult :=
  match (s.chan c).service with
  | .unconfigured => ⟨.wrongState, ServiceState.unconfigured.code, s⟩
  | .outOfService => ⟨.done, ServiceState.outOfService.code, s⟩
  | .inService => ⟨.done, ServiceState.inService.code, s.goOutOfService c .inService⟩
  | .calibrating =>
    ⟨.done, ServiceState.calibrating.code,
      (s.endCalibration c .aborted 0 .outOfService).goOutOfService c .calibrating⟩
  | .failed => ⟨.done, ServiceState.failed.code, (s.clearWindow c).goOutOfService c .failed⟩

/-- The channel at the start of a calibration of n strokes (R127). -/
def Channel.startCalibration (x : Channel) (n : Nat) : Channel :=
  { x with service := .calibrating,
           cal := { x.cal with active := true, required := n, proven := 0, windowOpen := false, pulses := 0 } }

/-- CALIBRATE, lines 3 to 5 of R127. -/
def State.calibrate (c : Chan) (k : Nat) (s : State) : CommandResult :=
  match (s.chan c).service with
  | .calibrating => ⟨.busy, (s.chan c).cal.proven, s⟩
  | .inService => ⟨.started, 2 ^ k, (s.putChan c ((s.chan c).startCalibration (2 ^ k))).tryBegin c⟩
  | .unconfigured => ⟨.wrongState, ServiceState.unconfigured.code, s⟩
  | .outOfService => ⟨.wrongState, ServiceState.outOfService.code, s⟩
  | .failed => ⟨.wrongState, ServiceState.failed.code, s⟩

/-- UNBIND_RUN (R73, R152). -/
def State.unbindRun (r : Run) (s : State) : CommandResult :=
  if (s.run r).condition.bound then ⟨.done, (s.run r).slotNumber, s.unbind r .unbound 1⟩
  else ⟨.wrongState, (s.run r).condition.code, s⟩

/-- RELEASE_HISTORY (R74, R152). -/
def State.releaseHistoryOf (r : Run) (s : State) : CommandResult := ⟨.done, s.historySlots r, s.releaseHistory r⟩

/-- RESTART (R153). -/
def State.restart (tag : Word) (s : State) : CommandResult := ⟨.started, 0, s.startDrain (.restart tag)⟩

/-! ### Execution (R147, R148) -/

/-- A command answered BAD_ARGUMENT changes nothing of its own (R147). -/
def State.badArgument (detail : Nat) (s : State) : CommandResult := ⟨.badArgument, detail, s⟩

/-- A command on a run; argument A is in range by line 2 of R147. -/
def State.onRun (a : Word) (f : Run → State → CommandResult) (s : State) : CommandResult :=
  match asRun a.toNat with
  | none => s.badArgument 2
  | some r => f r s

/-- A command on a channel; argument A is in range by line 2 of R147. -/
def State.onChan (a : Word) (f : Chan → State → CommandResult) (s : State) : CommandResult :=
  match asChan a.toNat with
  | none => s.badArgument 2
  | some c => f c s

/-- Line 5 of R147: the command's own outcome. -/
def State.ownOutcome (x : CommandFields) (s : State) : CommandResult :=
  match x.code.toNat with
  | 1 => s.onRun x.a State.clearRun
  | 2 => s.onChan x.a State.clearChannel
  | 3 => s.onChan x.a State.clearDeficit
  | 4 => s.clearCapture
  | 5 => s.onChan x.a (if x.b = 0 then State.setServiceOut else State.setServiceIn)
  | 6 => s.onChan x.a fun c => State.calibrate c x.b.toNat
  | 7 => s.onRun x.a State.unbindRun
  | 8 => s.onRun x.a State.releaseHistoryOf
  | 9 => s.restart x.tag
  | _ => s.badArgument 1

/-- The order in which a command's outcome is decided (R147). -/
def State.decideOutcome (x : CommandFields) (s : State) : CommandResult :=
  if ¬(1 ≤ x.code.toNat ∧ x.code.toNat ≤ 9) then s.badArgument 1
  else if argumentA x.code.toNat x.a.toNat = false then s.badArgument 2
  else if argumentB x.code.toNat x.b.toNat = false then s.badArgument 3
  else if s.lc.device = .fallback ∧ x.code.toNat ≠ 4 ∧ x.code.toNat ≠ 9 then
    ⟨.wrongState, DeviceState.fallback.code, s⟩
  else s.ownOutcome x

/-- The result record's content is set and marked (R148). -/
def State.putResult (x : ResultContent) (s : State) : State :=
  ({ s with lc := { s.lc with result := x } } : State).mark .result

/-- A command is executed: its outcome, the result record, COMMAND_TAKEN (R148). -/
def State.executeCommand (x : CommandFields) (s : State) : State :=
  let r := s.decideOutcome x
  (r.state.putResult ⟨x.tag, x.code, r.outcome, s.count, r.detail⟩).raise .commandTaken x.code.toNat r.outcome.code
    x.tag.toNat

/-- The command executor's decision on a command record: FIELD_RANGE (R147). -/
def State.decideCommand (w : Record) (s : State) : Decision :=
  match readCommand w with
  | none => .refuse 4
  | some x => .accept (s.executeCommand x)

end Sys2Proof.Machine
end

