-- ==== Sys2Proof/Machine/Records.lean ====
section
/-! DEFINITION. Placing a word, completing a record, the frame checks and the hand-off to the owner (sections 3.1 to
3.3), and the gate by device state (R34). -/

namespace Sys2Proof.Machine

/-! ### Checks and decision (R39, R40) -/

/-- The first frame check that fails: 1 CHECK_WORD, 2 WRONG_KIND, 3 WRONG_INDEX, or 0 (R39). -/
def frameReason (slot : Slot) (w : Record) : Nat :=
  if !intact w then 1
  else if recordKind w ≠ expectedKind slot then 2
  else if slot.val ≤ 17 ∧ recordIndex w ≠ expectedIndex slot then 3
  else 0

/-- The hand-off of a record whose frame is good to its slot's owner (R40). -/
def State.handOff (slot : Slot) (w : Record) (s : State) : Decision :=
  match asTally slot, asRunSlot slot, asChannelSlot slot with
  | some t, _, _ => s.decideTally t w
  | none, some r, _ => s.decideRun r w
  | none, none, some c => s.decideChannel c w
  | none, none, none => if slot = 0 then s.decideStation w else s.decideCommand w

/-- What becomes of a completed record: the frame checks, then its owner's decision (R39, R40). -/
def State.decideRecord (slot : Slot) (w : Record) (s : State) : Decision :=
  if frameReason slot w = 0 then s.handOff slot w else .refuse (frameReason slot w)

/-- The entry e, holding the record w, joins the tail of the commit queue (R41). -/
def State.joinCommits (e : Assembly) (w : Record) (s : State) : State :=
  { s with rv := { s.rv with committing := s.rv.committing ++ [⟨e.slot, w, e.openedAt, e.timeout⟩] } }

/-- The record w completes, its entry e no longer ASSEMBLING: accepted and queued, or refused and freed (R36, R41,
R43). -/
def State.completeRecord (e : Assembly) (w : Record) (s : State) : State :=
  match s.decideRecord e.slot w with
  | .refuse n => s.refuseRecord e.slot w n
  | .accept t => t.joinCommits e w

/-! ### Placing a word (R35) -/

/-- The slot's ASSEMBLING entry, if it has one. -/
def Verifier.entry (v : Verifier) (slot : Slot) : Option Assembly := v.assembling.find? fun e => decide (e.slot = slot)

/-- The entry with a word stored at its position. -/
def Assembly.store (e : Assembly) (p : Pos) (v : Word) : Assembly := { e with words := e.words.set p.val (some v) }

/-- The number of words present. -/
def Assembly.present (e : Assembly) : Nat := (e.words.toList.filter Option.isSome).length

/-- All sixteen words, once every position is present (R36). -/
def Assembly.full (e : Assembly) : Option Record :=
  if e.words.toList.all Option.isSome then some (e.words.map fun w => w.getD 0) else none

/-- A newly opened entry for a slot (R35, step 2). -/
def Assembly.opened (slot : Slot) (now timeout : Nat) : Assembly := ⟨slot, Vector.replicate 16 none, now, timeout⟩

/-- A word has been taken since the last word-level refusal (R48). -/
def State.noteTaken (s : State) : State := { s with rv := { s.rv with takenSince := true } }

/-- The slot's ASSEMBLING entry is replaced by this one. -/
def State.putEntry (e : Assembly) (s : State) : State :=
  { s with rv := { s.rv with assembling := s.rv.assembling.map fun x => if x.slot = e.slot then e else x } }

/-- An entry that was FREE becomes this ASSEMBLING one. -/
def State.openEntry (e : Assembly) (s : State) : State :=
  { s with rv := { s.rv with assembling := s.rv.assembling ++ [e] } }

/-- A word placed in the slot's ASSEMBLING entry, which may complete it (R35, step 1; R36). -/
def State.placeInEntry (e : Assembly) (s : State) : State :=
  match e.full with
  | none => (s.putEntry e).noteTaken
  | some w => (s.noteTaken.discardAssembly e.slot).completeRecord e w

/-- A word is placed (R35). -/
def State.placeWord (slot : Slot) (p : Pos) (v : Word) (s : State) : State :=
  match s.rv.entry slot with
  | some e => s.placeInEntry (e.store p v)
  | none =>
    if s.rv.inUse < Config.poolSize then
      (s.openEntry ((Assembly.opened slot s.uptime s.assemblyTimeout).store p v)).noteTaken
    else s.refuseWord 22 slot p

/-- The word-level refusal code the device state gives a word for a controller slot; 0 where it is placed (R34). -/
def gateCode (d : DeviceState) (slot : Slot) : Nat :=
  match d with
  | .running => 0
  | .fallback => if slot.val = 0 ∨ slot.val = 17 then 0 else 24
  | .loading => 23
  | .draining => 23

/-- The Record Verifier is handed a two-lane write to a controller slot (R34, R22). -/
def State.handWord (slot : Slot) (p : Pos) (v : Word) (s : State) : State :=
  if gateCode s.lc.device slot = 0 then s.placeWord slot p v else s.refuseWord (gateCode s.lc.device slot) slot p

end Sys2Proof.Machine
end

