-- ==== Sys2Proof/Machine/Agent.lean ====
section
/-! DEFINITION. The Memory Agent's choice of work (section 2.4) and the Port Arbiter's grant (section 2.3). -/

namespace Sys2Proof.Machine

/-! ### Holding reads (R19) -/

/-- The kind of item writes its slot: all but a loading read. -/
def ItemKind.writes : ItemKind → Bool
  | .commit => true
  | .eventAppend => true
  | .rewrite => true
  | .loadingRead => false

/-- The memory port runs a cycle of the Memory Agent. -/
def State.agentCycle (s : State) : Bool :=
  match s.mp with
  | none => false
  | some m => decide (m.requester = .agent)

/-- The slot is under write: an item that writes it has had its first word granted and is not done (R19). -/
def State.underWrite (s : State) (slot : Slot) : Bool :=
  match s.ma with
  | none => false
  | some x => x.kind.writes && decide (x.slot = slot) && (decide (0 < x.next) || s.agentCycle)

/-- The cycle is a read held because its slot is under write (R19). -/
def State.holds (s : State) (x : CpCycle) : Bool :=
  match x.op with
  | .write _ _ => false
  | .read => match decompose s.lc.baseSelect x.addr with
    | none => false
    | some (slot, _) => s.underWrite slot

/-! ### Requests and grants (R24) -/

/-- The controller's cycle, if it is waiting and not held. -/
def State.controllerRequest (s : State) : Option CpCycle :=
  match s.cp.cycle with
  | none => none
  | some x => if x.progress = .waiting ∧ s.holds x = false then some x else none

/-- The bus operation of an item's next word. -/
def Item.nextOp (x : Item) : BusOp := if x.kind.writes then .write (x.words[x.next]?.getD 0) .both else .read

/-- The address of an item's next word (R2). -/
def Item.nextAddr (gb : BitVec 4) (x : Item) : Addr := slotAddr gb x.slot (Fin.ofNat 16 x.next)

/-- The controller's cycle is granted the memory port; the wait line deasserts (R20, R24). -/
def State.grantController (x : CpCycle) (s : State) : State :=
  { s with mp := some ⟨.controller, x.addr, x.op⟩, cp := { s.cp with cycle := some { x with progress := .running }, waitLine := false } }

/-- The Memory Agent's next word is granted the memory port; the pass-over count becomes 0 (R24). -/
def State.grantAgent (x : Item) (s : State) : State :=
  { s with mp := some ⟨.agent, x.nextAddr s.lc.baseSelect, x.nextOp⟩, passOver := 0 }

/-- The Port Arbiter's grant decision (R24). -/
def State.decideGrant (s : State) : State :=
  match s.controllerRequest, s.ma with
  | none, none => s
  | some x, none => s.grantController x
  | none, some m => s.grantAgent m
  | some x, some m =>
    if s.passOver < s.starvationLimit then ({ s with passOver := s.passOver + 1 } : State).grantController x
    else s.grantAgent m

/-- A grant decision is made whenever the port is idle and a request waits (R24). -/
def State.arbitrate (s : State) : State :=
  match s.mp with
  | none => s.decideGrant
  | some _ => s

/-! ### Choosing work (R27 to R32) -/

/-- No dirty mark is set. -/
def ReportUnit.clean (u : ReportUnit) : Bool := u.dirty.toList.all (· == false)

/-- The dirty part slot with the lowest number (R27). -/
def ReportUnit.lowestDirty (u : ReportUnit) : Option PartSlot := (List.finRange 20).find? fun k => u.dirty[k]

/-- The Memory Agent finds no commit and no dirty mark, which in DRAINING it reports (R32, R177). -/
def State.drained (s : State) : Bool := s.rv.committing.isEmpty && s.ru.clean

/-- The words of a part record, taken from its owners at this moment (R30). The capture body is marked by a fill alone
(R49), which holds it; what a rewrite would write of a body not held, zeros, no run writes (log entry 17). -/
def State.snapshot (s : State) (k : PartSlot) : Record :=
  if k = .result then resultRecord s.lc.result
  else if k = .status then statusRecord s
  else if k = .captureHeader then captureHeader s.rv.capture
  else if k = .captureBody then s.rv.capture.body.getD (Vector.replicate 16 0)
  else match asChannelReport k.slot, asRunReport k.slot with
    | some c, _ => channelReport c (channelByte s.ru.latched c) (s.chan c)
    | none, some r => runReport r (s.run r)
    | none, none => Vector.replicate 16 0

/-- The pending set at the start of a rewrite: for the status record, the flags its snapshot shows (R158). -/
def State.takePending (k : PartSlot) (s : State) : State :=
  if k = .status then { s with ru := { s.ru with pendingShown := s.ru.latched } } else s

/-- An item starts: it becomes the current item, its first word next (R26). -/
def State.startItem (kind : ItemKind) (slot : Slot) (words : Record) (s : State) : State :=
  { s with ma := some ⟨kind, slot, words, 0⟩ }

/-- A rewrite starts: the mark is cleared and the snapshot taken (R30). -/
def State.startRewrite (k : PartSlot) (s : State) : State :=
  ((s.takePending k).unmark k).startItem .rewrite k.slot (s.snapshot k)

/-- The ring slot of position p (R7). -/
def ringSlot (p : Fin 64) : Slot := ⟨64 + p.val, by omega⟩

/-- Outside LOADING: a commit, else an event append, else the lowest dirty slot (R27). In DRAINING nothing is taken
once no commit and no mark is left, for the drain then completes (R32, R177; log entry 11). -/
def State.takeWork (s : State) : State :=
  match s.rv.committing with
  | x :: _ => s.startItem .commit x.slot x.words
  | [] =>
    if s.lc.device = .draining ∧ s.ru.clean = true then s
    else match s.ru.events with
      | e :: _ => s.startItem .eventAppend (ringSlot s.ru.ringNext) (eventRecordAt s.ru.ringNext e)
      | [] => match s.ru.lowestDirty with
        | some k => s.startRewrite k
        | none => s

/-- In LOADING: commits and loading reads only (R32). Section 2.4 gives a loading read's item only the words read so far:
0 at the positions not yet read is a DESIGN CHOICE (log entry 30). -/
def State.takeLoading (s : State) : State :=
  match s.rv.committing with
  | x :: _ => s.startItem .commit x.slot x.words
  | [] => match s.lc.loadSlot with
    | some k => s.startItem .loadingRead k (Vector.replicate 16 0)
    | none => s

/-- The Memory Agent's choice by the device state (R32). -/
def State.chooseItem (s : State) : State :=
  match s.lc.device with
  | .loading => s.takeLoading
  | .running => s.takeWork
  | .fallback => s.takeWork
  | .draining => s.takeWork

/-- With no current item the Memory Agent takes the first item pending (R26, R27). -/
def State.takeItem (s : State) : State :=
  match s.ma with
  | some _ => s
  | none => s.chooseItem

/-- What follows every event: the Memory Agent takes work, and a free memory port is granted (R24, R26). While
RESET_n is asserted nothing is started (R23). R24 leaves to the world whether a controller cycle that arrives while the
decision on a word new at an idle port is being taken is present at it; here the decision is taken with the requests
present when the event ends, and a later cycle waits for the next one: DESIGN CHOICE (log entry 28). -/
def State.settle (s : State) : State := if s.lc.resetAsserted then s else s.takeItem.arbitrate

/-- What follows the end of the controller's own memory cycle where a word of the Memory Agent waits. The controller's
next cycle cannot have begun, but may arrive while the decision is being taken, and the world decides (R24): a free
value leaves the decision open for the next command, or takes it now (log entry 26). -/
def State.settleContested (s : State) : State :=
  if s.lc.resetAsserted = false ∧ s.takeItem.ma.isSome = true then
    let s1 : State := { s with freeUsed := s.freeUsed + 1 }
    if Config.freeNextCyclePresent s.freeUsed then s1.takeItem else s1.settle
  else s.settle

/-- What follows the end of a memory cycle, of the Memory Agent or of the controller (R24). -/
def State.settleAfter (agent : Bool) (s : State) : State := if agent then s.settle else s.settleContested

/-- A decision left open, with no controller cycle arrived (R24; log entry 26). -/
def State.decisionOpen (s : State) : Bool := s.mp.isNone && s.ma.isSome

end Sys2Proof.Machine
end

