-- ==== Sys2Proof/Machine/Loader.lean ====
section
/-! DEFINITION. The Load Controller (section 11): the loading sequence, what each record read gives, the tally band
scan, load completion, and the start of a reload. -/

namespace Sys2Proof.Machine

/-! ### The order of the reads (R169) -/

/-- The load in progress follows a release of reset, not a drain. -/
def LoadCause.afterReset : LoadCause → Bool
  | .reset => true
  | .restart _ => false
  | .stationAccepted => false

/-- The slot read after slot k, or none where k is the last (R169). -/
def nextLoadSlot (afterReset station : Bool) (k : Slot) : Option Slot :=
  if k.val = 0 then (if afterReset then some 1 else if station then some 5 else some 19)
  else if k.val = 4 then some 22
  else if k.val = 25 then (if station then some 5 else some 19)
  else if k.val = 16 then some 26
  else if k.val = 37 then some 19
  else if k.val = 20 then (if station then some 128 else none)
  else if h : k.val + 1 < 512 then some ⟨k.val + 1, h⟩
  else none

/-- The record read has the frame its slot requires: intact, kind and index (R169). -/
def frameValid (slot : Slot) (w : Record) : Bool :=
  intact w && decide (recordKind w = expectedKind slot) && decide (recordIndex w = expectedIndex slot)

/-! ### Station descriptor (R170) -/

/-- The first failing test of the record read from slot 0; 0 where all pass (R170). -/
def State.stationLoadReason (s : State) (w : Record) : Nat :=
  if !intact w then 1
  else if recordKind w ≠ 0x51 then 2
  else if recordIndex w ≠ 0 then 3
  else match readStation w with
    | none => 4
    | some d => if d.stationCode = s.lc.stationCode.toNat then 0 else 12

/-- The fallback reason is kept (R170). -/
def State.putFallbackReason (n : Nat) (s : State) : State := { s with lc := { s.lc with fallbackReason := n } }

/-- The record read from slot 0 is put in force, or none is in force from here on (R170). -/
def State.loadStation (w : Record) (s : State) : State :=
  (s.putStation (if s.stationLoadReason w = 0 then readStation w else none)).putFallbackReason (s.stationLoadReason w)

/-! ### Channels (R171) -/

/-- The service state loading gives a configured channel. -/
def ChannelDescriptor.loadedService (d : ChannelDescriptor) : ServiceState :=
  if d.startInService then .inService else .outOfService

/-- A channel loaded out of service latches its flag (R156, R171). -/
def State.latchOutOfService (c : Chan) (s : State) : State :=
  match (s.chan c).service with
  | .outOfService => s.latch (.channel c .outOfService)
  | .unconfigured => s
  | .inService => s
  | .calibrating => s
  | .failed => s

/-- The channel descriptor read from slot 1 + c (R171). -/
def State.loadChannel (c : Chan) (w : Record) (s : State) : State :=
  if frameValid (channelDescriptorSlot c) w then
    match readChannel w with
    | none => s
    | some d => (s.putChan c { s.chan c with
        descriptor := some d, working := d.nominal, service := d.loadedService }).latchOutOfService c
  else s

/-- The working displacement restored, or the nominal kept (R171, point 3). -/
def restoredWorking (d : ChannelDescriptor) (x : ChannelRestore) : Nat :=
  if x.nominal = d.nominal ∧ 1000 ≤ x.working ∧ x.working ≤ 2000000 then x.working else d.nominal

/-- The channel with its report's fields restored, points 1 to 3 of R171. -/
def Channel.restored (y : Channel) (d : ChannelDescriptor) (x : ChannelRestore) : Channel :=
  { y with
    residue := x.residue, owed := x.owed, credit := x.credit, deficit := x.deficit,
    delivered := x.delivered + y.delivered,
    cal := { y.cal with lastOutcome := if x.wasCalibrating then .aborted else x.lastOutcome,
                        lastMeasured := if x.wasCalibrating then 0 else x.lastMeasured },
    working := restoredWorking d x }

/-- A deficit above 0 latches DEFICIT (R171, point 5). -/
def State.latchDeficit (c : Chan) (s : State) : State :=
  if 0 < (s.chan c).deficit then s.latch (.channel c .deficit) else s

/-- A valid channel report restores a configured channel, points 1 to 5 of R171, and the sequencer's test is made. -/
def State.restoreChannel (c : Chan) (d : ChannelDescriptor) (x : ChannelRestore) (s : State) : State :=
  (((((s.putChan c ((s.chan c).restored d x)).countCrossings c 12).evalRestrict c).latchDeficit c).tryBegin c)

/-- The channel report read from slot 22 + c (R171). -/
def State.loadChannelReport (c : Chan) (slot : Slot) (w : Record) (s : State) : State :=
  match (s.chan c).descriptor with
  | none => s
  | some d =>
    if frameValid slot w then
      match readChannelReport w with
      | none => s
      | some x => s.restoreChannel c d x
    else s

/-! ### Runs (R172) -/

/-- The condition a loaded run descriptor gives. -/
def RunDescriptor.loadedCondition (d : RunDescriptor) : RunCondition := if d.enabled then .unbound else .retired

/-- The run descriptor read from slot 5 + r (R172). -/
def State.loadRun (r : Run) (w : Record) (s : State) : State :=
  if frameValid (runDescriptorSlot r) w then
    match readRun w with
    | none => s
    | some d => (s.putRunDescriptor r d).putRun r { s.run r with condition := d.loadedCondition }
  else s

/-- The run report read from slot 26 + r gives C to an UNBOUND run (R172). -/
def State.loadRunReport (r : Run) (slot : Slot) (w : Record) (s : State) : State :=
  if frameValid slot w ∧ (s.run r).condition = .unbound then
    match readRunReport w with
    | none => s
    | some n => s.putRun r { s.run r with credit := n }
  else s

/-! ### Status record and capture (R173, R51) -/

/-- The status record read from slot 19 gives the ring next position (R173). -/
def State.loadStatus (w : Record) (s : State) : State :=
  if frameValid 19 w then
    match readRingNext w with
    | none => s
    | some p => { s with ru := { s.ru with ringNext := p } }
  else s

/-- The capture header read from slot 20 restores the capture at a load after reset (R51). -/
def State.loadCapture (w : Record) (s : State) : State :=
  if s.lc.cause.afterReset ∧ frameValid 20 w then
    match readCaptureHeader w with
    | none => s
    | some x => ({ s with rv := { s.rv with capture := x } } : State).latch (.station .captureOccupied)
  else s

/-! ### The tally band scan (R174) -/

/-- The new record wins over the best so far (R174); slots ascend, so a full tie keeps the earlier record. -/
def ScanBest.beatenBy (b x : ScanBest) : Bool :=
  decide (b.total < x.total) || (decide (b.total = x.total) && decide (b.sequence.toNat < x.sequence.toNat))

/-- The scan after a valid record of run r (R174). -/
def Scan.take (z : Scan) (r : Run) (x : ScanBest) : Scan :=
  match z.best[r] with
  | none => { z with best := z.best.set r.val (some x), valid := z.valid + 1 }
  | some b =>
    if b.beatenBy x then
      { best := z.best.set r.val (some x), others := z.others.set r.val (z.others[r] ++ [b.slot]), valid := z.valid + 1 }
    else { z with others := z.others.set r.val (z.others[r] ++ [x.slot]), valid := z.valid + 1 }

/-- A tally record as the scan weighs it. -/
def scanRecord (t : TallySlot) (x : TallyFields) : ScanBest := ⟨t, x.sequence, x.total, x.rate⟩

/-- Run r has a run descriptor in force with enabled set. -/
def State.enabled (s : State) (r : Run) : Bool :=
  match s.runDescriptor r with
  | none => false
  | some d => d.enabled

/-- A tally slot is read (R174). -/
def State.scanTally (t : TallySlot) (w : Record) (s : State) : State :=
  match asRun (recordIndex w) with
  | none => s
  | some r =>
    if intact w ∧ recordKind w = 0x55 ∧ s.enabled r = true then
      { s with lc := { s.lc with scan := s.lc.scan.take r (scanRecord t (readTally w)) } }
    else s

/-- The slot map with run r's slots set (R174). -/
def Scan.claimRun (z : Scan) (expires : Nat) (m : Vector Claim 384) (r : Run) : Vector Claim 384 :=
  let m1 := (z.others[r]).foldl (fun m (t : TallySlot) => m.set t.val (.history r expires)) m
  match z.best[r] with
  | none => m1
  | some b => m1.set b.slot.val (.current r)

/-- The slot map at the end of the scan (R174). -/
def Scan.claims (z : Scan) (expires : Nat) : Vector Claim 384 :=
  (List.finRange 12).foldl (z.claimRun expires) (Vector.replicate 384 .free)

/-- A run entry at the end of the scan: bound with its best record, or unbound with C = 0 (R174, R175 point 2). -/
def State.scannedRun (s : State) (r : Run) : RunEntry :=
  match s.lc.scan.best[r] with
  | none => { s.run r with credit := 0 }
  | some b => { s.run r with
      condition := .live, held := false, awaitingBaseline := true, currentSlot := some b.slot,
      shadowSequence := b.sequence, shadowTotal := b.total, shadowRate := b.rate, shadowTime := s.count,
      ageStart := some s.uptime, estimated := 0, historyCount := (s.lc.scan.others[r]).length,
      freshness := startFreshness (s.runDescriptor r) s.uptime, substitution := none }

/-- The slot map and the run entries are set at the end of the scan (R174). -/
def State.settleScan (s : State) : State :=
  { s with rt := { s.rt with slots := s.lc.scan.claims (s.uptime + s.historyHold),
                             runs := Vector.ofFn fun r => s.scannedRun r } }

/-- The number of runs the scan binds. -/
def Scan.bound (z : Scan) : Nat := (z.best.toList.filter Option.isSome).length

/-! ### Load completion (R175) -/

/-- The result record's content at load completion (R175, point 3; R153). -/
def State.loadResult (s : State) : State :=
  match s.lc.cause with
  | .reset => s.putResult ⟨0, 0, .none, s.count, 0⟩
  | .restart tag => s.putResult ⟨tag, 9, .done, s.count, 0⟩
  | .stationAccepted => s

/-- The status record and every report are marked (R175, point 4). -/
def State.markReports (s : State) : State :=
  (List.finRange 12).foldl (fun s (r : Run) => s.mark (.run r))
    ((List.finRange 4).foldl (fun s (c : Chan) => s.mark (.channel c)) (s.mark .status))

/-- The subject of LOAD_DONE (R175, point 5). -/
def LoadCause.code : LoadCause → Nat
  | .reset => 0
  | .restart _ => 1
  | .stationAccepted => 2

/-- A configured channel's base-period timer starts (R123). -/
def Channel.startBaseTimer (x : Channel) (now : Nat) : Channel :=
  match x.descriptor with
  | none => x
  | some d => { x with baseTimer := some ⟨d.basePeriod * 1000, now + d.basePeriod * 1000⟩ }

/-- The entry to FALLBACK: event, flag, base-period timers (R175, points 6 and 7; R123). -/
def State.enterFallback (s : State) : State :=
  let s1 := (s.raise .fallbackEntered 0 s.lc.fallbackReason s.lc.stationCode.toNat).latch (.station .fallback)
  ({ s1 with channels := s1.channels.map fun x => x.startBaseTimer s1.uptime } : State).setDevice .fallback

/-- The load is over: nothing is requested and the scan is dropped. -/
def State.endLoad (s : State) : State := { s with lc := { s.lc with loadSlot := none, scan := Scan.empty } }

/-- Load completion (R175). -/
def State.completeLoad (s : State) : State :=
  let s1 := (s.settleScan.loadResult.markReports).raise .loadDone s.lc.cause.code s.lc.scan.bound s.lc.scan.valid
  (match s.lc.station with
    | none => s1.enterFallback
    | some _ => s1.setDevice .running).endLoad

/-! ### A loading read is handed over (R31, R169) -/

/-- The record read from a slot is tested and used (R169). -/
def State.useRecord (slot : Slot) (w : Record) (s : State) : State :=
  if slot.val = 0 then s.loadStation w
  else if slot.val = 19 then s.loadStatus w
  else if slot.val = 20 then s.loadCapture w
  else match asChannelSlot slot, asRunSlot slot with
    | some c, _ => s.loadChannel c w
    | none, some r => s.loadRun r w
    | none, none => match asChannelReport slot, asRunReport slot with
      | some c, _ => s.loadChannelReport c slot w
      | none, some r => s.loadRunReport r slot w
      | none, none => match asTally slot with
        | some t => s.scanTally t w
        | none => s

/-- The next loading read is requested, or the load completes after the last (R169, R175). -/
def State.nextLoad (slot : Slot) (s : State) : State :=
  match nextLoadSlot s.lc.cause.afterReset s.lc.station.isSome slot with
  | none => s.completeLoad
  | some k => { s with lc := { s.lc with loadSlot := some k } }

/-- The Load Controller takes the sixteen words of the slot it requested (R31). -/
def State.takeLoad (slot : Slot) (w : Record) (s : State) : State := (s.useRecord slot w).nextLoad slot

/-! ### The start of a reload (R177, R178) -/

/-- The drain is complete: DRAINING, no current item, no commit, no mark (R177). -/
def State.drainReady (s : State) : Bool := decide (s.lc.device = .draining) && s.ma.isNone && s.drained

/-- The reload begins: LOADING, the Run Table at its reset values, calibrations aborted, slot 0 requested (R178). Where
several channels are calibrating, their calibrations are aborted, and so their CAL_FAIL flags latch and their
CALIBRATION_END events are raised, in the order of channels 0 to 3: R122 and R178 give no order and R164 lets events of
different blocks join in either order (DESIGN CHOICE, log entry 27). The run entries' return to their reset values marks
no run report: R77 has every change of E and C marked, R166 keeps the marks through a RESTART, and R178 names no mark here
(DESIGN CHOICE, log entry 31). -/
def State.startReload (s : State) : State :=
  let lc1 : Loader := { s.lc with loadSlot := some 0, scan := Scan.empty, fallbackReason := 0 }
  let s1 := ({ s with rt := RunTable.reset, lc := lc1 } : State).setDevice .loading
  (List.finRange 4).foldl State.reloadChannel s1

end Sys2Proof.Machine
end

