-- ==== Sys2Proof/Machine/Port.lean ====
section
/-! DEFINITION. The Controller Port (sections 1.4 and 2.1), the end of a memory cycle (R23) with the completion of the
Memory Agent's items, and the two edges of RESET_n (R168). -/

namespace Sys2Proof.Machine

/-! ### Classification (R12) -/

/-- What the Controller Port does with a cycle (R12). -/
inductive Disposition where
  | forward
  | take (slot : Slot) (p : Pos) (v : Word)
  | refuse (code : Nat) (slot : Slot) (p : Pos)
  deriving DecidableEq, Repr

/-- The disposition of a write inside the record area (R12). -/
def classifyWrite (slot : Slot) (p : Pos) (v : Word) (lanes : Lanes) : Disposition :=
  match slotClass slot, lanes with
  | .openSlot, _ => .forward
  | .part, _ => .refuse 20 slot p
  | .controller, .both => .take slot p v
  | .controller, .upper => .refuse 21 slot p
  | .controller, .lower => .refuse 21 slot p

/-- The disposition of a controller cycle by address, direction and lanes (R12). -/
def classify (gb : BitVec 4) (a : Addr) (op : BusOp) : Disposition :=
  match op, decompose gb a with
  | .read, _ => .forward
  | .write _ _, none => .forward
  | .write v lanes, some (slot, p) => classifyWrite slot p v lanes

/-! ### A cycle begins (R17) -/

/-- A forwarded cycle is requested; the wait line asserts (R17, R20). -/
def State.forwardCycle (a : Addr) (op : BusOp) (s : State) : State :=
  { s with cp := { s.cp with cycle := some ⟨a, op, .waiting⟩, waitLine := true } }

/-- A write refused at the port (R21); PARTIAL_WORD discards the slot's ASSEMBLING entry (R38). -/
def State.refuseAtPort (code : Nat) (slot : Slot) (p : Pos) (s : State) : State :=
  if code = 21 then (s.refuseWord code slot p).discardAssembly slot else s.refuseWord code slot p

/-- The Controller Port takes a cycle and acts on its disposition at once (R17). -/
def State.beginCycle (a : Addr) (op : BusOp) (s : State) : State :=
  match classify s.lc.baseSelect a op with
  | .forward => s.forwardCycle a op
  | .take slot p v => s.handWord slot p v
  | .refuse code slot p => s.refuseAtPort code slot p

/-- The cycle is held with the wait line asserted while RESET_n is asserted (R16). -/
def State.stopCycle (a : Addr) (op : BusOp) (s : State) : State :=
  { s with cp := { s.cp with cycle := some ⟨a, op, .stopped⟩, waitLine := true } }

/-- The controller begins a cycle; none while another is in progress (R17; log entry 1). -/
def State.controllerCycle (a : Addr) (op : BusOp) (s : State) : Option State :=
  match s.cp.cycle with
  | some _ => none
  | none => some (if s.lc.resetAsserted then s.stopCycle a op else s.beginCycle a op)

/-! ### Items complete -/

/-- A commit completes: its entry leaves the commit queue and is FREE (R42). -/
def State.commitDone (s : State) : State := { s with rv := { s.rv with committing := s.rv.committing.tail } }

/-- An event append completes: the record leaves the queue and the next position advances (R165). -/
def State.appendDone (s : State) : State :=
  ({ s with ru := { s.ru with events := s.ru.events.tail, ringNext := s.ru.ringNext + 1 } } : State).mark .status

/-- The flags in both sets, word by word. -/
def FlagWords.inter (a b : FlagWords) : FlagWords :=
  #v[a[0] &&& b[0], a[1] &&& b[1], a[2] &&& b[2], a[3] &&& b[3], a[4] &&& b[4], a[5] &&& b[5], a[6] &&& b[6]]

/-- A rewrite completes: for the status record the pending set becomes the shown set (R30, R158). -/
def State.rewriteDone (slot : Slot) (s : State) : State :=
  if slot.val = 19 then
    { s with ru := { s.ru with shown := s.ru.pendingShown.inter s.ru.latched, pendingShown := FlagWords.none } }
  else s

/-- An item's sixteenth word has completed: it is handed over by its kind (section 2.4). -/
def State.itemDone (x : Item) (s : State) : State :=
  match x.kind with
  | .commit => s.commitDone
  | .eventAppend => s.appendDone
  | .rewrite => s.rewriteDone x.slot
  | .loadingRead => s.takeLoad x.slot x.words

/-- The item with its next word done; a loading read keeps the word read. -/
def Item.advance (x : Item) (v : Word) : Item :=
  { x with words := if x.kind.writes then x.words else x.words.setIfInBounds x.next v, next := x.next + 1 }

/-- The Memory Agent's word completes (R26). -/
def State.agentWord (v : Word) (s : State) : State :=
  match s.ma with
  | none => s
  | some x =>
    if x.next < 15 then { s with ma := some (x.advance v) }
    else ({ s with ma := none } : State).itemDone (x.advance v)

/-! ### A memory cycle completes (R23) -/

/-- A write cycle changes memory on its lanes; the port becomes idle (R18, R23). -/
def State.runCycle (m : MemCycle) (s : State) : State :=
  match m.op with
  | .read => { s with mp := none }
  | .write v lanes => { s with mp := none, mem := writeWord s.mem m.addr v lanes }

/-- The controller's cycle ends; a read presents its word (R17). -/
def State.endCycle (op : BusOp) (v : Word) (s : State) : State :=
  match op with
  | .read => { s with cp := ⟨none, false, v⟩ }
  | .write _ _ => { s with cp := ⟨none, false, s.cp.readData⟩ }

/-- A completed read of the status record is handed to the Report Unit (R14). -/
def State.reportRead (a : Addr) (op : BusOp) (v : Word) (s : State) : State :=
  match op, decompose s.lc.baseSelect a with
  | .read, some (slot, p) => if slot.val = 19 then s.statusReadDone p v else s
  | .read, none => s
  | .write _ _, _ => s

/-- The memory cycle m completes (R23). With RESET_n asserted it changes memory and nothing else. -/
def State.finishCycle (m : MemCycle) (s : State) : State :=
  let v := readWord s.mem m.addr
  let s1 := s.runCycle m
  if s.lc.resetAsserted then s1
  else match m.requester with
    | .agent => s1.agentWord v
    | .controller => (s1.endCycle m.op v).reportRead m.addr m.op v

/-- The memory cycle in progress completes, if there is one (R23). -/
def State.memoryCycle (s : State) : Option State :=
  match s.mp with
  | none => none
  | some m => some (s.finishCycle m)

/-- The memory cycle in progress is the sixteenth word of an item of this kind. -/
def State.lastWordOf (s : State) (k : ItemKind) : Bool :=
  match s.ma with
  | none => false
  | some x => decide (x.kind = k) && decide (x.next = 15) && s.agentCycle

/-- The sixteenth word of an item of this kind completes. -/
def State.itemCycle (k : ItemKind) (s : State) : Option State := if s.lastWordOf k then s.memoryCycle else none

/-- The memory cycle in progress is the controller's read of word w of the status record. -/
def State.readsStatus (s : State) (w : Pos) : Bool :=
  match s.mp with
  | none => false
  | some m => decide (m.requester = .controller ∧ m.op = .read ∧ decompose s.lc.baseSelect m.addr = some (19, w))

/-- The controller's read of a flag word of the status record completes (R159). -/
def State.statusReadCycle (w : Pos) (s : State) : Option State :=
  if (flagWordOf w).isSome ∧ s.readsStatus w = true ∧ s.lc.resetAsserted = false then s.memoryCycle else none

/-! ### RESET_n (R168) -/

/-- A Channel Unit at the assertion: outputs off, stroke and calibration lost, line deasserted (R117, R133, R168). What
the lost fields hold until the release gives them their values (R126) no rule says: their reset values at once, the last
outcome and measured displacement among them, the service state kept beside them, so that while RESET_n is asserted
active may be clear in CALIBRATING, are a DESIGN CHOICE (log entry 32). -/
def Channel.atReset (x : Channel) : Channel :=
  { x with seq := Sequencer.idle, restrict := false, cal := Calibration.reset }

/-- The controller's cycle in progress at the assertion is held with the wait line asserted (R16, R20). -/
def ControllerPort.atReset (p : ControllerPort) : ControllerPort :=
  match p.cycle with
  | none => p
  | some x => { p with cycle := some { x with progress := .stopped }, waitLine := true }

/-- The effects of the assertion of RESET_n (R168). -/
def State.assertReset (s : State) : State :=
  { s with
    lc := { s.lc with resetAsserted := true }
    cp := s.cp.atReset
    ma := none
    channels := s.channels.map Channel.atReset
    ru := { s.ru with attention := false } }

/-- RESET_n is asserted, unless it is already (R168). -/
def State.resetAssert (s : State) : Option State := if s.lc.resetAsserted then none else some s.assertReset

/-- The memory cycle under way at a reset is carried to its end (R23; log entry 13). -/
def State.carryToEnd (s : State) : State :=
  match s.mp with
  | none => s
  | some m => s.finishCycle m

/-- Every block at its value after the release, memory and what is not the part's kept (R168). -/
def State.afterRelease (gb : BitVec 4) (sc : BitVec 6) (s : State) : State :=
  { State.released gb sc with pending := s.pending, mem := s.mem, freeUsed := s.freeUsed }

/-- The cycle held through reset is taken afresh (R16, R23); whether it is present at the first grant decision is a
free value (R24; log entry 14). -/
def State.retake (held : Option CpCycle) (s : State) : State :=
  match held with
  | none => s
  | some x =>
    let s1 : State := { s with freeUsed := s.freeUsed + 1 }
    if Config.freeHeldCyclePresent s.freeUsed then s1.beginCycle x.addr x.op
    else s1.settle.beginCycle x.addr x.op

/-- The part at the release, as if RESET_n had been asserted before (log entry 12). -/
def State.underReset (s : State) : State := (if s.lc.resetAsserted then s else s.assertReset).carryToEnd

/-- RESET_n is released with these strap levels (R1, R168). -/
def State.resetRelease (gb : BitVec 4) (sc : BitVec 6) (s : State) : State :=
  (s.underReset.afterRelease gb sc).retake s.underReset.cp.cycle

end Sys2Proof.Machine
end

