-- ==== Sys2Proof/Machine/Timers.lean ====
section
/-! DEFINITION. The part's timers and the field inputs: assembly expiry (R37), history expiry (R57), freshness and
substitution (R80 to R84), the base period (R123), the timers of a stroke (R112 to R116), the proof contact (R113) and
the odorant meter (R124). Each operation answers none where the spec gives the event no occasion in the state: no such
timer runs, or the input is not read (log entry 1). -/

namespace Sys2Proof.Machine

/-! ### Record Verifier and Run Table -/

/-- An ASSEMBLING entry expires (R37). -/
def State.expireEntry (e : Assembly) (s : State) : State :=
  ((s.discardAssembly e.slot).latch (.station .assemblyExpired)).raise .assemblyExpired e.slot.val e.present
    (e.openedAt % 2 ^ 32)

/-- The expiry timer of a slot's ASSEMBLING entry runs out (R37). -/
def State.assemblyExpiry (slot : Slot) (s : State) : Option State :=
  match s.rv.entry slot with
  | none => none
  | some e => some ((s.elapseTo (e.openedAt + e.timeout)).expireEntry e)

/-- A HISTORY slot of run r becomes FREE (R57). -/
def State.freeHistory (t : TallySlot) (r : Run) (s : State) : State :=
  ((s.setClaim t .free).putRun r { s.run r with historyCount := (s.run r).historyCount - 1 }).mark (.run r)

/-- The history timer of a tally slot expires (R57). -/
def State.historyExpiry (t : TallySlot) (s : State) : Option State :=
  match s.claim t with
  | .history r x => some ((s.elapseTo x).freeHistory t r)
  | .free => none
  | .current _ => none

/-- Run r becomes STALE at its staleness expiry, and its substitution timer starts (R80, R82). -/
def State.becomeStale (r : Run) (base : Nat) (s : State) : State :=
  (((s.putRun r { s.run r with condition := .stale, substitution := some ⟨base, 0⟩ }).raise .runStale r.val
    (s.run r).slotNumber (s.run r).shadowRate).mark (.run r)).latch (.run .stale r)

/-- A LIVE run's staleness timer expires (R80). -/
def State.stalenessExpiry (r : Run) (s : State) : Option State :=
  match (s.run r).condition, (s.run r).freshness with
  | .live, some f => some ((s.elapseTo (f.start + f.staleness)).becomeStale r (f.start + f.staleness))
  | _, _ => none

/-- The fallback flow in force for run r. -/
def State.fallbackFlow (s : State) (r : Run) : Nat :=
  match s.runDescriptor r with
  | none => 0
  | some d => d.fallbackFlow

/-- Run r becomes LOST at its horizon expiry (R81). -/
def State.becomeLost (r : Run) (s : State) : State :=
  (((s.putRun r { s.run r with condition := .lost }).raise .runLost r.val (s.run r).slotNumber
    (s.fallbackFlow r)).mark (.run r)).latch (.run .lost r)

/-- A STALE run's horizon timer expires (R81). -/
def State.horizonExpiry (r : Run) (s : State) : Option State :=
  match (s.run r).condition, (s.run r).freshness with
  | .stale, some f => some ((s.elapseTo (f.start + f.horizon)).becomeLost r)
  | _, _ => none

/-- The substitution timer's schedule moves on by one step. -/
def State.countStep (r : Run) (u : Substitution) (s : State) : State :=
  s.setRun r { s.run r with substitution := some ⟨u.base, u.steps + 1⟩ }

/-- The step is carried out, or passed over in DRAINING (R82 to R84). -/
def State.takeStep (r : Run) (f : Freshness) (u : Substitution) (s : State) : State :=
  if s.lc.device = .draining then s.countStep r u
  else (s.countStep r u).substitute r (stepVolume f (s.runDescriptor r) (s.run r).shadowRate (u.steps + 1))

/-- When the next substitution step falls due (R82; log entry 22). -/
def Substitution.due (u : Substitution) : Nat := u.base + 1000 * (u.steps + 1)

/-- A run's substitution timer expires (R82). -/
def State.substitutionStep (r : Run) (s : State) : Option State :=
  match (s.run r).substitution, (s.run r).freshness with
  | some u, some f => some ((s.elapseTo u.due).takeStep r f u)
  | _, _ => none

/-! ### The base period -/

/-- The timer's next expiry, one base period on (R123). -/
def State.nextBase (c : Chan) (b : BaseTimer) (s : State) : State :=
  s.setChan c { s.chan c with baseTimer := some ⟨b.period, b.next + b.period⟩ }

/-- A base-period timer expires in FALLBACK and demands one stroke (R123). -/
def State.basePeriodExpiry (c : Chan) (s : State) : Option State :=
  match s.lc.device, (s.chan c).baseTimer with
  | .fallback, some b => some (((s.elapseTo b.next).nextBase c b).demandStroke c)
  | _, _ => none

/-! ### Strokes -/

/-- The sequencer at the start of DRIVE (R113). -/
def Sequencer.drive (q : Sequencer) (now : Nat) : Sequencer :=
  { q with phase := .drive, strokeOut := true, wetting := true, restRef := now }

/-- The measuring window opens at the drive start of the calibration's first stroke (R130). -/
def Channel.openWindow (x : Channel) : Channel :=
  if x.ownStroke && !x.cal.windowOpen then { x with cal := { x.cal with windowOpen := true, pulses := 0 } } else x

/-- The precheck passes: DRIVE begins (R112, R113). -/
def State.startDrive (c : Chan) (s : State) : State :=
  s.putChan c { (s.chan c).openWindow with seq := (s.chan c).seq.drive s.uptime }

/-- The precheck timer's end. -/
def Sequencer.precheckEnd (q : Sequencer) : Nat := q.precheckStart + q.times.precheck

/-- The precheck timer expires with the contact as read (R112). -/
def State.precheckExpiry (c : Chan) (closed : Bool) (s : State) : Option State :=
  match (s.chan c).seq.phase with
  | .precheck =>
    let s1 := s.elapseTo (s.chan c).seq.precheckEnd
    some (if closed then s1.missStroke c true else s1.startDrive c)
  | .idle => none
  | .drive => none
  | .proof => none
  | .rest => none

/-- The sequencer in PROOF: the stroke output deasserted, the wetting source on (R113). -/
def Sequencer.toProof (q : Sequencer) : Sequencer := { q with phase := .proof, strokeOut := false }

/-- What the end of the drive leads to (R113). -/
def State.endDrive (c : Chan) (s : State) : State :=
  if (s.chan c).seq.proven then s.afterOutcome c
  else if (s.chan c).seq.times.drive < (s.chan c).seq.times.window then
    s.putChan c { s.chan c with seq := (s.chan c).seq.toProof }
  else s.missStroke c false

/-- The drive timer's end. -/
def Sequencer.driveEnd (q : Sequencer) : Nat := q.restRef + q.times.drive

/-- The drive timer expires (R113). -/
def State.driveExpiry (c : Chan) (s : State) : Option State :=
  match (s.chan c).seq.phase with
  | .drive => some ((s.elapseTo (s.chan c).seq.driveEnd).endDrive c)
  | .idle => none
  | .precheck => none
  | .proof => none
  | .rest => none

/-- The proof window timer's end. -/
def Sequencer.windowEnd (q : Sequencer) : Nat := q.restRef + q.times.window

/-- The proof window timer expires in PROOF: the stroke is missed (R114). -/
def State.proofWindowExpiry (c : Chan) (s : State) : Option State :=
  match (s.chan c).seq.phase with
  | .proof => some ((s.elapseTo (s.chan c).seq.windowEnd).missStroke c false)
  | .idle => none
  | .precheck => none
  | .drive => none
  | .rest => none

/-- The rest ends: IDLE, the calibration completes at its last stroke, and the sequencer's test (R116, R131, R111). -/
def State.endRest (c : Chan) (s : State) : State :=
  let s1 := s.putChan c { s.chan c with seq := Sequencer.idle }
  (if (s.chan c).lastCalibrationStroke then s1.completeCalibration c else s1).tryBegin c

/-- The rest's end. -/
def Sequencer.restEnd (q : Sequencer) : Nat := q.restRef + q.times.period

/-- The minimum stroke period has elapsed since the rest reference (R116). -/
def State.restExpiry (c : Chan) (s : State) : Option State :=
  match (s.chan c).seq.phase with
  | .rest => some ((s.elapseTo (s.chan c).seq.restEnd).endRest c)
  | .idle => none
  | .precheck => none
  | .drive => none
  | .proof => none

/-! ### Field inputs -/

/-- A closure would be seen and would be the stroke's first (R113). -/
def Sequencer.awaitsProof (q : Sequencer) : Bool :=
  q.wetting && !q.proven && (decide (q.phase = .drive) || decide (q.phase = .proof))

/-- The proof contact closes (R113, R114). -/
def State.proofClosure (c : Chan) (s : State) : Option State :=
  if (s.chan c).seq.awaitsProof then some (s.proveStroke c) else none

/-- The window pulses after a pulse (R130). -/
def Calibration.pulse (x : Calibration) : Calibration :=
  if x.windowOpen then { x with pulses := satAdd Config.max32 x.pulses 1 } else x

/-- The meter after a pulse of this volume (R124), and the calibration's count of it (R130). -/
def Channel.pulse (x : Channel) (volume : Nat) : Channel :=
  { x with delivered := x.delivered + BitVec.ofNat 32 ((x.remainder + volume) / 1000),
           remainder := (x.remainder + volume) % 1000, cal := x.cal.pulse }

/-- A pulse arrives at channel c's odorant meter input (R124). -/
def State.meterPulse (c : Chan) (s : State) : Option State :=
  match (s.chan c).service, (s.chan c).descriptor with
  | .unconfigured, _ => none
  | _, none => none
  | _, some d => some (s.putChan c ((s.chan c).pulse d.pulseVolume))

end Sys2Proof.Machine
end

