-- ==== Sys2Proof/Machine/Clock.lean ====
section
/-! DEFINITION. What the part does when no command waits: its own due timers and reports come up, or a millisecond
passes (log entries 3 and 5). -/

namespace Sys2Proof.Machine

/-- Whether a moment has been reached. -/
def State.reached (s : State) (deadline : Nat) : Bool := decide (deadline ≤ s.uptime)

/-- The expiries of ASSEMBLING entries that are due (R37). -/
def State.dueAssemblies (s : State) : List Instr :=
  (s.rv.assembling.filter fun e => s.reached (e.openedAt + e.timeout)).map fun e => .assemblyExpired e.slot

/-- The history timer of tally slot t is due (R57). -/
def State.historyDue (s : State) (t : TallySlot) : Bool :=
  match s.claim t with
  | .history _ x => s.reached x
  | .free => false
  | .current _ => false

/-- The history expiries that are due. -/
def State.dueHistory (s : State) : List Instr :=
  ((List.finRange 384).filter s.historyDue).map .historyExpiry

/-- Run r's freshness expiry that is due (R80, R81). -/
def State.dueFreshness (s : State) (r : Run) : List Instr :=
  match (s.run r).condition, (s.run r).freshness with
  | .live, some f => if s.reached (f.start + f.staleness) then [.stalenessExpiry r] else []
  | .stale, some f => if s.reached (f.start + f.horizon) then [.horizonExpiry r] else []
  | _, _ => []

/-- Run r's substitution step that is due (R82). -/
def State.dueStep (s : State) (r : Run) : List Instr :=
  match (s.run r).substitution with
  | none => []
  | some u => if s.reached u.due then [.substitutionStep r] else []

/-- Channel c's base-period expiry that is due (R123). -/
def State.dueBase (s : State) (c : Chan) : List Instr :=
  match s.lc.device, (s.chan c).baseTimer with
  | .fallback, some b => if s.reached b.next then [.basePeriodExpiry c] else []
  | _, _ => []

/-- Channel c's stroke timer that is due (R112 to R116); the contact's reading is a free value (log entry 5). -/
def State.dueStroke (s : State) (c : Chan) : List Instr :=
  let q := (s.chan c).seq
  match q.phase with
  | .idle => []
  | .precheck => if s.reached q.precheckEnd then [.precheckExpiry c (Config.freeContact s.freeUsed c)] else []
  | .drive => if s.reached q.driveEnd then [.driveExpiry c] else []
  | .proof => if s.reached q.windowEnd then [.proofWindowExpiry c] else []
  | .rest => if s.reached q.restEnd then [.restEnd c] else []

/-- The drain report, where the drain is complete (R177). -/
def State.dueDrain (s : State) : List Instr := if s.drainReady then [.drainComplete] else []

/-- Every event of the part's own that is due. -/
def State.dueEvents (s : State) : List Instr :=
  s.dueDrain ++ s.dueAssemblies ++ s.dueHistory ++ (List.finRange 12).flatMap s.dueFreshness ++
  (List.finRange 12).flatMap s.dueStep ++ (List.finRange 4).flatMap s.dueBase ++ (List.finRange 4).flatMap s.dueStroke

/-- The event joins the queue of commands that wait. -/
def State.comeUp (i : Instr) (s : State) : State :=
  { s with pending := s.pending ++ [i], freeUsed := s.freeUsed + 1 }

/-- One millisecond passes (log entry 3). -/
def State.tick (s : State) : State := { s with uptime := s.uptime + 1 }

/-- Which of the events due is taken first: a free value (log entry 5). -/
def State.pick (s : State) (l : List Instr) : Option Instr := l[Config.freeOrder s.freeUsed % l.length]?

/-- A step on an empty queue, RESET_n not asserted: an event due comes up, or else a millisecond passes. -/
def State.awakeStep (s : State) : State :=
  match s.dueEvents with
  | [] => s.tick
  | i :: rest => match s.pick (i :: rest) with
    | none => s.comeUp i
    | some j => s.comeUp j

/-- A step on an empty queue (log entries 3, 5 and 26): a decision left open is taken, else the part's own events and
the time go on. While RESET_n is asserted nothing happens. -/
def State.idleStep (s : State) : State :=
  if s.lc.resetAsserted then s else if s.decisionOpen then s.settle else s.awakeStep

end Sys2Proof.Machine
end

