-- ==== Sys2Proof/Machine/Bus.lean ====
section
/-! DEFINITION. The meanings of the bus commands, of the Memory Agent's item completions, of the drain report and of
the two edges of RESET_n. -/

namespace Sys2Proof.Machine

/-- The answer to a command: where the event has its effect, the state it leaves, the Memory Agent and the Port
Arbiter having gone on with it; where it has no occasion, the state unchanged (log entry 1). -/
def answer (s : State) (effect : Option State) : Host.Outcome State Fault Refusal :=
  match effect with
  | none => .next s
  | some t => .next t.settle

/-- The answer to the end of a memory cycle (R23, R24): as `answer`, but for the decision after a cycle of the
controller's. -/
def answerCycle (s : State) (effect : Option State) : Host.Outcome State Fault Refusal :=
  match effect with
  | none => .next s
  | some t => .next (t.settleAfter s.agentCycle)

/-- An event that the part does not take while RESET_n is asserted (R168). -/
def State.awake (s : State) (effect : Option State) : Option State := if s.lc.resetAsserted then none else effect

/-- CONTROLLER_CYCLE (R17). -/
def execControllerCycle (a : Addr) (op : BusOp) (s : State) : Host.Outcome State Fault Refusal :=
  answer s (s.controllerCycle a op)

/-- MEMORY_CYCLE_COMPLETE (R23). -/
def execMemoryCycleComplete (s : State) : Host.Outcome State Fault Refusal := answerCycle s s.memoryCycle

/-- COMMIT_COMPLETE (R42): the memory cycle that completes is a commit's sixteenth word. -/
def execCommitComplete (s : State) : Host.Outcome State Fault Refusal := answer s (s.itemCycle .commit)

/-- EVENT_APPEND_COMPLETE (R165): it is an event append's sixteenth word. -/
def execEventAppendComplete (s : State) : Host.Outcome State Fault Refusal := answer s (s.itemCycle .eventAppend)

/-- REWRITE_COMPLETE (R30): it is a rewrite's sixteenth word. -/
def execRewriteComplete (s : State) : Host.Outcome State Fault Refusal := answer s (s.itemCycle .rewrite)

/-- LOADING_READ_COMPLETE (R31): it is a loading read's sixteenth word. -/
def execLoadingReadComplete (s : State) : Host.Outcome State Fault Refusal := answer s (s.itemCycle .loadingRead)

/-- STATUS_READ (R159): it is the controller's read of flag word w of the status record. -/
def execStatusRead (w : Pos) (s : State) : Host.Outcome State Fault Refusal :=
  answerCycle s (s.statusReadCycle w)

/-- The reload begins where the drain is complete (R177). -/
def State.drainComplete (s : State) : Option State := if s.drainReady then some s.startReload else none

/-- DRAIN_COMPLETE (R177). -/
def execDrainComplete (s : State) : Host.Outcome State Fault Refusal := answer s (s.awake s.drainComplete)

/-- RESET_ASSERT (R168). -/
def execResetAssert (s : State) : Host.Outcome State Fault Refusal := answer s s.resetAssert

/-- RESET_RELEASE (R168). -/
def execResetRelease (gb : BitVec 4) (sc : BitVec 6) (s : State) : Host.Outcome State Fault Refusal :=
  answer s (some (s.resetRelease gb sc))

end Sys2Proof.Machine
end

