-- ==== Sys2Proof/Machine/Field.lean ====
section
/-! DEFINITION. The meanings of the timer commands and of the field inputs. -/

namespace Sys2Proof.Machine

/-- ASSEMBLY_EXPIRED (R37). -/
def execAssemblyExpired (slot : Slot) (s : State) : Host.Outcome State Fault Refusal :=
  answer s (s.awake (s.assemblyExpiry slot))

/-- HISTORY_EXPIRY (R57). -/
def execHistoryExpiry (t : TallySlot) (s : State) : Host.Outcome State Fault Refusal :=
  answer s (s.awake (s.historyExpiry t))

/-- STALENESS_EXPIRY (R80). -/
def execStalenessExpiry (r : Run) (s : State) : Host.Outcome State Fault Refusal :=
  answer s (s.awake (s.stalenessExpiry r))

/-- HORIZON_EXPIRY (R81). -/
def execHorizonExpiry (r : Run) (s : State) : Host.Outcome State Fault Refusal :=
  answer s (s.awake (s.horizonExpiry r))

/-- SUBSTITUTION_STEP (R84). -/
def execSubstitutionStep (r : Run) (s : State) : Host.Outcome State Fault Refusal :=
  answer s (s.awake (s.substitutionStep r))

/-- BASE_PERIOD_EXPIRY (R123). -/
def execBasePeriodExpiry (c : Chan) (s : State) : Host.Outcome State Fault Refusal :=
  answer s (s.awake (s.basePeriodExpiry c))

/-- PRECHECK_EXPIRY (R112). -/
def execPrecheckExpiry (c : Chan) (closed : Bool) (s : State) : Host.Outcome State Fault Refusal :=
  answer s (s.awake (s.precheckExpiry c closed))

/-- DRIVE_EXPIRY (R113). -/
def execDriveExpiry (c : Chan) (s : State) : Host.Outcome State Fault Refusal :=
  answer s (s.awake (s.driveExpiry c))

/-- PROOF_WINDOW_EXPIRY (R114). -/
def execProofWindowExpiry (c : Chan) (s : State) : Host.Outcome State Fault Refusal :=
  answer s (s.awake (s.proofWindowExpiry c))

/-- REST_END (R116). -/
def execRestEnd (c : Chan) (s : State) : Host.Outcome State Fault Refusal :=
  answer s (s.awake (s.restExpiry c))

/-- PROOF_CLOSURE (R113). -/
def execProofClosure (c : Chan) (s : State) : Host.Outcome State Fault Refusal :=
  answer s (s.awake (s.proofClosure c))

/-- METER_PULSE (R124). -/
def execMeterPulse (c : Chan) (s : State) : Host.Outcome State Fault Refusal :=
  answer s (s.awake (s.meterPulse c))

end Sys2Proof.Machine
end

