-- ==== Sys2Proof/Machine/RecordWrites.lean ====
section
/-! DEFINITION. The meanings of the record rows and the command rows: each is the controller's two-lane write of one
word of a slot, the one meant to complete the record (R36; log entry 2). -/

namespace Sys2Proof.Machine

/-- The controller's two-lane write of word p of a slot (R17, R22). -/
def State.recordWrite (slot : Slot) (p : Pos) (v : Word) (s : State) : Option State :=
  s.controllerCycle (slotAddr s.lc.baseSelect slot p) (.write v .both)

/-- The controller's write of word p of slot 17, the word being that of the command record with this tag, code and
arguments (R147). -/
def State.commandWrite (tag code a b : Word) (p : Pos) (s : State) : Option State :=
  s.recordWrite 17 p (commandRecordOf tag code a b)[p]

/-- TALLY_RECORD (R65). -/
def execTallyRecord (t : TallySlot) (p : Pos) (v : Word) (s : State) : Host.Outcome State Fault Refusal :=
  answer s (s.recordWrite (tallySlotOf t) p v)

/-- STATION_DESCRIPTOR (R139). -/
def execStationDescriptor (p : Pos) (v : Word) (s : State) : Host.Outcome State Fault Refusal :=
  answer s (s.recordWrite 0 p v)

/-- CHANNEL_DESCRIPTOR (R143). -/
def execChannelDescriptor (c : Chan) (p : Pos) (v : Word) (s : State) : Host.Outcome State Fault Refusal :=
  answer s (s.recordWrite (channelDescriptorSlot c) p v)

/-- RUN_DESCRIPTOR (R146). -/
def execRunDescriptor (r : Run) (p : Pos) (v : Word) (s : State) : Host.Outcome State Fault Refusal :=
  answer s (s.recordWrite (runDescriptorSlot r) p v)

/-- CLEAR_RUN (R149). -/
def execClearRun (tag run : Word) (p : Pos) (s : State) : Host.Outcome State Fault Refusal :=
  answer s (s.commandWrite tag 1 run 0 p)

/-- CLEAR_CHANNEL (R149). -/
def execClearChannel (tag ch : Word) (p : Pos) (s : State) : Host.Outcome State Fault Refusal :=
  answer s (s.commandWrite tag 2 ch 0 p)

/-- CLEAR_DEFICIT (R150). -/
def execClearDeficit (tag ch : Word) (p : Pos) (s : State) : Host.Outcome State Fault Refusal :=
  answer s (s.commandWrite tag 3 ch 0 p)

/-- CLEAR_CAPTURE (R50). -/
def execClearCapture (tag : Word) (p : Pos) (s : State) : Host.Outcome State Fault Refusal :=
  answer s (s.commandWrite tag 4 0 0 p)

/-- SET_SERVICE_IN (R151). -/
def execSetServiceIn (tag ch : Word) (p : Pos) (s : State) : Host.Outcome State Fault Refusal :=
  answer s (s.commandWrite tag 5 ch 1 p)

/-- SET_SERVICE_OUT (R151). -/
def execSetServiceOut (tag ch : Word) (p : Pos) (s : State) : Host.Outcome State Fault Refusal :=
  answer s (s.commandWrite tag 5 ch 0 p)

/-- CALIBRATE (R127). -/
def execCalibrate (tag ch k : Word) (p : Pos) (s : State) : Host.Outcome State Fault Refusal :=
  answer s (s.commandWrite tag 6 ch k p)

/-- UNBIND_RUN (R73). -/
def execUnbindRun (tag run : Word) (p : Pos) (s : State) : Host.Outcome State Fault Refusal :=
  answer s (s.commandWrite tag 7 run 0 p)

/-- RELEASE_HISTORY (R74). -/
def execReleaseHistory (tag run : Word) (p : Pos) (s : State) : Host.Outcome State Fault Refusal :=
  answer s (s.commandWrite tag 8 run 0 p)

/-- RESTART (R153). -/
def execRestart (tag : Word) (p : Pos) (s : State) : Host.Outcome State Fault Refusal :=
  answer s (s.commandWrite tag 9 0 0 p)

/-- COMMAND_RECORD (R147). -/
def execCommandRecord (p : Pos) (v : Word) (s : State) : Host.Outcome State Fault Refusal :=
  answer s (s.recordWrite 17 p v)

end Sys2Proof.Machine
end

