-- ==== Sys2Proof/Machine/Dispatch.lean ====
section
/-! DEFINITION. One meaning for each command. -/

namespace Sys2Proof.Machine

/-- The command's effect on everything but the queue. -/
def exec (i : Instr) (s : State) : Host.Outcome State Fault Refusal :=
  match i with
  | .controllerCycle a op => Sys2Proof.Machine.execControllerCycle a op s
  | .memoryCycleComplete => Sys2Proof.Machine.execMemoryCycleComplete s
  | .commitComplete => Sys2Proof.Machine.execCommitComplete s
  | .eventAppendComplete => Sys2Proof.Machine.execEventAppendComplete s
  | .rewriteComplete => Sys2Proof.Machine.execRewriteComplete s
  | .loadingReadComplete => Sys2Proof.Machine.execLoadingReadComplete s
  | .drainComplete => Sys2Proof.Machine.execDrainComplete s
  | .resetAssert => Sys2Proof.Machine.execResetAssert s
  | .resetRelease gb sc => Sys2Proof.Machine.execResetRelease gb sc s
  | .tallyRecord t p v => Sys2Proof.Machine.execTallyRecord t p v s
  | .stationDescriptor p v => Sys2Proof.Machine.execStationDescriptor p v s
  | .channelDescriptor ch p v => Sys2Proof.Machine.execChannelDescriptor ch p v s
  | .runDescriptor r p v => Sys2Proof.Machine.execRunDescriptor r p v s
  | .clearRun tag run p => Sys2Proof.Machine.execClearRun tag run p s
  | .clearChannel tag ch p => Sys2Proof.Machine.execClearChannel tag ch p s
  | .clearDeficit tag ch p => Sys2Proof.Machine.execClearDeficit tag ch p s
  | .clearCapture tag p => Sys2Proof.Machine.execClearCapture tag p s
  | .setServiceIn tag ch p => Sys2Proof.Machine.execSetServiceIn tag ch p s
  | .setServiceOut tag ch p => Sys2Proof.Machine.execSetServiceOut tag ch p s
  | .calibrate tag ch k p => Sys2Proof.Machine.execCalibrate tag ch k p s
  | .unbindRun tag run p => Sys2Proof.Machine.execUnbindRun tag run p s
  | .releaseHistory tag run p => Sys2Proof.Machine.execReleaseHistory tag run p s
  | .restart tag p => Sys2Proof.Machine.execRestart tag p s
  | .statusRead w => Sys2Proof.Machine.execStatusRead w s
  | .assemblyExpired slot => Sys2Proof.Machine.execAssemblyExpired slot s
  | .historyExpiry t => Sys2Proof.Machine.execHistoryExpiry t s
  | .stalenessExpiry r => Sys2Proof.Machine.execStalenessExpiry r s
  | .horizonExpiry r => Sys2Proof.Machine.execHorizonExpiry r s
  | .substitutionStep r => Sys2Proof.Machine.execSubstitutionStep r s
  | .basePeriodExpiry ch => Sys2Proof.Machine.execBasePeriodExpiry ch s
  | .precheckExpiry ch closed => Sys2Proof.Machine.execPrecheckExpiry ch closed s
  | .driveExpiry ch => Sys2Proof.Machine.execDriveExpiry ch s
  | .proofWindowExpiry ch => Sys2Proof.Machine.execProofWindowExpiry ch s
  | .restEnd ch => Sys2Proof.Machine.execRestEnd ch s
  | .proofClosure ch => Sys2Proof.Machine.execProofClosure ch s
  | .meterPulse ch => Sys2Proof.Machine.execMeterPulse ch s
  | .commandRecord p v => Sys2Proof.Machine.execCommandRecord p v s

end Sys2Proof.Machine
end

