-- ==== Sys2Proof/Safety.lean ====
section
/-! DEFINITION. What the model calls safe: the invariants of the block that the spec's rules promise, each a decidable
property of one state. -/

namespace Sys2Proof.Safety

open Sys2Proof.Machine

/-- RESET_n is deasserted. -/
def Awake (s : State) : Prop := s.lc.resetAsserted = false

/-- At most eight pool entries are in use, and no slot has two ASSEMBLING entries (R33). -/
def PoolWf (s : State) : Prop := s.rv.inUse ≤ Config.poolSize ∧ (s.rv.assembling.map (·.slot)).Nodup

/-- The event queue holds at most 16 records (R164). -/
def QueueWf (s : State) : Prop := s.ru.events.length ≤ Config.eventQueueSize

/-- The record memory is in canonical form. -/
def MemoryWf (s : State) : Prop := Memory.wf s.mem = true

/-- A channel's outputs follow its phase (R117): the stroke output is on in DRIVE alone, the wetting source in
PRECHECK, DRIVE and PROOF alone. -/
def OutputsFollow (x : Channel) : Prop :=
  (x.seq.strokeOut = true ↔ x.seq.phase = .drive) ∧
  (x.seq.wetting = true ↔ x.seq.phase = .precheck ∨ x.seq.phase = .drive ∨ x.seq.phase = .proof)

/-- The owed count and the stroke credit stay within 4,095 (R92). -/
def DemandBounded (x : Channel) : Prop := x.owed ≤ Config.maxStrokes ∧ x.credit ≤ Config.maxStrokes

/-- The attention line shows whether a latched flag lies in an enabled group, and is deasserted while RESET_n is
asserted (R161). -/
def AttentionFollows (s : State) : Prop :=
  s.ru.attention = (s.attentionDue && !s.lc.resetAsserted)

/-- While the memory port reads a word of the record area for the controller, that word's slot is not under write
(R19). -/
def ReadsWhole (s : State) : Prop :=
  ∀ m slot p, s.mp = some m → m.requester = .controller → m.op = .read →
    decompose s.lc.baseSelect m.addr = some (slot, p) → s.underWrite slot = false

/-- The number of tally slots in HISTORY for the run. -/
def historySlotsOf (s : State) (r : Run) : Nat :=
  ((List.finRange 384).filter fun k => match s.claim k with | .history q _ => decide (q = r) | _ => false).length

/-- The Run Table agrees with its slot map (R53 to R57): a run is bound exactly where it has a current slot, that slot is
CURRENT for it and no other slot is, so that no two runs share one; the history count is the number of the run's
HISTORY slots; and outside a STALE or LOST spell E is 0 and no substitution timer runs (R82, R85). -/
structure RunTableWf (s : State) : Prop where
  bound : ∀ r, (s.run r).condition.bound = (s.run r).currentSlot.isSome
  current : ∀ r k, (s.run r).currentSlot = some k ↔ s.claim k = .current r
  history : ∀ r, (s.run r).historyCount = historySlotsOf s r
  estimate : ∀ r, (s.run r).condition ≠ .stale → (s.run r).condition ≠ .lost →
    (s.run r).estimated = 0 ∧ (s.run r).substitution = none

/-- The tally slots in which the scan has found a valid record. -/
def scannedSlots (z : Scan) : List TallySlot :=
  (List.finRange 12).flatMap fun r => (z.best[r].map fun b => b.slot).toList ++ z.others[r]

/-- A load keeps its order (R169, R174, R178): a loading read is the read requested; in LOADING every tally slot is FREE
and no run bound; the scan has found each slot once, all before the one requested, and a run has other slots only beside
a best one; a drain is never that of a reset, the channel descriptors are read after a reset alone, and a channel whose
descriptor is still to be read has none. -/
structure LoadWf (s : State) : Prop where
  reading : ∀ x, s.ma = some x → x.kind = .loadingRead → s.lc.device = .loading ∧ s.lc.loadSlot = some x.slot
  empty : s.lc.device = .loading →
    (∀ k, s.claim k = .free) ∧ ∀ r, (s.run r).condition = .retired ∨ (s.run r).condition = .unbound
  distinct : (scannedSlots s.lc.scan).Nodup
  behind : ∀ k : Slot, s.lc.loadSlot = some k → ∀ j ∈ scannedSlots s.lc.scan, j.val + 128 < k.val
  ranked : ∀ r : Run, s.lc.scan.best[r] = none → s.lc.scan.others[r] = []
  draining : s.lc.device = .draining → s.lc.cause ≠ .reset
  channels : s.lc.device = .loading → ∀ k : Slot, s.lc.loadSlot = some k → k.val ≤ 4 →
    (s.lc.cause = .reset ∨ k.val = 0) ∧ (s.lc.cause = .reset → ∀ c : Chan, k.val ≤ 1 + c.val → (s.chan c).descriptor = none)

/-- A channel's demand state agrees with its descriptor (R98, R108, R141): UNCONFIGURED exactly without one, and then with
nothing demanded; else the descriptor in force keeps its ranges, and the residue is below the quantum. -/
structure ChannelWf (x : Channel) : Prop where
  configured : x.service = .unconfigured ↔ x.descriptor = none
  unconfigured : x.descriptor = none →
    x.residue = 0 ∧ x.owed = 0 ∧ x.restrict = false ∧ x.cal.active = false ∧ x.baseTimer = none
  configuredIn : ∀ d, x.descriptor = some d → d.inRange = true ∧ x.residue < x.working * 1000

/-- The restrict line is asserted at or above the high mark, deasserted at or below the low mark (R105). -/
def LineWf (x : Channel) : Prop :=
  ∀ d, x.descriptor = some d → (d.highMark ≤ x.owed → x.restrict = true) ∧ (x.owed ≤ d.lowMark → x.restrict = false)

/-- Every channel's demand state is as it should be, and, RESET_n deasserted, its line. -/
def ChannelsWf (s : State) : Prop := (∀ c, ChannelWf (s.chan c)) ∧ (Awake s → ∀ c, LineWf (s.chan c))

/-! ### What the statements say of a state after a command -/

/-- Nothing outside the blocks changes, and nothing under way at the memory port: the commands that wait, every byte
of the record memory, the word last presented to the controller, the controller's cycle, the memory cycle in progress
with the port's count, and the Memory Agent's current item; with no cycle of the controller's in progress the wait line
stays too, so that a cycle that is refused or taken at once ends without it (R20 to R22). (A free port or an idle Memory Agent may go on with work
that waits, R24 and R26.) -/
structure Outside (s t : State) : Prop where
  pending : t.pending = s.pending
  freeUsed : t.freeUsed = s.freeUsed
  memory : ∀ k, memByte t.mem k = memByte s.mem k
  readData : t.cp.readData = s.cp.readData
  controllerCycle : (t.cp.cycle.map fun x => (x.addr, x.op)) = s.cp.cycle.map fun x => (x.addr, x.op)
  memoryCycle : ∀ m, s.mp = some m → t.mp = some m ∧ t.passOver = s.passOver ∧ t.cp = s.cp
  noCycle : s.cp.cycle = none → t.cp = s.cp
  item : ∀ x, s.ma = some x → t.ma = some x

/-- The blocks beside the memory port are unchanged, the commands that wait too. -/
structure SameBlocks (s t : State) : Prop where
  pending : t.pending = s.pending
  uptime : t.uptime = s.uptime
  loader : t.lc = s.lc
  verifier : t.rv = s.rv
  runTable : t.rt = s.rt
  channels : t.channels = s.channels
  reports : t.ru = { s.ru with dirty := t.ru.dirty, pendingShown := t.ru.pendingShown }

/-! ### Items and loading reads -/

/-- The memory cycle of an item's word p (R18, R26, R31). -/
def wordCycle (x : Item) (p : Nat) : BusOp :=
  if x.kind = .loadingRead then .read else .write (x.words[p]?.getD 0) .both

/-- The memory port runs the sixteenth word of this item, which is of this kind. -/
def LastWord (s : State) (k : ItemKind) (x : Item) : Prop :=
  x.kind = k ∧ x.next = 15 ∧ s.ma = some x ∧ s.mp = some ⟨.agent, slotAddr s.lc.baseSelect x.slot 15, wordCycle x 15⟩

/-- The cycle of the controller's that ends leaves it with no cycle and this data word (R17, R20). -/
def Ended (t : State) (v : Word) : Prop := t.cp = ⟨none, false, v⟩

/-- The item's word in progress reaches memory, if the item writes; no other byte changes (R18, R26). -/
def WordWritten (s t : State) (x : Item) : Prop :=
  let a := slotAddr s.lc.baseSelect x.slot (Fin.ofNat 16 x.next)
  if x.kind = .loadingRead then ∀ k, memByte t.mem k = memByte s.mem k
  else (∀ k, k ≠ upperKey a → k ≠ lowerKey a → memByte t.mem k = memByte s.mem k) ∧
    readWord t.mem a = x.words[x.next]?.getD 0

/-- The port runs the next word of the item, and the pass-over count is 0 (R24). -/
def WordGranted (t : State) (x : Item) : Prop :=
  t.mp = some ⟨.agent, slotAddr t.lc.baseSelect x.slot (Fin.ofNat 16 x.next), wordCycle x x.next⟩ ∧ t.passOver = 0

/-- The item has just begun, its first word granted the port (R24, R26; at an idle port log entry 28). -/
def Begun (t : State) (x : Item) : Prop := t.ma = some x ∧ x.next = 0 ∧ WordGranted t x

/-- The controller's cycle is a read of the slot the item writes (R19). -/
def HeldBy (s : State) (x : Item) (c : CpCycle) : Bool :=
  x.kind.writes && decide (c.op = .read) && decide ((decompose s.lc.baseSelect c.addr).map Prod.fst = some x.slot)

/-- The controller's cycle c competes for the free port beside the item m (R19, R24): it waits, and is no read of a slot
whose writing the item has begun. -/
def Competes (s : State) (m : Option Item) (c : CpCycle) : Prop :=
  s.cp.cycle = some c ∧ c.progress = .waiting ∧ ∀ x, m = some x → 0 < x.next → HeldBy s x c = false

/-- The grant decision of R24 at the free port, line by line of its table, between the controller's cycle in s and the
item t holds. -/
structure Granted (s t : State) : Prop where
  controllerOnly : ∀ c, Competes s t.ma c → t.ma = none →
    t.mp = some ⟨.controller, c.addr, c.op⟩ ∧ t.passOver = s.passOver ∧
    t.cp = { s.cp with cycle := some ⟨c.addr, c.op, .running⟩, waitLine := false }
  agentOnly : ∀ x, t.ma = some x → (∀ c, ¬Competes s t.ma c) → WordGranted t x ∧ t.cp = s.cp
  bothBelow : ∀ c x, Competes s t.ma c → t.ma = some x → s.passOver < t.starvationLimit →
    t.mp = some ⟨.controller, c.addr, c.op⟩ ∧ t.passOver = s.passOver + 1 ∧
    t.cp = { s.cp with cycle := some ⟨c.addr, c.op, .running⟩, waitLine := false }
  bothAt : ∀ c x, Competes s t.ma c → t.ma = some x → t.starvationLimit ≤ s.passOver → WordGranted t x ∧ t.cp = s.cp
  nobody : t.ma = none → (∀ c, ¬Competes s t.ma c) → t.mp = none ∧ t.passOver = s.passOver ∧ t.cp = s.cp

/-- The port after the end of the controller's own cycle, with no other cycle of the controller's arrived (R24): a
waiting word of the Memory Agent is granted, or, for the controller's next cycle may arrive while the decision is being
taken, the decision is left open (the model's choice: log entry 26). -/
def LeftToAgent (s t : State) : Prop :=
  match t.ma with
  | none => t.mp = none ∧ t.passOver = s.passOver ∧ t.freeUsed = s.freeUsed
  | some x => t.freeUsed = s.freeUsed + 1 ∧ (WordGranted t x ∨ t.mp = none ∧ t.passOver = s.passOver)

/-- Between s and t the Memory Agent has begun the rewrite of this part record, with a snapshot of what it is in t. -/
def Starts (s t : State) (k : PartSlot) : Bool :=
  decide (t.ma ≠ s.ma) && decide (t.ma = some ⟨.rewrite, k.slot, t.snapshot k, 0⟩)

/-- Nothing waits for the Memory Agent's choice (R27, R32, R177): no commit; in LOADING no loading read; else no mark,
and, but for the end of a drain, no event (log entry 11). -/
def NothingPending (s : State) : Prop :=
  s.rv.committing = [] ∧ (s.lc.device = .loading → s.lc.loadSlot = none) ∧
  (s.lc.device ≠ .loading → (∀ k : PartSlot, s.ru.dirty[k] = false) ∧ (s.lc.device ≠ .draining → s.ru.events = []))

/-- The item x, just taken, is the first that R27 yields, read off the state after the taking, in which what it was
taken from is still queued (R28, R29) and its own mark is clear (R30): a commit; in LOADING a loading read, 0 at the
positions not yet read (the model's choice: log entry 30); else an event append, in DRAINING only while a mark is set (log entry 11); else a rewrite of the lowest dirty part slot. -/
def FirstInOrder (t : State) (x : Item) : Prop :=
  (∃ c rest, t.rv.committing = c :: rest ∧ x = ⟨.commit, c.slot, c.words, 0⟩) ∨
  (t.rv.committing = [] ∧ t.lc.device = .loading ∧
    ∃ k, t.lc.loadSlot = some k ∧ x = ⟨.loadingRead, k, Vector.replicate 16 0, 0⟩) ∨
  (t.rv.committing = [] ∧ t.lc.device ≠ .loading ∧ (t.lc.device = .draining → ∃ k : PartSlot, t.ru.dirty[k] = true) ∧
    ∃ e rest, t.ru.events = e :: rest ∧ x = ⟨.eventAppend, ringSlot t.ru.ringNext, eventRecordAt t.ru.ringNext e, 0⟩) ∨
  (t.rv.committing = [] ∧ t.lc.device ≠ .loading ∧ t.ru.events = [] ∧
    ∃ k : PartSlot, x = ⟨.rewrite, k.slot, t.snapshot k, 0⟩ ∧ ∀ j : PartSlot, j.val ≤ k.val → t.ru.dirty[j] = false)

/-- The Memory Agent has made its choice (R27): it holds the first item of the order, or none, and then nothing waits. -/
def ChosenFirst (t : State) : Prop :=
  (∀ x, t.ma = some x → FirstInOrder t x) ∧ (t.ma = none → NothingPending t)

/-- What the Memory Agent makes of the marks and of the pending set between s and t, where it may have begun a rewrite
(R30, R158): `D` are the marks it found, `p` the pending set. -/
structure Rewrites (s t : State) (D : PartSlot → Prop) (p : Flag → Bool) : Prop where
  marks : ∀ k : PartSlot, t.ru.dirty[k] = true ↔ D k ∧ Starts s t k = false
  pendingShown : ∀ f, t.ru.pendingShown.has f = if Starts s t .status then t.ru.latched.has f else p f

/-- An item has ended: the Memory Agent takes the next in the order of R27, and the port is granted by R24 between it
and the controller's cycle, which waited meanwhile. -/
structure GoesOn (s t : State) (D : PartSlot → Prop) (p : Flag → Bool) : Prop where
  item : ChosenFirst t
  rewrites : Rewrites s t D p
  port : Granted s t

/-- The controller's memory cycle has ended: the Memory Agent keeps its item, or, idle, takes the first in the order of
R27, and the port is the Memory Agent's by R24, for no other cycle of the controller's can have begun. -/
structure Returned (s t : State) (D : PartSlot → Prop) : Prop where
  kept : ∀ x, s.ma = some x → t.ma = some x
  item : s.ma = none → ChosenFirst t
  rewrites : Rewrites s t D s.ru.pendingShown.has
  port : LeftToAgent s t

/-- Every flag of the pending set is set in the status record under write (R158). -/
def PendingFollows (s : State) : Prop :=
  Awake s → ∀ f, s.ru.pendingShown.has f = true →
    ∃ x, s.ma = some x ∧ x.kind = .rewrite ∧ x.slot = 19 ∧ (x.words[f.word.val + 2]?.getD 0).getLsbD f.bit = true

/-- While the Memory Agent is idle nothing waits for it (R26). -/
def AgentBusy (s : State) : Prop := Awake s → s.ma = none → NothingPending s

/-- Every cycle the controller has forwarded, waiting or running, is one that R12 forwards, and the pool holds records of
controller slots alone; a current item means RESET_n is deasserted, its words have reached memory up to the next one if
it writes, and a memory cycle of the Memory Agent is that next word (R12, R15, R26, R33). -/
def WritesInOrder (s : State) : Prop :=
  (Awake s → ∀ c, s.cp.cycle = some c → classify s.lc.baseSelect c.addr c.op = .forward) ∧
  (∀ m, s.mp = some m → m.requester = .controller → classify s.lc.baseSelect m.addr m.op = .forward) ∧
  (∀ e ∈ s.rv.assembling, slotClass e.slot = .controller) ∧ (∀ e ∈ s.rv.committing, slotClass e.slot = .controller) ∧
  (Awake s → ∀ m, s.mp = some m → m.requester = .agent →
    ∃ x, s.ma = some x ∧ m.addr = slotAddr s.lc.baseSelect x.slot (Fin.ofNat 16 x.next) ∧ m.op = wordCycle x x.next) ∧
  (∀ x, s.ma = some x → Awake s ∧ x.next ≤ 15 ∧ (x.kind = .loadingRead ∨
    slotClass x.slot ≠ .openSlot ∧
    ∀ p : Pos, p.val < x.next → readWord s.mem (slotAddr s.lc.baseSelect x.slot p) = x.words[p]))

/-- Memory once the cycle under way has been carried to its end (R23). -/
def carried (s : State) : List Host.Cell :=
  match s.mp with
  | none => s.mem
  | some m => match m.op with
    | .read => s.mem
    | .write v lanes => writeWord s.mem m.addr v lanes

/-- The sixteenth word of a loading read completes, and w is the record read (R31). -/
def LastRead (s : State) (x : Item) (w : Record) : Prop :=
  LastWord s .loadingRead x ∧ s.lc.device = .loading ∧ s.rv.committing = [] ∧
  w = x.words.set 15 (readWord s.mem (slotAddr s.lc.baseSelect x.slot 15))

/-- Slot k is read after slot j in a load (R169): after a reset steps 2 and 3 are made, and with a station descriptor
in force steps 4, 5 and 8. -/
def AfterInLoad (afterReset station : Bool) (j k : Slot) : Prop :=
  (j.val = 0 ∧ afterReset = true ∧ k.val = 1) ∨
  (j.val = 0 ∧ afterReset = false ∧ k.val = if station then 5 else 19) ∨
  (1 ≤ j.val ∧ j.val ≤ 3 ∧ k.val = j.val + 1) ∨ (j.val = 4 ∧ k.val = 22) ∨
  (22 ≤ j.val ∧ j.val ≤ 24 ∧ k.val = j.val + 1) ∨ (j.val = 25 ∧ k.val = if station then 5 else 19) ∨
  (5 ≤ j.val ∧ j.val ≤ 15 ∧ k.val = j.val + 1) ∨ (j.val = 16 ∧ k.val = 26) ∨
  (26 ≤ j.val ∧ j.val ≤ 36 ∧ k.val = j.val + 1) ∨ (j.val = 37 ∧ k.val = 19) ∨
  (j.val = 19 ∧ k.val = 20) ∨ (j.val = 20 ∧ station = true ∧ k.val = 128) ∨
  (128 ≤ j.val ∧ j.val ≤ 510 ∧ k.val = j.val + 1)

/-- A loading read has been handed over and the next requested (R24, R31, R169): the read of slot k has been taken, the
port granted between it and the controller's waiting cycle; memory, time, the commands that wait and the count of free
values used stay. The item holds 0 at the positions not yet read (the model's choice: log entry 30). -/
structure Requested (s t : State) (k : Slot) : Prop where
  item : t.ma = some ⟨.loadingRead, k, Vector.replicate 16 0, 0⟩
  port : Granted s t
  memory : ∀ b, memByte t.mem b = memByte s.mem b
  uptime : t.uptime = s.uptime
  pending : t.pending = s.pending
  freeUsed : t.freeUsed = s.freeUsed

/-- The record read from a slot below the tally band is not valid for its step (R10, R169, R171 to R173, R51): it is not
intact, its head is not the slot's (of slot 20 the model's reading: log entry 18), or a field fails its step's test; of
slot 0 here only that it is not intact. -/
def AbsentAt (slot : Slot) (w : Record) : Prop :=
  intact w = false ∨ 0 < slot.val ∧ slot.val < 128 ∧
    (recordKind w ≠ expectedKind slot ∨ recordIndex w ≠ expectedIndex slot ∨
      (∃ c : Chan, slot.val = 1 + c.val ∧ readChannel w = none) ∨
      (∃ r : Run, slot.val = 5 + r.val ∧ readRun w = none) ∨
      (∃ c : Chan, slot.val = 22 + c.val ∧ readChannelReport w = none) ∨
      (∃ r : Run, slot.val = 26 + r.val ∧ 4 < (w[1].extractLsb' 12 4).toNat) ∨
      (slot.val = 19 ∧ 64 ≤ w[9].toNat) ∨ (slot.val = 20 ∧ w[1].getLsbD 0 = false))

/-- The record read from slot 0 is intact and fails this test first (R170). -/
def StationFails (s : State) (w : Record) (reason : Nat) : Prop :=
  intact w = true ∧
  ((reason = 2 ∧ recordKind w ≠ 0x51) ∨ (reason = 3 ∧ recordKind w = 0x51 ∧ recordIndex w ≠ 0) ∨
    (reason = 4 ∧ w[0] = 0x5100 ∧ readStation w = none) ∨
    (reason = 12 ∧ w[0] = 0x5100 ∧ ∃ d, readStation w = some d ∧ d.stationCode ≠ s.lc.stationCode.toNat))

/-- The channel with a valid report's fields, points 1 to 3 of R171. -/
def restoredFrom (x : Channel) (d : ChannelDescriptor) (q : ChannelRestore) : Channel :=
  { x with
    residue := q.residue, owed := q.owed, credit := q.credit, deficit := q.deficit
    delivered := q.delivered + x.delivered
    cal := { x.cal with lastOutcome := if q.wasCalibrating then .aborted else q.lastOutcome
                        lastMeasured := if q.wasCalibrating then 0 else q.lastMeasured }
    working := if q.nominal = d.nominal ∧ 1000 ≤ q.working ∧ q.working ≤ 2000000 then q.working else d.nominal }

/-- The capture header read from slot 20 restores an occupied capture (R51, R169): at a load after reset it is intact,
of the header's kind and index (the model's reading: log entry 18), and marked occupied. -/
def HeaderRestores (s : State) (w : Record) : Prop :=
  s.lc.cause = .reset ∧ intact w = true ∧ w[0] = 0x6300 ∧ w[1].getLsbD 0 = true

/-- The capture that a header holds (R51). -/
def captureOf (w : Record) : Capture := ⟨true, w[2], w[3], w[4] ++ w[5], w[6].toNat, w[7], none⟩

/-- A tally record is valid for the scan, and run r's (R174). -/
def ScanValid (s : State) (r : Run) (w : Record) : Prop :=
  intact w = true ∧ recordKind w = 0x55 ∧ recordIndex w = r.val ∧ ∃ d, s.runDescriptor r = some d ∧ d.enabled = true

/-- The record of tally slot k replaces the best (R174). -/
def Replaces (b : ScanBest) (k : TallySlot) (w : Record) : Prop :=
  b.total < num3 w[2] w[3] w[4] ∨
  b.total = num3 w[2] w[3] w[4] ∧ b.sequence.toNat < w[1].toNat ∨
  b.total = num3 w[2] w[3] w[4] ∧ b.sequence = w[1] ∧ k.val < b.slot.val

/-- The scan is z once tally slot k, read as w, has been weighed (R174). -/
structure Weighed (s : State) (k : TallySlot) (w : Record) (z : Scan) : Prop where
  absent : (∀ r, ¬ScanValid s r w) → z = s.lc.scan
  counted : ∀ r, ScanValid s r w → z.valid = s.lc.scan.valid + 1
  others : ∀ r q, ScanValid s r w → q ≠ r → z.best[q] = s.lc.scan.best[q] ∧ z.others[q] = s.lc.scan.others[q]
  first : ∀ r, ScanValid s r w → s.lc.scan.best[r] = none →
    z.best[r] = some ⟨k, w[1], num3 w[2] w[3] w[4], num2 w[5] w[6]⟩ ∧ z.others[r] = s.lc.scan.others[r]
  better : ∀ r b, ScanValid s r w → s.lc.scan.best[r] = some b → Replaces b k w →
    z.best[r] = some ⟨k, w[1], num3 w[2] w[3] w[4], num2 w[5] w[6]⟩ ∧ z.others[r] = s.lc.scan.others[r] ++ [b.slot]
  worse : ∀ r b, ScanValid s r w → s.lc.scan.best[r] = some b → ¬Replaces b k w →
    z.best[r] = some b ∧ z.others[r] = s.lc.scan.others[r] ++ [k]

/-- A load ends in this device state (R167, R175): no read is requested, the scan is done with, the result record's
content is that of R175. -/
def loaderDone (s : State) (d : DeviceState) (result : ResultContent) : Loader :=
  { s.lc with device := d, loadSlot := none, scan := Scan.empty, result := result }

/-- The part records marked at load completion (R175): the result record, unless a station descriptor's acceptance led
here, the status record and every report. -/
def loadMarks (s : State) : List PartSlot :=
  (if s.lc.cause = .stationAccepted then [] else [.result]) ++ .status ::
    (List.finRange 4).map .channel ++ (List.finRange 12).map .run

/-- The result record's content after a load (R153, R175). -/
def loadedResult (s : State) : ResultContent :=
  match s.lc.cause with
  | .reset => ⟨0, 0, .none, s.count, 0⟩
  | .restart tag => ⟨tag, 9, .done, s.count, 0⟩
  | .stationAccepted => s.lc.result

/-- The read of word w of the status record that completes clears the flag (R159): the flag lies in that word, is set in
the value read and in the shown set, and its condition, if it has one, is absent. -/
def ReadClears (s : State) (w : Pos) (f : Flag) : Bool :=
  decide (f.word.val + 2 = w.val) && (readWord s.mem (slotAddr s.lc.baseSelect 19 w)).getLsbD f.bit &&
  s.ru.shown.has f && !s.conditions.has f

/-! ### Part records -/

/-- The record w holds the current content of part slot k, in the layout of R182 with the encodings of R180: kind and
index of the slot map and a correct check word, but for the capture body (R4, R30); the result record's answer (R148);
the latched flags of the status record and its other fields (R155); the capture (R49); a channel's and a run's report
(R163). A number wider than its field is carried modulo the field's size. Spare words are 0. -/
structure PartRecordHolds (s : State) (k : PartSlot) (w : Record) : Prop where
  frame : k ≠ .captureBody → w[0] = headWord (expectedKind k.slot) (expectedIndex k.slot) ∧ intact w = true
  result : k = .result →
    w[1] = s.lc.result.tag ∧ w[2] = s.lc.result.code ∧ w[3] = BitVec.ofNat 16 s.lc.result.outcome.code ∧
    num2 w[4] w[5] = s.lc.result.time.toNat ∧ num2 w[6] w[7] = s.lc.result.detail % 2 ^ 32 ∧
    ∀ p : Pos, 8 ≤ p.val → p.val ≤ 14 → w[p] = 0
  status : k = .status →
    (hiByte w[1]).toNat = s.lc.device.code ∧ (loByte w[1]).toNat = s.lc.stationCode.toNat ∧
    (∀ f : Flag, (w[f.word.val + 2]?.getD 0).getLsbD f.bit = s.ru.latched.has f) ∧
    (∀ i : Fin 7, w[i.val + 2]?.getD 0 = s.ru.latched[i]) ∧
    w[9] = BitVec.ofNat 16 s.ru.ringNext.val ∧ w[10] = BitVec.ofNat 16 s.ru.dropped ∧
    w[11] = BitVec.ofNat 16 s.rv.refusals ∧ num2 w[12] w[13] = s.count.toNat ∧ w[14] = BitVec.ofNat 16 s.rv.inUse
  header : k = .captureHeader →
    w[1] = BitVec.ofNat 16 (bit s.rv.capture.occupied) ∧ w[2] = s.rv.capture.reason ∧ w[3] = s.rv.capture.slot ∧
    num2 w[4] w[5] = s.rv.capture.time.toNat ∧ w[6] = BitVec.ofNat 16 s.rv.capture.since ∧ w[7] = s.rv.capture.guard ∧
    ∀ p : Pos, 8 ≤ p.val → p.val ≤ 14 → w[p] = 0
  body : k = .captureBody → ∀ r, s.rv.capture.body = some r → w = r
  channel : ∀ c x, k = .channel c → x = s.chan c →
    (∀ f : ChannelFlag, (channelByte s.ru.latched c).getLsbD f.bit = s.ru.latched.has (.channel c f)) ∧
    num2 w[1] w[2] = ((channelByte s.ru.latched c).toNat * 2 ^ 24 + x.working) % 2 ^ 32 ∧
    (x.descriptor = none → (hiByte w[3]).toNat = x.attempts % 2 ^ 8) ∧
    (∀ d, x.descriptor = some d → num2 w[3] w[4] = (x.attempts * 2 ^ 24 + d.nominal) % 2 ^ 32) ∧
    w[5] = BitVec.ofNat 16 (x.misses * 2 ^ 8 + x.service.code * 2 ^ 4 + x.seq.phase.code) ∧
    w[6] = BitVec.ofNat 16 (x.cal.lastOutcome.code * 2 ^ 13 + if x.credit = 0 then x.owed else 2 ^ 12 + x.credit) ∧
    num2 w[7] w[8] = x.cal.lastMeasured % 2 ^ 32 ∧ num2 w[9] w[10] = x.residue % 2 ^ 32 ∧
    num2 w[11] w[12] = x.deficit % 2 ^ 32 ∧ num2 w[13] w[14] = x.delivered.toNat
  run : ∀ r x, k = .run r → x = s.run r →
    w[1] = BitVec.ofNat 16 (x.condition.code * 2 ^ 12 + bit x.held * 2 ^ 11 + bit x.awaitingBaseline * 2 ^ 10) ∧
    w[2] = (match x.currentSlot with | none => 0xFFFF#16 | some t => BitVec.ofNat 16 t.val) ∧
    w[3] = BitVec.ofNat 16 x.historyCount ∧ num3 w[4] w[5] w[6] = x.estimated % 2 ^ 48 ∧
    num3 w[7] w[8] w[9] = x.credit % 2 ^ 48 ∧ num3 w[10] w[11] w[12] = x.unrouted % 2 ^ 48 ∧
    num2 w[13] w[14] = x.shadowTime.toNat

/-- The record w is the event record of e at ring position p (R7, R29, R164, R182). -/
structure EventRecordHolds (p : Fin 64) (e : EventRecord) (w : Record) : Prop where
  frame : w[0] = headWord 0x67 p.val ∧ intact w = true
  code : w[1] = BitVec.ofNat 16 e.code.code
  time : num2 w[2] w[3] = e.time.toNat
  subject : w[4] = BitVec.ofNat 16 e.subject
  detail : w[5] = BitVec.ofNat 16 e.detail
  value : num3 w[6] w[7] w[8] = e.value % 2 ^ 48
  spare : ∀ q : Pos, 9 ≤ q.val → q.val ≤ 14 → w[q] = 0

/-! ### What is due -/

/-- The event of the part's own is due now: its timer runs and its deadline is reached (R37, R57, R80 to R82, R112 to
R116, R123), or the drain is complete (R177). What the contact then reads is a free value (log entry 5). -/
def DueNow (s : State) : Instr → Prop
  | .drainComplete => s.lc.device = .draining ∧ s.ma = none ∧ s.rv.committing = [] ∧ ∀ k : PartSlot, s.ru.dirty[k] = false
  | .assemblyExpired slot => ∃ e ∈ s.rv.assembling, e.slot = slot ∧ e.openedAt + e.timeout ≤ s.uptime
  | .historyExpiry k => ∃ r x, s.claim k = .history r x ∧ x ≤ s.uptime
  | .stalenessExpiry r => (s.run r).condition = .live ∧
      ∃ f, (s.run r).freshness = some f ∧ f.start + f.staleness ≤ s.uptime
  | .horizonExpiry r => (s.run r).condition = .stale ∧
      ∃ f, (s.run r).freshness = some f ∧ f.start + f.horizon ≤ s.uptime
  | .substitutionStep r => ∃ u, (s.run r).substitution = some u ∧ u.base + 1000 * (u.steps + 1) ≤ s.uptime
  | .basePeriodExpiry c => s.lc.device = .fallback ∧ ∃ b, (s.chan c).baseTimer = some b ∧ b.next ≤ s.uptime
  | .precheckExpiry c closed => (s.chan c).seq.phase = .precheck ∧
      (s.chan c).seq.precheckStart + (s.chan c).seq.times.precheck ≤ s.uptime ∧ closed = Config.freeContact s.freeUsed c
  | .driveExpiry c => (s.chan c).seq.phase = .drive ∧ (s.chan c).seq.restRef + (s.chan c).seq.times.drive ≤ s.uptime
  | .proofWindowExpiry c => (s.chan c).seq.phase = .proof ∧
      (s.chan c).seq.restRef + (s.chan c).seq.times.window ≤ s.uptime
  | .restEnd c => (s.chan c).seq.phase = .rest ∧ (s.chan c).seq.restRef + (s.chan c).seq.times.period ≤ s.uptime
  | _ => False

/-! ### Reports -/

/-- The events that pass the filter in force (R164). -/
def passing (s : State) (es : List EventRecord) : List EventRecord := es.filter fun e => s.passes e.code

/-- The most records the event queue holds now: 16 (R164), in every state a run reaches. -/
def queueLimit (s : State) : Nat := max Config.eventQueueSize s.ru.events.length

/-- The event queue after these events are raised in order (R164). -/
def queueAfter (s : State) (es : List EventRecord) : List EventRecord :=
  (s.ru.events ++ passing s es).take (queueLimit s)

/-- How many of these events find the queue full (R164). -/
def lostEvents (s : State) (es : List EventRecord) : Nat := (s.ru.events ++ passing s es).length - queueLimit s

/-- The dropped count after these events (R164). -/
def droppedAfter (s : State) (es : List EventRecord) : Nat :=
  if lostEvents s es = 0 then s.ru.dropped else satAdd Config.max16 s.ru.dropped (lostEvents s es)

/-- The flags that latch: those named, and EVENT_DROPPED where an event found the queue full (R164). -/
def latching (s : State) (es : List EventRecord) (fs : List Flag) : List Flag :=
  if lostEvents s es = 0 then fs else .station .eventDropped :: fs

/-- The part records a flag that latches marks: the status record, and for a channel flag that channel's report (R157). -/
def flagMarks : Flag → List PartSlot
  | .station _ => [.status]
  | .channel c _ => [.status, .channel c]
  | .run _ _ => [.status]

/-- The part record is to be rewritten (R155, R157, R162): its mark was set, or it is one of these, or a flag that
latches marks it. -/
def Marked (s : State) (es : List EventRecord) (fs : List Flag) (ks : List PartSlot) (k : PartSlot) : Prop :=
  s.ru.dirty[k] = true ∨ k ∈ ks ∨ ∃ f ∈ latching s es fs, k ∈ flagMarks f

/-- What the Report Unit makes of the events `es`, raised in this order, of the flags `fs`, which latch, and of the
part records `ks`, which are to be rewritten; nothing else of its latches, counts, queue and marks changes (R157, R158,
R161, R162, R164). A flag that latches is withdrawn from the pending set (R158). A rewrite the Memory Agent may then have
begun clears its record's mark, that of the status record making the latched flags the pending set. -/
structure Reports (s t : State) (es : List EventRecord) (fs : List Flag) (ks : List PartSlot) : Prop where
  events : t.ru.events = queueAfter s es
  dropped : t.ru.dropped = droppedAfter s es
  latched : ∀ f, t.ru.latched.has f = (s.ru.latched.has f || decide (f ∈ latching s es fs))
  shown : ∀ f, t.ru.shown.has f = (s.ru.shown.has f && !decide (f ∈ latching s es fs))
  ringNext : t.ru.ringNext = s.ru.ringNext
  attention : Awake s → AttentionFollows s → AttentionFollows t
  rewrites : Rewrites s t (Marked s es fs ks) fun f => s.ru.pendingShown.has f && !decide (f ∈ latching s es fs)

/-- A controller write to the slot on these lanes is refused with this word-level code (R12, R34, R35, R47). -/
def WordRefused (s : State) (slot : Slot) (lanes : Lanes) (code : Nat) : Prop :=
  (code = 20 ∧ (18 ≤ slot.val ∧ slot.val ≤ 37 ∨ 64 ≤ slot.val ∧ slot.val ≤ 127)) ∨
  (code = 21 ∧ (slot.val ≤ 17 ∨ 128 ≤ slot.val) ∧ lanes ≠ .both) ∨
  ((slot.val ≤ 17 ∨ 128 ≤ slot.val) ∧ lanes = .both ∧
    ((code = 22 ∧ (s.lc.device = .running ∨ s.lc.device = .fallback ∧ (slot = 0 ∨ slot = 17)) ∧
        s.rv.entry slot = none ∧ 8 ≤ s.rv.inUse) ∨
      (code = 23 ∧ (s.lc.device = .loading ∨ s.lc.device = .draining)) ∨
      (code = 24 ∧ s.lc.device = .fallback ∧ slot ≠ 0 ∧ slot ≠ 17)))

/-- The count since capture after one more refusal (R46). -/
def sinceAfter (s : State) : Nat :=
  if s.rv.capture.occupied = true ∧ s.rv.capture.since < 65535 then s.rv.capture.since + 1 else s.rv.capture.since

/-- An event of this moment. -/
def eventNow (s : State) (e : EventCode) (subject detail value : Nat) : EventRecord :=
  ⟨e, s.count, subject, detail, value⟩

/-- The controller's two-lane write of v to word p of the slot is taken (R17, R34) and completes the record w (R36):
no cycle of the controller is in progress, the device state lets the word through, and the slot's assembly holds
every other word. -/
structure Completes (s : State) (slot : Slot) (p : Pos) (v : Word) (w : Record) : Prop where
  awake : Awake s
  free : s.cp.cycle = none
  gate : s.lc.device = .running ∨ s.lc.device = .fallback ∧ (slot = 0 ∨ slot = 17)
  word : w[p] = v
  entry : ∃ e, s.rv.entry slot = some e ∧ ∀ q, q ≠ p → e.words[q] = some w[q]

/-- The record joins the commit queue with the times of its assembly (R33, R41): that assembly is gone, and a word has
been taken (R48). -/
def verifierAfter (s : State) (slot : Slot) (w : Record) : Verifier :=
  { s.rv with assembling := s.rv.assembling.filter fun e => decide (e.slot ≠ slot)
              committing := s.rv.committing ++
                ((s.rv.entry slot).map fun e => ⟨slot, w, e.openedAt, e.timeout⟩).toList
              takenSince := true }

/-- The controller's write of word p of the command record with this tag, code and arguments completes it. -/
def CommandReady (s : State) (p : Pos) (tag code a b : Word) : Prop :=
  Completes s 17 p (commandRecordOf tag code a b)[p] (commandRecordOf tag code a b)

/-- The Load Controller after a command is executed (R148): the result record's content is this answer. -/
def loaderAfter (s : State) (tag code : Word) (o : CommandOutcome) (detail : Nat) : Loader :=
  { s.lc with result := ⟨tag, code, o, s.count, detail⟩ }

/-- COMMAND_TAKEN (R148). -/
def commandTaken (s : State) (tag code : Word) (o : CommandOutcome) : EventRecord :=
  eventNow s .commandTaken code.toNat o.code tag.toNat

/-- The controller's two-lane write of a slot's word, as a controller cycle. -/
def writes (s : State) (slot : Slot) (p : Pos) (v : Word) : Host.Outcome State Fault Refusal :=
  exec (.controllerCycle (slotAddr s.lc.baseSelect slot p) (.write v .both)) s

/-! ### Demand -/

/-- Channel y is x after n crossings (R98, R99): the credit absorbs first, then the owed count rises to at most 4,095,
the rest is deficit; the residue is what is left below the quantum. The restrict line and the sequencer are apart. -/
def Distributed (x y : Channel) (n residue : Nat) : Prop :=
  y = { x with
    residue := residue
    credit := x.credit - min x.credit n
    owed := x.owed + min (n - min x.credit n) (4095 - x.owed)
    deficit := if n = 0 then x.deficit else
      satAdd Config.max32 x.deficit (n - min x.credit n - min (n - min x.credit n) (4095 - x.owed))
    restrict := y.restrict
    seq := y.seq }

/-- The restrict line after an evaluation on the owed count (R105). -/
def LineFollows (d : ChannelDescriptor) (before : Bool) (y : Channel) : Prop :=
  y.restrict = if d.highMark ≤ y.owed then true else if y.owed ≤ d.lowMark then false else before

/-- The sequencer after the test of R111 at the moment `now`: where it was IDLE and a stroke is due it is in PRECHECK,
with the stroke's kind and times, and a rest reference of the model's own choice (log entry 8); else it is as it was. -/
def Begins (d : ChannelDescriptor) (now : Nat) (x y : Channel) : Prop :=
  y.seq = if x.seq.phase = .idle then (match y.strokeDue with
    | none => x.seq
    | some k => Sequencer.begin k d now) else x.seq

/-- What a change of demand is followed by: with no crossing nothing, else the line and the sequencer's test. -/
def Follows (d : ChannelDescriptor) (now n : Nat) (x y : Channel) : Prop :=
  if n = 0 then y.restrict = x.restrict ∧ y.seq = x.seq else LineFollows d x.restrict y ∧ Begins d now x y

/-- The events a change of channel c's demand raises (R99, R105): DEFICIT_STARTED with its cause, then the line. -/
def demandEvents (s t : State) (c : Chan) (cause : Nat) : List EventRecord :=
  (if (s.chan c).deficit = 0 ∧ 0 < (t.chan c).deficit
    then [eventNow s .deficitStarted c.val cause (t.chan c).deficit] else []) ++
  match (t.chan c).descriptor with
  | none => []
  | some d =>
    if (s.chan c).restrict = false ∧ (t.chan c).restrict = true
    then [eventNow s .restrictOn c.val d.highMark (t.chan c).owed]
    else if (s.chan c).restrict = true ∧ (t.chan c).restrict = false
    then [eventNow s .restrictOff c.val d.lowMark (t.chan c).owed] else []

/-- The flags a change of channel c's demand latches (R99, R105). -/
def demandFlags (s t : State) (c : Chan) : List Flag :=
  (if (s.chan c).deficit = 0 ∧ 0 < (t.chan c).deficit then [.channel c .deficit] else []) ++
  (if (s.chan c).restrict = false ∧ (t.chan c).restrict = true then [.channel c .restrict] else [])

/-- The channel that receives a volume (R93, R94). -/
def receiverOf (s : State) (d : RunDescriptor) : Chan :=
  if ((s.chan d.primary).service = .failed ∨ (s.chan d.primary).service = .outOfService ∨
      (s.chan d.primary).service = .unconfigured) ∧ d.alternatePresent = true ∧
      ((s.chan d.alternate).service = .inService ∨ (s.chan d.alternate).service = .calibrating)
  then d.alternate else d.primary

/-- A volume has been routed (R93, R95, R97, R98, R99): the receiving channel has its demand, unless it is UNCONFIGURED
or the volume is 0; no other channel changes. -/
def VolumeRouted (s t : State) (d : RunDescriptor) (volume : Nat) : Prop :=
  (∀ c, c ≠ receiverOf s d → t.chan c = s.chan c) ∧
  (volume = 0 ∨ (s.chan (receiverOf s d)).service = .unconfigured →
    t.chan (receiverOf s d) = s.chan (receiverOf s d)) ∧
  ∀ cd, volume ≠ 0 → (s.chan (receiverOf s d)).service ≠ .unconfigured →
    (s.chan (receiverOf s d)).descriptor = some cd →
    let x := s.chan (receiverOf s d)
    let n := (x.residue + volume * cd.dose) / (x.working * 1000)
    Distributed x (t.chan (receiverOf s d)) n ((x.residue + volume * cd.dose) % (x.working * 1000)) ∧
      Follows cd s.uptime n x (t.chan (receiverOf s d))

/-- A run's unrouted volume after a volume of it is routed (R95). -/
def unroutedAfter (s : State) (r : Run) (d : RunDescriptor) (volume : Nat) : Nat :=
  if volume ≠ 0 ∧ (s.chan (receiverOf s d)).service = .unconfigured then satAdd Config.max48 (s.run r).unrouted volume
  else (s.run r).unrouted

/-! ### Tallies -/

/-- The run entry every acceptance ends with (R70, R79). -/
def shadowed (e : RunEntry) (w : Record) (count : Count) (now : Nat) (d : Option RunDescriptor) : RunEntry :=
  { e with
    shadowSequence := w[1]
    shadowTotal := num3 w[2] w[3] w[4]
    shadowRate := num2 w[5] w[6]
    shadowTime := count
    ageStart := some now
    condition := .live
    freshness := d.map fun d => ⟨now, d.staleness * 1000, d.horizon * 1000⟩
    substitution := none }

/-- RUN_LIVE, where the acceptance in slot k ends a STALE or LOST spell (R88). -/
def spellEnd (s : State) (r : Run) (k : TallySlot) : List EventRecord :=
  if (s.run r).condition = .stale ∨ (s.run r).condition = .lost
  then [eventNow s .runLive r.val k.val (s.run r).estimated] else []

/-- The volume an ordinary acceptance doses (R87). -/
def dosedBy (s : State) (r : Run) (w : Record) : Nat :=
  num3 w[2] w[3] w[4] - (s.run r).shadowTotal - (s.run r).estimated -
    min (s.run r).credit (num3 w[2] w[3] w[4] - (s.run r).shadowTotal - (s.run r).estimated)

/-- An unbound or retired run's entry (R73, R75): the shadow and the history stay. -/
def unboundRun (e : RunEntry) (condition : RunCondition) : RunEntry :=
  { e with
    condition := condition, currentSlot := none, estimated := 0, credit := 0, unrouted := 0, held := false
    awaitingBaseline := false, freshness := none, substitution := none }

/-! ### Refusals -/

/-- A physics field of the channel descriptor changes (R141, R142). -/
def PhysicsChange (o d : ChannelDescriptor) : Prop :=
  o.nominal ≠ d.nominal ∨ o.driveTime ≠ d.driveTime ∨ o.minPeriod ≠ d.minPeriod ∨ o.proofWindow ≠ d.proofWindow ∨
  o.precheckTime ≠ d.precheckTime ∨ o.pulseVolume ≠ d.pulseVolume

/-- The slot's map entry admits the run (R61). -/
def Admitted (s : State) (k : TallySlot) (r : Run) : Prop := s.claim k = .free ∨ s.claim k = .current r

/-- A tally whose frame is good fails this check first, for a run that is not RETIRED (R60 to R64). -/
def TallyFails (s : State) (k : TallySlot) (r : Run) (w : Record) (reason : Nat) : Prop :=
  let e := s.run r
  let compared := e.condition.bound = true ∧ e.awaitingBaseline = false
  let outOfSequence := compared ∧ w[1] ≠ e.shadowSequence + 1
  let reversed := e.condition.bound = true ∧ num3 w[2] w[3] w[4] < e.shadowTotal
  (reason = 6 ∧ e.held = true) ∨
  (reason = 7 ∧ e.held = false ∧ ¬Admitted s k r) ∨
  (reason = 8 ∧ e.held = false ∧ Admitted s k r ∧ outOfSequence) ∨
  (reason = 9 ∧ e.held = false ∧ Admitted s k r ∧ ¬outOfSequence ∧ reversed) ∨
  (reason = 10 ∧ e.held = false ∧ Admitted s k r ∧ ¬outOfSequence ∧ ¬reversed ∧ compared ∧
    ∃ d, s.runDescriptor r = some d ∧ (d.maxFlow < num2 w[5] w[6] ∨
      d.maxFlow * ((s.age r + 999) / 1000) + d.slack < num3 w[2] w[3] w[4] - e.shadowTotal))

/-- The content check a record whose frame is good fails first (R39, R59, R138, R142, R145, R147). -/
def ContentFails (s : State) (slot : Slot) (w : Record) (reason : Nat) : Prop :=
  (slot.val = 0 ∧ ((reason = 4 ∧ readStation w = none) ∨
    (reason = 12 ∧ ∃ d, readStation w = some d ∧ d.stationCode ≠ s.lc.stationCode.toNat))) ∨
  (∃ c : Chan, slot.val = 1 + c.val ∧ ((reason = 4 ∧ readChannel w = none) ∨
    (reason = 11 ∧ ∃ o d, readChannel w = some d ∧ (s.chan c).descriptor = some o ∧ PhysicsChange o d ∧
      ((s.chan c).service = .inService ∨ (s.chan c).service = .calibrating ∨ (s.chan c).service = .failed)))) ∨
  (5 ≤ slot.val ∧ slot.val ≤ 16 ∧ reason = 4 ∧ readRun w = none) ∨
  (slot.val = 17 ∧ reason = 4 ∧ readCommand w = none) ∨
  (∃ k : TallySlot, slot.val = 128 + k.val ∧ ((reason = 5 ∧ (11 < recordIndex w ∨
      ∃ r : Run, recordIndex w = r.val ∧ (s.run r).condition = .retired)) ∨
    ∃ r : Run, recordIndex w = r.val ∧ (s.run r).condition ≠ .retired ∧ TallyFails s k r w reason))

/-- The first check the completed record fails (R39). -/
def RefusedFor (s : State) (slot : Slot) (w : Record) (reason : Nat) : Prop :=
  (reason = 1 ∧ intact w = false) ∨
  (reason = 2 ∧ intact w = true ∧ recordKind w ≠ expectedKind slot) ∨
  (reason = 3 ∧ intact w = true ∧ recordKind w = expectedKind slot ∧ slot.val ≤ 17 ∧
    recordIndex w ≠ expectedIndex slot) ∨
  (intact w = true ∧ recordKind w = expectedKind slot ∧ (slot.val ≤ 17 → recordIndex w = expectedIndex slot) ∧
    ContentFails s slot w reason)

/-- The run a record-level refusal is attributed to (R44). -/
def attributedTo (s : State) (slot : Slot) (w : Record) (reason : Nat) : Option Run :=
  if h : 128 ≤ slot.val then
    if reason = 1 ∨ reason = 2 then
      match s.claim ⟨slot.val - 128, by omega⟩ with
      | .current r => some r
      | .free => none
      | .history _ _ => none
    else if hi : recordIndex w < 12 then some ⟨recordIndex w, hi⟩ else none
  else if h : 5 ≤ slot.val ∧ slot.val ≤ 16 then some ⟨slot.val - 5, by omega⟩ else none

/-- The refusal holds run q, if it is not held already (R45, R71). -/
def HeldByRefusal (s : State) (slot : Slot) (w : Record) (reason : Nat) (q : Run) : Bool :=
  decide (s.guardCode = 1) && decide (128 ≤ slot.val) && decide (reason ∈ [1, 2, 7, 8, 9, 10]) &&
  decide (attributedTo s slot w reason = some q) && decide ((s.run q).condition ≠ .retired)

/-! ### Commands -/

/-- The argument A suits the command code (the table of R147). -/
def SuitsA (code a : Nat) : Prop :=
  match code with
  | 1 | 7 | 8 => a ≤ 11
  | 2 | 3 | 5 | 6 => a ≤ 3
  | _ => a = 0

/-- The argument B suits the command code (the table of R147). -/
def SuitsB (code b : Nat) : Prop :=
  match code with
  | 5 => b ≤ 1
  | 6 => b ≤ 6
  | _ => b = 0

/-- The first of lines 1 to 4 of R147 that applies gives this outcome and detail. -/
def Unsuitable (s : State) (code a b : Nat) (o : CommandOutcome) (n : Nat) : Prop :=
  (¬(1 ≤ code ∧ code ≤ 9) ∧ o = .badArgument ∧ n = 1) ∨
  ((1 ≤ code ∧ code ≤ 9) ∧ ¬SuitsA code a ∧ o = .badArgument ∧ n = 2) ∨
  ((1 ≤ code ∧ code ≤ 9) ∧ SuitsA code a ∧ ¬SuitsB code b ∧ o = .badArgument ∧ n = 3) ∨
  ((1 ≤ code ∧ code ≤ 9) ∧ SuitsA code a ∧ SuitsB code b ∧ s.lc.device = .fallback ∧ code ≠ 4 ∧ code ≠ 9 ∧
    o = .wrongState ∧ n = 2)

/-- The stroke in progress when its channel leaves service (R119). -/
def leftService (q : Sequencer) : Sequencer :=
  if q.phase = .drive ∨ q.phase = .proof then { q with finishing := true }
  else if q.phase = .precheck ∨ q.phase = .rest then Sequencer.idle else q

/-! ### Strokes -/

/-- The channel is in service: IN_SERVICE or CALIBRATING. -/
def InService (x : Channel) : Bool := decide (x.service = .inService ∨ x.service = .calibrating)

/-- The stroke in progress belongs to the calibration in progress (R132). -/
def OwnStroke (x : Channel) : Bool :=
  decide (x.cal.active = true ∧ x.seq.kind = some .calibration ∧ x.seq.finishing = false)

/-- With this attempt counted the miss count has reached M (R118, point 1). -/
def WindowFull (x : Channel) (d : ChannelDescriptor) (miss : Bool) : Bool :=
  decide (d.missLimit ≤ x.misses + bit miss)

/-- With this attempt counted the channel becomes FAILED (R118, R120). -/
def Fails (x : Channel) (d : ChannelDescriptor) (miss : Bool) : Bool := WindowFull x d miss && InService x

/-- The sequencer at rest, its outputs off (R116). -/
def resting (q : Sequencer) (rest : Nat) : Sequencer :=
  { q with phase := .rest, restRef := rest, strokeOut := false, wetting := false, finishing := false }

/-- The calibration state after an end without a measurement: this outcome, measured displacement 0 (R130, R134). The 0
that the discarded window pulses leave is a DESIGN CHOICE (log entry 33). -/
def calibrationOver (o : CalOutcome) : Calibration := ⟨false, 0, 0, false, 0, o, 0⟩

/-- An attempt is counted in the miss window and the window is tested (R118): the channel's service state and counts. -/
def counted (x : Channel) (d : ChannelDescriptor) (miss : Bool) : Channel :=
  { x with
    service := if Fails x d miss then .failed else x.service
    attempts := if WindowFull x d miss ∨ d.missWindow ≤ x.attempts + 1 then 0 else x.attempts + 1
    misses := if WindowFull x d miss ∨ d.missWindow ≤ x.attempts + 1 then 0 else x.misses + bit miss }

/-- A calibration in progress ends MISSED: its own stroke was missed or STUCK, or the window is full (R132). -/
def EndsMissed (x : Channel) (d : ChannelDescriptor) : Bool :=
  if WindowFull x d true then decide (x.service = .calibrating) else OwnStroke x

/-- The channel after a stroke is missed or, at this moment, found STUCK (R112, R114, R118, R120, R132). -/
def missed (x : Channel) (d : ChannelDescriptor) (stuck : Bool) (now : Nat) : Channel :=
  { counted x d true with
    service := if Fails x d true then .failed else if EndsMissed x d then .inService else x.service
    cal := if EndsMissed x d then calibrationOver .missed else x.cal
    seq := if Fails x d true then Sequencer.idle
      else if InService x ∨ EndsMissed x d then resting x.seq (if stuck then now else x.seq.restRef)
      else Sequencer.idle }

/-- The events of a missed or STUCK stroke (R112, R114, R118, R134). -/
def missEvents (s : State) (c : Chan) (d : ChannelDescriptor) (stuck : Bool) : List EventRecord :=
  eventNow s (if stuck then .proofStuck else .strokeMissed) c.val (s.chan c).seq.kindCode ((s.chan c).misses + 1) ::
  (if EndsMissed (s.chan c) d then [eventNow s .calibrationEnd c.val 4 0] else []) ++
  if Fails (s.chan c) d true then [eventNow s .channelFailed c.val d.missLimit (s.chan c).owed] else []

/-- The flags of a missed or STUCK stroke. -/
def missFlags (x : Channel) (c : Chan) (d : ChannelDescriptor) (stuck : Bool) : List Flag :=
  .channel c (if stuck then .stuck else .miss) ::
  (if EndsMissed x d then [.channel c .calFail] else []) ++ if Fails x d true then [.channel c .failed] else []

/-- Channel c's stroke is missed, or found STUCK, at the moment of u, which t follows: nothing else changes. -/
def MissedAt (u t : State) (c : Chan) (d : ChannelDescriptor) (stuck : Bool) : Prop :=
  t.chan c = missed (u.chan c) d stuck u.uptime ∧
  Reports u t (missEvents u c d stuck) (missFlags (u.chan c) c d stuck) [.channel c]

/-- A proven stroke of this kind set against the channel's demand (R115, R129). -/
def afterDelivery (x : Channel) : Channel :=
  match x.seq.kind with
  | some .ordinary => { x with owed := x.owed - 1 }
  | some .calibration =>
    { x with owed := x.owed - 1, credit := if x.owed = 0 ∧ x.credit < 4095 then x.credit + 1 else x.credit }
  | none => x

/-- The sequencer once its stroke is proven (R113, R114, R120): the drive goes on; a proof goes to its rest in service,
and to IDLE out of it. -/
def provenSeq (q : Sequencer) (inService : Bool) : Sequencer :=
  if q.phase = .drive then { q with proven := true, finishing := q.finishing && !inService }
  else if inService then resting { q with proven := true } q.restRef
  else Sequencer.idle

/-- The measured displacement of the calibration in progress (R130). -/
def measurement (x : Channel) (d : ChannelDescriptor) : Nat :=
  min (x.cal.pulses * d.pulseVolume / x.cal.required) (2 ^ 32 - 1)

/-- The outcome of a completed calibration (R131): the measurement within tolerance of the nominal displacement and
itself a working displacement, applied or not; else out of tolerance. -/
def CompletesWith (m : Nat) (d : ChannelDescriptor) (o : CalOutcome) : Prop :=
  if (m - d.nominal) * 100 ≤ d.nominal * d.tolerance ∧ (d.nominal - m) * 100 ≤ d.nominal * d.tolerance ∧
      1000 ≤ m ∧ m ≤ 2000000
  then o = (if d.autoApply then .okApplied else .okNotApplied) else o = .outOfTolerance

/-- A timer of this deadline has run out: time stands at the deadline or beyond, and nothing outside the blocks and
nothing of the Load Controller changes. -/
structure Elapsed (s t : State) (deadline : Nat) : Prop where
  outside : Outside s t
  uptime : t.uptime = max s.uptime deadline
  loader : t.lc = s.lc

end Sys2Proof.Safety
end

