-- ==== Sys2Proof/Certificates/Slice0/Obligations.lean ====
section
/-! DEFINITION. The statements about the DM412. -/

section
open Sys2Proof Sys2Proof.Machine Sys2Proof.Safety

/-! ### The machine as a whole -/

/-- A step takes the command at the front of the queue: it is that command's `exec` on the state with the queue's rest.
-/
def Obligations.StepTakesTheFront : Prop :=
  ∀ (c : Instr) (rest : List Instr) (s : State), s.pending = c :: rest → step s = exec c { s with pending := rest }

/-- The model's own choice (log entries 3, 5 and 26): a step on an empty queue changes nothing while RESET_n is asserted.
Else, where a grant decision was left open, it is taken by R24 and nothing else changes; where none of the part's own
events is due, one millisecond passes and nothing else changes; else exactly one of the events that are due joins the
queue, and nothing else changes but the count of free values used. `DueNow` says when an event is due. -/
def Obligations.StepOnAnEmptyQueue : Prop :=
  ∀ s : State, s.pending = [] →
    (s.lc.resetAsserted = true → step s = .next s) ∧
    (Awake s → s.mp = none → s.ma ≠ none →
      ∃ t, step s = .next t ∧ Granted s t ∧ t = { s with mp := t.mp, passOver := t.passOver, cp := t.cp }) ∧
    (Awake s → (s.mp = none → s.ma = none) → (∀ c, ¬DueNow s c) → step s = .next { s with uptime := s.uptime + 1 }) ∧
    (Awake s → (s.mp = none → s.ma = none) → (∃ c, DueNow s c) →
      ∃ c, DueNow s c ∧ step s = .next { s with pending := [c], freeUsed := s.freeUsed + 1 })

/-- Every command answers a next state, in every state. (The model's reading: log entry 1.) -/
def Obligations.EveryCommandAnswers : Prop := ∀ (c : Instr) (s : State), ∃ t, exec c s = .next t

/-- What reset leaves (R53, R55, R92, R108, R110, R118, R126, R157, R164, R168): LOADING with the first read that of
slot 0, every run RETIRED, every tally slot FREE, every channel UNCONFIGURED with nothing owed and its sequencer IDLE,
the pool and both queues empty, the capture unoccupied, no flag latched. (The model's
reading of what an IDLE sequencer holds beside no stroke: log entry 8.) -/
def Obligations.ResetState : Prop :=
  State.reset.lc.device = .loading ∧ State.reset.lc.station = none ∧ State.reset.lc.loadSlot = some 0 ∧
  (∃ m, State.reset.mp = some m ∧ m.requester = .agent ∧ m.op = .read) ∧ State.reset.passOver = 0 ∧
  State.reset.cp.cycle = none ∧ State.reset.uptime = 0 ∧ State.reset.pending = [] ∧
  State.reset.rv.inUse = 0 ∧ State.reset.rv.capture.occupied = false ∧ State.reset.rv.refusals = 0 ∧
  State.reset.rv.lastRefusal = none ∧ State.reset.rv.takenSince = false ∧
  (∀ r : Run, (State.reset.run r).condition = .retired ∧ (State.reset.run r).estimated = 0 ∧
    (State.reset.run r).credit = 0 ∧ (State.reset.run r).unrouted = 0 ∧ (State.reset.run r).historyCount = 0 ∧
    (State.reset.run r).currentSlot = none ∧ State.reset.runDescriptor r = none) ∧
  (∀ t : TallySlot, State.reset.claim t = .free) ∧
  (∀ c : Chan, State.reset.chan c = Channel.reset) ∧
  Channel.reset.service = .unconfigured ∧ Channel.reset.descriptor = none ∧ Channel.reset.owed = 0 ∧
  Channel.reset.credit = 0 ∧ Channel.reset.deficit = 0 ∧ Channel.reset.residue = 0 ∧ Channel.reset.seq.phase = .idle ∧
  Channel.reset.restrict = false ∧ Channel.reset.attempts = 0 ∧ Channel.reset.misses = 0 ∧
  Channel.reset.delivered = 0 ∧ Channel.reset.remainder = 0 ∧ Channel.reset.cal.active = false ∧
  (∀ f, State.reset.ru.latched.has f = false) ∧ (∀ f, State.reset.ru.shown.has f = false) ∧
  (∀ k : PartSlot, State.reset.ru.dirty[k] = false) ∧ State.reset.ru.events = [] ∧ State.reset.ru.dropped = 0 ∧
  State.reset.ru.ringNext = 0 ∧ State.reset.ru.attention = false

/-- The machine right after reset satisfies every invariant stated below. -/
def Obligations.InvariantsHoldAtReset : Prop :=
  MemoryWf State.reset ∧ PoolWf State.reset ∧ QueueWf State.reset ∧ AttentionFollows State.reset ∧
  (∀ c, OutputsFollow (State.reset.chan c)) ∧ (∀ c, DemandBounded (State.reset.chan c)) ∧ ChannelsWf State.reset ∧
  RunTableWf State.reset ∧ LoadWf State.reset ∧ ReadsWhole State.reset ∧ WritesInOrder State.reset ∧
  PendingFollows State.reset ∧ AgentBusy State.reset

/-- The record memory keeps its canonical form through every step. (The model's reading: log entry 7.) -/
def Obligations.MemoryStaysCanonical : Prop := ∀ s t : State, step s = .next t → MemoryWf s → MemoryWf t

/-- At most eight pool entries are in use and no slot has two assemblies (R33), and the event queue holds at most 16
records (R164), through every step. -/
def Obligations.QueuesStayBounded : Prop :=
  ∀ s t : State, step s = .next t → (PoolWf s → PoolWf t) ∧ (QueueWf s → QueueWf t)

/-- Through every step a channel's stroke output is on in DRIVE alone and its wetting source in PRECHECK, DRIVE and
PROOF alone (R117), and its owed count and stroke credit stay within 4,095 (R92). Through every step, of a load that
keeps its order too, every channel is UNCONFIGURED exactly without a descriptor, and then with nothing demanded (R106,
R108); with one, that descriptor is within its ranges (R141) and the residue below the quantum (R98); and, RESET_n being
deasserted, the restrict line is asserted at or above the high mark and deasserted at or below the low mark (R105). -/
def Obligations.ChannelsKeepTheirBounds : Prop :=
  ∀ s t : State, step s = .next t →
    (∀ c, (OutputsFollow (s.chan c) → OutputsFollow (t.chan c)) ∧ (DemandBounded (s.chan c) → DemandBounded (t.chan c))) ∧
    (ChannelsWf s → LoadWf s → ChannelsWf t)

/-- Through every step the Run Table agrees with its slot map (R53 to R57, R82, R85): a run is bound exactly where it
has a current slot, that slot is CURRENT for it and no other is, so that no two runs share a slot; its history count is
the number of its HISTORY slots; and outside a STALE or LOST spell E is 0 and no substitution timer runs. With it a load
keeps its order (R169, R174, R178), on which the binding at its end rests. -/
def Obligations.RunTableStaysConsistent : Prop :=
  ∀ s t : State, step s = .next t → RunTableWf s → LoadWf s → RunTableWf t ∧ LoadWf t

/-- The attention line is asserted exactly while a latched flag lies in a group the mask enables, RESET_n being
deasserted, through every step (R161). -/
def Obligations.AttentionFollowsTheLatches : Prop :=
  ∀ s t : State, step s = .next t → AttentionFollows s → AttentionFollows t

/-- While a memory cycle reads a word of the record area for the controller, no item of the Memory Agent is part way
through writing that slot, through every step (R19): no read is torn. -/
def Obligations.ReadsStayWhole : Prop := ∀ s t : State, step s = .next t → ReadsWhole s → ReadsWhole t

/-! ### The record frame and the record area -/

/-- The check word of R9, over any run of register values that R9's five points describe: a register preset to all ones,
and for each of the 240 bits of w0 to w14, each word from bit 15 down, a shift toward bit 15 followed by an exclusive-or
with 0x1021 where the bit presented differs from the register's bit 15. A record is intact exactly when its w15 is that
word (R10), which is when the same computation over all sixteen words leaves the register at 0. -/
def Obligations.CheckWordsFollowR9 : Prop :=
  (∀ (r : Record) (reg : Nat → Word), reg 0 = 0xFFFF#16 →
    (∀ (i : Fin 15) (j : Fin 16), reg (16 * i.val + j.val + 1) =
      if r[i.val].getLsbD (15 - j.val) ≠ (reg (16 * i.val + j.val)).getLsbD 15
      then (reg (16 * i.val + j.val) <<< 1) ^^^ 0x1021#16 else reg (16 * i.val + j.val) <<< 1) →
    checkWord r = reg 240) ∧
  (∀ r : Record, intact r = true ↔ r[15] = checkWord r) ∧
  ∀ r : Record, intact r = true ↔ r.toList.foldl crcWord 0xFFFF#16 = 0

/-- The decision of R2: an address is in the area when bits 19 to 16 equal the base select and bits 15 to 13 are zero;
its slot is then bits 12 to 4 and its word position bits 3 to 0, and every address of the area is the address of exactly
one word. The table of R12: every read is forwarded; a write outside the area or to an open slot is forwarded; a write
to a part slot is refused PROTECTED; a two-lane write to a controller slot is taken and a one-lane write to it is
refused PARTIAL_WORD. -/
def Obligations.CyclesAreClassified : Prop :=
  ∀ (gb : BitVec 4) (a : Addr) (v : Word) (lanes : Lanes),
    (∀ slot p, decompose gb a = some (slot, p) ↔ a = slotAddr gb slot p) ∧
    (∀ slot p, decompose gb a = some (slot, p) → a.toNat = gb.toNat * 65536 + slot.val * 16 + p.val) ∧
    ((decompose gb a).isSome ↔ gb.toNat * 65536 ≤ a.toNat ∧ a.toNat ≤ gb.toNat * 65536 + 8191) ∧
    classify gb a .read = .forward ∧
    (decompose gb a = none → classify gb a (.write v lanes) = .forward) ∧
    ∀ slot p, decompose gb a = some (slot, p) →
      ((38 ≤ slot.val ∧ slot.val ≤ 63) → classify gb a (.write v lanes) = .forward) ∧
      ((18 ≤ slot.val ∧ slot.val ≤ 37 ∨ 64 ≤ slot.val ∧ slot.val ≤ 127) →
        classify gb a (.write v lanes) = .refuse 20 slot p) ∧
      ((slot.val ≤ 17 ∨ 128 ≤ slot.val) → classify gb a (.write v .both) = .take slot p v ∧
        classify gb a (.write v .upper) = .refuse 21 slot p ∧ classify gb a (.write v .lower) = .refuse 21 slot p)

/-! ### The controller's cycles -/

/-- A controller cycle that R12 forwards, RESET_n being deasserted and no cycle in progress (R17, R19, R20, R24): on a
free port with no current item and no work waiting it is granted at once, the wait line deasserted; where the decision
after an earlier cycle was left open (log entry 26) it competes in it with the item's word; while a memory cycle is in
progress it waits with the wait line asserted. Nothing else changes. Under RESET_n it is held, with the wait line
asserted, unclassified (R16). (The model's reading of what waits in DRAINING once no mark is left: log entry 11.) -/
def Obligations.ForwardedCyclesAreRequested : Prop :=
  ∀ (s : State) (a : Addr) (op : BusOp), s.cp.cycle = none →
    (Awake s → classify s.lc.baseSelect a op = .forward → s.mp = none → s.ma = none → NothingPending s →
      exec (.controllerCycle a op) s = .next { s with
        mp := some ⟨.controller, a, op⟩
        cp := { s.cp with cycle := some ⟨a, op, .running⟩, waitLine := false } }) ∧
    (∀ u, Awake s → classify s.lc.baseSelect a op = .forward → s.mp = none → s.ma ≠ none →
      u = { s with cp := { s.cp with cycle := some ⟨a, op, .waiting⟩, waitLine := true } } →
      ∃ t, exec (.controllerCycle a op) s = .next t ∧ Granted u t ∧
        t = { u with mp := t.mp, passOver := t.passOver, cp := t.cp }) ∧
    (∀ m, Awake s → classify s.lc.baseSelect a op = .forward → s.mp = some m → (s.ma = none → NothingPending s) →
      exec (.controllerCycle a op) s = .next { s with
        cp := { s.cp with cycle := some ⟨a, op, .waiting⟩, waitLine := true } }) ∧
    (s.lc.resetAsserted = true →
      exec (.controllerCycle a op) s = .next { s with
        cp := { s.cp with cycle := some ⟨a, op, .stopped⟩, waitLine := true } })

/-- A word-level refusal (R21, R34, R46, R47, R48, R162): a write refused at the port, PROTECTED (20) or PARTIAL_WORD
(21), and a two-lane write to a controller slot in a device state that refuses it, NOT_READY (23) or NOT_CONFIGURED
(24), or that needs a new entry while none is FREE, POOL_FULL (22). The refusal's own flag latches, the refusal is
counted, and also in the count since capture while the capture is occupied, the header being marked where that count
changes; WORD_REFUSED is raised exactly where the refusal differs from the last one or a word has been taken since, and
the memory of the last refusal becomes this one; PARTIAL_WORD discards the slot's assembly. Nothing else changes. -/
def Obligations.WordsAreRefused : Prop :=
  ∀ (s : State) (slot : Slot) (p : Pos) (v : Word) (lanes : Lanes) (code : Nat) (flag : StationFlag), Awake s →
    s.cp.cycle = none → WordRefused s slot lanes code →
    (code, flag) ∈ [(20, .protectedWrite), (21, .partialWord), (22, .poolFull), (23, .notReady), (24, .notConfigured)] →
    ∃ t, exec (.controllerCycle (slotAddr s.lc.baseSelect slot p) (.write v lanes)) s = .next t ∧ Outside s t ∧
      t.uptime = s.uptime ∧ t.lc = s.lc ∧ t.rt = s.rt ∧ t.channels = s.channels ∧
      t.rv = { s.rv with
        assembling := if code = 21 then s.rv.assembling.filter fun e => decide (e.slot ≠ slot) else s.rv.assembling
        refusals := satAdd 65535 s.rv.refusals 1
        capture := { s.rv.capture with since := sinceAfter s }
        lastRefusal := some ⟨code, slot⟩
        takenSince := false } ∧
      Reports s t (if s.rv.lastRefusal = some ⟨code, slot⟩ ∧ s.rv.takenSince = false then [] else [eventNow s .wordRefused slot.val code p.val])
        [.station flag] (.status :: if sinceAfter s = s.rv.capture.since then [] else [.captureHeader])

/-- A two-lane write to a controller slot that RUNNING takes, or FALLBACK for slots 0 and 17, and that does not complete
its record (R34, R35): into the slot's assembly, or into a new one while an entry is FREE, opened now with the assembly
timeout in force. A word has been taken. Nothing else changes, memory included, and a changed pool occupancy marks no part
record (R52). -/
def Obligations.WordsArePlaced : Prop :=
  ∀ (s : State) (slot : Slot) (p : Pos) (v : Word), Awake s → s.cp.cycle = none → slotClass slot = .controller →
    (s.lc.device = .running ∨ s.lc.device = .fallback ∧ (slot = 0 ∨ slot = 17)) →
    (∀ e, s.rv.entry slot = some e → (∃ q, q ≠ p ∧ e.words[q] = none) →
      ∃ t, exec (.controllerCycle (slotAddr s.lc.baseSelect slot p) (.write v .both)) s = .next t ∧ Outside s t ∧
        t.uptime = s.uptime ∧ t.lc = s.lc ∧ t.rt = s.rt ∧ t.channels = s.channels ∧
        t.rv = { s.rv with
          assembling := s.rv.assembling.map fun x => if x.slot = slot then { e with words := e.words.set p.val (some v) } else x
          takenSince := true } ∧
        Reports s t [] [] []) ∧
    (s.rv.entry slot = none → s.rv.inUse < 8 →
      ∃ t, exec (.controllerCycle (slotAddr s.lc.baseSelect slot p) (.write v .both)) s = .next t ∧ Outside s t ∧
        t.uptime = s.uptime ∧ t.lc = s.lc ∧ t.rt = s.rt ∧ t.channels = s.channels ∧
        t.rv = { s.rv with
          assembling := s.rv.assembling ++
            [⟨slot, (Vector.replicate 16 none).set p.val (some v), s.uptime, s.assemblyTimeout⟩]
          takenSince := true } ∧
        Reports s t [] [] [])

/-! ### Memory cycles -/

/-- The controller's forwarded cycle completes (R17, R18, R23, R24, R27): a write changes its word on its lanes and every
other byte of memory stays; a read presents the word memory holds and changes no byte. The cycle ends with the wait line
deasserted. A current item is kept and an idle Memory Agent takes the first work in order; its waiting word is then
granted, the pass-over count 0, or the decision is left open for a cycle of the controller's that arrives meanwhile (the
model's choice: log entry 26). Nothing else changes. (What waits in DRAINING once no mark is left is the model's reading:
log entry 11. A read of a flag word of the status record is the subject of `StatusReadsClearFlags`.) -/
def Obligations.ControllerCyclesComplete : Prop :=
  ∀ (s : State) (a : Addr) (op : BusOp), Awake s → MemoryWf s → s.mp = some ⟨.controller, a, op⟩ →
    (∀ v lanes, op = .write v lanes →
      ∃ t, exec .memoryCycleComplete s = .next t ∧ Ended t s.cp.readData ∧ SameBlocks s t ∧
        Returned s t (fun k => s.ru.dirty[k] = true) ∧
        (∀ k, k ≠ upperKey a → k ≠ lowerKey a → memByte t.mem k = memByte s.mem k) ∧
        memByte t.mem (upperKey a) = (if lanes = .lower then memByte s.mem (upperKey a) else hiByte v) ∧
        memByte t.mem (lowerKey a) = (if lanes = .upper then memByte s.mem (lowerKey a) else loByte v)) ∧
    (op = .read → (∀ p : Pos, 2 ≤ p.val → p.val ≤ 8 → decompose s.lc.baseSelect a ≠ some (19, p)) →
      ∃ t, exec .memoryCycleComplete s = .next t ∧
        Ended t (joinBytes (memByte s.mem (upperKey a)) (memByte s.mem (lowerKey a))) ∧ SameBlocks s t ∧
        Returned s t (fun k => s.ru.dirty[k] = true) ∧ ∀ k, memByte t.mem k = memByte s.mem k)

/-! ### The Memory Agent -/

/-- The Memory Agent's word completes and its item goes on (R18, R19, R23, R24, R26): a write puts its word in memory, a
loading read keeps the word memory holds, no other byte changes. The port then goes to the controller's waiting cycle
while the pass-over count is below the starvation limit, which adds 1 to the count, and otherwise to the item's next
word, which sets the count to 0. A read of the slot being written does not compete. Nothing else changes. -/
def Obligations.AgentWordsFollowInOrder : Prop :=
  ∀ (s : State) (x : Item), Awake s → MemoryWf s → s.ma = some x → x.next < 15 →
    s.mp = some ⟨.agent, slotAddr s.lc.baseSelect x.slot (Fin.ofNat 16 x.next), wordCycle x x.next⟩ →
    ∃ t y, exec .memoryCycleComplete s = .next t ∧ SameBlocks s t ∧ t.ru = s.ru ∧ t.freeUsed = s.freeUsed ∧
      t.ma = some y ∧ y.kind = x.kind ∧ y.slot = x.slot ∧ y.next = x.next + 1 ∧
      y.words = (if x.kind = .loadingRead
        then x.words.setIfInBounds x.next (readWord s.mem (slotAddr s.lc.baseSelect x.slot (Fin.ofNat 16 x.next)))
        else x.words) ∧
      WordWritten s t x ∧
      (∀ c, s.cp.cycle = some c → c.progress = .waiting → HeldBy s x c = false → s.passOver < s.starvationLimit →
        t.mp = some ⟨.controller, c.addr, c.op⟩ ∧ t.passOver = s.passOver + 1 ∧
        t.cp = { s.cp with cycle := some ⟨c.addr, c.op, .running⟩, waitLine := false }) ∧
      ((∀ c, s.cp.cycle = some c → c.progress = .waiting → HeldBy s x c = true ∨ s.starvationLimit ≤ s.passOver) →
        t.mp = some ⟨.agent, slotAddr s.lc.baseSelect x.slot (Fin.ofNat 16 (x.next + 1)), wordCycle x (x.next + 1)⟩ ∧
        t.passOver = 0 ∧ t.cp = s.cp)

/-- An item that writes a slot has, at every moment, its words up to the next one in memory, and every cycle the
controller has forwarded lies outside the slots the part writes, through every step (R12, R15, R26): when an item's last
word completes, memory holds the whole record. -/
def Obligations.WorkItemsReachMemory : Prop :=
  ∀ s t : State, step s = .next t → MemoryWf s → WritesInOrder s → WritesInOrder t

/-- The sixteenth word of a commit completes (R18, R28, R42): the record's last word is in memory, so that the slot
holds the accepted record where its other words were written; its entry leaves the commit queue. The Memory Agent takes
the next item (R27; in DRAINING once no mark is left the model's reading: log entry 11) and the port is granted between
it and the controller's cycle, which waited (R19, R24). Nothing else changes. -/
def Obligations.CommitsComplete : Prop :=
  ∀ (s : State) (x : Item), Awake s → MemoryWf s → LastWord s .commit x →
    ∃ t, exec .commitComplete s = .next t ∧ exec .memoryCycleComplete s = .next t ∧
      t.rv = { s.rv with committing := s.rv.committing.tail } ∧ WordWritten s t x ∧
      ((∀ q : Pos, q.val < 15 → readWord s.mem (slotAddr s.lc.baseSelect x.slot q) = x.words[q]) →
        readSlot t.mem s.lc.baseSelect x.slot = x.words) ∧
      t.ru = { s.ru with dirty := t.ru.dirty, pendingShown := t.ru.pendingShown } ∧
      t.uptime = s.uptime ∧ t.lc = s.lc ∧ t.rt = s.rt ∧ t.channels = s.channels ∧ t.pending = s.pending ∧
      t.freeUsed = s.freeUsed ∧ GoesOn s t (fun k => s.ru.dirty[k] = true) s.ru.pendingShown.has

/-- The sixteenth word of an event append completes (R29, R165): the record leaves the queue, the next position advances
by one modulo 64, and the status record is to be rewritten. The Memory Agent takes the next item (R27; in DRAINING once no
mark is left the model's reading: log entry 11) and the port is granted between it and the controller's cycle, which
waited (R19, R24). Nothing else changes. -/
def Obligations.AppendsComplete : Prop :=
  ∀ (s : State) (x : Item), Awake s → MemoryWf s → LastWord s .eventAppend x →
    ∃ t, exec .eventAppendComplete s = .next t ∧ exec .memoryCycleComplete s = .next t ∧
      t.ru.ringNext.val = (s.ru.ringNext.val + 1) % 64 ∧
      t.ru = { s.ru with events := s.ru.events.tail, ringNext := t.ru.ringNext
                         dirty := t.ru.dirty, pendingShown := t.ru.pendingShown } ∧
      WordWritten s t x ∧ t.rv = s.rv ∧ t.uptime = s.uptime ∧ t.lc = s.lc ∧ t.rt = s.rt ∧ t.channels = s.channels ∧
      t.pending = s.pending ∧ t.freeUsed = s.freeUsed ∧
      GoesOn s t (fun k => k = .status ∨ s.ru.dirty[k] = true) s.ru.pendingShown.has

/-- The sixteenth word of a rewrite completes (R30, R158): for the status record the pending set, less any flag whose
latch is now clear, becomes the shown set, and is empty from then on; for every other part record both sets stay. The
Memory Agent takes the next item (R27; in DRAINING once no mark is left the model's reading: log entry 11) and the port
is granted between it and the controller's cycle, which waited (R19, R24). Nothing else changes but the word in memory.
-/
def Obligations.RewritesComplete : Prop :=
  ∀ (s : State) (x : Item), Awake s → MemoryWf s → LastWord s .rewrite x →
    ∃ t, exec .rewriteComplete s = .next t ∧ exec .memoryCycleComplete s = .next t ∧ WordWritten s t x ∧
      (∀ f, t.ru.shown.has f =
        if x.slot = 19 then s.ru.pendingShown.has f && s.ru.latched.has f else s.ru.shown.has f) ∧
      t.ru = { s.ru with shown := t.ru.shown, dirty := t.ru.dirty, pendingShown := t.ru.pendingShown } ∧
      t.rv = s.rv ∧ t.uptime = s.uptime ∧ t.lc = s.lc ∧ t.rt = s.rt ∧ t.channels = s.channels ∧ t.pending = s.pending ∧
      t.freeUsed = s.freeUsed ∧
      GoesOn s t (fun k => s.ru.dirty[k] = true) (fun f => if x.slot = 19 then false else s.ru.pendingShown.has f)

/-- Every flag of the pending set is set in the status record under write, through every step (R158): a flag the
controller has not been shown never becomes one of the shown set. -/
def Obligations.PendingFlagsAreUnderWrite : Prop :=
  ∀ s t : State, step s = .next t → PendingFollows s → PendingFollows t

/-- The Memory Agent takes its work in the order of R27, in every device state (R26, R27, R28, R29, R30, R32). Where an
item's sixteenth word completes it takes the first that waits: a commit; in LOADING a loading read; else an event append
into the ring slot at the next position, which in DRAINING waits once no mark is left (log entry 11); else the dirty part
slot with the lowest number, whose words are a snapshot and whose mark is clear; nothing where nothing waits. The port is
then granted by R24. Where a command gives an idle Memory Agent its first work, the same; its first word is granted at
once on a free port with no cycle of the controller's (for a cycle that arrives meanwhile, the model's choice: log
entry 28). While the Memory Agent is idle nothing waits for it, through every step. What a rewrite and an append write:
the snapshot of a part slot holds that record's current content, with the slot map's kind and index and a correct check
word but for the capture body, and the ring's record holds its event (R4, R7, R30, R155, R163, R164, R180, R182; a
loading read begins with zeros for the words not yet read, the model's choice: log entry 30). -/
def Obligations.WorkIsTakenInOrder : Prop :=
  (∀ (s : State) (k : ItemKind) (x : Item), Awake s → LastWord s k x →
    ∃ t, exec .memoryCycleComplete s = .next t ∧ ChosenFirst t ∧ Granted s t) ∧
  (∀ (c : Instr) (s : State), Awake s → s.ma = none → NothingPending s →
    ∃ t, exec c s = .next t ∧ (Awake t → ChosenFirst t ∧
      (s.mp = none → s.cp.cycle = none → ∀ x, t.ma = some x → Begun t x))) ∧
  (∀ s t : State, step s = .next t → AgentBusy s → AgentBusy t) ∧
  (∀ (s : State) (k : PartSlot), PartRecordHolds s k (s.snapshot k)) ∧
  ∀ (p : Fin 64) (e : EventRecord), EventRecordHolds p e (eventRecordAt p e)

/-! ### Loading -/

/-- A loading read below the tally band whose record is not valid is treated as absent (R10, R169 to R173): nothing
changes but the next request, in the order of R169; the read of an absent status record keeps the ring next position
(R173), the flags shown and the dropped count stay. From slot 0 a record that is not intact leaves no station descriptor
in force from then on, the fallback reason 1, CHECK_WORD, and the attention line on every group. (The other failures of
slot 0 are the subject of `LoadedStationDescriptorsHold`, the tally band of `TallySlotsAreWeighed`, the last read of a
load of `LoadsComplete` and `FallbackIsEntered`.) That an intact, occupied record of another kind or index in slot 20 is
absent too is the model's reading (log entry 18), and the zeros of the next item's words not yet read are its choice (log
entry 30). -/
def Obligations.AbsentRecordsAreSkipped : Prop :=
  ∀ (s : State) (x : Item) (w : Record) (k : Slot), Awake s → LastRead s x w → AbsentAt x.slot w → x.slot.val < 128 →
    AfterInLoad s.lc.cause.afterReset (x.slot.val ≠ 0 && s.lc.station.isSome) x.slot k →
    ∃ t, exec .loadingReadComplete s = .next t ∧ exec .memoryCycleComplete s = .next t ∧
      Requested s t k ∧
      t.lc = (if x.slot.val = 0 then { s.lc with loadSlot := some k, station := none, fallbackReason := 1 }
        else { s.lc with loadSlot := some k }) ∧
      t.rt = s.rt ∧ t.channels = s.channels ∧ t.rv = s.rv ∧
      (x.slot.val ≠ 0 → t.ru = s.ru) ∧ t.ru = { s.ru with attention := t.ru.attention } ∧
      (AttentionFollows s → AttentionFollows t)

/-- A valid station descriptor read from slot 0 is put in force at the read (R170): its filter, mask, starvation limit
and the rest hold from then on; no event is raised. After a reset slot 1 is read next, at a reload slot 5. One that is
intact but not valid leaves none in force from then on, the fallback reason that of the first test it fails: 2 kind, 3
index, 4 field range, 12 station code; after a reset slot 1 is read next, at a reload slot 19. Nothing else changes. (The
model's choice of the next item's words not yet read: log entry 30.) -/
def Obligations.LoadedStationDescriptorsHold : Prop :=
  ∀ (s : State) (x : Item) (w : Record), Awake s → LastRead s x w → x.slot = 0 →
    (∀ d, intact w = true → w[0] = 0x5100 → readStation w = some d → d.stationCode = s.lc.stationCode.toNat →
      ∃ t k, exec .loadingReadComplete s = .next t ∧ exec .memoryCycleComplete s = .next t ∧
        Requested s t k ∧ k = (if s.lc.cause = .reset then 1 else 5) ∧
        t.lc = { s.lc with station := some d, fallbackReason := 0, loadSlot := some k } ∧
        t.rt = s.rt ∧ t.channels = s.channels ∧ t.rv = s.rv ∧ t.ru = { s.ru with attention := t.ru.attention } ∧
        (AttentionFollows s → AttentionFollows t)) ∧
    ∀ reason, StationFails s w reason →
      ∃ t k, exec .loadingReadComplete s = .next t ∧ exec .memoryCycleComplete s = .next t ∧
        Requested s t k ∧ k = (if s.lc.cause = .reset then 1 else 19) ∧
        t.lc = { s.lc with station := none, fallbackReason := reason, loadSlot := some k } ∧
        t.rt = s.rt ∧ t.channels = s.channels ∧ t.rv = s.rv ∧ t.ru = { s.ru with attention := t.ru.attention } ∧
        (AttentionFollows s → AttentionFollows t)

/-- A valid channel descriptor read after reset configures its channel (R171): descriptor in force, working displacement
at its nominal, IN_SERVICE if start-in-service is set and else OUT_OF_SERVICE, whose flag latches; no event. A valid
channel report of a configured channel restores it (R171): residue, owed strokes, credit and deficit; the delivered
odorant plus what the meter has counted; the last calibration, ABORTED with 0 where the report shows CALIBRATING; the
working displacement, where the nominal is unchanged and the value in range; then crossings on the restored residue are
distributed with cause 12, the restrict line is evaluated, a deficit above 0 latches DEFICIT, and the sequencer's test is
made. Of an UNCONFIGURED channel's report nothing is taken. The next slot is read; nothing else changes. (The
model's readings: log entries 8, 25, 29 and 30.) -/
def Obligations.LoadedChannelsAreConfigured : Prop :=
  ∀ (s : State) (x : Item) (w : Record) (c : Chan) (k : Slot), Awake s → LastRead s x w → intact w = true →
    AfterInLoad s.lc.cause.afterReset s.lc.station.isSome x.slot k →
    (∀ d, x.slot = channelDescriptorSlot c → w[0] = headWord 0x52 c.val → readChannel w = some d →
      ∃ t, exec .loadingReadComplete s = .next t ∧ exec .memoryCycleComplete s = .next t ∧
        Requested s t k ∧ t.lc = { s.lc with loadSlot := some k } ∧
        t.chan c = { s.chan c with descriptor := some d, working := d.nominal
                                   service := if d.startInService then .inService else .outOfService } ∧
        (∀ j, j ≠ c → t.chan j = s.chan j) ∧ t.rt = s.rt ∧ t.rv = s.rv ∧
        Reports s t [] (if d.startInService then [] else [.channel c .outOfService])
          (if sameReport (s.chan c) (t.chan c) then [] else [.channel c])) ∧
    (∀ q d u, x.slot.val = 22 + c.val → w[0] = headWord 0x65 c.val → readChannelReport w = some q →
      (s.chan c).descriptor = some d → u = s.setChan c (restoredFrom (s.chan c) d q) →
      ∃ t, exec .loadingReadComplete s = .next t ∧ exec .memoryCycleComplete s = .next t ∧
        Requested s t k ∧ t.lc = { s.lc with loadSlot := some k } ∧
        Distributed (u.chan c) (t.chan c) (q.residue / ((u.chan c).working * 1000))
          (q.residue % ((u.chan c).working * 1000)) ∧
        LineFollows d (s.chan c).restrict (t.chan c) ∧ Begins d s.uptime (s.chan c) (t.chan c) ∧
        (∀ j, j ≠ c → t.chan j = s.chan j) ∧ t.rt = s.rt ∧ t.rv = s.rv ∧
        Reports s t (demandEvents u t c 12)
          ((if 0 < (t.chan c).deficit then [.channel c .deficit] else []) ++ demandFlags u t c)
          (if sameReport (s.chan c) (u.chan c) && sameReport (u.chan c) (t.chan c) then [] else [.channel c])) ∧
    (x.slot.val = 22 + c.val → (s.chan c).descriptor = none →
      ∃ t, exec .loadingReadComplete s = .next t ∧ exec .memoryCycleComplete s = .next t ∧
        Requested s t k ∧ t.lc = { s.lc with loadSlot := some k } ∧
        t.channels = s.channels ∧ t.rt = s.rt ∧ t.rv = s.rv ∧ t.ru = s.ru)

/-- A valid run descriptor read at loading is put in force and its run is UNBOUND if enabled is set, RETIRED if it is
clear; a valid run report gives C to an UNBOUND run, and to no other (R172). The next slot is read; nothing else changes
but, where the run's report now differs, its mark. (The model's readings: log entries 25 and 30.) -/
def Obligations.LoadedRunsAreConfigured : Prop :=
  ∀ (s : State) (x : Item) (w : Record) (r : Run) (k : Slot), Awake s → LastRead s x w → intact w = true →
    AfterInLoad s.lc.cause.afterReset s.lc.station.isSome x.slot k →
    (∀ d, x.slot = runDescriptorSlot r → w[0] = headWord 0x53 r.val → readRun w = some d →
      ∃ t, exec .loadingReadComplete s = .next t ∧ exec .memoryCycleComplete s = .next t ∧
        Requested s t k ∧ t.lc = { s.lc with loadSlot := some k } ∧
        t.runDescriptor r = some d ∧ t.run r = { s.run r with condition := if d.enabled then .unbound else .retired } ∧
        (∀ q, q ≠ r → t.runDescriptor q = s.runDescriptor q ∧ t.run q = s.run q) ∧ t.rt.slots = s.rt.slots ∧
        t.channels = s.channels ∧ t.rv = s.rv ∧
        Reports s t [] [] (if t.run r = s.run r then [] else [.run r])) ∧
    (x.slot.val = 26 + r.val → w[0] = headWord 0x66 r.val → (w[1].extractLsb' 12 4).toNat ≤ 4 →
      ∃ t, exec .loadingReadComplete s = .next t ∧ exec .memoryCycleComplete s = .next t ∧
        Requested s t k ∧ t.lc = { s.lc with loadSlot := some k } ∧
        t.run r = (if (s.run r).condition = .unbound then { s.run r with credit := num3 w[7] w[8] w[9] } else s.run r) ∧
        (∀ q, q ≠ r → t.run q = s.run q) ∧ t.rt.descriptors = s.rt.descriptors ∧ t.rt.slots = s.rt.slots ∧
        t.channels = s.channels ∧ t.rv = s.rv ∧
        Reports s t [] [] (if t.run r = s.run r then [] else [.run r]))

/-- A valid status record read from slot 19 gives the ring next position and nothing else (R173). The capture header read
from slot 20 at a load after reset, intact and marked occupied, restores the capture, and CAPTURE_OCCUPIED latches; at a
reload nothing is taken from it (R51, R173). The next slot is read; nothing else changes. (The model's readings: log
entries 18 and 30. The header that ends a load with no station descriptor is the subject of `FallbackIsEntered`.) -/
def Obligations.LoadedStatusAndCaptureRestore : Prop :=
  ∀ (s : State) (x : Item) (w : Record) (k : Slot), Awake s → LastRead s x w →
    AfterInLoad s.lc.cause.afterReset s.lc.station.isSome x.slot k →
    (x.slot = 19 → intact w = true → w[0] = 0x6200 → w[9].toNat < 64 →
      ∃ t, exec .loadingReadComplete s = .next t ∧ exec .memoryCycleComplete s = .next t ∧
        Requested s t k ∧ t.lc = { s.lc with loadSlot := some k } ∧
        t.ru.ringNext.val = w[9].toNat ∧ t.ru = { s.ru with ringNext := t.ru.ringNext } ∧
        t.rt = s.rt ∧ t.channels = s.channels ∧ t.rv = s.rv) ∧
    (x.slot = 20 → HeaderRestores s w →
      ∃ t, exec .loadingReadComplete s = .next t ∧ exec .memoryCycleComplete s = .next t ∧
        Requested s t k ∧ t.lc = { s.lc with loadSlot := some k } ∧
        t.rv = { s.rv with capture := captureOf w } ∧ t.rt = s.rt ∧ t.channels = s.channels ∧
        Reports s t [] [.station .captureOccupied] []) ∧
    (x.slot = 20 → s.lc.cause ≠ .reset →
      ∃ t, exec .loadingReadComplete s = .next t ∧ exec .memoryCycleComplete s = .next t ∧
        Requested s t k ∧ t.lc = { s.lc with loadSlot := some k } ∧
        t.rv = s.rv ∧ t.rt = s.rt ∧ t.channels = s.channels ∧ t.ru = s.ru)

/-- A tally slot read in the scan is weighed (R174): a record valid for the scan becomes its run's best where there is
none, where its total is larger, its sequence larger at equal totals, or its slot lower at both equal, the record
displaced joining the run's list; else it joins the list itself. Any other record leaves the scan as it was. The next
tally slot is read; nothing else changes. (The model's choice of the next item's words not yet read: log entry 30. The
last slot is the subject of `LoadsComplete`.) -/
def Obligations.TallySlotsAreWeighed : Prop :=
  ∀ (s : State) (x : Item) (w : Record) (t : TallySlot) (k : Slot), Awake s → LoadWf s → LastRead s x w →
    x.slot.val = 128 + t.val → k.val = x.slot.val + 1 →
    ∃ u z, exec .loadingReadComplete s = .next u ∧ exec .memoryCycleComplete s = .next u ∧
      Requested s u k ∧ Weighed s t w z ∧
      u.lc = { s.lc with loadSlot := some k, scan := z } ∧ u.rt = s.rt ∧ u.channels = s.channels ∧ u.rv = s.rv ∧
      u.ru = s.ru

/-- Load completion after the last tally slot of a load with a station descriptor (R174, R175): RUNNING; every run with
a best record is bound to its slot, LIVE and awaiting a baseline with its age and E at 0 and its freshness timers
started, every other run has C 0; each best slot is CURRENT for its run, each slot of a list HISTORY for the hold in
force, every other slot FREE; the result record is set after a reset or a RESTART; LOAD_DONE is raised with the cause,
the runs bound and the slots found valid. `z` is the scan with the last slot weighed. The Memory Agent takes its first
item in the order of R27, and the port is granted between it and the controller's cycle, which waited (R19, R24).
Nothing else changes. -/
def Obligations.LoadsComplete : Prop :=
  ∀ (s : State) (x : Item) (w : Record) (d : StationDescriptor) (z : Scan), Awake s → LoadWf s → LastRead s x w →
    x.slot.val = 511 → s.lc.station = some d → Weighed s 383 w z →
    ∃ t, exec .loadingReadComplete s = .next t ∧ exec .memoryCycleComplete s = .next t ∧ ChosenFirst t ∧
      Granted s t ∧ t.lc = loaderDone s .running (loadedResult s) ∧
      t.channels = s.channels ∧ t.rv = s.rv ∧ t.uptime = s.uptime ∧ t.pending = s.pending ∧ t.freeUsed = s.freeUsed ∧
      (∀ b, memByte t.mem b = memByte s.mem b) ∧ t.rt.descriptors = s.rt.descriptors ∧
      (∀ (r : Run) b, z.best[r] = some b →
        t.run r = { s.run r with
          condition := .live, awaitingBaseline := true, held := false, currentSlot := some b.slot
          shadowSequence := b.sequence, shadowTotal := b.total, shadowRate := b.rate, shadowTime := s.count
          ageStart := some s.uptime, estimated := 0, historyCount := (z.others[r]).length
          freshness := (s.runDescriptor r).map fun q => ⟨s.uptime, q.staleness * 1000, q.horizon * 1000⟩
          substitution := none }) ∧
      (∀ r : Run, z.best[r] = none → t.run r = { s.run r with credit := 0 }) ∧
      (∀ k r, t.claim k = .current r ↔ ∃ b, z.best[r] = some b ∧ b.slot = k) ∧
      (∀ k r y, t.claim k = .history r y ↔ k ∈ z.others[r] ∧ y = s.uptime + d.historyHold * 60000) ∧
      Reports s t [eventNow s .loadDone s.lc.cause.code ((List.finRange 12).filter fun r => z.best[r].isSome).length z.valid]
        [] (loadMarks s)

/-- Load completion after the capture header of a load with no station descriptor (R51, R175, R123): an occupied header
read after a reset restores the capture, and CAPTURE_OCCUPIED latches; any other leaves the verifier as it was, an intact,
occupied record of another kind or index too (R169; the model's reading: log entry 18). Then FALLBACK, LOAD_DONE and
FALLBACK_ENTERED with the fallback reason and the station code, the FALLBACK flag, and every configured channel's
base-period timer started. The Memory Agent takes its first item in the order of R27, and the port is granted between it
and the controller's cycle, which waited (R19, R24). Nothing else changes. -/
def Obligations.FallbackIsEntered : Prop :=
  ∀ (s : State) (x : Item) (w : Record) (v : Verifier) (fs : List Flag), Awake s → LastRead s x w →
    x.slot.val = 20 → s.lc.station = none → s.lc.scan = Scan.empty →
    (HeaderRestores s w ∧ v = { s.rv with capture := captureOf w } ∧ fs = [.station .captureOccupied, .station .fallback] ∨
      ¬HeaderRestores s w ∧ v = s.rv ∧ fs = [.station .fallback]) →
    ∃ t, exec .loadingReadComplete s = .next t ∧ exec .memoryCycleComplete s = .next t ∧ ChosenFirst t ∧
      Granted s t ∧ t.lc = loaderDone s .fallback (loadedResult s) ∧ t.rv = v ∧
      t.uptime = s.uptime ∧ t.pending = s.pending ∧ t.freeUsed = s.freeUsed ∧
      (∀ b, memByte t.mem b = memByte s.mem b) ∧
      (∀ c, t.chan c = { s.chan c with baseTimer := match (s.chan c).descriptor with
        | none => (s.chan c).baseTimer
        | some d => some ⟨d.basePeriod * 1000, s.uptime + d.basePeriod * 1000⟩ }) ∧
      (∀ r, t.run r = { s.run r with credit := 0 }) ∧ t.rt.descriptors = s.rt.descriptors ∧ (∀ k, t.claim k = .free) ∧
      Reports s t [eventNow s .loadDone s.lc.cause.code 0 0,
          eventNow s .fallbackEntered 0 s.lc.fallbackReason s.lc.stationCode.toNat] fs (loadMarks s)

/-! ### Status reads, the drain, RESET_n -/

/-- The controller's read of a flag word of the status record completes (R14, R24, R27, R159): it presents the word;
exactly the flags of that word that are set in it, shown, and without a condition present are cleared and leave the shown
set; the attention line follows; the status record is to be rewritten where any flag cleared, and with it the report of
each channel of which one cleared. The cycle ends, the current item and the port going on as after any cycle of the
controller's (the model's readings: log entries 11 and 26). Nothing else changes. -/
def Obligations.StatusReadsClearFlags : Prop :=
  ∀ (s : State) (w : Pos) (i : Fin 7), Awake s → w.val = i.val + 2 →
    s.mp = some ⟨.controller, slotAddr s.lc.baseSelect 19 w, .read⟩ →
    ∃ t, exec (.statusRead w) s = .next t ∧ exec .memoryCycleComplete s = .next t ∧
      Ended t (readWord s.mem (slotAddr s.lc.baseSelect 19 w)) ∧
      (∀ f, t.ru.latched.has f = (s.ru.latched.has f && !ReadClears s w f)) ∧
      (∀ f, t.ru.shown.has f = (s.ru.shown.has f && !ReadClears s w f)) ∧
      (AttentionFollows s → AttentionFollows t) ∧
      Returned s t (fun k => s.ru.dirty[k] = true ∨
        (k = .status ∧
          readWord s.mem (slotAddr s.lc.baseSelect 19 w) &&& s.ru.shown[i] &&& ~~~s.conditions[i] ≠ 0) ∨
        ∃ c g, k = .channel c ∧ ReadClears s w (.channel c g) = true) ∧
      t.ru = { s.ru with latched := t.ru.latched, shown := t.ru.shown, attention := t.ru.attention
                         dirty := t.ru.dirty, pendingShown := t.ru.pendingShown } ∧
      (∀ k, memByte t.mem k = memByte s.mem k) ∧ t.rv = s.rv ∧ t.rt = s.rt ∧ t.channels = s.channels ∧ t.lc = s.lc ∧
      t.uptime = s.uptime ∧ t.pending = s.pending

/-- The drain completes (R177, R178): with no current item, no commit queued and no mark set, DRAINING ends and the
reload begins with slot 0. Every run and tally slot returns to its reset value and the run descriptors are withdrawn; the
station descriptor stays. A channel keeps all it has, but a calibration in progress is aborted (R133, R134): CAL_FAIL and
CALIBRATION_END with ABORTED, the channel IN_SERVICE, its own stroke treated as R119 treats one whose channel leaves
service, and, its sequencer IDLE, the next stroke begun where strokes are owed (R111, R122). (The model's readings: log
entries 8 and 11; 27, for the order of several channels' events; 30, for the words of the first read; 31, for the run
reports, which the reload's start leaves unmarked; 33, for the window pulses after an abort.) -/
def Obligations.DrainsComplete : Prop :=
  ∀ s : State, Awake s → s.lc.device = .draining → s.ma = none → s.rv.committing = [] →
    (∀ k : PartSlot, s.ru.dirty[k] = false) →
    ∃ t, exec .drainComplete s = .next t ∧
      t.lc = { s.lc with device := .loading, loadSlot := some 0, scan := Scan.empty, fallbackReason := 0 } ∧
      t.rt = RunTable.reset ∧ t.rv = s.rv ∧ t.uptime = s.uptime ∧
      t.ma = some ⟨.loadingRead, 0, Vector.replicate 16 0, 0⟩ ∧ Outside s t ∧
      (∀ c, (s.chan c).service ≠ .calibrating → t.chan c = s.chan c) ∧
      (∀ c d x, (s.chan c).service = .calibrating → (s.chan c).descriptor = some d →
        x = { s.chan c with
          service := .inService
          cal := calibrationOver .aborted
          seq := if (s.chan c).seq.kind = some .calibration then leftService (s.chan c).seq else (s.chan c).seq } →
        t.chan c = { x with seq := (t.chan c).seq } ∧ Begins d s.uptime x (t.chan c)) ∧
      Reports s t
        ((List.finRange 4).flatMap fun c => if (s.chan c).service = .calibrating
          then [eventNow s .calibrationEnd c.val 5 0] else [])
        ((List.finRange 4).flatMap fun c => if (s.chan c).service = .calibrating then [.channel c .calFail] else [])
        (.status :: (List.finRange 4).flatMap fun c => if (s.chan c).service = .calibrating then [.channel c] else [])

/-- RESET_n is asserted (R16, R23, R117, R133, R161, R168): every stroke output and wetting source turns off, the stroke
and the calibration are lost, the restrict lines and the attention line deassert, the Memory Agent abandons its item,
the controller's cycle is held with the wait line asserted, and memory stays. A memory cycle under way goes on: while
RESET_n is asserted its completion changes memory as it would have, nothing else, and leaves the port idle (R23). (The
model's readings: log entries 8 and 13; 32, for what a channel holds of its calibration and its service state while
RESET_n is asserted.) -/
def Obligations.ResetIsAsserted : Prop :=
  ∀ s : State,
    (Awake s →
      ∃ t, exec .resetAssert s = .next t ∧ t.lc = { s.lc with resetAsserted := true } ∧ t.ma = none ∧ t.mp = s.mp ∧
        (∀ k, memByte t.mem k = memByte s.mem k) ∧ t.ru = { s.ru with attention := false } ∧
        (∀ c, t.chan c = { s.chan c with seq := Sequencer.idle, restrict := false, cal := Calibration.reset }) ∧
        (∀ x, s.cp.cycle = some x → t.cp.cycle = some ⟨x.addr, x.op, .stopped⟩ ∧ t.cp.waitLine = true) ∧
        (s.cp.cycle = none → t.cp = s.cp) ∧ t.rv = s.rv ∧ t.rt = s.rt ∧ t.uptime = s.uptime ∧ t.pending = s.pending ∧
        t.freeUsed = s.freeUsed) ∧
    (∀ m, s.lc.resetAsserted = true → s.mp = some m →
      exec .memoryCycleComplete s = .next { s with mp := none, mem := carried s })

/-- RESET_n is released (R1, R16, R23, R24, R168): every block takes its values after reset, the straps are sampled, a
memory cycle under way has been carried to its end and memory is otherwise as it was, and the first loading read, of slot
0, is requested. With no cycle held it is granted at once; a held cycle is taken again, before that grant or after it. A
release with no assertion before it leaves the same. (The model's readings: log entries 12, 13, 14 and 28. Where the spec
gives no value the answer holds the model's choice: log entry 8, the result record's content, the fallback reason and what
an IDLE sequencer holds; log entry 21, the data word presented; log entry 30, the words of the first read.) -/
def Obligations.ResetIsReleased : Prop :=
  ∀ (s u v : State) (gb : BitVec 4) (sc : BitVec 6),
    u = { State.released gb sc with pending := s.pending, mem := carried s, freeUsed := s.freeUsed } →
    v = { u with freeUsed := s.freeUsed + 1 } →
    (s.cp.cycle = none → exec (.resetRelease gb sc) s = .next { u with
      ma := some ⟨.loadingRead, 0, Vector.replicate 16 0, 0⟩, mp := some ⟨.agent, slotAddr gb 0 0, .read⟩ }) ∧
    (∀ x, s.cp.cycle = some x →
      exec (.resetRelease gb sc) s = exec (.controllerCycle x.addr x.op) v ∨
      exec (.resetRelease gb sc) s = exec (.controllerCycle x.addr x.op) { v with
        ma := some ⟨.loadingRead, 0, Vector.replicate 16 0, 0⟩, mp := some ⟨.agent, slotAddr gb 0 0, .read⟩ })


/-! ### Records: tallies -/

/-- The record rows and the command rows of the table are the controller's two-lane writes of one word of a slot (R17,
R22, R148; log entry 2): each answers what that controller cycle answers. -/
def Obligations.RecordRowsAreWrites : Prop :=
  ∀ (s : State) (p : Pos) (v tag a b : Word),
    (∀ k : TallySlot, exec (.tallyRecord k p v) s = writes s (tallySlotOf k) p v) ∧
    exec (.stationDescriptor p v) s = writes s 0 p v ∧
    (∀ c : Chan, exec (.channelDescriptor c p v) s = writes s (channelDescriptorSlot c) p v) ∧
    (∀ r : Run, exec (.runDescriptor r p v) s = writes s (runDescriptorSlot r) p v) ∧
    exec (.commandRecord p v) s = writes s 17 p v ∧
    exec (.clearRun tag a p) s = writes s 17 p (commandRecordOf tag 1 a 0)[p] ∧
    exec (.clearChannel tag a p) s = writes s 17 p (commandRecordOf tag 2 a 0)[p] ∧
    exec (.clearDeficit tag a p) s = writes s 17 p (commandRecordOf tag 3 a 0)[p] ∧
    exec (.clearCapture tag p) s = writes s 17 p (commandRecordOf tag 4 0 0)[p] ∧
    exec (.setServiceIn tag a p) s = writes s 17 p (commandRecordOf tag 5 a 1)[p] ∧
    exec (.setServiceOut tag a p) s = writes s 17 p (commandRecordOf tag 5 a 0)[p] ∧
    exec (.calibrate tag a b p) s = writes s 17 p (commandRecordOf tag 6 a b)[p] ∧
    exec (.unbindRun tag a p) s = writes s 17 p (commandRecordOf tag 7 a 0)[p] ∧
    exec (.releaseHistory tag a p) s = writes s 17 p (commandRecordOf tag 8 a 0)[p] ∧
    exec (.restart tag p) s = writes s 17 p (commandRecordOf tag 9 0 0)[p]

/-- The two baselines. A binding baseline (R65, R66, R70): a tally of an UNBOUND run that is not held, completed in a
FREE slot. The slot becomes CURRENT for the run; RUN_BOUND and then RUN_BASELINE with value 0. A load baseline (R67, R69,
R70): the first tally of a run bound at load, its total not below the shadow, in its own slot or, migrating, in a FREE
one, RUN_MIGRATED first and the slot it left HISTORY. Its increment is not dosed: RUN_BASELINE carries it, then RUN_LIVE
with the E it had where the run was STALE or LOST; E becomes 0, C stays, the run no longer awaits a baseline. In both the
shadow is the record's and the run is LIVE with its freshness timers started; no volume is routed; no other run, slot or
channel changes. (The model's readings: log entries 2 and 25.) -/
def Obligations.BaselinesDoseNothing : Prop :=
  ∀ (s : State) (k : TallySlot) (p : Pos) (v : Word) (w : Record) (r : Run), Completes s (tallySlotOf k) p v w →
    intact w = true → w[0] = headWord 0x55 r.val → (s.run r).held = false →
    ((s.run r).condition = .unbound → s.claim k = .free →
      ∃ t, exec (.tallyRecord k p v) s = .next t ∧ Outside s t ∧ t.uptime = s.uptime ∧ t.lc = s.lc ∧
        t.channels = s.channels ∧ t.rv = verifierAfter s (tallySlotOf k) w ∧
        t.run r = shadowed { s.run r with currentSlot := some k } w s.count s.uptime (s.runDescriptor r) ∧
        (∀ q, q ≠ r → t.run q = s.run q) ∧ t.rt.descriptors = s.rt.descriptors ∧
        t.claim k = .current r ∧ (∀ j, j ≠ k → t.claim j = s.claim j) ∧
        Reports s t [eventNow s .runBound r.val k.val (num3 w[2] w[3] w[4]), eventNow s .runBaseline r.val k.val 0] []
          [.run r]) ∧
    (∀ old, (s.run r).condition.bound = true → (s.run r).awaitingBaseline = true → (s.run r).currentSlot = some old →
      (s.claim k = .current r ∧ k = old ∨ s.claim k = .free ∧ k ≠ old) → (s.run r).shadowTotal ≤ num3 w[2] w[3] w[4] →
      ∃ t, exec (.tallyRecord k p v) s = .next t ∧ Outside s t ∧ t.uptime = s.uptime ∧ t.lc = s.lc ∧
        t.channels = s.channels ∧ t.rv = verifierAfter s (tallySlotOf k) w ∧
        t.run r = shadowed { s.run r with
            currentSlot := some k
            historyCount := (s.run r).historyCount + (if k = old then 0 else 1)
            estimated := 0, awaitingBaseline := false } w s.count s.uptime (s.runDescriptor r) ∧
        (∀ q, q ≠ r → t.run q = s.run q) ∧ t.rt.descriptors = s.rt.descriptors ∧ t.claim k = .current r ∧
        (k ≠ old → t.claim old = .history r (s.uptime + s.historyHold)) ∧
        (∀ j, j ≠ k → j ≠ old → t.claim j = s.claim j) ∧
        Reports s t ((if k = old then [] else [eventNow s .runMigrated r.val k.val old.val]) ++
          eventNow s .runBaseline r.val k.val (num3 w[2] w[3] w[4] - (s.run r).shadowTotal) :: spellEnd s r k) [] [.run r])

/-- An ordinary acceptance (R62, R63, R64, R68, R69, R70, R87, R88, R93 to R95): the increment is netted against E and
C; E becomes 0; the volume to dose goes to the receiving channel's demand, or, where that channel is UNCONFIGURED, to
the run's unrouted volume. In the run's own slot the map stays; in a FREE slot the run migrates, RUN_MIGRATED first, and
the slot it left is HISTORY. RUN_LIVE ends a STALE or LOST spell. No other run, slot or channel changes. (The model's
readings: log entries 2, 8 and 25.) -/
def Obligations.TalliesReconcile : Prop :=
  ∀ (s : State) (k old : TallySlot) (p : Pos) (v : Word) (w : Record) (r : Run) (d : RunDescriptor),
    Completes s (tallySlotOf k) p v w → intact w = true → w[0] = headWord 0x55 r.val →
    (s.run r).condition.bound = true → (s.run r).held = false → (s.run r).awaitingBaseline = false →
    (s.run r).currentSlot = some old → (s.claim k = .current r ∧ k = old ∨ s.claim k = .free ∧ k ≠ old) →
    w[1] = (s.run r).shadowSequence + 1 → (s.run r).shadowTotal ≤ num3 w[2] w[3] w[4] → s.runDescriptor r = some d →
    num2 w[5] w[6] ≤ d.maxFlow →
    num3 w[2] w[3] w[4] - (s.run r).shadowTotal ≤ d.maxFlow * ((s.age r + 999) / 1000) + d.slack →
    ∃ t, exec (.tallyRecord k p v) s = .next t ∧ Outside s t ∧ t.uptime = s.uptime ∧ t.lc = s.lc ∧
      t.rv = verifierAfter s (tallySlotOf k) w ∧
      t.run r = shadowed { s.run r with
          currentSlot := some k
          historyCount := (s.run r).historyCount + (if k = old then 0 else 1)
          estimated := 0
          credit := if (s.run r).estimated ≤ num3 w[2] w[3] w[4] - (s.run r).shadowTotal
            then (s.run r).credit - min (s.run r).credit (num3 w[2] w[3] w[4] - (s.run r).shadowTotal - (s.run r).estimated)
            else satAdd Config.max48 (s.run r).credit ((s.run r).estimated - (num3 w[2] w[3] w[4] - (s.run r).shadowTotal))
          unrouted := unroutedAfter s r d (dosedBy s r w) }
        w s.count s.uptime (some d) ∧
      (∀ q, q ≠ r → t.run q = s.run q) ∧ t.rt.descriptors = s.rt.descriptors ∧ t.claim k = .current r ∧
      (k ≠ old → t.claim old = .history r (s.uptime + s.historyHold)) ∧
      (∀ j, j ≠ k → j ≠ old → t.claim j = s.claim j) ∧ VolumeRouted s t d (dosedBy s r w) ∧
      Reports s t ((if k = old then [] else [eventNow s .runMigrated r.val k.val old.val]) ++ spellEnd s r k ++
          demandEvents s t (receiverOf s d) r.val) (demandFlags s t (receiverOf s d))
        (.run r :: if sameReport (s.chan (receiverOf s d)) (t.chan (receiverOf s d)) then [] else [.channel (receiverOf s d)])

/-- A completed record that a check fails is refused with the first failing reason and changes nothing of its owner
(R39, R41, R43, R44, R46, R49): RECORD_REFUSED with the slot, the reason and w0; the flags; one refusal counted; the
capture filled where it was unoccupied, and else the count since capture grown by one, its header marked where that count
changes (R162); and, in LATCHED mode, the hold R45 asks for. The record is gone from the pool
and reaches no queue. `RefusedFor` gives the reasons. -/
def Obligations.RecordsAreRefused : Prop :=
  ∀ (s : State) (slot : Slot) (p : Pos) (v : Word) (w : Record) (reason : Nat), Completes s slot p v w →
    slotClass slot = .controller → RefusedFor s slot w reason →
    ∃ t, exec (.controllerCycle (slotAddr s.lc.baseSelect slot p) (.write v .both)) s = .next t ∧ Outside s t ∧
      t.uptime = s.uptime ∧ t.lc = s.lc ∧ t.channels = s.channels ∧
      t.rv = { s.rv with
        assembling := s.rv.assembling.filter fun e => decide (e.slot ≠ slot)
        takenSince := true
        refusals := satAdd 65535 s.rv.refusals 1
        capture := if s.rv.capture.occupied then { s.rv.capture with since := sinceAfter s }
          else ⟨true, BitVec.ofNat 16 reason, BitVec.ofNat 16 slot.val, s.count, 0, BitVec.ofNat 16 s.guardCode, some w⟩ } ∧
      t.rt.descriptors = s.rt.descriptors ∧ t.rt.slots = s.rt.slots ∧
      (∀ q, t.run q = { s.run q with held := (s.run q).held || HeldByRefusal s slot w reason q }) ∧
      Reports s t (eventNow s .recordRefused slot.val reason w[0].toNat ::
          (List.finRange 12).flatMap fun q => if HeldByRefusal s slot w reason q && !(s.run q).held
            then [eventNow s .runHeld q.val reason slot.val] else [])
        (.station .recordRefused :: (if s.rv.capture.occupied then [] else [.station .captureOccupied]) ++
          (match attributedTo s slot w reason with | none => [] | some q => [.run .refused q]) ++
          (List.finRange 12).flatMap fun q => if HeldByRefusal s slot w reason q && !(s.run q).held
            then [.run .held q] else [])
        (.status :: (if s.rv.capture.occupied then (if sinceAfter s = s.rv.capture.since then [] else [.captureHeader])
            else [.captureHeader, .captureBody]) ++
          (List.finRange 12).flatMap fun q => if HeldByRefusal s slot w reason q && !(s.run q).held
            then [.run q] else [])

/-! ### Records: descriptors -/

/-- A station descriptor that passes its checks (R136, R138, R139, R140): it is in force from its acceptance, its filter
governing its own DESCRIPTOR_APPLIED and its mask the attention line. In FALLBACK the device moves to DRAINING, which
discards every assembly and stops the base-period timers (R123, R177); in RUNNING no device state changes. (The model's
reading: log entry 2.) -/
def Obligations.StationDescriptorsAreAccepted : Prop :=
  ∀ (s : State) (p : Pos) (v : Word) (w : Record) (d : StationDescriptor), Completes s 0 p v w → intact w = true →
    w[0] = 0x5100 → readStation w = some d → d.stationCode = s.lc.stationCode.toNat →
    ∃ t, exec (.stationDescriptor p v) s = .next t ∧ Outside s t ∧ t.uptime = s.uptime ∧ t.rt = s.rt ∧
      (s.lc.device = .running → t.lc = { s.lc with station := some d } ∧ t.channels = s.channels ∧
        t.rv = verifierAfter s 0 w) ∧
      (s.lc.device = .fallback →
        t.lc = { s.lc with station := some d, device := .draining, cause := .stationAccepted } ∧
        (∀ c, t.chan c = { s.chan c with baseTimer := none }) ∧
        t.rv = { verifierAfter s 0 w with assembling := [] }) ∧
      Reports { s with lc := { s.lc with station := some d } } t
        [eventNow s .descriptorApplied 0 (stationChanges s.lc.station d) w[15].toNat] []
        (if s.lc.device = .fallback then [.status] else []) ∧
      AttentionFollows t

/-- The first channel descriptor of an UNCONFIGURED channel (R144, R103, R109): in force, the working displacement at
its nominal, the residue counted against that first quantum, the window counts 0, OUT_OF_SERVICE with its flag, whatever
start-in-service says; then the restrict line on the new marks. DESCRIPTOR_APPLIED with all fifteen fields, then
CHANNEL_SERVICE. No volume is routed and no run changes. (The model's readings: log entries 2, 8, 10 and 25.) -/
def Obligations.ChannelDescriptorsConfigure : Prop :=
  ∀ (s : State) (c : Chan) (p : Pos) (v : Word) (w : Record) (d : ChannelDescriptor) (x : Channel),
    Completes s (channelDescriptorSlot c) p v w → intact w = true → w[0] = headWord 0x52 c.val →
    readChannel w = some d → (s.chan c).service = .unconfigured → (s.chan c).descriptor = none →
    x = { s.chan c with service := .outOfService, descriptor := some d, working := d.nominal
                        attempts := 0, misses := 0 } →
    ∃ t, exec (.channelDescriptor c p v) s = .next t ∧ Outside s t ∧ t.uptime = s.uptime ∧ t.lc = s.lc ∧ t.rt = s.rt ∧
      t.rv = verifierAfter s (channelDescriptorSlot c) w ∧ (∀ k, k ≠ c → t.chan k = s.chan k) ∧
      Distributed x (t.chan c) (x.residue / (d.nominal * 1000)) (x.residue % (d.nominal * 1000)) ∧
      LineFollows d x.restrict (t.chan c) ∧ (t.chan c).seq = leftService x.seq ∧
      Reports s t
        ((if x.deficit = 0 ∧ 0 < (t.chan c).deficit
            then [eventNow s .deficitStarted c.val 12 (t.chan c).deficit] else []) ++
          [eventNow s .descriptorApplied (1 + c.val) 15 w[15].toNat, eventNow s .channelService c.val 1 0] ++
          if x.restrict = false ∧ (t.chan c).restrict = true
            then [eventNow s .restrictOn c.val d.highMark (t.chan c).owed]
            else if x.restrict = true ∧ (t.chan c).restrict = false
            then [eventNow s .restrictOff c.val d.lowMark (t.chan c).owed] else [])
        (.channel c .outOfService :: demandFlags s t c) [.channel c]

/-- A later channel descriptor (R136, R142, R143): accepted unless it changes a physics field of a channel in service or
FAILED. The working displacement becomes the nominal only where that changed; the window counts become 0 only where W or
M changed; the residue meets the new quantum and its crossings are distributed; the restrict line is evaluated on the
result; everything else of the channel stays. (The model's readings: log entries 2, 8, 10 and 25.) -/
def Obligations.ChannelDescriptorsReconfigure : Prop :=
  ∀ (s : State) (c : Chan) (p : Pos) (v : Word) (w : Record) (o d : ChannelDescriptor),
    Completes s (channelDescriptorSlot c) p v w → intact w = true → w[0] = headWord 0x52 c.val →
    readChannel w = some d → (s.chan c).descriptor = some o →
    (PhysicsChange o d → (s.chan c).service = .outOfService ∨ (s.chan c).service = .unconfigured) →
    ∃ t x, exec (.channelDescriptor c p v) s = .next t ∧ Outside s t ∧ t.uptime = s.uptime ∧ t.lc = s.lc ∧ t.rt = s.rt ∧
      t.rv = verifierAfter s (channelDescriptorSlot c) w ∧ (∀ k, k ≠ c → t.chan k = s.chan k) ∧
      x = { s.chan c with
        descriptor := some d
        working := if o.nominal = d.nominal then (s.chan c).working else d.nominal
        attempts := if o.missWindow = d.missWindow ∧ o.missLimit = d.missLimit then (s.chan c).attempts else 0
        misses := if o.missWindow = d.missWindow ∧ o.missLimit = d.missLimit then (s.chan c).misses else 0 } ∧
      (o.nominal = d.nominal → Distributed x (t.chan c) 0 x.residue) ∧
      (o.nominal ≠ d.nominal → Distributed x (t.chan c) (x.residue / (d.nominal * 1000)) (x.residue % (d.nominal * 1000))) ∧
      (if (t.chan c).owed = (s.chan c).owed ∧ o.highMark = d.highMark ∧ o.lowMark = d.lowMark
        then (t.chan c).restrict = (s.chan c).restrict ∧ (t.chan c).seq = (s.chan c).seq
        else LineFollows d (s.chan c).restrict (t.chan c) ∧ Begins d s.uptime (s.chan c) (t.chan c)) ∧
      Reports s t (demandEvents s t c 12 ++
          [eventNow s .descriptorApplied (1 + c.val) (channelChanges (some o) d) w[15].toNat]) (demandFlags s t c)
        (if sameReport (s.chan c) (t.chan c) then [] else [.channel c])

/-- A run descriptor (R75, R136, R146): it is in force; enabling a RETIRED run makes it UNBOUND; disabling a run that is
not RETIRED retires it, its slot entering HISTORY and RUN_UNBOUND with cause 2 where it was bound; otherwise the run
stays as it is. DESCRIPTOR_APPLIED counts the fields that differ. Nothing else changes. (The model's readings: log
entries 2, 10 and 25.) -/
def Obligations.RunDescriptorsAreAccepted : Prop :=
  ∀ (s : State) (r : Run) (p : Pos) (v : Word) (w : Record) (d : RunDescriptor),
    Completes s (runDescriptorSlot r) p v w → intact w = true → w[0] = headWord 0x53 r.val → readRun w = some d →
    ∃ t, exec (.runDescriptor r p v) s = .next t ∧ Outside s t ∧ t.uptime = s.uptime ∧ t.lc = s.lc ∧
      t.channels = s.channels ∧ t.rv = verifierAfter s (runDescriptorSlot r) w ∧ t.runDescriptor r = some d ∧
      (∀ q, q ≠ r → t.runDescriptor q = s.runDescriptor q ∧ t.run q = s.run q) ∧
      (d.enabled = true → t.rt.slots = s.rt.slots ∧
        t.run r = (if (s.run r).condition = .retired then { s.run r with condition := .unbound } else s.run r)) ∧
      (d.enabled = false → (s.run r).condition = .retired → t.rt.slots = s.rt.slots ∧ t.run r = s.run r) ∧
      (d.enabled = false → (s.run r).condition = .unbound → t.rt.slots = s.rt.slots ∧
        t.run r = unboundRun (s.run r) .retired) ∧
      (∀ k, d.enabled = false → (s.run r).condition.bound = true → (s.run r).currentSlot = some k →
        t.run r = unboundRun { s.run r with historyCount := (s.run r).historyCount + 1 } .retired ∧
        t.claim k = .history r (s.uptime + s.historyHold) ∧ ∀ j, j ≠ k → t.claim j = s.claim j) ∧
      Reports s t ((if d.enabled = false ∧ (s.run r).condition.bound = true
          then [eventNow s .runUnbound r.val 2 (s.run r).slotNumber] else []) ++
          [eventNow s .descriptorApplied (5 + r.val) (runChanges (s.runDescriptor r) d) w[15].toNat]) []
        (if d.enabled = decide ((s.run r).condition = .retired) then [.run r] else [])

/-! ### Commands -/

/-- CLEAR_RUN in RUNNING (R72, R149): DONE; a held run is held no longer, detail 1; otherwise nothing of the run
changes, detail 0. CLEAR_DEFICIT in RUNNING (R102, R150): DONE in every service state, the detail the deficit before; the
deficit is 0 and the channel report is to be rewritten. CLEAR_CAPTURE in RUNNING and in FALLBACK (R50, R150): DONE, the
detail the reason held, or 0; the header fields become 0, the body stays, the header is to be rewritten. Nothing else
changes. (The model's readings: log entries 2 and 10.) -/
def Obligations.ClearRunClearDeficitAndClearCaptureComplete : Prop :=
  ∀ (s : State) (tag a : Word) (p : Pos),
    (∀ r : Run, CommandReady s p tag 1 a 0 → s.lc.device = .running → a.toNat = r.val →
      ∃ t, exec (.clearRun tag a p) s = .next t ∧ Outside s t ∧ t.uptime = s.uptime ∧ t.channels = s.channels ∧
        t.lc = loaderAfter s tag 1 .done (if (s.run r).held then 1 else 0) ∧
        t.rv = verifierAfter s 17 (commandRecordOf tag 1 a 0) ∧
        t.run r = { s.run r with held := false } ∧ (∀ q, q ≠ r → t.run q = s.run q) ∧
        t.rt.slots = s.rt.slots ∧ t.rt.descriptors = s.rt.descriptors ∧
        Reports s t [commandTaken s tag 1 .done] [] (.result :: if (s.run r).held then [.run r] else [])) ∧
    (∀ c : Chan, CommandReady s p tag 3 a 0 → s.lc.device = .running → a.toNat = c.val →
      ∃ t, exec (.clearDeficit tag a p) s = .next t ∧ Outside s t ∧ t.uptime = s.uptime ∧ t.rt = s.rt ∧
        t.lc = loaderAfter s tag 3 .done (s.chan c).deficit ∧ t.rv = verifierAfter s 17 (commandRecordOf tag 3 a 0) ∧
        t.chan c = { s.chan c with deficit := 0 } ∧ (∀ k, k ≠ c → t.chan k = s.chan k) ∧
        Reports s t [commandTaken s tag 3 .done] [] [.result, .channel c]) ∧
    (CommandReady s p tag 4 0 0 →
      ∃ t, exec (.clearCapture tag p) s = .next t ∧ Outside s t ∧ t.uptime = s.uptime ∧ t.rt = s.rt ∧
        t.channels = s.channels ∧
        t.lc = loaderAfter s tag 4 .done (if s.rv.capture.occupied then s.rv.capture.reason.toNat else 0) ∧
        t.rv = { verifierAfter s 17 (commandRecordOf tag 4 0 0) with
          capture := ⟨false, 0, 0, 0, 0, 0, s.rv.capture.body⟩ } ∧
        Reports s t [commandTaken s tag 4 .done] [] [.result, .captureHeader])

/-- CLEAR_CHANNEL in RUNNING (R109, R111, R149): a FAILED channel returns to IN_SERVICE with both window counts 0 and
CHANNEL_SERVICE is raised; its sequencer, IDLE, begins a stroke where strokes are owed; DONE. In any other service state
nothing of the channel changes; WRONG_STATE with the state found. (The model's readings: log entries 2, 8 and 10.) -/
def Obligations.ClearChannelCompletes : Prop :=
  ∀ (s : State) (tag ch : Word) (p : Pos) (c : Chan), CommandReady s p tag 2 ch 0 → s.lc.device = .running →
    ch.toNat = c.val →
    ((s.chan c).service = .failed → ∀ d, (s.chan c).descriptor = some d → (s.chan c).seq.phase = .idle →
      ∃ t, exec (.clearChannel tag ch p) s = .next t ∧ Outside s t ∧ t.uptime = s.uptime ∧ t.rt = s.rt ∧
        t.lc = loaderAfter s tag 2 .done 0 ∧ t.rv = verifierAfter s 17 (commandRecordOf tag 2 ch 0) ∧
        t.chan c = { s.chan c with
          service := .inService, attempts := 0, misses := 0
          seq := if 0 < (s.chan c).owed then Sequencer.begin .ordinary d s.uptime else (s.chan c).seq } ∧
        (∀ k, k ≠ c → t.chan k = s.chan k) ∧
        Reports s t [eventNow s .channelService c.val 2 4, commandTaken s tag 2 .done] [] [.result, .channel c]) ∧
    ((s.chan c).service ≠ .failed →
      ∃ t, exec (.clearChannel tag ch p) s = .next t ∧ Outside s t ∧ t.uptime = s.uptime ∧ t.rt = s.rt ∧
        t.channels = s.channels ∧ t.lc = loaderAfter s tag 2 .wrongState (s.chan c).service.code ∧
        t.rv = verifierAfter s 17 (commandRecordOf tag 2 ch 0) ∧
        Reports s t [commandTaken s tag 2 .wrongState] [] [.result])

/-- SET_SERVICE(ch, in) in RUNNING (R109, R111, R120, R151): an OUT_OF_SERVICE channel goes IN_SERVICE with
CHANNEL_SERVICE, and its sequencer, if IDLE, begins a stroke where strokes are owed; on an IN_SERVICE channel nothing
changes; both DONE. In the other states nothing changes; WRONG_STATE. SET_SERVICE(ch, out) in RUNNING (R109, R119, R133,
R151): a channel IN_SERVICE, CALIBRATING or FAILED goes OUT_OF_SERVICE with CHANNEL_SERVICE and its flag; a precheck or a
rest ends at once, a drive or a proof goes on and is marked finishing; a calibration is aborted, CALIBRATION_END first; a
FAILED channel's window counts become 0. On an OUT_OF_SERVICE channel nothing changes; all DONE. An UNCONFIGURED channel:
WRONG_STATE. In both the detail is the state found. (The model's readings: log entries 2, 8 and 10; 33, for the window
pulses after an abort.) -/
def Obligations.SetServiceCompletes : Prop :=
  ∀ (s : State) (tag ch : Word) (p : Pos) (c : Chan), s.lc.device = .running → ch.toNat = c.val →
    (CommandReady s p tag 5 ch 1 →
      (∀ d, (s.chan c).service = .outOfService → (s.chan c).descriptor = some d →
        ∃ t, exec (.setServiceIn tag ch p) s = .next t ∧ Outside s t ∧ t.uptime = s.uptime ∧ t.rt = s.rt ∧
          t.lc = loaderAfter s tag 5 .done 1 ∧ t.rv = verifierAfter s 17 (commandRecordOf tag 5 ch 1) ∧
          t.chan c = { s.chan c with
            service := .inService
            seq := if (s.chan c).seq.phase = .idle ∧ 0 < (s.chan c).owed then Sequencer.begin .ordinary d s.uptime
              else (s.chan c).seq } ∧
          (∀ k, k ≠ c → t.chan k = s.chan k) ∧
          Reports s t [eventNow s .channelService c.val 2 1, commandTaken s tag 5 .done] [] [.result, .channel c]) ∧
      ((s.chan c).service ≠ .outOfService → ∀ o, o = (if (s.chan c).service = .inService then .done else .wrongState) →
        ∃ t, exec (.setServiceIn tag ch p) s = .next t ∧ Outside s t ∧ t.uptime = s.uptime ∧ t.rt = s.rt ∧
          t.channels = s.channels ∧ t.lc = loaderAfter s tag 5 o (s.chan c).service.code ∧
          t.rv = verifierAfter s 17 (commandRecordOf tag 5 ch 1) ∧ Reports s t [commandTaken s tag 5 o] [] [.result])) ∧
    (CommandReady s p tag 5 ch 0 →
      (∀ o, (s.chan c).service = .unconfigured ∧ o = .wrongState ∨ (s.chan c).service = .outOfService ∧ o = .done →
        ∃ t, exec (.setServiceOut tag ch p) s = .next t ∧ Outside s t ∧ t.uptime = s.uptime ∧ t.rt = s.rt ∧
          t.channels = s.channels ∧ t.lc = loaderAfter s tag 5 o (s.chan c).service.code ∧
          t.rv = verifierAfter s 17 (commandRecordOf tag 5 ch 0) ∧ Reports s t [commandTaken s tag 5 o] [] [.result]) ∧
      ((s.chan c).service ≠ .unconfigured → (s.chan c).service ≠ .outOfService →
        ∃ t, exec (.setServiceOut tag ch p) s = .next t ∧ Outside s t ∧ t.uptime = s.uptime ∧ t.rt = s.rt ∧
          t.lc = loaderAfter s tag 5 .done (s.chan c).service.code ∧
          t.rv = verifierAfter s 17 (commandRecordOf tag 5 ch 0) ∧
          t.chan c = { s.chan c with
            service := .outOfService
            seq := leftService (s.chan c).seq
            attempts := if (s.chan c).service = .failed then 0 else (s.chan c).attempts
            misses := if (s.chan c).service = .failed then 0 else (s.chan c).misses
            cal := if (s.chan c).service = .calibrating then ⟨false, 0, 0, false, 0, .aborted, 0⟩ else (s.chan c).cal } ∧
          (∀ k, k ≠ c → t.chan k = s.chan k) ∧
          Reports s t ((if (s.chan c).service = .calibrating then [eventNow s .calibrationEnd c.val 5 0] else []) ++
              [eventNow s .channelService c.val 1 (s.chan c).service.code, commandTaken s tag 5 .done])
            ((if (s.chan c).service = .calibrating then [.channel c .calFail] else []) ++ [.channel c .outOfService])
            [.result, .channel c]))

/-- CALIBRATE in RUNNING (R127, R128): an IN_SERVICE channel becomes CALIBRATING with N = 2^k strokes required and none
proven, and its sequencer, if IDLE, begins a calibration stroke; STARTED with N. A CALIBRATING channel: BUSY with the
proven count. Any other: WRONG_STATE with the state found. In the last two nothing of the channel changes. (The model's
readings: log entries 2, 8 and 10.) -/
def Obligations.CalibrateCompletes : Prop :=
  ∀ (s : State) (tag ch k : Word) (p : Pos) (c : Chan), CommandReady s p tag 6 ch k → s.lc.device = .running →
    ch.toNat = c.val → k.toNat ≤ 6 →
    (∀ d, (s.chan c).service = .inService → (s.chan c).descriptor = some d →
      ∃ t, exec (.calibrate tag ch k p) s = .next t ∧ Outside s t ∧ t.uptime = s.uptime ∧ t.rt = s.rt ∧
        t.lc = loaderAfter s tag 6 .started (2 ^ k.toNat) ∧ t.rv = verifierAfter s 17 (commandRecordOf tag 6 ch k) ∧
        t.chan c = { s.chan c with
          service := .calibrating
          cal := ⟨true, 2 ^ k.toNat, 0, false, 0, (s.chan c).cal.lastOutcome, (s.chan c).cal.lastMeasured⟩
          seq := if (s.chan c).seq.phase = .idle then Sequencer.begin .calibration d s.uptime else (s.chan c).seq } ∧
        (∀ k, k ≠ c → t.chan k = s.chan k) ∧
        Reports s t [commandTaken s tag 6 .started] [] [.result, .channel c]) ∧
    (∀ o n, (s.chan c).service ≠ .inService →
      (if (s.chan c).service = .calibrating then o = .busy ∧ n = (s.chan c).cal.proven
        else o = .wrongState ∧ n = (s.chan c).service.code) →
      ∃ t, exec (.calibrate tag ch k p) s = .next t ∧ Outside s t ∧ t.uptime = s.uptime ∧ t.rt = s.rt ∧
        t.channels = s.channels ∧ t.lc = loaderAfter s tag 6 o n ∧
        t.rv = verifierAfter s 17 (commandRecordOf tag 6 ch k) ∧ Reports s t [commandTaken s tag 6 o] [] [.result])

/-- UNBIND_RUN in RUNNING (R56, R73, R152): a bound run leaves its slot, which becomes HISTORY with the hold in force;
the run is UNBOUND with E, C and unrouted volume 0, not held, its timers stopped, its shadow kept; RUN_UNBOUND with
cause 1; DONE with the slot. A run that is not bound is unchanged: WRONG_STATE with its condition. RELEASE_HISTORY in
RUNNING (R74, R152): every HISTORY slot of the run becomes FREE, whatever the run's condition; its history count becomes
0; DONE with the number of slots freed. No other slot, run or channel changes. (The model's readings: log entries 2 and
10.) -/
def Obligations.UnbindRunAndReleaseHistoryComplete : Prop :=
  ∀ (s : State) (tag run : Word) (p : Pos) (r : Run), s.lc.device = .running → run.toNat = r.val →
    (CommandReady s p tag 7 run 0 →
      (∀ k, (s.run r).condition.bound = true → (s.run r).currentSlot = some k →
        ∃ t, exec (.unbindRun tag run p) s = .next t ∧ Outside s t ∧ t.uptime = s.uptime ∧ t.channels = s.channels ∧
          t.lc = loaderAfter s tag 7 .done k.val ∧ t.rv = verifierAfter s 17 (commandRecordOf tag 7 run 0) ∧
          t.run r = unboundRun { s.run r with historyCount := (s.run r).historyCount + 1 } .unbound ∧
          (∀ q, q ≠ r → t.run q = s.run q) ∧ t.rt.descriptors = s.rt.descriptors ∧
          t.claim k = .history r (s.uptime + s.historyHold) ∧ (∀ j, j ≠ k → t.claim j = s.claim j) ∧
          Reports s t [eventNow s .runUnbound r.val 1 k.val, commandTaken s tag 7 .done] [] [.result, .run r]) ∧
      ((s.run r).condition.bound = false →
        ∃ t, exec (.unbindRun tag run p) s = .next t ∧ Outside s t ∧ t.uptime = s.uptime ∧ t.channels = s.channels ∧
          t.rt = s.rt ∧ t.lc = loaderAfter s tag 7 .wrongState (s.run r).condition.code ∧
          t.rv = verifierAfter s 17 (commandRecordOf tag 7 run 0) ∧
          Reports s t [commandTaken s tag 7 .wrongState] [] [.result])) ∧
    (CommandReady s p tag 8 run 0 →
      ∃ t, exec (.releaseHistory tag run p) s = .next t ∧ Outside s t ∧ t.uptime = s.uptime ∧ t.channels = s.channels ∧
        t.lc = loaderAfter s tag 8 .done (historySlotsOf s r) ∧
        t.rv = verifierAfter s 17 (commandRecordOf tag 8 run 0) ∧ t.run r = { s.run r with historyCount := 0 } ∧
        (∀ q, q ≠ r → t.run q = s.run q) ∧ t.rt.descriptors = s.rt.descriptors ∧
        (∀ k x, s.claim k = .history r x → t.claim k = .free) ∧
        (∀ k, (∀ x, s.claim k ≠ .history r x) → t.claim k = s.claim k) ∧
        Reports s t [commandTaken s tag 8 .done] [] [.result, .run r])

/-- RESTART in RUNNING and in FALLBACK (R38, R123, R153, R177): STARTED with detail 0; the device moves to DRAINING,
every assembly is discarded, the commits stay queued with the RESTART record at their end, the base-period timers stop.
Nothing else changes. (The model's readings: log entries 2 and 10.) -/
def Obligations.RestartCompletes : Prop :=
  ∀ (s : State) (tag : Word) (p : Pos), CommandReady s p tag 9 0 0 →
    ∃ t, exec (.restart tag p) s = .next t ∧ Outside s t ∧ t.uptime = s.uptime ∧ t.rt = s.rt ∧
      t.lc = { loaderAfter s tag 9 .started 0 with device := .draining, cause := .restart tag } ∧
      t.rv = { verifierAfter s 17 (commandRecordOf tag 9 0 0) with assembling := [] } ∧
      (∀ c, t.chan c = { s.chan c with baseTimer := none }) ∧
      Reports s t [commandTaken s tag 9 .started] [] [.result, .status]

/-- The order of R147: a command record whose code is unknown, or whose argument A or else B does not suit it, is
accepted and answered BAD_ARGUMENT with detail 1, 2 or 3; one that FALLBACK does not execute is answered WRONG_STATE
with the code of FALLBACK. It changes nothing but the result record and its COMMAND_TAKEN event (R148). (The model's
readings: log entries 2 and 10.) -/
def Obligations.UnsuitableCommandsAreAnswered : Prop :=
  ∀ (s : State) (tag code a b : Word) (p : Pos) (o : CommandOutcome) (n : Nat), CommandReady s p tag code a b →
    Unsuitable s code.toNat a.toNat b.toNat o n →
    ∃ t, exec (.commandRecord p (commandRecordOf tag code a b)[p]) s = .next t ∧ Outside s t ∧ t.uptime = s.uptime ∧
      t.rt = s.rt ∧ t.channels = s.channels ∧ t.lc = loaderAfter s tag code o n ∧
      t.rv = verifierAfter s 17 (commandRecordOf tag code a b) ∧
      Reports s t [commandTaken s tag code o] [] [.result]

/-! ### Timers of the pool and of the Run Table -/

/-- ASSEMBLY_EXPIRED and HISTORY_EXPIRY. An ASSEMBLING entry whose timer runs out is discarded; ASSEMBLY_EXPIRED with
the slot, the words present and the opened time; its flag latches; no refusal is counted and the capture stays (R37). A
HISTORY slot whose timer runs out becomes FREE and its run's history count falls by 1, whatever the run's condition; no
event (R57). Nothing else changes. (The model's reading: log entry 4.) -/
def Obligations.AssembliesAndHistoryExpire : Prop :=
  ∀ s : State, Awake s →
    (∀ slot e, s.rv.entry slot = some e → ∀ u, u = s.elapseTo (e.openedAt + e.timeout) →
      ∃ t, exec (.assemblyExpired slot) s = .next t ∧ Elapsed s t (e.openedAt + e.timeout) ∧ t.rt = s.rt ∧
        t.channels = s.channels ∧
        t.rv = { s.rv with assembling := s.rv.assembling.filter fun x => decide (x.slot ≠ slot) } ∧
        Reports u t [eventNow u .assemblyExpired slot.val e.present (e.openedAt % 2 ^ 32)] [.station .assemblyExpired]
          [.status]) ∧
    (∀ k r x, s.claim k = .history r x → ∀ u, u = s.elapseTo x →
      ∃ t, exec (.historyExpiry k) s = .next t ∧ Elapsed s t x ∧ t.rv = s.rv ∧ t.channels = s.channels ∧
        t.rt.descriptors = s.rt.descriptors ∧ t.run r = { s.run r with historyCount := (s.run r).historyCount - 1 } ∧
        (∀ q, q ≠ r → t.run q = s.run q) ∧ t.claim k = .free ∧ (∀ j, j ≠ k → t.claim j = s.claim j) ∧
        Reports u t [] [] [.run r])

/-- STALENESS_EXPIRY and HORIZON_EXPIRY. A LIVE run becomes STALE at its staleness expiry, its substitution timer starts
from there; RUN_STALE with its slot and shadow rate; STALE latches (R80, R82). A STALE run becomes LOST at its horizon
expiry, its substitution schedule kept; RUN_LOST with its slot and the fallback flow in force; LOST latches (R81). No
other run, no slot and no channel changes. (The model's readings: log entries 4 and 22.) -/
def Obligations.StalenessAndHorizonExpire : Prop :=
  ∀ (s : State) (r : Run) (f : Freshness) (d : RunDescriptor), Awake s → (s.run r).freshness = some f →
    s.runDescriptor r = some d →
    ((s.run r).condition = .live → ∀ u, u = s.elapseTo (f.start + f.staleness) →
      ∃ t, exec (.stalenessExpiry r) s = .next t ∧ Elapsed s t (f.start + f.staleness) ∧ t.rv = s.rv ∧
        t.channels = s.channels ∧ t.rt.descriptors = s.rt.descriptors ∧ t.rt.slots = s.rt.slots ∧
        t.run r = { s.run r with condition := .stale, substitution := some ⟨f.start + f.staleness, 0⟩ } ∧
        (∀ q, q ≠ r → t.run q = s.run q) ∧
        Reports u t [eventNow u .runStale r.val (s.run r).slotNumber (s.run r).shadowRate] [.run .stale r] [.run r]) ∧
    ((s.run r).condition = .stale → ∀ u, u = s.elapseTo (f.start + f.horizon) →
      ∃ t, exec (.horizonExpiry r) s = .next t ∧ Elapsed s t (f.start + f.horizon) ∧ t.rv = s.rv ∧
        t.channels = s.channels ∧ t.rt.descriptors = s.rt.descriptors ∧ t.rt.slots = s.rt.slots ∧
        t.run r = { s.run r with condition := .lost } ∧ (∀ q, q ≠ r → t.run q = s.run q) ∧
        Reports u t [eventNow u .runLost r.val (s.run r).slotNumber d.fallbackFlow] [.run .lost r] [.run r])

/-- SUBSTITUTION_STEP (R82, R83, R84, R95): the step numbered `steps + 1` falls due 1,000 ms after the one before. In
DRAINING it is passed over and only the schedule moves on. Otherwise its volume is the shadow rate up to the horizon,
the fallback flow beyond; E grows by it up to 2^48 - 1, and what E grew by is routed, the run its cause. No event of the
step's own; no other run changes. (The model's readings: log entries 4, 8, 22 and 25.) -/
def Obligations.SubstitutionStepsAreTaken : Prop :=
  ∀ (s u : State) (r : Run) (f : Freshness) (x : Substitution) (d : RunDescriptor) (due volume grown : Nat), Awake s →
    (s.run r).substitution = some x → (s.run r).freshness = some f → s.runDescriptor r = some d →
    due = x.base + 1000 * (x.steps + 1) → u = s.elapseTo due →
    volume = (if f.staleness + 1000 * (x.steps + 1) ≤ f.horizon then (s.run r).shadowRate else d.fallbackFlow) →
    grown = min volume (2 ^ 48 - 1 - (s.run r).estimated) →
    ∃ t, exec (.substitutionStep r) s = .next t ∧ Elapsed s t due ∧ t.rv = s.rv ∧
      t.rt.descriptors = s.rt.descriptors ∧ t.rt.slots = s.rt.slots ∧ (∀ q, q ≠ r → t.run q = s.run q) ∧
      (s.lc.device = .draining → t.channels = s.channels ∧
        t.run r = { s.run r with substitution := some ⟨x.base, x.steps + 1⟩ } ∧ Reports u t [] [] []) ∧
      (s.lc.device ≠ .draining →
        t.run r = { s.run r with
          substitution := some ⟨x.base, x.steps + 1⟩
          estimated := (s.run r).estimated + grown
          unrouted := unroutedAfter s r d grown } ∧
        VolumeRouted u t d grown ∧
        Reports u t (demandEvents u t (receiverOf s d) r.val) (demandFlags u t (receiverOf s d))
          ((if grown = 0 then [] else [.run r]) ++
            if sameReport (s.chan (receiverOf s d)) (t.chan (receiverOf s d)) then [] else [.channel (receiverOf s d)]))

/-! ### Channels -/

/-- BASE_PERIOD_EXPIRY in FALLBACK (R99, R105, R111, R123): one crossing is distributed with cause 13, credit first,
then the owed count, then the deficit; the residue stays; the restrict line and the sequencer follow; the next expiry is
one base period on. No other channel changes, in whatever service state this one is. (The model's readings: log entries
4, 8 and 25.) -/
def Obligations.BasePeriodsDemandStrokes : Prop :=
  ∀ (s u : State) (c : Chan) (b : BaseTimer) (d : ChannelDescriptor), Awake s → s.lc.device = .fallback →
    (s.chan c).baseTimer = some b → (s.chan c).descriptor = some d → u = s.elapseTo b.next →
    ∃ t, exec (.basePeriodExpiry c) s = .next t ∧ Elapsed s t b.next ∧ t.rv = s.rv ∧ t.rt = s.rt ∧
      (∀ k, k ≠ c → t.chan k = s.chan k) ∧
      Distributed { s.chan c with baseTimer := some ⟨b.period, b.next + b.period⟩ } (t.chan c) 1 (s.chan c).residue ∧
      Follows d u.uptime 1 (s.chan c) (t.chan c) ∧
      Reports u t (demandEvents u t c 13) (demandFlags u t c)
        (if sameReport (s.chan c) (t.chan c) then [] else [.channel c])

/-- PRECHECK_EXPIRY (R112, R113, R118, R130, R132): with the contact open the stroke enters DRIVE at that moment, its
output asserted, and the first drive of a calibration's own stroke opens the measuring window; with the contact closed
the stroke is STUCK, its rest counting from the finding. Nothing else changes. (The model's readings: log entries 4 and 8;
33, for the window pulses where the calibration ends MISSED.) -/
def Obligations.PrechecksEnd : Prop :=
  ∀ (s u : State) (c : Chan) (closed : Bool) (d : ChannelDescriptor), Awake s → (s.chan c).seq.phase = .precheck →
    (s.chan c).descriptor = some d → u = s.elapseTo ((s.chan c).seq.precheckStart + (s.chan c).seq.times.precheck) →
    ∃ t, exec (.precheckExpiry c closed) s = .next t ∧
      Elapsed s t ((s.chan c).seq.precheckStart + (s.chan c).seq.times.precheck) ∧ t.rv = s.rv ∧ t.rt = s.rt ∧
      (∀ k, k ≠ c → t.chan k = s.chan k) ∧
      (closed = true → MissedAt u t c d true) ∧
      (closed = false →
        t.chan c = { s.chan c with
          seq := { (s.chan c).seq with phase := .drive, strokeOut := true, wetting := true, restRef := u.uptime }
          cal := if OwnStroke (s.chan c) && !(s.chan c).cal.windowOpen
            then { (s.chan c).cal with windowOpen := true, pulses := 0 } else (s.chan c).cal } ∧
        Reports u t [] [] [.channel c])

/-- DRIVE_EXPIRY (R113, R114, R116, R120): the stroke output is deasserted. A proven stroke goes to its rest in service
and to IDLE out of it; an unproven one waits in PROOF where its proof window is longer than its drive time, and is
missed where it is not. PROOF_WINDOW_EXPIRY in PROOF (R114, R118, R120, R132): the stroke is missed: one attempt and one
miss counted, MISS and STROKE_MISSED; the owed count stays; a full window fails a channel in service, CHANNEL_FAILED; a
calibration's own stroke ends the calibration MISSED. The sequencer rests in service and is IDLE otherwise. Nothing else
changes. (The model's readings: log entries 4, 8, 9 and 23; 33, for the window pulses where the calibration ends MISSED.) -/
def Obligations.DrivesAndProofWindowsEnd : Prop :=
  ∀ (s u : State) (c : Chan) (d : ChannelDescriptor), Awake s → (s.chan c).descriptor = some d →
    ((s.chan c).seq.phase = .drive → u = s.elapseTo ((s.chan c).seq.restRef + (s.chan c).seq.times.drive) →
      ∃ t, exec (.driveExpiry c) s = .next t ∧ Elapsed s t ((s.chan c).seq.restRef + (s.chan c).seq.times.drive) ∧
        t.rv = s.rv ∧ t.rt = s.rt ∧ (∀ k, k ≠ c → t.chan k = s.chan k) ∧
        ((s.chan c).seq.proven = true →
          t.chan c = { s.chan c with
            seq := if InService (s.chan c) then resting (s.chan c).seq (s.chan c).seq.restRef else Sequencer.idle } ∧
          Reports u t [] [] [.channel c]) ∧
        ((s.chan c).seq.proven = false → (s.chan c).seq.times.drive < (s.chan c).seq.times.window →
          t.chan c = { s.chan c with seq := { (s.chan c).seq with phase := .proof, strokeOut := false } } ∧
          Reports u t [] [] [.channel c]) ∧
        ((s.chan c).seq.proven = false → (s.chan c).seq.times.window ≤ (s.chan c).seq.times.drive →
          MissedAt u t c d false)) ∧
    ((s.chan c).seq.phase = .proof → u = s.elapseTo ((s.chan c).seq.restRef + (s.chan c).seq.times.window) →
      ∃ t, exec (.proofWindowExpiry c) s = .next t ∧
        Elapsed s t ((s.chan c).seq.restRef + (s.chan c).seq.times.window) ∧ t.rv = s.rv ∧ t.rt = s.rt ∧
        (∀ k, k ≠ c → t.chan k = s.chan k) ∧ MissedAt u t c d false)

/-- REST_END (R98, R103, R111, R116, R130, R131, R134): the stroke ends and the sequencer, IDLE, begins the next one
where one is due. After the last stroke of a calibration the calibration ends first: its outcome and measured
displacement are kept, the channel is IN_SERVICE, CALIBRATION_END; an applied measurement becomes the working
displacement and the residue meets the new quantum, cause 12. Nothing else changes. (The model's readings: log entries 4, 8
and 25; 33, for the window pulses, whose count the end keeps.) -/
def Obligations.RestsEnd : Prop :=
  ∀ (s u : State) (c : Chan) (d : ChannelDescriptor), Awake s → (s.chan c).seq.phase = .rest →
    (s.chan c).descriptor = some d → u = s.elapseTo ((s.chan c).seq.restRef + (s.chan c).seq.times.period) →
    ∃ t, exec (.restEnd c) s = .next t ∧ Elapsed s t ((s.chan c).seq.restRef + (s.chan c).seq.times.period) ∧
      t.rv = s.rv ∧ t.rt = s.rt ∧ (∀ k, k ≠ c → t.chan k = s.chan k) ∧
      (¬((s.chan c).cal.active = true ∧ (s.chan c).seq.kind = some .calibration ∧
          (s.chan c).cal.required ≤ (s.chan c).cal.proven) →
        t.chan c = { s.chan c with seq := (t.chan c).seq } ∧
        Begins d u.uptime { s.chan c with seq := Sequencer.idle } (t.chan c) ∧ Reports u t [] [] [.channel c]) ∧
      (∀ m o x, (s.chan c).cal.active = true → (s.chan c).seq.kind = some .calibration →
        (s.chan c).cal.required ≤ (s.chan c).cal.proven → m = measurement (s.chan c) d → CompletesWith m d o →
        x = { s.chan c with
          service := .inService, seq := Sequencer.idle
          working := if o = .okApplied then m else (s.chan c).working
          cal := ⟨false, 0, 0, false, (s.chan c).cal.pulses, o, m⟩ } →
        ∀ n, n = (if o = .okApplied then (s.chan c).residue / (m * 1000) else 0) →
        Distributed x (t.chan c) n (if o = .okApplied then (s.chan c).residue % (m * 1000) else (s.chan c).residue) ∧
        (if n = 0 then (t.chan c).restrict = (s.chan c).restrict else LineFollows d (s.chan c).restrict (t.chan c)) ∧
        Begins d u.uptime x (t.chan c) ∧
        Reports u t (eventNow u .calibrationEnd c.val o.code m :: demandEvents u t c 12)
          (.channel c (if o = .outOfTolerance then .calFail else .calDone) :: demandFlags u t c) [.channel c])

/-- PROOF_CLOSURE with the wetting source on, in DRIVE or PROOF, of a stroke not yet proven (R113, R114, R115, R118,
R120, R128, R129): one attempt is counted; an ordinary stroke lowers the owed count by 1, a calibration stroke the owed
count or else raises the credit; the line follows a changed owed count; the calibration in progress counts its own
stroke. In DRIVE the drive goes on; a PROOF ends, the stroke resting in service and IDLE out of it. A window already
full of misses has the effects of R118. Nothing else changes. A closure with the wetting source off, in another phase, or
after the stroke's first has no effect (R113, R117), nor has one while RESET_n is asserted. (The model's readings: log
entries 8, 9 and 23; 33, for the window pulses where the calibration ends MISSED.) -/
def Obligations.ClosuresProveStrokes : Prop :=
  ∀ (s : State) (c : Chan),
    (∀ d x y, Awake s → (s.chan c).seq.wetting = true → (s.chan c).seq.proven = false →
      ((s.chan c).seq.phase = .drive ∨ (s.chan c).seq.phase = .proof) → (s.chan c).descriptor = some d → x = s.chan c →
      y = counted x d false →
      ∃ t, exec (.proofClosure c) s = .next t ∧ Outside s t ∧ t.uptime = s.uptime ∧ t.lc = s.lc ∧ t.rv = s.rv ∧
        t.rt = s.rt ∧ (∀ k, k ≠ c → t.chan k = s.chan k) ∧
        t.chan c = { y with
          owed := (afterDelivery x).owed
          credit := (afterDelivery x).credit
          restrict := (t.chan c).restrict
          cal := if WindowFull x d false && decide (x.service = .calibrating) then calibrationOver .missed
            else if OwnStroke x then { x.cal with proven := x.cal.proven + 1 } else x.cal
          seq := if Fails x d false then Sequencer.idle else provenSeq x.seq (InService x) } ∧
        (if (afterDelivery x).owed = x.owed then (t.chan c).restrict = x.restrict
          else LineFollows d x.restrict (t.chan c)) ∧
        Reports s t
          ((if WindowFull x d false && decide (x.service = .calibrating) then [eventNow s .calibrationEnd c.val 4 0] else []) ++
            (if Fails x d false then [eventNow s .channelFailed c.val d.missLimit x.owed] else []) ++ demandEvents s t c 0)
          ((if WindowFull x d false && decide (x.service = .calibrating) then [.channel c .calFail] else []) ++
            (if Fails x d false then [.channel c .failed] else []) ++ demandFlags s t c) [.channel c]) ∧
    ((s.chan c).seq.wetting = false ∨ (s.chan c).seq.proven = true ∨
        (s.chan c).seq.phase ≠ .drive ∧ (s.chan c).seq.phase ≠ .proof ∨ s.lc.resetAsserted = true →
      exec (.proofClosure c) s = .next s)

/-- METER_PULSE (R124, R130): in every service state but UNCONFIGURED the pulse volume joins the remainder, whole
microlitres go to the delivered odorant, which wraps, and an open measuring window counts the pulse, saturating. The
channel report is marked where the delivered odorant changes, and by no other pulse (R163). In UNCONFIGURED, and while
RESET_n is asserted, nothing happens. -/
def Obligations.MeterPulsesAreCounted : Prop :=
  ∀ (s : State) (c : Chan),
    (∀ d x, Awake s → (s.chan c).service ≠ .unconfigured → (s.chan c).descriptor = some d → x = s.chan c →
      ∃ t, exec (.meterPulse c) s = .next t ∧ Outside s t ∧ t.uptime = s.uptime ∧ t.lc = s.lc ∧ t.rv = s.rv ∧
        t.rt = s.rt ∧ (∀ k, k ≠ c → t.chan k = s.chan k) ∧
        t.chan c = { x with
          delivered := x.delivered + BitVec.ofNat 32 ((x.remainder + d.pulseVolume) / 1000)
          remainder := (x.remainder + d.pulseVolume) % 1000
          cal := if x.cal.windowOpen then { x.cal with pulses := min (x.cal.pulses + 1) (2 ^ 32 - 1) } else x.cal } ∧
        Reports s t [] [] (if (t.chan c).delivered = x.delivered then [] else [.channel c])) ∧
    ((s.chan c).service = .unconfigured ∨ s.lc.resetAsserted = true → exec (.meterPulse c) s = .next s)

end
end

