-- ==== Sys2Proof/Laws/State.lean ====
section
/-! SUPPORT. What each update of the state leaves as it was, field by field. -/

namespace Sys2Proof.Machine

@[simp] theorem State.elapseTo_pending (s : State) (n : Nat) : (s.elapseTo n).pending = s.pending := rfl
@[simp] theorem State.elapseTo_lc (s : State) (n : Nat) : (s.elapseTo n).lc = s.lc := rfl
@[simp] theorem State.elapseTo_cp (s : State) (n : Nat) : (s.elapseTo n).cp = s.cp := rfl
@[simp] theorem State.elapseTo_mp (s : State) (n : Nat) : (s.elapseTo n).mp = s.mp := rfl
@[simp] theorem State.elapseTo_passOver (s : State) (n : Nat) : (s.elapseTo n).passOver = s.passOver := rfl
@[simp] theorem State.elapseTo_ma (s : State) (n : Nat) : (s.elapseTo n).ma = s.ma := rfl
@[simp] theorem State.elapseTo_rv (s : State) (n : Nat) : (s.elapseTo n).rv = s.rv := rfl
@[simp] theorem State.elapseTo_rt (s : State) (n : Nat) : (s.elapseTo n).rt = s.rt := rfl
@[simp] theorem State.elapseTo_channels (s : State) (n : Nat) : (s.elapseTo n).channels = s.channels := rfl
@[simp] theorem State.elapseTo_ru (s : State) (n : Nat) : (s.elapseTo n).ru = s.ru := rfl
@[simp] theorem State.elapseTo_mem (s : State) (n : Nat) : (s.elapseTo n).mem = s.mem := rfl
@[simp] theorem State.elapseTo_freeUsed (s : State) (n : Nat) : (s.elapseTo n).freeUsed = s.freeUsed := rfl
@[simp] theorem State.elapseTo_chan (s : State) (n : Nat) (c' : Chan) : (s.elapseTo n).chan c' = s.chan c' := rfl
@[simp] theorem State.elapseTo_run (s : State) (n : Nat) (r' : Run) : (s.elapseTo n).run r' = s.run r' := rfl
@[simp] theorem State.elapseTo_runDescriptor (s : State) (n : Nat) (r' : Run) : (s.elapseTo n).runDescriptor r' = s.runDescriptor r' := rfl
@[simp] theorem State.elapseTo_claim (s : State) (n : Nat) (t' : TallySlot) : (s.elapseTo n).claim t' = s.claim t' := rfl
@[simp] theorem State.elapseTo_passes (s : State) (n : Nat) (e' : EventCode) : (s.elapseTo n).passes e' = s.passes e' := rfl

@[simp] theorem State.setChan_pending (s : State) (c : Chan) (x : Channel) : (s.setChan c x).pending = s.pending := rfl
@[simp] theorem State.setChan_uptime (s : State) (c : Chan) (x : Channel) : (s.setChan c x).uptime = s.uptime := rfl
@[simp] theorem State.setChan_lc (s : State) (c : Chan) (x : Channel) : (s.setChan c x).lc = s.lc := rfl
@[simp] theorem State.setChan_cp (s : State) (c : Chan) (x : Channel) : (s.setChan c x).cp = s.cp := rfl
@[simp] theorem State.setChan_mp (s : State) (c : Chan) (x : Channel) : (s.setChan c x).mp = s.mp := rfl
@[simp] theorem State.setChan_passOver (s : State) (c : Chan) (x : Channel) : (s.setChan c x).passOver = s.passOver := rfl
@[simp] theorem State.setChan_ma (s : State) (c : Chan) (x : Channel) : (s.setChan c x).ma = s.ma := rfl
@[simp] theorem State.setChan_rv (s : State) (c : Chan) (x : Channel) : (s.setChan c x).rv = s.rv := rfl
@[simp] theorem State.setChan_rt (s : State) (c : Chan) (x : Channel) : (s.setChan c x).rt = s.rt := rfl
@[simp] theorem State.setChan_ru (s : State) (c : Chan) (x : Channel) : (s.setChan c x).ru = s.ru := rfl
@[simp] theorem State.setChan_mem (s : State) (c : Chan) (x : Channel) : (s.setChan c x).mem = s.mem := rfl
@[simp] theorem State.setChan_freeUsed (s : State) (c : Chan) (x : Channel) : (s.setChan c x).freeUsed = s.freeUsed := rfl
@[simp] theorem State.setChan_run (s : State) (c : Chan) (x : Channel) (r' : Run) : (s.setChan c x).run r' = s.run r' := rfl
@[simp] theorem State.setChan_runDescriptor (s : State) (c : Chan) (x : Channel) (r' : Run) : (s.setChan c x).runDescriptor r' = s.runDescriptor r' := rfl
@[simp] theorem State.setChan_claim (s : State) (c : Chan) (x : Channel) (t' : TallySlot) : (s.setChan c x).claim t' = s.claim t' := rfl
@[simp] theorem State.setChan_count (s : State) (c : Chan) (x : Channel) : (s.setChan c x).count = s.count := rfl
@[simp] theorem State.setChan_passes (s : State) (c : Chan) (x : Channel) (e' : EventCode) : (s.setChan c x).passes e' = s.passes e' := rfl

@[simp] theorem State.setRun_pending (s : State) (r : Run) (e : RunEntry) : (s.setRun r e).pending = s.pending := rfl
@[simp] theorem State.setRun_uptime (s : State) (r : Run) (e : RunEntry) : (s.setRun r e).uptime = s.uptime := rfl
@[simp] theorem State.setRun_lc (s : State) (r : Run) (e : RunEntry) : (s.setRun r e).lc = s.lc := rfl
@[simp] theorem State.setRun_cp (s : State) (r : Run) (e : RunEntry) : (s.setRun r e).cp = s.cp := rfl
@[simp] theorem State.setRun_mp (s : State) (r : Run) (e : RunEntry) : (s.setRun r e).mp = s.mp := rfl
@[simp] theorem State.setRun_passOver (s : State) (r : Run) (e : RunEntry) : (s.setRun r e).passOver = s.passOver := rfl
@[simp] theorem State.setRun_ma (s : State) (r : Run) (e : RunEntry) : (s.setRun r e).ma = s.ma := rfl
@[simp] theorem State.setRun_rv (s : State) (r : Run) (e : RunEntry) : (s.setRun r e).rv = s.rv := rfl
@[simp] theorem State.setRun_channels (s : State) (r : Run) (e : RunEntry) : (s.setRun r e).channels = s.channels := rfl
@[simp] theorem State.setRun_ru (s : State) (r : Run) (e : RunEntry) : (s.setRun r e).ru = s.ru := rfl
@[simp] theorem State.setRun_mem (s : State) (r : Run) (e : RunEntry) : (s.setRun r e).mem = s.mem := rfl
@[simp] theorem State.setRun_freeUsed (s : State) (r : Run) (e : RunEntry) : (s.setRun r e).freeUsed = s.freeUsed := rfl
@[simp] theorem State.setRun_chan (s : State) (r : Run) (e : RunEntry) (c' : Chan) : (s.setRun r e).chan c' = s.chan c' := rfl
@[simp] theorem State.setRun_count (s : State) (r : Run) (e : RunEntry) : (s.setRun r e).count = s.count := rfl
@[simp] theorem State.setRun_passes (s : State) (r : Run) (e : RunEntry) (e' : EventCode) : (s.setRun r e).passes e' = s.passes e' := rfl

@[simp] theorem State.setClaim_pending (s : State) (t : TallySlot) (x : Claim) : (s.setClaim t x).pending = s.pending := rfl
@[simp] theorem State.setClaim_uptime (s : State) (t : TallySlot) (x : Claim) : (s.setClaim t x).uptime = s.uptime := rfl
@[simp] theorem State.setClaim_lc (s : State) (t : TallySlot) (x : Claim) : (s.setClaim t x).lc = s.lc := rfl
@[simp] theorem State.setClaim_cp (s : State) (t : TallySlot) (x : Claim) : (s.setClaim t x).cp = s.cp := rfl
@[simp] theorem State.setClaim_mp (s : State) (t : TallySlot) (x : Claim) : (s.setClaim t x).mp = s.mp := rfl
@[simp] theorem State.setClaim_passOver (s : State) (t : TallySlot) (x : Claim) : (s.setClaim t x).passOver = s.passOver := rfl
@[simp] theorem State.setClaim_ma (s : State) (t : TallySlot) (x : Claim) : (s.setClaim t x).ma = s.ma := rfl
@[simp] theorem State.setClaim_rv (s : State) (t : TallySlot) (x : Claim) : (s.setClaim t x).rv = s.rv := rfl
@[simp] theorem State.setClaim_channels (s : State) (t : TallySlot) (x : Claim) : (s.setClaim t x).channels = s.channels := rfl
@[simp] theorem State.setClaim_ru (s : State) (t : TallySlot) (x : Claim) : (s.setClaim t x).ru = s.ru := rfl
@[simp] theorem State.setClaim_mem (s : State) (t : TallySlot) (x : Claim) : (s.setClaim t x).mem = s.mem := rfl
@[simp] theorem State.setClaim_freeUsed (s : State) (t : TallySlot) (x : Claim) : (s.setClaim t x).freeUsed = s.freeUsed := rfl
@[simp] theorem State.setClaim_chan (s : State) (t : TallySlot) (x : Claim) (c' : Chan) : (s.setClaim t x).chan c' = s.chan c' := rfl
@[simp] theorem State.setClaim_count (s : State) (t : TallySlot) (x : Claim) : (s.setClaim t x).count = s.count := rfl
@[simp] theorem State.setClaim_passes (s : State) (t : TallySlot) (x : Claim) (e' : EventCode) : (s.setClaim t x).passes e' = s.passes e' := rfl

@[simp] theorem State.mark_pending (s : State) (k : PartSlot) : (s.mark k).pending = s.pending := rfl
@[simp] theorem State.mark_uptime (s : State) (k : PartSlot) : (s.mark k).uptime = s.uptime := rfl
@[simp] theorem State.mark_lc (s : State) (k : PartSlot) : (s.mark k).lc = s.lc := rfl
@[simp] theorem State.mark_cp (s : State) (k : PartSlot) : (s.mark k).cp = s.cp := rfl
@[simp] theorem State.mark_mp (s : State) (k : PartSlot) : (s.mark k).mp = s.mp := rfl
@[simp] theorem State.mark_passOver (s : State) (k : PartSlot) : (s.mark k).passOver = s.passOver := rfl
@[simp] theorem State.mark_ma (s : State) (k : PartSlot) : (s.mark k).ma = s.ma := rfl
@[simp] theorem State.mark_rv (s : State) (k : PartSlot) : (s.mark k).rv = s.rv := rfl
@[simp] theorem State.mark_rt (s : State) (k : PartSlot) : (s.mark k).rt = s.rt := rfl
@[simp] theorem State.mark_channels (s : State) (k : PartSlot) : (s.mark k).channels = s.channels := rfl
@[simp] theorem State.mark_mem (s : State) (k : PartSlot) : (s.mark k).mem = s.mem := rfl
@[simp] theorem State.mark_freeUsed (s : State) (k : PartSlot) : (s.mark k).freeUsed = s.freeUsed := rfl
@[simp] theorem State.mark_latched (s : State) (k : PartSlot) : (s.mark k).ru.latched = s.ru.latched := rfl
@[simp] theorem State.mark_shown (s : State) (k : PartSlot) : (s.mark k).ru.shown = s.ru.shown := rfl
@[simp] theorem State.mark_pendingShown (s : State) (k : PartSlot) : (s.mark k).ru.pendingShown = s.ru.pendingShown := rfl
@[simp] theorem State.mark_events (s : State) (k : PartSlot) : (s.mark k).ru.events = s.ru.events := rfl
@[simp] theorem State.mark_dropped (s : State) (k : PartSlot) : (s.mark k).ru.dropped = s.ru.dropped := rfl
@[simp] theorem State.mark_ringNext (s : State) (k : PartSlot) : (s.mark k).ru.ringNext = s.ru.ringNext := rfl
@[simp] theorem State.mark_attention (s : State) (k : PartSlot) : (s.mark k).ru.attention = s.ru.attention := rfl
@[simp] theorem State.mark_chan (s : State) (k : PartSlot) (c' : Chan) : (s.mark k).chan c' = s.chan c' := rfl
@[simp] theorem State.mark_run (s : State) (k : PartSlot) (r' : Run) : (s.mark k).run r' = s.run r' := rfl
@[simp] theorem State.mark_runDescriptor (s : State) (k : PartSlot) (r' : Run) : (s.mark k).runDescriptor r' = s.runDescriptor r' := rfl
@[simp] theorem State.mark_claim (s : State) (k : PartSlot) (t' : TallySlot) : (s.mark k).claim t' = s.claim t' := rfl
@[simp] theorem State.mark_count (s : State) (k : PartSlot) : (s.mark k).count = s.count := rfl
@[simp] theorem State.mark_passes (s : State) (k : PartSlot) (e' : EventCode) : (s.mark k).passes e' = s.passes e' := rfl

@[simp] theorem State.unmark_pending (s : State) (k : PartSlot) : (s.unmark k).pending = s.pending := rfl
@[simp] theorem State.unmark_uptime (s : State) (k : PartSlot) : (s.unmark k).uptime = s.uptime := rfl
@[simp] theorem State.unmark_lc (s : State) (k : PartSlot) : (s.unmark k).lc = s.lc := rfl
@[simp] theorem State.unmark_cp (s : State) (k : PartSlot) : (s.unmark k).cp = s.cp := rfl
@[simp] theorem State.unmark_mp (s : State) (k : PartSlot) : (s.unmark k).mp = s.mp := rfl
@[simp] theorem State.unmark_passOver (s : State) (k : PartSlot) : (s.unmark k).passOver = s.passOver := rfl
@[simp] theorem State.unmark_ma (s : State) (k : PartSlot) : (s.unmark k).ma = s.ma := rfl
@[simp] theorem State.unmark_rv (s : State) (k : PartSlot) : (s.unmark k).rv = s.rv := rfl
@[simp] theorem State.unmark_rt (s : State) (k : PartSlot) : (s.unmark k).rt = s.rt := rfl
@[simp] theorem State.unmark_channels (s : State) (k : PartSlot) : (s.unmark k).channels = s.channels := rfl
@[simp] theorem State.unmark_mem (s : State) (k : PartSlot) : (s.unmark k).mem = s.mem := rfl
@[simp] theorem State.unmark_freeUsed (s : State) (k : PartSlot) : (s.unmark k).freeUsed = s.freeUsed := rfl
@[simp] theorem State.unmark_latched (s : State) (k : PartSlot) : (s.unmark k).ru.latched = s.ru.latched := rfl
@[simp] theorem State.unmark_shown (s : State) (k : PartSlot) : (s.unmark k).ru.shown = s.ru.shown := rfl
@[simp] theorem State.unmark_pendingShown (s : State) (k : PartSlot) : (s.unmark k).ru.pendingShown = s.ru.pendingShown := rfl
@[simp] theorem State.unmark_events (s : State) (k : PartSlot) : (s.unmark k).ru.events = s.ru.events := rfl
@[simp] theorem State.unmark_dropped (s : State) (k : PartSlot) : (s.unmark k).ru.dropped = s.ru.dropped := rfl
@[simp] theorem State.unmark_ringNext (s : State) (k : PartSlot) : (s.unmark k).ru.ringNext = s.ru.ringNext := rfl
@[simp] theorem State.unmark_attention (s : State) (k : PartSlot) : (s.unmark k).ru.attention = s.ru.attention := rfl
@[simp] theorem State.unmark_chan (s : State) (k : PartSlot) (c' : Chan) : (s.unmark k).chan c' = s.chan c' := rfl
@[simp] theorem State.unmark_run (s : State) (k : PartSlot) (r' : Run) : (s.unmark k).run r' = s.run r' := rfl
@[simp] theorem State.unmark_runDescriptor (s : State) (k : PartSlot) (r' : Run) : (s.unmark k).runDescriptor r' = s.runDescriptor r' := rfl
@[simp] theorem State.unmark_claim (s : State) (k : PartSlot) (t' : TallySlot) : (s.unmark k).claim t' = s.claim t' := rfl
@[simp] theorem State.unmark_count (s : State) (k : PartSlot) : (s.unmark k).count = s.count := rfl
@[simp] theorem State.unmark_passes (s : State) (k : PartSlot) (e' : EventCode) : (s.unmark k).passes e' = s.passes e' := rfl

@[simp] theorem State.setLatch_pending (s : State) (f : Flag) : (s.setLatch f).pending = s.pending := rfl
@[simp] theorem State.setLatch_uptime (s : State) (f : Flag) : (s.setLatch f).uptime = s.uptime := rfl
@[simp] theorem State.setLatch_lc (s : State) (f : Flag) : (s.setLatch f).lc = s.lc := rfl
@[simp] theorem State.setLatch_cp (s : State) (f : Flag) : (s.setLatch f).cp = s.cp := rfl
@[simp] theorem State.setLatch_mp (s : State) (f : Flag) : (s.setLatch f).mp = s.mp := rfl
@[simp] theorem State.setLatch_passOver (s : State) (f : Flag) : (s.setLatch f).passOver = s.passOver := rfl
@[simp] theorem State.setLatch_ma (s : State) (f : Flag) : (s.setLatch f).ma = s.ma := rfl
@[simp] theorem State.setLatch_rv (s : State) (f : Flag) : (s.setLatch f).rv = s.rv := rfl
@[simp] theorem State.setLatch_rt (s : State) (f : Flag) : (s.setLatch f).rt = s.rt := rfl
@[simp] theorem State.setLatch_channels (s : State) (f : Flag) : (s.setLatch f).channels = s.channels := rfl
@[simp] theorem State.setLatch_mem (s : State) (f : Flag) : (s.setLatch f).mem = s.mem := rfl
@[simp] theorem State.setLatch_freeUsed (s : State) (f : Flag) : (s.setLatch f).freeUsed = s.freeUsed := rfl
@[simp] theorem State.setLatch_dirty (s : State) (f : Flag) : (s.setLatch f).ru.dirty = s.ru.dirty := rfl
@[simp] theorem State.setLatch_events (s : State) (f : Flag) : (s.setLatch f).ru.events = s.ru.events := rfl
@[simp] theorem State.setLatch_dropped (s : State) (f : Flag) : (s.setLatch f).ru.dropped = s.ru.dropped := rfl
@[simp] theorem State.setLatch_ringNext (s : State) (f : Flag) : (s.setLatch f).ru.ringNext = s.ru.ringNext := rfl
@[simp] theorem State.setLatch_attention (s : State) (f : Flag) : (s.setLatch f).ru.attention = s.ru.attention := rfl
@[simp] theorem State.setLatch_chan (s : State) (f : Flag) (c' : Chan) : (s.setLatch f).chan c' = s.chan c' := rfl
@[simp] theorem State.setLatch_run (s : State) (f : Flag) (r' : Run) : (s.setLatch f).run r' = s.run r' := rfl
@[simp] theorem State.setLatch_runDescriptor (s : State) (f : Flag) (r' : Run) : (s.setLatch f).runDescriptor r' = s.runDescriptor r' := rfl
@[simp] theorem State.setLatch_claim (s : State) (f : Flag) (t' : TallySlot) : (s.setLatch f).claim t' = s.claim t' := rfl
@[simp] theorem State.setLatch_count (s : State) (f : Flag) : (s.setLatch f).count = s.count := rfl
@[simp] theorem State.setLatch_passes (s : State) (f : Flag) (e' : EventCode) : (s.setLatch f).passes e' = s.passes e' := rfl

@[simp] theorem State.evalAttention_pending (s : State) : (s.evalAttention).pending = s.pending := rfl
@[simp] theorem State.evalAttention_uptime (s : State) : (s.evalAttention).uptime = s.uptime := rfl
@[simp] theorem State.evalAttention_lc (s : State) : (s.evalAttention).lc = s.lc := rfl
@[simp] theorem State.evalAttention_cp (s : State) : (s.evalAttention).cp = s.cp := rfl
@[simp] theorem State.evalAttention_mp (s : State) : (s.evalAttention).mp = s.mp := rfl
@[simp] theorem State.evalAttention_passOver (s : State) : (s.evalAttention).passOver = s.passOver := rfl
@[simp] theorem State.evalAttention_ma (s : State) : (s.evalAttention).ma = s.ma := rfl
@[simp] theorem State.evalAttention_rv (s : State) : (s.evalAttention).rv = s.rv := rfl
@[simp] theorem State.evalAttention_rt (s : State) : (s.evalAttention).rt = s.rt := rfl
@[simp] theorem State.evalAttention_channels (s : State) : (s.evalAttention).channels = s.channels := rfl
@[simp] theorem State.evalAttention_mem (s : State) : (s.evalAttention).mem = s.mem := rfl
@[simp] theorem State.evalAttention_freeUsed (s : State) : (s.evalAttention).freeUsed = s.freeUsed := rfl
@[simp] theorem State.evalAttention_latched (s : State) : (s.evalAttention).ru.latched = s.ru.latched := rfl
@[simp] theorem State.evalAttention_shown (s : State) : (s.evalAttention).ru.shown = s.ru.shown := rfl
@[simp] theorem State.evalAttention_pendingShown (s : State) : (s.evalAttention).ru.pendingShown = s.ru.pendingShown := rfl
@[simp] theorem State.evalAttention_dirty (s : State) : (s.evalAttention).ru.dirty = s.ru.dirty := rfl
@[simp] theorem State.evalAttention_events (s : State) : (s.evalAttention).ru.events = s.ru.events := rfl
@[simp] theorem State.evalAttention_dropped (s : State) : (s.evalAttention).ru.dropped = s.ru.dropped := rfl
@[simp] theorem State.evalAttention_ringNext (s : State) : (s.evalAttention).ru.ringNext = s.ru.ringNext := rfl
@[simp] theorem State.evalAttention_chan (s : State) (c' : Chan) : (s.evalAttention).chan c' = s.chan c' := rfl
@[simp] theorem State.evalAttention_run (s : State) (r' : Run) : (s.evalAttention).run r' = s.run r' := rfl
@[simp] theorem State.evalAttention_runDescriptor (s : State) (r' : Run) : (s.evalAttention).runDescriptor r' = s.runDescriptor r' := rfl
@[simp] theorem State.evalAttention_claim (s : State) (t' : TallySlot) : (s.evalAttention).claim t' = s.claim t' := rfl
@[simp] theorem State.evalAttention_count (s : State) : (s.evalAttention).count = s.count := rfl
@[simp] theorem State.evalAttention_passes (s : State) (e' : EventCode) : (s.evalAttention).passes e' = s.passes e' := rfl

@[simp] theorem State.queueEvent_pending (s : State) (e : EventRecord) : (s.queueEvent e).pending = s.pending := rfl
@[simp] theorem State.queueEvent_uptime (s : State) (e : EventRecord) : (s.queueEvent e).uptime = s.uptime := rfl
@[simp] theorem State.queueEvent_lc (s : State) (e : EventRecord) : (s.queueEvent e).lc = s.lc := rfl
@[simp] theorem State.queueEvent_cp (s : State) (e : EventRecord) : (s.queueEvent e).cp = s.cp := rfl
@[simp] theorem State.queueEvent_mp (s : State) (e : EventRecord) : (s.queueEvent e).mp = s.mp := rfl
@[simp] theorem State.queueEvent_passOver (s : State) (e : EventRecord) : (s.queueEvent e).passOver = s.passOver := rfl
@[simp] theorem State.queueEvent_ma (s : State) (e : EventRecord) : (s.queueEvent e).ma = s.ma := rfl
@[simp] theorem State.queueEvent_rv (s : State) (e : EventRecord) : (s.queueEvent e).rv = s.rv := rfl
@[simp] theorem State.queueEvent_rt (s : State) (e : EventRecord) : (s.queueEvent e).rt = s.rt := rfl
@[simp] theorem State.queueEvent_channels (s : State) (e : EventRecord) : (s.queueEvent e).channels = s.channels := rfl
@[simp] theorem State.queueEvent_mem (s : State) (e : EventRecord) : (s.queueEvent e).mem = s.mem := rfl
@[simp] theorem State.queueEvent_freeUsed (s : State) (e : EventRecord) : (s.queueEvent e).freeUsed = s.freeUsed := rfl
@[simp] theorem State.queueEvent_latched (s : State) (e : EventRecord) : (s.queueEvent e).ru.latched = s.ru.latched := rfl
@[simp] theorem State.queueEvent_shown (s : State) (e : EventRecord) : (s.queueEvent e).ru.shown = s.ru.shown := rfl
@[simp] theorem State.queueEvent_pendingShown (s : State) (e : EventRecord) : (s.queueEvent e).ru.pendingShown = s.ru.pendingShown := rfl
@[simp] theorem State.queueEvent_dirty (s : State) (e : EventRecord) : (s.queueEvent e).ru.dirty = s.ru.dirty := rfl
@[simp] theorem State.queueEvent_dropped (s : State) (e : EventRecord) : (s.queueEvent e).ru.dropped = s.ru.dropped := rfl
@[simp] theorem State.queueEvent_ringNext (s : State) (e : EventRecord) : (s.queueEvent e).ru.ringNext = s.ru.ringNext := rfl
@[simp] theorem State.queueEvent_attention (s : State) (e : EventRecord) : (s.queueEvent e).ru.attention = s.ru.attention := rfl
@[simp] theorem State.queueEvent_chan (s : State) (e : EventRecord) (c' : Chan) : (s.queueEvent e).chan c' = s.chan c' := rfl
@[simp] theorem State.queueEvent_run (s : State) (e : EventRecord) (r' : Run) : (s.queueEvent e).run r' = s.run r' := rfl
@[simp] theorem State.queueEvent_runDescriptor (s : State) (e : EventRecord) (r' : Run) : (s.queueEvent e).runDescriptor r' = s.runDescriptor r' := rfl
@[simp] theorem State.queueEvent_claim (s : State) (e : EventRecord) (t' : TallySlot) : (s.queueEvent e).claim t' = s.claim t' := rfl
@[simp] theorem State.queueEvent_count (s : State) (e : EventRecord) : (s.queueEvent e).count = s.count := rfl
@[simp] theorem State.queueEvent_passes (s : State) (e : EventRecord) (e' : EventCode) : (s.queueEvent e).passes e' = s.passes e' := rfl

@[simp] theorem State.dropFlags_pending (s : State) (w : Fin 7) (v : Word) : (s.dropFlags w v).pending = s.pending := rfl
@[simp] theorem State.dropFlags_uptime (s : State) (w : Fin 7) (v : Word) : (s.dropFlags w v).uptime = s.uptime := rfl
@[simp] theorem State.dropFlags_lc (s : State) (w : Fin 7) (v : Word) : (s.dropFlags w v).lc = s.lc := rfl
@[simp] theorem State.dropFlags_cp (s : State) (w : Fin 7) (v : Word) : (s.dropFlags w v).cp = s.cp := rfl
@[simp] theorem State.dropFlags_mp (s : State) (w : Fin 7) (v : Word) : (s.dropFlags w v).mp = s.mp := rfl
@[simp] theorem State.dropFlags_passOver (s : State) (w : Fin 7) (v : Word) : (s.dropFlags w v).passOver = s.passOver := rfl
@[simp] theorem State.dropFlags_ma (s : State) (w : Fin 7) (v : Word) : (s.dropFlags w v).ma = s.ma := rfl
@[simp] theorem State.dropFlags_rv (s : State) (w : Fin 7) (v : Word) : (s.dropFlags w v).rv = s.rv := rfl
@[simp] theorem State.dropFlags_rt (s : State) (w : Fin 7) (v : Word) : (s.dropFlags w v).rt = s.rt := rfl
@[simp] theorem State.dropFlags_channels (s : State) (w : Fin 7) (v : Word) : (s.dropFlags w v).channels = s.channels := rfl
@[simp] theorem State.dropFlags_mem (s : State) (w : Fin 7) (v : Word) : (s.dropFlags w v).mem = s.mem := rfl
@[simp] theorem State.dropFlags_freeUsed (s : State) (w : Fin 7) (v : Word) : (s.dropFlags w v).freeUsed = s.freeUsed := rfl
@[simp] theorem State.dropFlags_pendingShown (s : State) (w : Fin 7) (v : Word) : (s.dropFlags w v).ru.pendingShown = s.ru.pendingShown := rfl
@[simp] theorem State.dropFlags_dirty (s : State) (w : Fin 7) (v : Word) : (s.dropFlags w v).ru.dirty = s.ru.dirty := rfl
@[simp] theorem State.dropFlags_events (s : State) (w : Fin 7) (v : Word) : (s.dropFlags w v).ru.events = s.ru.events := rfl
@[simp] theorem State.dropFlags_dropped (s : State) (w : Fin 7) (v : Word) : (s.dropFlags w v).ru.dropped = s.ru.dropped := rfl
@[simp] theorem State.dropFlags_ringNext (s : State) (w : Fin 7) (v : Word) : (s.dropFlags w v).ru.ringNext = s.ru.ringNext := rfl
@[simp] theorem State.dropFlags_attention (s : State) (w : Fin 7) (v : Word) : (s.dropFlags w v).ru.attention = s.ru.attention := rfl
@[simp] theorem State.dropFlags_chan (s : State) (w : Fin 7) (v : Word) (c' : Chan) : (s.dropFlags w v).chan c' = s.chan c' := rfl
@[simp] theorem State.dropFlags_run (s : State) (w : Fin 7) (v : Word) (r' : Run) : (s.dropFlags w v).run r' = s.run r' := rfl
@[simp] theorem State.dropFlags_runDescriptor (s : State) (w : Fin 7) (v : Word) (r' : Run) : (s.dropFlags w v).runDescriptor r' = s.runDescriptor r' := rfl
@[simp] theorem State.dropFlags_claim (s : State) (w : Fin 7) (v : Word) (t' : TallySlot) : (s.dropFlags w v).claim t' = s.claim t' := rfl
@[simp] theorem State.dropFlags_count (s : State) (w : Fin 7) (v : Word) : (s.dropFlags w v).count = s.count := rfl
@[simp] theorem State.dropFlags_passes (s : State) (w : Fin 7) (v : Word) (e' : EventCode) : (s.dropFlags w v).passes e' = s.passes e' := rfl

@[simp] theorem State.markFlagReport_pending (s : State) (f : Flag) : (s.markFlagReport f).pending = s.pending := by cases f <;> rfl
@[simp] theorem State.markFlagReport_uptime (s : State) (f : Flag) : (s.markFlagReport f).uptime = s.uptime := by cases f <;> rfl
@[simp] theorem State.markFlagReport_lc (s : State) (f : Flag) : (s.markFlagReport f).lc = s.lc := by cases f <;> rfl
@[simp] theorem State.markFlagReport_cp (s : State) (f : Flag) : (s.markFlagReport f).cp = s.cp := by cases f <;> rfl
@[simp] theorem State.markFlagReport_mp (s : State) (f : Flag) : (s.markFlagReport f).mp = s.mp := by cases f <;> rfl
@[simp] theorem State.markFlagReport_passOver (s : State) (f : Flag) : (s.markFlagReport f).passOver = s.passOver := by cases f <;> rfl
@[simp] theorem State.markFlagReport_ma (s : State) (f : Flag) : (s.markFlagReport f).ma = s.ma := by cases f <;> rfl
@[simp] theorem State.markFlagReport_rv (s : State) (f : Flag) : (s.markFlagReport f).rv = s.rv := by cases f <;> rfl
@[simp] theorem State.markFlagReport_rt (s : State) (f : Flag) : (s.markFlagReport f).rt = s.rt := by cases f <;> rfl
@[simp] theorem State.markFlagReport_channels (s : State) (f : Flag) : (s.markFlagReport f).channels = s.channels := by cases f <;> rfl
@[simp] theorem State.markFlagReport_mem (s : State) (f : Flag) : (s.markFlagReport f).mem = s.mem := by cases f <;> rfl
@[simp] theorem State.markFlagReport_freeUsed (s : State) (f : Flag) : (s.markFlagReport f).freeUsed = s.freeUsed := by cases f <;> rfl
@[simp] theorem State.markFlagReport_latched (s : State) (f : Flag) : (s.markFlagReport f).ru.latched = s.ru.latched := by cases f <;> rfl
@[simp] theorem State.markFlagReport_shown (s : State) (f : Flag) : (s.markFlagReport f).ru.shown = s.ru.shown := by cases f <;> rfl
@[simp] theorem State.markFlagReport_pendingShown (s : State) (f : Flag) : (s.markFlagReport f).ru.pendingShown = s.ru.pendingShown := by cases f <;> rfl
@[simp] theorem State.markFlagReport_events (s : State) (f : Flag) : (s.markFlagReport f).ru.events = s.ru.events := by cases f <;> rfl
@[simp] theorem State.markFlagReport_dropped (s : State) (f : Flag) : (s.markFlagReport f).ru.dropped = s.ru.dropped := by cases f <;> rfl
@[simp] theorem State.markFlagReport_ringNext (s : State) (f : Flag) : (s.markFlagReport f).ru.ringNext = s.ru.ringNext := by cases f <;> rfl
@[simp] theorem State.markFlagReport_attention (s : State) (f : Flag) : (s.markFlagReport f).ru.attention = s.ru.attention := by cases f <;> rfl
@[simp] theorem State.markFlagReport_chan (s : State) (f : Flag) (c' : Chan) : (s.markFlagReport f).chan c' = s.chan c' := by simp [State.chan]
@[simp] theorem State.markFlagReport_run (s : State) (f : Flag) (r' : Run) : (s.markFlagReport f).run r' = s.run r' := by simp [State.run]
@[simp] theorem State.markFlagReport_runDescriptor (s : State) (f : Flag) (r' : Run) : (s.markFlagReport f).runDescriptor r' = s.runDescriptor r' := by simp [State.runDescriptor]
@[simp] theorem State.markFlagReport_claim (s : State) (f : Flag) (t' : TallySlot) : (s.markFlagReport f).claim t' = s.claim t' := by simp [State.claim]
@[simp] theorem State.markFlagReport_count (s : State) (f : Flag) : (s.markFlagReport f).count = s.count := by simp [State.count]
@[simp] theorem State.markFlagReport_passes (s : State) (f : Flag) (e' : EventCode) : (s.markFlagReport f).passes e' = s.passes e' := by simp [State.passes]

@[simp] theorem State.latch_pending (s : State) (f : Flag) : (s.latch f).pending = s.pending := by unfold State.latch; split <;> simp
@[simp] theorem State.latch_uptime (s : State) (f : Flag) : (s.latch f).uptime = s.uptime := by unfold State.latch; split <;> simp
@[simp] theorem State.latch_lc (s : State) (f : Flag) : (s.latch f).lc = s.lc := by unfold State.latch; split <;> simp
@[simp] theorem State.latch_cp (s : State) (f : Flag) : (s.latch f).cp = s.cp := by unfold State.latch; split <;> simp
@[simp] theorem State.latch_mp (s : State) (f : Flag) : (s.latch f).mp = s.mp := by unfold State.latch; split <;> simp
@[simp] theorem State.latch_passOver (s : State) (f : Flag) : (s.latch f).passOver = s.passOver := by unfold State.latch; split <;> simp
@[simp] theorem State.latch_ma (s : State) (f : Flag) : (s.latch f).ma = s.ma := by unfold State.latch; split <;> simp
@[simp] theorem State.latch_rv (s : State) (f : Flag) : (s.latch f).rv = s.rv := by unfold State.latch; split <;> simp
@[simp] theorem State.latch_rt (s : State) (f : Flag) : (s.latch f).rt = s.rt := by unfold State.latch; split <;> simp
@[simp] theorem State.latch_channels (s : State) (f : Flag) : (s.latch f).channels = s.channels := by unfold State.latch; split <;> simp
@[simp] theorem State.latch_mem (s : State) (f : Flag) : (s.latch f).mem = s.mem := by unfold State.latch; split <;> simp
@[simp] theorem State.latch_freeUsed (s : State) (f : Flag) : (s.latch f).freeUsed = s.freeUsed := by unfold State.latch; split <;> simp
@[simp] theorem State.latch_events (s : State) (f : Flag) : (s.latch f).ru.events = s.ru.events := by unfold State.latch; split <;> simp
@[simp] theorem State.latch_dropped (s : State) (f : Flag) : (s.latch f).ru.dropped = s.ru.dropped := by unfold State.latch; split <;> simp
@[simp] theorem State.latch_ringNext (s : State) (f : Flag) : (s.latch f).ru.ringNext = s.ru.ringNext := by unfold State.latch; split <;> simp
@[simp] theorem State.latch_chan (s : State) (f : Flag) (c' : Chan) : (s.latch f).chan c' = s.chan c' := by simp [State.chan]
@[simp] theorem State.latch_run (s : State) (f : Flag) (r' : Run) : (s.latch f).run r' = s.run r' := by simp [State.run]
@[simp] theorem State.latch_runDescriptor (s : State) (f : Flag) (r' : Run) : (s.latch f).runDescriptor r' = s.runDescriptor r' := by simp [State.runDescriptor]
@[simp] theorem State.latch_claim (s : State) (f : Flag) (t' : TallySlot) : (s.latch f).claim t' = s.claim t' := by simp [State.claim]
@[simp] theorem State.latch_count (s : State) (f : Flag) : (s.latch f).count = s.count := by simp [State.count]
@[simp] theorem State.latch_passes (s : State) (f : Flag) (e' : EventCode) : (s.latch f).passes e' = s.passes e' := by simp [State.passes]

@[simp] theorem State.dropEvent_pending (s : State) : (s.dropEvent).pending = s.pending := by simp [State.dropEvent]
@[simp] theorem State.dropEvent_uptime (s : State) : (s.dropEvent).uptime = s.uptime := by simp [State.dropEvent]
@[simp] theorem State.dropEvent_lc (s : State) : (s.dropEvent).lc = s.lc := by simp [State.dropEvent]
@[simp] theorem State.dropEvent_cp (s : State) : (s.dropEvent).cp = s.cp := by simp [State.dropEvent]
@[simp] theorem State.dropEvent_mp (s : State) : (s.dropEvent).mp = s.mp := by simp [State.dropEvent]
@[simp] theorem State.dropEvent_passOver (s : State) : (s.dropEvent).passOver = s.passOver := by simp [State.dropEvent]
@[simp] theorem State.dropEvent_ma (s : State) : (s.dropEvent).ma = s.ma := by simp [State.dropEvent]
@[simp] theorem State.dropEvent_rv (s : State) : (s.dropEvent).rv = s.rv := by simp [State.dropEvent]
@[simp] theorem State.dropEvent_rt (s : State) : (s.dropEvent).rt = s.rt := by simp [State.dropEvent]
@[simp] theorem State.dropEvent_channels (s : State) : (s.dropEvent).channels = s.channels := by simp [State.dropEvent]
@[simp] theorem State.dropEvent_mem (s : State) : (s.dropEvent).mem = s.mem := by simp [State.dropEvent]
@[simp] theorem State.dropEvent_freeUsed (s : State) : (s.dropEvent).freeUsed = s.freeUsed := by simp [State.dropEvent]
@[simp] theorem State.dropEvent_events (s : State) : (s.dropEvent).ru.events = s.ru.events := by simp [State.dropEvent]
@[simp] theorem State.dropEvent_ringNext (s : State) : (s.dropEvent).ru.ringNext = s.ru.ringNext := by simp [State.dropEvent]
@[simp] theorem State.dropEvent_chan (s : State) (c' : Chan) : (s.dropEvent).chan c' = s.chan c' := by simp [State.chan]
@[simp] theorem State.dropEvent_run (s : State) (r' : Run) : (s.dropEvent).run r' = s.run r' := by simp [State.run]
@[simp] theorem State.dropEvent_runDescriptor (s : State) (r' : Run) : (s.dropEvent).runDescriptor r' = s.runDescriptor r' := by simp [State.runDescriptor]
@[simp] theorem State.dropEvent_claim (s : State) (t' : TallySlot) : (s.dropEvent).claim t' = s.claim t' := by simp [State.claim]
@[simp] theorem State.dropEvent_count (s : State) : (s.dropEvent).count = s.count := by simp [State.count]
@[simp] theorem State.dropEvent_passes (s : State) (e' : EventCode) : (s.dropEvent).passes e' = s.passes e' := by simp [State.passes]

@[simp] theorem State.raise_pending (s : State) (e : EventCode) (a d v : Nat) : (s.raise e a d v).pending = s.pending := by unfold State.raise; split_ifs <;> simp
@[simp] theorem State.raise_uptime (s : State) (e : EventCode) (a d v : Nat) : (s.raise e a d v).uptime = s.uptime := by unfold State.raise; split_ifs <;> simp
@[simp] theorem State.raise_lc (s : State) (e : EventCode) (a d v : Nat) : (s.raise e a d v).lc = s.lc := by unfold State.raise; split_ifs <;> simp
@[simp] theorem State.raise_cp (s : State) (e : EventCode) (a d v : Nat) : (s.raise e a d v).cp = s.cp := by unfold State.raise; split_ifs <;> simp
@[simp] theorem State.raise_mp (s : State) (e : EventCode) (a d v : Nat) : (s.raise e a d v).mp = s.mp := by unfold State.raise; split_ifs <;> simp
@[simp] theorem State.raise_passOver (s : State) (e : EventCode) (a d v : Nat) : (s.raise e a d v).passOver = s.passOver := by unfold State.raise; split_ifs <;> simp
@[simp] theorem State.raise_ma (s : State) (e : EventCode) (a d v : Nat) : (s.raise e a d v).ma = s.ma := by unfold State.raise; split_ifs <;> simp
@[simp] theorem State.raise_rv (s : State) (e : EventCode) (a d v : Nat) : (s.raise e a d v).rv = s.rv := by unfold State.raise; split_ifs <;> simp
@[simp] theorem State.raise_rt (s : State) (e : EventCode) (a d v : Nat) : (s.raise e a d v).rt = s.rt := by unfold State.raise; split_ifs <;> simp
@[simp] theorem State.raise_channels (s : State) (e : EventCode) (a d v : Nat) : (s.raise e a d v).channels = s.channels := by unfold State.raise; split_ifs <;> simp
@[simp] theorem State.raise_mem (s : State) (e : EventCode) (a d v : Nat) : (s.raise e a d v).mem = s.mem := by unfold State.raise; split_ifs <;> simp
@[simp] theorem State.raise_freeUsed (s : State) (e : EventCode) (a d v : Nat) : (s.raise e a d v).freeUsed = s.freeUsed := by unfold State.raise; split_ifs <;> simp
@[simp] theorem State.raise_ringNext (s : State) (e : EventCode) (a d v : Nat) : (s.raise e a d v).ru.ringNext = s.ru.ringNext := by unfold State.raise; split_ifs <;> simp
@[simp] theorem State.raise_chan (s : State) (e : EventCode) (a d v : Nat) (c' : Chan) : (s.raise e a d v).chan c' = s.chan c' := by simp [State.chan]
@[simp] theorem State.raise_run (s : State) (e : EventCode) (a d v : Nat) (r' : Run) : (s.raise e a d v).run r' = s.run r' := by simp [State.run]
@[simp] theorem State.raise_runDescriptor (s : State) (e : EventCode) (a d v : Nat) (r' : Run) : (s.raise e a d v).runDescriptor r' = s.runDescriptor r' := by simp [State.runDescriptor]
@[simp] theorem State.raise_claim (s : State) (e : EventCode) (a d v : Nat) (t' : TallySlot) : (s.raise e a d v).claim t' = s.claim t' := by simp [State.claim]
@[simp] theorem State.raise_count (s : State) (e : EventCode) (a d v : Nat) : (s.raise e a d v).count = s.count := by simp [State.count]
@[simp] theorem State.raise_passes (s : State) (e : EventCode) (a d v : Nat) (e' : EventCode) : (s.raise e a d v).passes e' = s.passes e' := by simp [State.passes]

@[simp] theorem State.putChan_pending (s : State) (c : Chan) (x : Channel) : (s.putChan c x).pending = s.pending := by unfold State.putChan; split <;> simp
@[simp] theorem State.putChan_uptime (s : State) (c : Chan) (x : Channel) : (s.putChan c x).uptime = s.uptime := by unfold State.putChan; split <;> simp
@[simp] theorem State.putChan_lc (s : State) (c : Chan) (x : Channel) : (s.putChan c x).lc = s.lc := by unfold State.putChan; split <;> simp
@[simp] theorem State.putChan_cp (s : State) (c : Chan) (x : Channel) : (s.putChan c x).cp = s.cp := by unfold State.putChan; split <;> simp
@[simp] theorem State.putChan_mp (s : State) (c : Chan) (x : Channel) : (s.putChan c x).mp = s.mp := by unfold State.putChan; split <;> simp
@[simp] theorem State.putChan_passOver (s : State) (c : Chan) (x : Channel) : (s.putChan c x).passOver = s.passOver := by unfold State.putChan; split <;> simp
@[simp] theorem State.putChan_ma (s : State) (c : Chan) (x : Channel) : (s.putChan c x).ma = s.ma := by unfold State.putChan; split <;> simp
@[simp] theorem State.putChan_rv (s : State) (c : Chan) (x : Channel) : (s.putChan c x).rv = s.rv := by unfold State.putChan; split <;> simp
@[simp] theorem State.putChan_rt (s : State) (c : Chan) (x : Channel) : (s.putChan c x).rt = s.rt := by unfold State.putChan; split <;> simp
@[simp] theorem State.putChan_mem (s : State) (c : Chan) (x : Channel) : (s.putChan c x).mem = s.mem := by unfold State.putChan; split <;> simp
@[simp] theorem State.putChan_freeUsed (s : State) (c : Chan) (x : Channel) : (s.putChan c x).freeUsed = s.freeUsed := by unfold State.putChan; split <;> simp
@[simp] theorem State.putChan_latched (s : State) (c : Chan) (x : Channel) : (s.putChan c x).ru.latched = s.ru.latched := by unfold State.putChan; split <;> simp
@[simp] theorem State.putChan_shown (s : State) (c : Chan) (x : Channel) : (s.putChan c x).ru.shown = s.ru.shown := by unfold State.putChan; split <;> simp
@[simp] theorem State.putChan_pendingShown (s : State) (c : Chan) (x : Channel) : (s.putChan c x).ru.pendingShown = s.ru.pendingShown := by unfold State.putChan; split <;> simp
@[simp] theorem State.putChan_events (s : State) (c : Chan) (x : Channel) : (s.putChan c x).ru.events = s.ru.events := by unfold State.putChan; split <;> simp
@[simp] theorem State.putChan_dropped (s : State) (c : Chan) (x : Channel) : (s.putChan c x).ru.dropped = s.ru.dropped := by unfold State.putChan; split <;> simp
@[simp] theorem State.putChan_ringNext (s : State) (c : Chan) (x : Channel) : (s.putChan c x).ru.ringNext = s.ru.ringNext := by unfold State.putChan; split <;> simp
@[simp] theorem State.putChan_attention (s : State) (c : Chan) (x : Channel) : (s.putChan c x).ru.attention = s.ru.attention := by unfold State.putChan; split <;> simp
@[simp] theorem State.putChan_run (s : State) (c : Chan) (x : Channel) (r' : Run) : (s.putChan c x).run r' = s.run r' := by simp [State.run]
@[simp] theorem State.putChan_runDescriptor (s : State) (c : Chan) (x : Channel) (r' : Run) : (s.putChan c x).runDescriptor r' = s.runDescriptor r' := by simp [State.runDescriptor]
@[simp] theorem State.putChan_claim (s : State) (c : Chan) (x : Channel) (t' : TallySlot) : (s.putChan c x).claim t' = s.claim t' := by simp [State.claim]
@[simp] theorem State.putChan_count (s : State) (c : Chan) (x : Channel) : (s.putChan c x).count = s.count := by simp [State.count]
@[simp] theorem State.putChan_passes (s : State) (c : Chan) (x : Channel) (e' : EventCode) : (s.putChan c x).passes e' = s.passes e' := by simp [State.passes]

@[simp] theorem State.putRun_pending (s : State) (r : Run) (e : RunEntry) : (s.putRun r e).pending = s.pending := by unfold State.putRun; split <;> simp
@[simp] theorem State.putRun_uptime (s : State) (r : Run) (e : RunEntry) : (s.putRun r e).uptime = s.uptime := by unfold State.putRun; split <;> simp
@[simp] theorem State.putRun_lc (s : State) (r : Run) (e : RunEntry) : (s.putRun r e).lc = s.lc := by unfold State.putRun; split <;> simp
@[simp] theorem State.putRun_cp (s : State) (r : Run) (e : RunEntry) : (s.putRun r e).cp = s.cp := by unfold State.putRun; split <;> simp
@[simp] theorem State.putRun_mp (s : State) (r : Run) (e : RunEntry) : (s.putRun r e).mp = s.mp := by unfold State.putRun; split <;> simp
@[simp] theorem State.putRun_passOver (s : State) (r : Run) (e : RunEntry) : (s.putRun r e).passOver = s.passOver := by unfold State.putRun; split <;> simp
@[simp] theorem State.putRun_ma (s : State) (r : Run) (e : RunEntry) : (s.putRun r e).ma = s.ma := by unfold State.putRun; split <;> simp
@[simp] theorem State.putRun_rv (s : State) (r : Run) (e : RunEntry) : (s.putRun r e).rv = s.rv := by unfold State.putRun; split <;> simp
@[simp] theorem State.putRun_channels (s : State) (r : Run) (e : RunEntry) : (s.putRun r e).channels = s.channels := by unfold State.putRun; split <;> simp
@[simp] theorem State.putRun_mem (s : State) (r : Run) (e : RunEntry) : (s.putRun r e).mem = s.mem := by unfold State.putRun; split <;> simp
@[simp] theorem State.putRun_freeUsed (s : State) (r : Run) (e : RunEntry) : (s.putRun r e).freeUsed = s.freeUsed := by unfold State.putRun; split <;> simp
@[simp] theorem State.putRun_latched (s : State) (r : Run) (e : RunEntry) : (s.putRun r e).ru.latched = s.ru.latched := by unfold State.putRun; split <;> simp
@[simp] theorem State.putRun_shown (s : State) (r : Run) (e : RunEntry) : (s.putRun r e).ru.shown = s.ru.shown := by unfold State.putRun; split <;> simp
@[simp] theorem State.putRun_pendingShown (s : State) (r : Run) (e : RunEntry) : (s.putRun r e).ru.pendingShown = s.ru.pendingShown := by unfold State.putRun; split <;> simp
@[simp] theorem State.putRun_events (s : State) (r : Run) (e : RunEntry) : (s.putRun r e).ru.events = s.ru.events := by unfold State.putRun; split <;> simp
@[simp] theorem State.putRun_dropped (s : State) (r : Run) (e : RunEntry) : (s.putRun r e).ru.dropped = s.ru.dropped := by unfold State.putRun; split <;> simp
@[simp] theorem State.putRun_ringNext (s : State) (r : Run) (e : RunEntry) : (s.putRun r e).ru.ringNext = s.ru.ringNext := by unfold State.putRun; split <;> simp
@[simp] theorem State.putRun_attention (s : State) (r : Run) (e : RunEntry) : (s.putRun r e).ru.attention = s.ru.attention := by unfold State.putRun; split <;> simp
@[simp] theorem State.putRun_chan (s : State) (r : Run) (e : RunEntry) (c' : Chan) : (s.putRun r e).chan c' = s.chan c' := by simp [State.chan]
@[simp] theorem State.putRun_count (s : State) (r : Run) (e : RunEntry) : (s.putRun r e).count = s.count := by simp [State.count]
@[simp] theorem State.putRun_passes (s : State) (r : Run) (e : RunEntry) (e' : EventCode) : (s.putRun r e).passes e' = s.passes e' := by simp [State.passes]

@[simp] theorem State.setDevice_pending (s : State) (d : DeviceState) : (s.setDevice d).pending = s.pending := by simp [State.setDevice]
@[simp] theorem State.setDevice_uptime (s : State) (d : DeviceState) : (s.setDevice d).uptime = s.uptime := by simp [State.setDevice]
@[simp] theorem State.setDevice_cp (s : State) (d : DeviceState) : (s.setDevice d).cp = s.cp := by simp [State.setDevice]
@[simp] theorem State.setDevice_mp (s : State) (d : DeviceState) : (s.setDevice d).mp = s.mp := by simp [State.setDevice]
@[simp] theorem State.setDevice_passOver (s : State) (d : DeviceState) : (s.setDevice d).passOver = s.passOver := by simp [State.setDevice]
@[simp] theorem State.setDevice_ma (s : State) (d : DeviceState) : (s.setDevice d).ma = s.ma := by simp [State.setDevice]
@[simp] theorem State.setDevice_rv (s : State) (d : DeviceState) : (s.setDevice d).rv = s.rv := by simp [State.setDevice]
@[simp] theorem State.setDevice_rt (s : State) (d : DeviceState) : (s.setDevice d).rt = s.rt := by simp [State.setDevice]
@[simp] theorem State.setDevice_channels (s : State) (d : DeviceState) : (s.setDevice d).channels = s.channels := by simp [State.setDevice]
@[simp] theorem State.setDevice_mem (s : State) (d : DeviceState) : (s.setDevice d).mem = s.mem := by simp [State.setDevice]
@[simp] theorem State.setDevice_freeUsed (s : State) (d : DeviceState) : (s.setDevice d).freeUsed = s.freeUsed := by simp [State.setDevice]
@[simp] theorem State.setDevice_latched (s : State) (d : DeviceState) : (s.setDevice d).ru.latched = s.ru.latched := by simp [State.setDevice]
@[simp] theorem State.setDevice_shown (s : State) (d : DeviceState) : (s.setDevice d).ru.shown = s.ru.shown := by simp [State.setDevice]
@[simp] theorem State.setDevice_pendingShown (s : State) (d : DeviceState) : (s.setDevice d).ru.pendingShown = s.ru.pendingShown := by simp [State.setDevice]
@[simp] theorem State.setDevice_events (s : State) (d : DeviceState) : (s.setDevice d).ru.events = s.ru.events := by simp [State.setDevice]
@[simp] theorem State.setDevice_dropped (s : State) (d : DeviceState) : (s.setDevice d).ru.dropped = s.ru.dropped := by simp [State.setDevice]
@[simp] theorem State.setDevice_ringNext (s : State) (d : DeviceState) : (s.setDevice d).ru.ringNext = s.ru.ringNext := by simp [State.setDevice]
@[simp] theorem State.setDevice_attention (s : State) (d : DeviceState) : (s.setDevice d).ru.attention = s.ru.attention := by simp [State.setDevice]
@[simp] theorem State.setDevice_chan (s : State) (d : DeviceState) (c' : Chan) : (s.setDevice d).chan c' = s.chan c' := by simp [State.chan]
@[simp] theorem State.setDevice_run (s : State) (d : DeviceState) (r' : Run) : (s.setDevice d).run r' = s.run r' := by simp [State.run]
@[simp] theorem State.setDevice_runDescriptor (s : State) (d : DeviceState) (r' : Run) : (s.setDevice d).runDescriptor r' = s.runDescriptor r' := by simp [State.runDescriptor]
@[simp] theorem State.setDevice_claim (s : State) (d : DeviceState) (t' : TallySlot) : (s.setDevice d).claim t' = s.claim t' := by simp [State.claim]
@[simp] theorem State.setDevice_count (s : State) (d : DeviceState) : (s.setDevice d).count = s.count := by simp [State.count]

@[simp] theorem State.putStation_pending (s : State) (d : Option StationDescriptor) : (s.putStation d).pending = s.pending := by simp [State.putStation]
@[simp] theorem State.putStation_uptime (s : State) (d : Option StationDescriptor) : (s.putStation d).uptime = s.uptime := by simp [State.putStation]
@[simp] theorem State.putStation_cp (s : State) (d : Option StationDescriptor) : (s.putStation d).cp = s.cp := by simp [State.putStation]
@[simp] theorem State.putStation_mp (s : State) (d : Option StationDescriptor) : (s.putStation d).mp = s.mp := by simp [State.putStation]
@[simp] theorem State.putStation_passOver (s : State) (d : Option StationDescriptor) : (s.putStation d).passOver = s.passOver := by simp [State.putStation]
@[simp] theorem State.putStation_ma (s : State) (d : Option StationDescriptor) : (s.putStation d).ma = s.ma := by simp [State.putStation]
@[simp] theorem State.putStation_rv (s : State) (d : Option StationDescriptor) : (s.putStation d).rv = s.rv := by simp [State.putStation]
@[simp] theorem State.putStation_rt (s : State) (d : Option StationDescriptor) : (s.putStation d).rt = s.rt := by simp [State.putStation]
@[simp] theorem State.putStation_channels (s : State) (d : Option StationDescriptor) : (s.putStation d).channels = s.channels := by simp [State.putStation]
@[simp] theorem State.putStation_mem (s : State) (d : Option StationDescriptor) : (s.putStation d).mem = s.mem := by simp [State.putStation]
@[simp] theorem State.putStation_freeUsed (s : State) (d : Option StationDescriptor) : (s.putStation d).freeUsed = s.freeUsed := by simp [State.putStation]
@[simp] theorem State.putStation_latched (s : State) (d : Option StationDescriptor) : (s.putStation d).ru.latched = s.ru.latched := by simp [State.putStation]
@[simp] theorem State.putStation_shown (s : State) (d : Option StationDescriptor) : (s.putStation d).ru.shown = s.ru.shown := by simp [State.putStation]
@[simp] theorem State.putStation_pendingShown (s : State) (d : Option StationDescriptor) : (s.putStation d).ru.pendingShown = s.ru.pendingShown := by simp [State.putStation]
@[simp] theorem State.putStation_dirty (s : State) (d : Option StationDescriptor) : (s.putStation d).ru.dirty = s.ru.dirty := by simp [State.putStation]
@[simp] theorem State.putStation_events (s : State) (d : Option StationDescriptor) : (s.putStation d).ru.events = s.ru.events := by simp [State.putStation]
@[simp] theorem State.putStation_dropped (s : State) (d : Option StationDescriptor) : (s.putStation d).ru.dropped = s.ru.dropped := by simp [State.putStation]
@[simp] theorem State.putStation_ringNext (s : State) (d : Option StationDescriptor) : (s.putStation d).ru.ringNext = s.ru.ringNext := by simp [State.putStation]
@[simp] theorem State.putStation_chan (s : State) (d : Option StationDescriptor) (c' : Chan) : (s.putStation d).chan c' = s.chan c' := by simp [State.chan]
@[simp] theorem State.putStation_run (s : State) (d : Option StationDescriptor) (r' : Run) : (s.putStation d).run r' = s.run r' := by simp [State.run]
@[simp] theorem State.putStation_runDescriptor (s : State) (d : Option StationDescriptor) (r' : Run) : (s.putStation d).runDescriptor r' = s.runDescriptor r' := by simp [State.runDescriptor]
@[simp] theorem State.putStation_claim (s : State) (d : Option StationDescriptor) (t' : TallySlot) : (s.putStation d).claim t' = s.claim t' := by simp [State.claim]
@[simp] theorem State.putStation_count (s : State) (d : Option StationDescriptor) : (s.putStation d).count = s.count := by simp [State.count]


@[simp] theorem State.elapseTo_uptime (s : State) (n : Nat) : (s.elapseTo n).uptime = max s.uptime n := rfl
@[simp] theorem State.setChan_channels (s : State) (c : Chan) (x : Channel) :
    (s.setChan c x).channels = s.channels.set c.val x := rfl
@[simp] theorem State.setChan_chan (s : State) (c : Chan) (x : Channel) : (s.setChan c x).chan c = x := by
  simp [State.chan]
theorem State.setChan_chan_ne (s : State) {c k : Chan} (x : Channel) (h : k ≠ c) : (s.setChan c x).chan k = s.chan k := by
  have : c.val ≠ k.val := fun hh => h (Fin.ext hh.symm)
  simp [State.chan, this]
@[simp] theorem State.putChan_channels (s : State) (c : Chan) (x : Channel) :
    (s.putChan c x).channels = s.channels.set c.val x := by unfold State.putChan; split <;> simp
@[simp] theorem State.putChan_chan (s : State) (c : Chan) (x : Channel) : (s.putChan c x).chan c = x := by
  simp [State.chan]
theorem State.putChan_chan_ne (s : State) {c k : Chan} (x : Channel) (h : k ≠ c) : (s.putChan c x).chan k = s.chan k := by
  have : c.val ≠ k.val := fun hh => h (Fin.ext hh.symm)
  simp [State.chan, this]
@[simp] theorem State.setRun_run (s : State) (r : Run) (e : RunEntry) : (s.setRun r e).run r = e := by
  simp [State.setRun, State.run]
theorem State.setRun_run_ne (s : State) {r q : Run} (e : RunEntry) (h : q ≠ r) : (s.setRun r e).run q = s.run q := by
  have : r.val ≠ q.val := fun hh => h (Fin.ext hh.symm)
  simp [State.setRun, State.run, this]
@[simp] theorem State.setRun_descriptors (s : State) (r : Run) (e : RunEntry) :
    (s.setRun r e).rt.descriptors = s.rt.descriptors := rfl
@[simp] theorem State.setRun_slots (s : State) (r : Run) (e : RunEntry) : (s.setRun r e).rt.slots = s.rt.slots := rfl
@[simp] theorem State.setRun_claim (s : State) (r : Run) (e : RunEntry) (t : TallySlot) :
    (s.setRun r e).claim t = s.claim t := rfl
@[simp] theorem State.setRun_runDescriptor (s : State) (r : Run) (e : RunEntry) (q : Run) :
    (s.setRun r e).runDescriptor q = s.runDescriptor q := rfl
theorem State.putRun_rt (s : State) (r : Run) (e : RunEntry) : (s.putRun r e).rt = (s.setRun r e).rt := by
  unfold State.putRun; split <;> simp
@[simp] theorem State.putRun_run (s : State) (r : Run) (e : RunEntry) : (s.putRun r e).run r = e := by
  have h := s.setRun_run r e
  simp only [State.run, State.putRun_rt] at h ⊢; exact h
theorem State.putRun_run_ne (s : State) {r q : Run} (e : RunEntry) (h : q ≠ r) : (s.putRun r e).run q = s.run q := by
  have h' := s.setRun_run_ne e h
  simp only [State.run, State.putRun_rt] at h' ⊢; exact h'
@[simp] theorem State.putRun_descriptors (s : State) (r : Run) (e : RunEntry) :
    (s.putRun r e).rt.descriptors = s.rt.descriptors := by simp [State.putRun_rt]
@[simp] theorem State.putRun_slots (s : State) (r : Run) (e : RunEntry) : (s.putRun r e).rt.slots = s.rt.slots := by
  simp [State.putRun_rt]
@[simp] theorem State.putRun_claim (s : State) (r : Run) (e : RunEntry) (t : TallySlot) :
    (s.putRun r e).claim t = s.claim t := by simp [State.claim]
@[simp] theorem State.putRun_runDescriptor (s : State) (r : Run) (e : RunEntry) (q : Run) :
    (s.putRun r e).runDescriptor q = s.runDescriptor q := by simp [State.runDescriptor]
@[simp] theorem State.setClaim_runs (s : State) (t : TallySlot) (x : Claim) : (s.setClaim t x).rt.runs = s.rt.runs := rfl
@[simp] theorem State.setClaim_run (s : State) (t : TallySlot) (x : Claim) (r : Run) : (s.setClaim t x).run r = s.run r := rfl
@[simp] theorem State.setClaim_descriptors (s : State) (t : TallySlot) (x : Claim) :
    (s.setClaim t x).rt.descriptors = s.rt.descriptors := rfl
@[simp] theorem State.setClaim_runDescriptor (s : State) (t : TallySlot) (x : Claim) (r : Run) :
    (s.setClaim t x).runDescriptor r = s.runDescriptor r := rfl
@[simp] theorem State.setClaim_claim (s : State) (t : TallySlot) (x : Claim) : (s.setClaim t x).claim t = x := by
  simp [State.setClaim, State.claim]
theorem State.setClaim_claim_ne (s : State) {t u : TallySlot} (x : Claim) (h : u ≠ t) :
    (s.setClaim t x).claim u = s.claim u := by
  have : t.val ≠ u.val := fun hh => h (Fin.ext hh.symm)
  simp [State.setClaim, State.claim, this]
@[simp] theorem State.setDevice_lc (s : State) (d : DeviceState) : (s.setDevice d).lc = { s.lc with device := d } := by
  simp [State.setDevice]
@[simp] theorem State.setDevice_passes (s : State) (d : DeviceState) (e : EventCode) :
    (s.setDevice d).passes e = s.passes e := by simp [State.passes]
@[simp] theorem State.putStation_lc (s : State) (d : Option StationDescriptor) :
    (s.putStation d).lc = { s.lc with station := d } := by simp [State.putStation]
@[simp] theorem State.queueEvent_events (s : State) (e : EventRecord) : (s.queueEvent e).ru.events = s.ru.events ++ [e] := rfl
@[simp] theorem State.setLatch_latched (s : State) (f : Flag) : (s.setLatch f).ru.latched = s.ru.latched.add f := rfl
@[simp] theorem State.latch_latched (s : State) (f : Flag) : (s.latch f).ru.latched = s.ru.latched.add f := by
  unfold State.latch; split <;> simp
theorem State.mark_dirty (s : State) (k : PartSlot) : (s.mark k).ru.dirty = s.ru.dirty.set k.val true := rfl
@[simp] theorem State.evalAttention_attention (s : State) : s.evalAttention.ru.attention = s.attentionDue := rfl

end Sys2Proof.Machine
end

