-- ==== Sys2Proof/Laws/Inner.lean ====
section
/-! SUPPORT. What the blocks behind the memory port can do to the state: `Inner s t` says that t comes from s by the
updates the blocks make, each of which names what it may change. One lemma for each operation says that it is such a
chain; the invariants are then shown once for each kind of update. -/

namespace Sys2Proof.Machine

open Sys2Proof.Safety

/-- A channel's new value keeps its outputs in step with its phase and its demand within bounds. -/
structure ChanStep (x y : Channel) : Prop where
  outputs : OutputsFollow x → OutputsFollow y
  demand : DemandBounded x → DemandBounded y

/-- The updates the blocks make. -/
inductive Inner : State → State → Prop
  | refl (s : State) : Inner s s
  | clock {s t : State} (n : Nat) (h : Inner s t) : Inner s { t with uptime := n }
  | loader {s t : State} (l : Loader) (h : Inner s t) (h1 : l.resetAsserted = t.lc.resetAsserted)
      (h2 : l.station = t.lc.station) (h3 : l.baseSelect = t.lc.baseSelect) (h4 : l.stationCode = t.lc.stationCode) :
      Inner s { t with lc := l }
  | station {s t : State} (d : Option StationDescriptor) (h : Inner s t) : Inner s (t.putStation d)
  | verifier {s t : State} (v : Verifier) (h : Inner s t) (h1 : v.assembling.Sublist t.rv.assembling)
      (h2 : v.committing = t.rv.committing) : Inner s { t with rv := v }
  | runs {s t : State} (x : RunTable) (h : Inner s t) : Inner s { t with rt := x }
  | chan {s t : State} (c : Chan) (x : Channel) (h : Inner s t) (h1 : ChanStep (t.chan c) x) : Inner s (t.setChan c x)
  | chans {s t : State} (f : Channel → Channel) (h : Inner s t) (h1 : ∀ x, ChanStep x (f x)) :
      Inner s { t with channels := t.channels.map f }
  | report {s t : State} (u : ReportUnit) (h : Inner s t) (h1 : u.latched = t.ru.latched)
      (h2 : u.events = t.ru.events) (h3 : u.attention = t.ru.attention)
      (h4 : ∀ f, u.pendingShown.has f = true → t.ru.pendingShown.has f = true) : Inner s { t with ru := u }
  | flags {s t : State} (u : ReportUnit) (h : Inner s t) (h2 : u.events = t.ru.events)
      (h4 : ∀ f, u.pendingShown.has f = true → t.ru.pendingShown.has f = true) :
      Inner s ({ t with ru := u } : State).evalAttention
  | queue {s t : State} (e : EventRecord) (h : Inner s t) (h1 : t.ru.events.length < Config.eventQueueSize) :
      Inner s (t.queueEvent e)

namespace Inner

theorem trans {s t u : State} (h : Inner s t) (h' : Inner t u) : Inner s u := by
  induction h' with
  | refl => exact h
  | clock n _ ih => exact .clock n ih
  | loader l _ h1 h2 h3 h4 ih => exact .loader l ih h1 h2 h3 h4
  | station d _ ih => exact .station d ih
  | verifier v _ h1 h2 ih => exact .verifier v ih h1 h2
  | runs x _ ih => exact .runs x ih
  | chan c x _ h1 ih => exact .chan c x ih h1
  | chans f _ h1 ih => exact .chans f ih h1
  | report u _ h1 h2 h3 h4 ih => exact .report u ih h1 h2 h3 h4
  | flags u _ h2 h4 ih => exact .flags u ih h2 h4
  | queue e _ h1 ih => exact .queue e ih h1

/-- The parts on the memory side of the port, the queue, the straps and the reset line stay as they were. -/
theorem port {s t : State} (h : Inner s t) :
    t.pending = s.pending ∧ t.cp = s.cp ∧ t.mp = s.mp ∧ t.passOver = s.passOver ∧ t.ma = s.ma ∧ t.mem = s.mem ∧
    t.freeUsed = s.freeUsed ∧ t.rv.committing = s.rv.committing ∧ t.lc.resetAsserted = s.lc.resetAsserted ∧
    t.lc.baseSelect = s.lc.baseSelect ∧ t.lc.stationCode = s.lc.stationCode := by
  induction h with
  | refl => simp
  | clock n _ ih => simpa using ih
  | loader l _ h1 h2 h3 h4 ih => simpa [h1, h3, h4] using ih
  | station d _ ih => simpa using ih
  | verifier v _ h1 h2 ih => simpa [h2] using ih
  | runs x _ ih => simpa using ih
  | chan c x _ h1 ih => simpa using ih
  | chans f _ h1 ih => simpa using ih
  | report u _ h1 h2 h3 h4 ih => simpa using ih
  | flags u _ h2 h4 ih => simpa using ih
  | queue e _ h1 ih => simpa using ih

/-- No ASSEMBLING entry appears. -/
theorem assembling {s t : State} (h : Inner s t) : t.rv.assembling.Sublist s.rv.assembling := by
  induction h with
  | refl => exact List.Sublist.refl _
  | clock n _ ih => simpa using ih
  | loader l _ h1 h2 h3 h4 ih => simpa using ih
  | station d _ ih => simpa using ih
  | verifier v _ h1 h2 ih => exact h1.trans ih
  | runs x _ ih => simpa using ih
  | chan c x _ h1 ih => simpa using ih
  | chans f _ h1 ih => simpa using ih
  | report u _ h1 h2 h3 h4 ih => simpa using ih
  | flags u _ h2 h4 ih => simpa using ih
  | queue e _ h1 ih => simpa using ih

/-- No flag joins the pending set (R158). -/
theorem pendingShown {s t : State} (h : Inner s t) (f : Flag) (hf : t.ru.pendingShown.has f = true) :
    s.ru.pendingShown.has f = true := by
  induction h with
  | refl => exact hf
  | clock n _ ih => exact ih hf
  | loader l _ h1 h2 h3 h4 ih => exact ih hf
  | station d _ ih => exact ih (by simpa using hf)
  | verifier v _ h1 h2 ih => exact ih hf
  | runs x _ ih => exact ih hf
  | chan c x _ h1 ih => exact ih hf
  | chans g _ h1 ih => exact ih hf
  | report u _ h1 h2 h3 h4 ih => exact ih (h4 f hf)
  | flags u _ h2 h4 ih => exact ih (h4 f (by simpa using hf))
  | queue e _ h1 ih => exact ih (by simpa using hf)

/-- The event queue stays within its size. -/
theorem queueWf {s t : State} (h : Inner s t) (hs : QueueWf s) : QueueWf t := by
  induction h with
  | refl => exact hs
  | clock n _ ih => exact ih
  | loader l _ h1 h2 h3 h4 ih => exact ih
  | station d _ ih => simpa [QueueWf] using ih
  | verifier v _ h1 h2 ih => exact ih
  | runs x _ ih => exact ih
  | chan c x _ h1 ih => exact ih
  | chans f _ h1 ih => exact ih
  | report u _ h1 h2 h3 h4 ih => simpa [QueueWf, h2] using ih
  | flags u _ h2 h4 ih => simpa [QueueWf, h2] using ih
  | queue e _ h1 ih =>
    simp only [QueueWf, State.queueEvent_events, List.length_append, List.length_singleton]
    omega

/-- The attention line stays in step with the latches and the mask. -/
theorem attention {s t : State} (h : Inner s t) (hs : s.ru.attention = s.attentionDue) :
    t.ru.attention = t.attentionDue := by
  induction h with
  | refl => exact hs
  | clock n _ ih => exact ih
  | loader l _ h1 h2 h3 h4 ih =>
    simpa [State.attentionDue, State.attentionMask, h2] using ih
  | station d _ ih => rfl
  | verifier v _ h1 h2 ih => exact ih
  | runs x _ ih => exact ih
  | chan c x _ h1 ih => exact ih
  | chans f _ h1 ih => exact ih
  | report u _ h1 h2 h3 h4 ih =>
    simpa [State.attentionDue, State.attentionMask, h1, h3] using ih
  | flags u _ h2 h4 ih => rfl
  | queue e _ h1 ih => exact ih

/-- Every channel's step. -/
theorem channel {s t : State} (h : Inner s t) (c : Chan) : ChanStep (s.chan c) (t.chan c) := by
  induction h with
  | refl => exact ⟨id, id⟩
  | clock n _ ih => exact ih
  | loader l _ h1 h2 h3 h4 ih => exact ih
  | station d _ ih => simpa using ih
  | verifier v _ h1 h2 ih => exact ih
  | runs x _ ih => exact ih
  | chan k x _ h1 ih =>
    by_cases hk : c = k
    · subst hk
      simp only [State.setChan_chan]
      exact ⟨fun h => h1.outputs (ih.outputs h), fun h => h1.demand (ih.demand h)⟩
    · rw [State.setChan_chan_ne _ _ hk]; exact ih
  | @chans t f _ h1 ih =>
    have e : ({ t with channels := t.channels.map f } : State).chan c = f (t.chan c) := by simp [State.chan]
    rw [e]
    exact ⟨fun h => (h1 _).outputs (ih.outputs h), fun h => (h1 _).demand (ih.demand h)⟩
  | report u _ h1 h2 h3 h4 ih => exact ih
  | flags u _ h2 h4 ih => exact ih
  | queue e _ h1 ih => exact ih

end Inner

end Sys2Proof.Machine
end

