-- ==== Sys2Proof/Laws/Blocks.lean ====
section
/-! SUPPORT. Each operation of the blocks is a chain of the updates of Laws/Inner.lean: one lemma an operation. -/

namespace Sys2Proof.Machine

open Sys2Proof.Safety

/-- Adding a flag that is in the set changes nothing. -/
theorem FlagWords.add_of_has {w : FlagWords} {f : Flag} (h : w.has f = true) : w.add f = w := by
  have e : w[f.word] ||| f.mask = w[f.word] := by
    unfold FlagWords.has at h
    ext i hi
    simp only [Flag.mask, BitVec.getElem_or, BitVec.getElem_shiftLeft]
    by_cases hb : i = f.bit
    · subst hb; simp [BitVec.getLsbD_eq_getElem hi] at h; simp [h]
    · have : ¬(i < f.bit) → (1#16)[i - f.bit]'(by omega) = false := by
        intro hlt
        have : i - f.bit ≠ 0 := by omega
        simp [BitVec.getElem_one, this]
      by_cases hlt : i < f.bit <;> simp [hlt, this]
  unfold FlagWords.add
  rw [e]
  ext i hi
  simp

theorem ChanStep.takeCrossings (x : Channel) (n : Nat) : ChanStep x (x.takeCrossings n) := by
  refine ⟨id, fun h => ?_⟩
  simp only [DemandBounded, Channel.takeCrossings] at h ⊢
  omega

theorem ChanStep.deliver (x : Channel) (k : Option StrokeKind) : ChanStep x (x.deliver k) := by
  unfold Channel.deliver
  split
  · exact ⟨id, id⟩
  · refine ⟨id, fun h => ?_⟩
    simp only [DemandBounded] at h ⊢; omega
  · split_ifs
    · refine ⟨id, fun h => ?_⟩
      simp only [DemandBounded] at h ⊢; omega
    · refine ⟨id, fun h => ?_⟩
      simp only [DemandBounded] at h ⊢; omega
    · exact ⟨id, id⟩

theorem ChanStep.countProven (x : Channel) (o : Bool) : ChanStep x (x.countProven o) := by
  unfold Channel.countProven
  split <;> exact ⟨id, id⟩

theorem outputsFollow_leave {x : Channel} (h : OutputsFollow x) :
    OutputsFollow { x with seq := x.seq.leave } := by
  dsimp only [OutputsFollow, Sequencer.leave] at h ⊢
  split
  · exact h
  · simp [Sequencer.idle]
  · exact h
  · exact h
  · simp [Sequencer.idle]


/-- A channel report read at loading restores counts within 4,095 (R171). -/
theorem readChannelReport_bounds {w : Record} {x : ChannelRestore} (h : readChannelReport w = some x) :
    x.owed ≤ Config.maxStrokes ∧ x.credit ≤ Config.maxStrokes := by
  have hb : (w[6].extractLsb' 0 12).toNat ≤ 4095 := by
    have := (w[6].extractLsb' 0 12).isLt
    omega
  unfold readChannelReport at h
  dsimp only at h
  split at h
  · cases h
  · split at h
    · cases h
      simp only [Config.maxStrokes]
      constructor <;> split <;> omega
    · cases h

/-- Marking the reports of cleared flags changes the dirty marks alone. -/
theorem State.markCleared_eq (s : State) (w : Fin 7) (v : Word) :
    s.markCleared w v = { s with ru := { s.ru with dirty := (s.markCleared w v).ru.dirty } } := by
  unfold State.markCleared
  simp only [List.finRange, List.ofFn, Fin.foldr, Fin.foldr.loop, List.foldl]
  split_ifs <;> rfl

/-- A flag in the set without another flag is in the set. -/
theorem FlagWords.has_of_remove {w : FlagWords} {f g : Flag} (h : (w.remove f).has g = true) : w.has g = true := by
  by_cases hw : f.word.val = g.word.val
  · have e : f.word = g.word := Fin.ext hw
    simp only [FlagWords.has, FlagWords.remove, e] at h ⊢
    simp at h
    exact h.1
  · simpa [FlagWords.has, FlagWords.remove, hw] using h

namespace Inner
variable {s t : State}

theorem mark (k : PartSlot) (h : Inner s t) : Inner s (t.mark k) := .report _ h rfl rfl rfl fun _ h => h
theorem unmark (k : PartSlot) (h : Inner s t) : Inner s (t.unmark k) := .report _ h rfl rfl rfl fun _ h => h
theorem evalAttention (h : Inner s t) : Inner s t.evalAttention := .flags t.ru h rfl fun _ h => h
theorem elapseTo (n : Nat) (h : Inner s t) : Inner s (t.elapseTo n) := .clock _ h

theorem latch (f : Flag) (h : Inner s t) : Inner s (t.latch f) := by
  unfold State.latch
  dsimp only
  have e : ((t.setLatch f).mark .status).markFlagReport f =
      { t with ru := (((t.setLatch f).mark .status).markFlagReport f).ru } := by cases f <;> rfl
  split
  · rename_i hf
    rw [e]
    exact .report _ h (by simp [FlagWords.add_of_has hf]) (by simp) (by simp) fun g hg =>
      FlagWords.has_of_remove (f := f) (by simpa [State.setLatch] using hg)
  · rw [e]
    exact .flags _ h (by simp) fun g hg => FlagWords.has_of_remove (f := f) (by simpa [State.setLatch] using hg)

theorem raise (e : EventCode) (a d v : Nat) (h : Inner s t) : Inner s (t.raise e a d v) := by
  unfold State.raise
  split_ifs with h1 h2
  · exact .queue _ h h2
  · exact mark _ (latch _ (.report _ h rfl rfl rfl fun _ h => h))
  · exact h

theorem putChan (c : Chan) (x : Channel) (h : Inner s t) (h1 : ChanStep (t.chan c) x) : Inner s (t.putChan c x) := by
  unfold State.putChan
  split
  · exact .chan c x h h1
  · exact mark _ (.chan c x h h1)

theorem setRun (r : Run) (e : RunEntry) (h : Inner s t) : Inner s (t.setRun r e) := .runs _ h
theorem setClaim (r : TallySlot) (e : Claim) (h : Inner s t) : Inner s (t.setClaim r e) := .runs _ h
theorem putRun (r : Run) (e : RunEntry) (h : Inner s t) : Inner s (t.putRun r e) := by
  unfold State.putRun
  split
  · exact setRun r e h
  · exact mark _ (setRun r e h)
theorem setDevice (d : DeviceState) (h : Inner s t) : Inner s (t.setDevice d) :=
  mark _ (.loader _ h rfl rfl rfl rfl)

/-! ### Demand -/

theorem assertRestrict (c : Chan) (d : ChannelDescriptor) (h : Inner s t) : Inner s (t.assertRestrict c d) :=
  latch _ (raise _ _ _ _ (.chan c _ h ⟨id, id⟩))

theorem deassertRestrict (c : Chan) (d : ChannelDescriptor) (h : Inner s t) : Inner s (t.deassertRestrict c d) :=
  raise _ _ _ _ (.chan c _ h ⟨id, id⟩)

theorem evalRestrict (c : Chan) (h : Inner s t) : Inner s (t.evalRestrict c) := by
  unfold State.evalRestrict
  split
  · exact h
  · split_ifs
    · exact h
    · exact assertRestrict _ _ h
    · exact deassertRestrict _ _ h
    · exact h
    · exact h

theorem tryBegin (c : Chan) (h : Inner s t) : Inner s (t.tryBegin c) := by
  unfold State.tryBegin
  split
  · exact putChan c _ h ⟨fun _ => by simp [OutputsFollow, Sequencer.begin], id⟩
  · exact h

theorem deficitStart (c : Chan) (b k : Nat) (h : Inner s t) : Inner s (t.deficitStart c b k) := by
  unfold State.deficitStart
  split
  · exact latch _ (raise _ _ _ _ h)
  · exact h

theorem distribute (c : Chan) (n k : Nat) (h : Inner s t) : Inner s (t.distribute c n k) :=
  deficitStart _ _ _ (putChan c _ h (.takeCrossings _ _))

theorem countCrossings (c : Chan) (k : Nat) (h : Inner s t) : Inner s (t.countCrossings c k) := by
  unfold State.countCrossings
  dsimp only
  split
  · exact h
  · exact distribute _ _ _ (putChan c _ h ⟨id, id⟩)

theorem owedChanged (c : Chan) (h : Inner s t) : Inner s (t.owedChanged c) := tryBegin _ (evalRestrict _ h)

theorem countAndSettle (c : Chan) (k : Nat) (h : Inner s t) : Inner s (t.countAndSettle c k) := by
  unfold State.countAndSettle
  split
  · exact h
  · exact owedChanged _ (countCrossings _ _ h)

theorem addDemand (c : Chan) (v k : Nat) (h : Inner s t) : Inner s (t.addDemand c v k) := by
  unfold State.addDemand
  split
  · exact h
  · have h1 (x : Nat) := putChan c { t.chan c with residue := x } h ⟨id, id⟩
    dsimp only
    split
    · exact h1 _
    · exact owedChanged _ (distribute _ _ _ (h1 _))

theorem demandStroke (c : Chan) (h : Inner s t) : Inner s (t.demandStroke c) := owedChanged _ (distribute _ _ _ h)

theorem addUnrouted (r : Run) (v : Nat) (h : Inner s t) : Inner s (t.addUnrouted r v) := putRun _ _ h

theorem route (r : Run) (v : Nat) (h : Inner s t) : Inner s (t.route r v) := by
  unfold State.route
  split
  · exact h
  · split
    · exact h
    · split
      · exact addUnrouted _ _ h
      · exact addDemand _ _ _ h

/-! ### Sequencer and calibration -/

theorem endCalibration (c : Chan) (o : CalOutcome) (m : Nat) (v : ServiceState) (h : Inner s t) :
    Inner s (t.endCalibration c o m v) :=
  raise _ _ _ _ (latch _ (mark _ (putChan c _ h ⟨id, id⟩)))

theorem failChannel (c : Chan) (d : ChannelDescriptor) (h : Inner s t) : Inner s (t.failChannel c d) :=
  latch _ (raise _ _ _ _ (putChan c _ h ⟨fun _ => by simp [OutputsFollow, Sequencer.idle], id⟩))

theorem clearWindow (c : Chan) (h : Inner s t) : Inner s (t.clearWindow c) := putChan c _ h ⟨id, id⟩

theorem windowFull (c : Chan) (d : ChannelDescriptor) (h : Inner s t) : Inner s (t.windowFull c d) := by
  unfold State.windowFull
  split
  · exact failChannel _ _ h
  · exact failChannel _ _ (endCalibration _ _ _ _ h)
  all_goals exact clearWindow _ h

theorem testWindow (c : Chan) (h : Inner s t) : Inner s (t.testWindow c) := by
  unfold State.testWindow
  split
  · exact h
  · split_ifs
    · exact windowFull _ _ h
    · exact clearWindow _ h
    · exact h

theorem afterOutcome (c : Chan) (h : Inner s t) : Inner s (t.afterOutcome c) := by
  unfold State.afterOutcome
  split
  · exact h
  · refine putChan c _ h ⟨fun _ => ?_, id⟩
    dsimp only [OutputsFollow]
    split <;> simp [Sequencer.toRest, Sequencer.idle]

theorem reportMiss (c : Chan) (b : Bool) (h : Inner s t) : Inner s (t.reportMiss c b) := by
  unfold State.reportMiss
  exact putChan c _ (raise _ _ _ _ (latch _ h)) ⟨id, id⟩

theorem calibrationMissed (c : Chan) (b : Bool) (h : Inner s t) : Inner s (t.calibrationMissed c b) := by
  unfold State.calibrationMissed
  split
  · exact endCalibration _ _ _ _ h
  · exact h

theorem missStroke (c : Chan) (b : Bool) (h : Inner s t) : Inner s (t.missStroke c b) :=
  afterOutcome _ (testWindow _ (calibrationMissed _ _ (reportMiss _ _ (putChan c _ h ⟨id, id⟩))))

theorem afterProof (c : Chan) (h : Inner s t) : Inner s (t.afterProof c) := by
  unfold State.afterProof
  split
  · exact putChan c _ h ⟨id, id⟩
  · exact afterOutcome _ h
  all_goals exact h

theorem deliverStroke (c : Chan) (k : Option StrokeKind) (h : Inner s t) : Inner s (t.deliverStroke c k) := by
  unfold State.deliverStroke
  dsimp only
  split
  · exact putChan c _ h (.deliver _ _)
  · exact evalRestrict _ (putChan c _ h (.deliver _ _))

theorem proveStroke (c : Chan) (h : Inner s t) : Inner s (t.proveStroke c) := by
  unfold State.proveStroke
  dsimp only
  refine afterProof _ (.chan _ _ (deliverStroke _ _ (.chan _ _ (testWindow _ (putChan c _ h ⟨id, id⟩)) ?_)) (.countProven _ _))
  refine ⟨fun h => ?_, id⟩
  dsimp only [OutputsFollow, Sequencer.markProven] at h ⊢
  split <;> exact h

theorem goOutOfService (c : Chan) (f : ServiceState) (h : Inner s t) : Inner s (t.goOutOfService c f) :=
  latch _ (raise _ _ _ _ (putChan c _ h ⟨outputsFollow_leave, id⟩))

theorem goInService (c : Chan) (f : ServiceState) (h : Inner s t) : Inner s (t.goInService c f) :=
  tryBegin _ (raise _ _ _ _ (putChan c _ h ⟨id, id⟩))

theorem reloadChannel (c : Chan) (h : Inner s t) : Inner s (t.reloadChannel c) := by
  unfold State.reloadChannel
  split
  · refine tryBegin _ (putChan c _ (endCalibration _ _ _ _ h) ⟨fun h => ?_, id⟩)
    unfold Sequencer.leaveCalibration
    dsimp only [OutputsFollow]
    split
    · exact h
    · exact h
    · exact outputsFollow_leave h
  all_goals exact h

theorem applyMeasured (c : Chan) (o : CalOutcome) (m : Nat) (h : Inner s t) : Inner s (t.applyMeasured c o m) := by
  unfold State.applyMeasured
  split
  · exact countAndSettle _ _ (putChan c _ h ⟨id, id⟩)
  all_goals exact h

theorem completeCalibration (c : Chan) (h : Inner s t) : Inner s (t.completeCalibration c) := by
  unfold State.completeCalibration
  split
  · exact h
  · exact applyMeasured _ _ _ (endCalibration _ _ _ _ h)

/-! ### Runs -/

theorem enterHistory (r : Run) (k : TallySlot) (h : Inner s t) : Inner s (t.enterHistory r k) :=
  mark _ (putRun _ _ (setClaim _ _ h))

theorem raiseRunLive (r : Run) (k : TallySlot) (e : RunEntry) (h : Inner s t) : Inner s (t.raiseRunLive r k e) := by
  unfold State.raiseRunLive
  split
  · exact raise _ _ _ _ h
  · exact raise _ _ _ _ h
  all_goals exact h

theorem makeCurrent (r : Run) (k : TallySlot) (h : Inner s t) : Inner s (t.makeCurrent r k) :=
  putRun _ _ (setClaim _ _ h)

theorem leaveSlot (r : Run) (h : Inner s t) : Inner s (t.leaveSlot r) := by
  unfold State.leaveSlot
  split
  · exact h
  · exact enterHistory _ _ h

theorem migrate (r : Run) (k : TallySlot) (h : Inner s t) : Inner s (t.migrate r k) :=
  raise _ _ _ _ (makeCurrent _ _ (leaveSlot _ h))

theorem placeBound (r : Run) (k : TallySlot) (h : Inner s t) : Inner s (t.placeBound r k) := by
  unfold State.placeBound
  split
  · exact migrate _ _ h
  all_goals exact h

theorem acceptTally (r : Run) (k : TallySlot) (x : TallyFields) (h : Inner s t) : Inner s (t.acceptTally r k x) := by
  unfold State.acceptTally
  dsimp only
  refine mark _ (putRun _ _ ?_)
  split_ifs
  · exact raise _ _ _ _ (raise _ _ _ _ (makeCurrent _ _ h))
  · exact putRun _ _ (raiseRunLive _ _ _ (raise _ _ _ _ (placeBound _ _ h)))
  · exact route _ _ (raiseRunLive _ _ _ (putRun _ _ (placeBound _ _ h)))

theorem holdRun (r : Run) (n : Nat) (k : Slot) (h : Inner s t) : Inner s (t.holdRun r n k) := by
  unfold State.holdRun
  split
  · exact h
  · exact latch _ (raise _ _ _ _ (putRun _ _ h))

theorem unbind (r : Run) (c : RunCondition) (n : Nat) (h : Inner s t) : Inner s (t.unbind r c n) := by
  unfold State.unbind
  exact mark _ (raise _ _ _ _ (putRun _ _ (leaveSlot _ h)))

theorem retire (r : Run) (h : Inner s t) : Inner s (t.retire r) := by
  unfold State.retire
  split
  · exact unbind _ _ _ h
  · exact mark _ (putRun _ _ h)

theorem releaseHistory (r : Run) (h : Inner s t) : Inner s (t.releaseHistory r) :=
  mark _ (putRun _ _ (.runs _ h))

theorem substitute (r : Run) (v : Nat) (h : Inner s t) : Inner s (t.substitute r v) := by
  unfold State.substitute
  exact route _ _ (putRun _ _ h)

/-! ### Record Verifier -/

theorem countRefusal (h : Inner s t) : Inner s t.countRefusal := by
  have h1 := mark .status (.verifier { t.rv with refusals := satAdd Config.max16 t.rv.refusals 1 } h
    (List.Sublist.refl _) rfl)
  unfold State.countRefusal State.countSince
  dsimp only
  split
  · split
    · exact mark _ (.verifier _ h1 (List.Sublist.refl _) rfl)
    · exact h1
  · exact h1

theorem refuseWord (n : Nat) (k : Slot) (p : Pos) (h : Inner s t) : Inner s (t.refuseWord n k p) := by
  unfold State.refuseWord
  dsimp only
  refine .verifier _ ?_ (List.Sublist.refl _) rfl
  split
  · exact raise _ _ _ _ (countRefusal (latch _ h))
  · exact countRefusal (latch _ h)

theorem discardAssembly (k : Slot) (h : Inner s t) : Inner s (t.discardAssembly k) :=
  .verifier _ h List.filter_sublist rfl

theorem fillCapture (n : Nat) (k : Slot) (w : Record) (h : Inner s t) : Inner s (t.fillCapture n k w) :=
  latch _ (mark _ (mark _ (.verifier _ h (List.Sublist.refl _) rfl)))

theorem clearCaptureHeader (h : Inner s t) : Inner s t.clearCaptureHeader :=
  mark _ (.verifier _ h (List.Sublist.refl _) rfl)

theorem latchRefused (r : Option Run) (h : Inner s t) : Inner s (t.latchRefused r) := by
  unfold State.latchRefused
  split
  · exact h
  · exact latch _ h

theorem holdAttributed (r : Option Run) (n : Nat) (k : Slot) (h : Inner s t) : Inner s (t.holdAttributed r n k) := by
  unfold State.holdAttributed
  split
  · exact h
  · split
    · exact holdRun _ _ _ h
    · exact h

theorem refuseRecord (k : Slot) (w : Record) (n : Nat) (h : Inner s t) : Inner s (t.refuseRecord k w n) := by
  unfold State.refuseRecord
  dsimp only
  refine holdAttributed _ _ _ ?_
  split
  · exact countRefusal (latchRefused _ (latch _ (raise _ _ _ _ h)))
  · exact fillCapture _ _ _ (countRefusal (latchRefused _ (latch _ (raise _ _ _ _ h))))

theorem startDrain (c : LoadCause) (h : Inner s t) : Inner s (t.startDrain c) := by
  unfold State.startDrain
  dsimp only
  refine setDevice _ (.loader _ (.chans _ (.verifier _ h (List.nil_sublist _) rfl) ?_) rfl rfl rfl rfl)
  intro x; exact ⟨id, id⟩

theorem acceptStation (d : StationDescriptor) (w : Record) (h : Inner s t) : Inner s (t.acceptStation d w) := by
  unfold State.acceptStation
  dsimp only
  split
  · exact startDrain _ (raise _ _ _ _ (.station _ h))
  · exact raise _ _ _ _ (.station _ h)

theorem putDescriptor (c : Chan) (d : ChannelDescriptor) (h : Inner s t) : Inner s (t.putDescriptor c d) :=
  putChan c _ h ⟨id, id⟩

theorem takeNominal (c : Chan) (d : ChannelDescriptor) (h : Inner s t) : Inner s (t.takeNominal c d) :=
  countCrossings _ _ (putChan c _ h ⟨id, id⟩)

theorem reconfigure (c : Chan) (o d : ChannelDescriptor) (h : Inner s t) : Inner s (t.reconfigure c o d) := by
  have h1 := putDescriptor c d h
  have h2 : Inner s (if o.nominal = d.nominal then t.putDescriptor c d else (t.putDescriptor c d).takeNominal c d) := by
    split
    · exact h1
    · exact takeNominal c d h1
  unfold State.reconfigure
  dsimp only
  split_ifs at h2 ⊢ <;> first | exact h2 | exact owedChanged _ h2 | exact clearWindow _ h2 | exact owedChanged _ (clearWindow _ h2)

theorem configure (c : Chan) (d : ChannelDescriptor) (w : Record) (h : Inner s t) : Inner s (t.configure c d w) := by
  unfold State.configure
  exact evalRestrict _ (goOutOfService _ _ (raise _ _ _ _ (clearWindow _ (takeNominal _ _ (putDescriptor _ _ h)))))

theorem acceptChannel (c : Chan) (d : ChannelDescriptor) (w : Record) (h : Inner s t) : Inner s (t.acceptChannel c d w) := by
  unfold State.acceptChannel
  split
  · exact configure _ _ _ h
  · exact raise _ _ _ _ (reconfigure _ _ _ h)

theorem applyEnabled (r : Run) (d : RunDescriptor) (h : Inner s t) : Inner s (t.applyEnabled r d) := by
  unfold State.applyEnabled
  split_ifs
  · exact mark _ (putRun _ _ h)
  · exact h
  · exact h
  · exact retire _ h

theorem acceptRun (r : Run) (d : RunDescriptor) (w : Record) (h : Inner s t) : Inner s (t.acceptRun r d w) :=
  raise _ _ _ _ (.runs _ (applyEnabled _ _ h))

/-! ### Commands -/

theorem clearRun (r : Run) (h : Inner s t) : Inner s (t.clearRun r).state := by
  unfold State.clearRun
  split
  · exact mark _ (putRun _ _ h)
  · exact h

theorem clearChannel (c : Chan) (h : Inner s t) : Inner s (t.clearChannel c).state := by
  unfold State.clearChannel
  split
  · exact goInService _ _ (clearWindow _ h)
  all_goals exact h

theorem clearDeficit (c : Chan) (h : Inner s t) : Inner s (t.clearDeficit c).state :=
  mark _ (.chan c _ h ⟨id, id⟩)

theorem setServiceIn (c : Chan) (h : Inner s t) : Inner s (t.setServiceIn c).state := by
  unfold State.setServiceIn
  split
  · exact goInService _ _ h
  all_goals exact h

theorem setServiceOut (c : Chan) (h : Inner s t) : Inner s (t.setServiceOut c).state := by
  unfold State.setServiceOut
  split
  · exact h
  · exact h
  · exact goOutOfService _ _ h
  · exact goOutOfService _ _ (endCalibration _ _ _ _ h)
  · exact goOutOfService _ _ (clearWindow _ h)

theorem calibrate (c : Chan) (k : Nat) (h : Inner s t) : Inner s (t.calibrate c k).state := by
  unfold State.calibrate
  split
  · exact h
  · exact tryBegin _ (putChan c _ h ⟨id, id⟩)
  all_goals exact h

theorem unbindRun (r : Run) (h : Inner s t) : Inner s (t.unbindRun r).state := by
  unfold State.unbindRun
  split
  · exact unbind _ _ _ h
  · exact h

theorem onRun (a : Word) {f : Run → State → CommandResult} (hf : ∀ r, Inner s (f r t).state) (h : Inner s t) :
    Inner s (t.onRun a f).state := by
  unfold State.onRun
  split
  · exact h
  · exact hf _

theorem onChan (a : Word) {f : Chan → State → CommandResult} (hf : ∀ c, Inner s (f c t).state) (h : Inner s t) :
    Inner s (t.onChan a f).state := by
  unfold State.onChan
  split
  · exact h
  · exact hf _

theorem ownOutcome (x : CommandFields) (h : Inner s t) : Inner s (t.ownOutcome x).state := by
  unfold State.ownOutcome
  split
  · exact onRun _ (fun r => clearRun r h) h
  · exact onChan _ (fun c => clearChannel c h) h
  · exact onChan _ (fun c => clearDeficit c h) h
  · exact clearCaptureHeader h
  · split
    · exact onChan _ (fun c => setServiceOut c h) h
    · exact onChan _ (fun c => setServiceIn c h) h
  · exact onChan _ (fun c => calibrate c _ h) h
  · exact onRun _ (fun r => unbindRun r h) h
  · exact onRun _ (fun r => releaseHistory r h) h
  · exact startDrain _ h
  · exact h

theorem decideOutcome (x : CommandFields) (h : Inner s t) : Inner s (t.decideOutcome x).state := by
  unfold State.decideOutcome
  split_ifs
  all_goals first | exact h | exact ownOutcome _ h

theorem executeCommand (x : CommandFields) (h : Inner s t) : Inner s (t.executeCommand x) := by
  unfold State.executeCommand
  exact raise _ _ _ _ (mark _ (.loader _ (decideOutcome x h) rfl rfl rfl rfl))

/-- An owner that accepts a record changes the state by such updates alone. -/
theorem decideRecord {k : Slot} {w : Record} {u : State} (hd : t.decideRecord k w = .accept u) (h : Inner s t) :
    Inner s u := by
  unfold State.decideRecord at hd
  split at hd
  · unfold State.handOff at hd
    split at hd
    · unfold State.decideTally at hd
      split at hd
      · cases hd
      · split at hd
        · cases hd; exact acceptTally _ _ _ h
        · cases hd
    · unfold State.decideRun at hd
      split at hd
      · cases hd
      · cases hd; exact acceptRun _ _ _ h
    · unfold State.decideChannel at hd
      split at hd
      · cases hd
      · split at hd
        · cases hd
        · cases hd; exact acceptChannel _ _ _ h
    · split at hd
      · unfold State.decideStation at hd
        split at hd
        · cases hd
        · split at hd
          · cases hd; exact acceptStation _ _ h
          · cases hd
      · unfold State.decideCommand at hd
        split at hd
        · cases hd
        · cases hd; exact executeCommand _ h
  · cases hd

/-! ### Load Controller -/

theorem latchOutOfService (c : Chan) (h : Inner s t) : Inner s (t.latchOutOfService c) := by
  unfold State.latchOutOfService
  split
  · exact latch _ h
  all_goals exact h

theorem latchDeficit (c : Chan) (h : Inner s t) : Inner s (t.latchDeficit c) := by
  unfold State.latchDeficit
  split
  · exact latch _ h
  · exact h

theorem useRecord (k : Slot) (w : Record) (h : Inner s t) : Inner s (t.useRecord k w) := by
  unfold State.useRecord
  split_ifs
  · exact .loader _ (.station _ h) rfl rfl rfl rfl
  · unfold State.loadStatus
    split_ifs
    · split
      · exact h
      · exact .report _ h rfl rfl rfl fun _ h => h
    · exact h
  · unfold State.loadCapture
    split_ifs
    · split
      · exact h
      · exact latch _ (.verifier _ h (List.Sublist.refl _) rfl)
    · exact h
  · split
    · unfold State.loadChannel
      split_ifs
      · split
        · exact h
        · exact latchOutOfService _ (putChan _ _ h ⟨id, id⟩)
      · exact h
    · unfold State.loadRun
      split_ifs
      · split
        · exact h
        · exact putRun _ _ (.runs _ h)
      · exact h
    · split
      · unfold State.loadChannelReport
        split
        · exact h
        · split_ifs
          · split
            · exact h
            · rename_i x hx
              refine tryBegin _ (latchDeficit _ (evalRestrict _ (countCrossings _ _ (putChan _ _ h ⟨id, fun _ => ?_⟩))))
              simpa [DemandBounded, Channel.restored] using readChannelReport_bounds hx
          · exact h
      · unfold State.loadRunReport
        split_ifs
        · split
          · exact h
          · exact putRun _ _ h
        · exact h
      · split
        · unfold State.scanTally
          split
          · exact h
          · split_ifs
            · exact .loader _ h rfl rfl rfl rfl
            · exact h
        · exact h

theorem marks {α : Type} (l : List α) (f : α → PartSlot) :
    ∀ {t : State}, Inner s t → Inner s (l.foldl (fun s a => s.mark (f a)) t) := by
  induction l with
  | nil => exact fun h => h
  | cons a l ih => exact fun h => ih (mark _ h)

theorem markReports (h : Inner s t) : Inner s t.markReports := marks _ _ (marks _ _ (mark _ h))

theorem loadResult (h : Inner s t) : Inner s t.loadResult := by
  unfold State.loadResult
  split
  · exact mark _ (.loader _ h rfl rfl rfl rfl)
  · exact mark _ (.loader _ h rfl rfl rfl rfl)
  · exact h

theorem enterFallback (h : Inner s t) : Inner s t.enterFallback := by
  unfold State.enterFallback
  refine setDevice _ (.chans _ (latch _ (raise _ _ _ _ h)) fun x => ?_)
  unfold Channel.startBaseTimer
  split <;> exact ⟨id, id⟩

theorem completeLoad (h : Inner s t) : Inner s t.completeLoad := by
  unfold State.completeLoad
  have h1 := raise .loadDone t.lc.cause.code t.lc.scan.bound t.lc.scan.valid
    (markReports (loadResult (.runs (t := t) { t.rt with
      slots := t.lc.scan.claims (t.uptime + t.historyHold), runs := Vector.ofFn fun r => t.scannedRun r } h)))
  dsimp only
  refine .loader _ ?_ rfl rfl rfl rfl
  split
  · exact enterFallback h1
  · exact setDevice _ h1

/-- What the Load Controller does with a record it requested. -/
theorem takeLoad (k : Slot) (w : Record) (h : Inner s t) : Inner s (t.takeLoad k w) := by
  unfold State.takeLoad State.nextLoad
  split
  · exact completeLoad (useRecord _ _ h)
  · exact .loader _ (useRecord _ _ h) rfl rfl rfl rfl

theorem startReload (h : Inner s t) : Inner s t.startReload := by
  unfold State.startReload
  simp only [List.finRange, List.ofFn, Fin.foldr, Fin.foldr.loop, List.foldl]
  exact reloadChannel _ (reloadChannel _ (reloadChannel _ (reloadChannel _
    (setDevice _ (.loader { t.lc with loadSlot := some 0, scan := Scan.empty, fallbackReason := 0 }
      (.runs RunTable.reset h) rfl rfl rfl rfl)))))

/-! ### Timers and field inputs -/

theorem assemblyExpiry {k : Slot} {u : State} (e : t.assemblyExpiry k = some u) (h : Inner s t) : Inner s u := by
  unfold State.assemblyExpiry at e
  split at e
  · cases e
  · cases e; exact raise _ _ _ _ (latch _ (discardAssembly _ (elapseTo _ h)))

theorem historyExpiry {k : TallySlot} {u : State} (e : t.historyExpiry k = some u) (h : Inner s t) : Inner s u := by
  unfold State.historyExpiry at e
  split at e
  · cases e; exact mark _ (putRun _ _ (setClaim _ _ (elapseTo _ h)))
  all_goals cases e

theorem stalenessExpiry {r : Run} {u : State} (e : t.stalenessExpiry r = some u) (h : Inner s t) : Inner s u := by
  unfold State.stalenessExpiry at e
  split at e
  · cases e; exact latch _ (mark _ (raise _ _ _ _ (putRun _ _ (elapseTo _ h))))
  · cases e

theorem horizonExpiry {r : Run} {u : State} (e : t.horizonExpiry r = some u) (h : Inner s t) : Inner s u := by
  unfold State.horizonExpiry at e
  split at e
  · cases e; exact latch _ (mark _ (raise _ _ _ _ (putRun _ _ (elapseTo _ h))))
  · cases e

theorem substitutionStep {r : Run} {u : State} (e : t.substitutionStep r = some u) (h : Inner s t) : Inner s u := by
  unfold State.substitutionStep at e
  split at e
  · cases e
    unfold State.takeStep
    split
    · exact setRun _ _ (elapseTo _ h)
    · exact substitute _ _ (setRun _ _ (elapseTo _ h))
  · cases e

theorem basePeriodExpiry {c : Chan} {u : State} (e : t.basePeriodExpiry c = some u) (h : Inner s t) : Inner s u := by
  unfold State.basePeriodExpiry at e
  split at e
  · cases e; exact demandStroke _ (.chan _ _ (elapseTo _ h) ⟨id, id⟩)
  · cases e

theorem precheckExpiry {c : Chan} {b : Bool} {u : State} (e : t.precheckExpiry c b = some u) (h : Inner s t) :
    Inner s u := by
  unfold State.precheckExpiry at e
  split at e
  · cases e
    split
    · exact missStroke _ _ (elapseTo _ h)
    · refine putChan _ _ (elapseTo _ h) ⟨fun _ => by simp [OutputsFollow, Sequencer.drive], fun h => ?_⟩
      unfold Channel.openWindow
      split <;> exact h
  all_goals cases e

theorem driveExpiry {c : Chan} {u : State} (e : t.driveExpiry c = some u) (h : Inner s t) : Inner s u := by
  unfold State.driveExpiry at e
  split at e
  · rename_i hp
    cases e
    unfold State.endDrive
    split_ifs
    · exact afterOutcome _ (elapseTo _ h)
    · refine putChan _ _ (elapseTo _ h) ⟨fun h => ?_, id⟩
      simp only [OutputsFollow, Sequencer.toProof, State.elapseTo_chan, hp] at h ⊢
      simp [h]
    · exact missStroke _ _ (elapseTo _ h)
  all_goals cases e

theorem proofWindowExpiry {c : Chan} {u : State} (e : t.proofWindowExpiry c = some u) (h : Inner s t) : Inner s u := by
  unfold State.proofWindowExpiry at e
  split at e
  · cases e; exact missStroke _ _ (elapseTo _ h)
  all_goals cases e

theorem endRest (c : Chan) (h : Inner s t) : Inner s (t.endRest c) := by
  have h1 := putChan c { t.chan c with seq := Sequencer.idle } h
    ⟨fun _ => by simp [OutputsFollow, Sequencer.idle], id⟩
  unfold State.endRest
  dsimp only
  refine tryBegin _ ?_
  split
  · exact completeCalibration _ h1
  · exact h1

theorem restExpiry {c : Chan} {u : State} (e : t.restExpiry c = some u) (h : Inner s t) : Inner s u := by
  unfold State.restExpiry at e
  split at e
  · cases e; exact endRest _ (elapseTo _ h)
  all_goals cases e

theorem proofClosure {c : Chan} {u : State} (e : t.proofClosure c = some u) (h : Inner s t) : Inner s u := by
  unfold State.proofClosure at e
  by_cases hq : (t.chan c).seq.awaitsProof = true
  · rw [if_pos hq] at e
    obtain rfl := Option.some.inj e
    exact proveStroke _ h
  · rw [if_neg hq] at e
    cases e

theorem meterPulse {c : Chan} {u : State} (e : t.meterPulse c = some u) (h : Inner s t) : Inner s u := by
  unfold State.meterPulse at e
  split at e
  · cases e
  · cases e
  · cases e; exact putChan _ _ h ⟨id, id⟩

theorem statusReadDone (p : Pos) (v : Word) (h : Inner s t) : Inner s (t.statusReadDone p v) := by
  unfold State.statusReadDone
  split
  · exact h
  · dsimp only
    split
    · exact evalAttention h
    · rename_i w _ _
      rw [State.markCleared_eq]
      generalize ((t.dropFlags w (t.clearedBy w v)).markCleared w (t.clearedBy w v)).ru.dirty = d
      exact flags (t := t)
        (State.mark .status { t with ru := { (t.dropFlags w (t.clearedBy w v)).ru with dirty := d } }).ru h rfl
        fun _ h => h

end Inner
end Sys2Proof.Machine
end

