-- ==== Sys2Proof/Laws/Memory.lean ====
section
/-! SUPPORT. The record memory: what a write changes, and that every memory operation keeps the canonical form. -/

namespace Sys2Proof.Machine

/-! ### Canonical form -/

theorem memWfFrom_mono {m : List Host.Cell} : ∀ {low low' : Nat}, low' ≤ low → memWfFrom low m = true → memWfFrom low' m = true := by
  cases m with
  | nil => intros; rfl
  | cons x rest =>
    obtain ⟨k, b⟩ := x
    intro low low' h hw
    simp only [memWfFrom, Bool.and_eq_true, decide_eq_true_eq] at hw ⊢
    exact ⟨⟨⟨by omega, hw.1.1.2⟩, hw.1.2⟩, hw.2⟩

theorem memWfFrom_cons {low k : Nat} {b : Byte} {rest : List Host.Cell} (h1 : low ≤ k) (h2 : k < 2 ^ 21)
    (h3 : b ≠ Config.priorByte) (h4 : memWfFrom (k + 1) rest = true) : memWfFrom low ((k, b) :: rest) = true := by
  simp only [memWfFrom, Bool.and_eq_true, decide_eq_true_eq]
  exact ⟨⟨⟨h1, h2⟩, h3⟩, h4⟩

theorem memWfFrom_setByte {a : Nat} {v : Byte} (ha : a < 2 ^ 21) :
    ∀ {m : List Host.Cell} {low : Nat}, low ≤ a → memWfFrom low m = true → memWfFrom low (setByte m a v) = true
  | [], low, hl, _ => by
    unfold setByte; split
    · rfl
    · rename_i hv; exact memWfFrom_cons hl ha hv rfl
  | (k, b) :: rest, low, hl, hw => by
    simp only [memWfFrom, Bool.and_eq_true, decide_eq_true_eq] at hw
    obtain ⟨⟨⟨h1, h2⟩, h3⟩, h4⟩ := hw
    unfold setByte
    split
    · rename_i hak
      split
      · exact memWfFrom_cons h1 h2 h3 h4
      · rename_i hv
        have : a + 1 ≤ k := by omega
        exact memWfFrom_cons hl ha hv (memWfFrom_cons this h2 h3 h4)
    · rename_i hak
      split
      · rename_i hk
        split
        · exact memWfFrom_mono (by omega) h4
        · rename_i hv
          subst hk
          exact memWfFrom_cons hl ha hv h4
      · rename_i hk
        have := memWfFrom_setByte ha (v := v) (m := rest) (low := k + 1) (by omega) h4
        exact memWfFrom_cons h1 h2 h3 this

/-- Setting a byte keeps the canonical form. -/
theorem Memory.wf_setByte {m : List Host.Cell} {a : Nat} {v : Byte} (ha : a < 2 ^ 21) (h : Memory.wf m = true) :
    Memory.wf (setByte m a v) = true := memWfFrom_setByte ha (Nat.zero_le a) h

theorem upperKey_lt (a : Addr) : upperKey a < 2 ^ 21 := by have := a.isLt; unfold upperKey; omega

theorem lowerKey_lt (a : Addr) : lowerKey a < 2 ^ 21 := by have := a.isLt; unfold lowerKey; omega

/-- A write keeps the canonical form, on either lane or both. -/
theorem Memory.wf_writeWord {m : List Host.Cell} {a : Addr} {v : Word} {lanes : Lanes} (h : Memory.wf m = true) :
    Memory.wf (writeWord m a v lanes) = true := by
  cases lanes
  · exact wf_setByte (lowerKey_lt a) (wf_setByte (upperKey_lt a) h)
  · exact wf_setByte (upperKey_lt a) h
  · exact wf_setByte (lowerKey_lt a) h

/-- Memory with nothing listed is in canonical form. -/
theorem Memory.wf_nil : Memory.wf [] = true := rfl

/-! ### What a write changes -/

theorem memByte_eq_prior {m : List Host.Cell} : ∀ {low a : Nat}, memWfFrom low m = true → a < low →
    memByte m a = Config.priorByte := by
  induction m with
  | nil => intros; rfl
  | cons x rest ih =>
    obtain ⟨k, b⟩ := x
    intro low a hw ha
    simp only [memWfFrom, Bool.and_eq_true, decide_eq_true_eq] at hw
    have hk : k ≠ a := by omega
    simp only [memByte, hk, if_false]
    exact ih hw.2 (by omega)

theorem memByte_setByte_from {a : Nat} {v : Byte} {a' : Nat} :
    ∀ {m : List Host.Cell} {low : Nat}, memWfFrom low m = true →
      memByte (setByte m a v) a' = if a' = a then v else memByte m a'
  | [], _, _ => by
    unfold setByte
    by_cases h : a' = a
    · subst h; split <;> simp_all [memByte]
    · have : a ≠ a' := fun h' => h h'.symm
      split <;> simp [memByte, this]
  | (k, b) :: rest, low, hw => by
    simp only [memWfFrom, Bool.and_eq_true, decide_eq_true_eq] at hw
    obtain ⟨⟨⟨h1, h2⟩, h3⟩, h4⟩ := hw
    unfold setByte
    by_cases hlt : a < k
    · simp only [hlt, if_true]
      by_cases hv : v = Config.priorByte
      · simp only [hv, if_true]
        by_cases h : a' = a
        · subst h
          have hk : k ≠ a' := by omega
          simp only [memByte, hk, if_false, if_true]
          exact memByte_eq_prior h4 (by omega)
        · simp [h]
      · simp only [hv, if_false]
        by_cases h : a' = a
        · subst h; simp [memByte]
        · have : a ≠ a' := fun h' => h h'.symm
          simp [memByte, h, this]
    · simp only [hlt, if_false]
      by_cases hak : a = k
      · subst hak
        simp only [if_true]
        by_cases hv : v = Config.priorByte
        · simp only [hv, if_true]
          by_cases h : a' = a
          · subst h
            simp only [if_true]
            exact memByte_eq_prior h4 (by omega)
          · have : a ≠ a' := fun h' => h h'.symm
            simp [memByte, h, this]
        · simp only [hv, if_false]
          by_cases h : a' = a
          · subst h; simp [memByte]
          · have : a ≠ a' := fun h' => h h'.symm
            simp [memByte, h, this]
      · simp only [hak, if_false]
        have ih := memByte_setByte_from (a := a) (v := v) (a' := a') h4
        by_cases hk : k = a'
        · subst hk
          have : k ≠ a := fun h' => hak h'.symm
          simp [memByte, this]
        · simp only [memByte, hk, if_false, ih]

/-- In canonical memory, setting a byte sets that byte alone. -/
theorem memByte_setByte {m : List Host.Cell} (h : Memory.wf m = true) (a : Nat) (v : Byte) (a' : Nat) :
    memByte (setByte m a v) a' = if a' = a then v else memByte m a' := memByte_setByte_from h

theorem upperKey_inj {a b : Addr} : upperKey a = upperKey b ↔ a = b := by
  unfold upperKey; constructor
  · intro h; exact BitVec.eq_of_toNat_eq (by omega)
  · intro h; rw [h]

theorem lowerKey_inj {a b : Addr} : lowerKey a = lowerKey b ↔ a = b := by
  unfold lowerKey; constructor
  · intro h; exact BitVec.eq_of_toNat_eq (by omega)
  · intro h; rw [h]

theorem upperKey_ne_lowerKey (a b : Addr) : upperKey a ≠ lowerKey b := by unfold upperKey lowerKey; omega

@[simp] theorem hiByte_joinBytes (x y : Byte) : hiByte (joinBytes x y) = x := by
  unfold hiByte joinBytes
  ext i hi
  have h8 : ¬(8 + i < 8) := by omega
  simp only [BitVec.getElem_extractLsb', BitVec.getLsbD_append, h8, Nat.add_sub_cancel_left]
  exact BitVec.getLsbD_eq_getElem hi

@[simp] theorem loByte_joinBytes (x y : Byte) : loByte (joinBytes x y) = y := by
  unfold loByte joinBytes
  ext i hi
  simp only [BitVec.getElem_extractLsb', BitVec.getLsbD_append, Nat.zero_add, hi]
  exact BitVec.getLsbD_eq_getElem hi

theorem joinBytes_bytes (v : Word) : joinBytes (hiByte v) (loByte v) = v := by
  unfold joinBytes hiByte loByte
  ext i hi
  simp only [BitVec.getElem_append, BitVec.getElem_extractLsb']
  split
  · simp [BitVec.getLsbD_eq_getElem hi]
  · have : 8 + (i - 8) = i := by omega
    simp [this, BitVec.getLsbD_eq_getElem hi]

/-- The bytes after a write of a word on its lanes (R18). -/
theorem memByte_writeWord {m : List Host.Cell} (h : Memory.wf m = true) (a : Addr) (v : Word) (l : Lanes) (k : Nat) :
    memByte (writeWord m a v l) k =
      if k = upperKey a then (if l = .lower then memByte m k else hiByte v)
      else if k = lowerKey a then (if l = .upper then memByte m k else loByte v) else memByte m k := by
  have h1 := Memory.wf_setByte (v := hiByte v) (upperKey_lt a) h
  have hne := upperKey_ne_lowerKey a a
  cases l <;> simp only [writeWord, memByte_setByte h1, memByte_setByte h]
  · by_cases e1 : k = upperKey a <;> by_cases e2 : k = lowerKey a <;> simp_all
  · by_cases e1 : k = upperKey a <;> by_cases e2 : k = lowerKey a <;> simp_all
  · by_cases e1 : k = upperKey a <;> by_cases e2 : k = lowerKey a <;> simp_all

/-- In canonical memory, a two-lane write sets that word alone (R18). -/
theorem readWord_writeWord_both {m : List Host.Cell} (h : Memory.wf m = true) (a : Addr) (v : Word) (b : Addr) :
    readWord (writeWord m a v .both) b = if b = a then v else readWord m b := by
  have h1 := Memory.wf_setByte (v := hiByte v) (upperKey_lt a) h
  unfold readWord writeWord
  simp only [memByte_setByte h1, memByte_setByte h, upperKey_inj, lowerKey_inj, upperKey_ne_lowerKey,
    (upperKey_ne_lowerKey _ _).symm, if_false]
  split
  · exact joinBytes_bytes v
  · rfl

/-- In canonical memory, an upper-lane write sets the upper byte of that word alone (R18). -/
theorem readWord_writeWord_upper {m : List Host.Cell} (h : Memory.wf m = true) (a : Addr) (v : Word) (b : Addr) :
    readWord (writeWord m a v .upper) b = if b = a then joinBytes (hiByte v) (loByte (readWord m a)) else readWord m b := by
  unfold writeWord readWord
  simp only [memByte_setByte h, upperKey_inj, (upperKey_ne_lowerKey _ _).symm, if_false, loByte_joinBytes]
  split
  · rename_i hb; subst hb; rfl
  · rfl

/-- In canonical memory, a lower-lane write sets the lower byte of that word alone (R18). -/
theorem readWord_writeWord_lower {m : List Host.Cell} (h : Memory.wf m = true) (a : Addr) (v : Word) (b : Addr) :
    readWord (writeWord m a v .lower) b = if b = a then joinBytes (hiByte (readWord m a)) (loByte v) else readWord m b := by
  unfold writeWord readWord
  simp only [memByte_setByte h, lowerKey_inj, upperKey_ne_lowerKey, if_false, hiByte_joinBytes]
  split
  · rename_i hb; subst hb; rfl
  · rfl

end Sys2Proof.Machine
end

