-- ==== Sys2Proof/Laws/Port.lean ====
section
/-! SUPPORT. The memory side of the port: what the Memory Agent's choice and the Port Arbiter's grant leave as they
were, and what each event at the port does to memory, the pool, the event queue, the attention line and the channels. -/

namespace Sys2Proof.Machine

open Sys2Proof.Safety

/-! ### Settling -/

/-- What the Memory Agent's choice and the grant leave: everything but the port, the current item, the pass-over count,
the dirty marks, the pending set and the progress of the controller's cycle. -/
structure Settled (s t : State) : Prop where
  pending : t.pending = s.pending
  uptime : t.uptime = s.uptime
  lc : t.lc = s.lc
  rv : t.rv = s.rv
  rt : t.rt = s.rt
  channels : t.channels = s.channels
  mem : t.mem = s.mem
  freeUsed : t.freeUsed = s.freeUsed
  latched : t.ru.latched = s.ru.latched
  shown : t.ru.shown = s.ru.shown
  events : t.ru.events = s.ru.events
  dropped : t.ru.dropped = s.ru.dropped
  ringNext : t.ru.ringNext = s.ru.ringNext
  attention : t.ru.attention = s.ru.attention
  readData : t.cp.readData = s.cp.readData
  cycle : (t.cp.cycle.map fun x => (x.addr, x.op)) = s.cp.cycle.map fun x => (x.addr, x.op)

namespace Settled

theorem refl (s : State) : Settled s s := by constructor <;> rfl

theorem trans {s t u : State} (h : Settled s t) (k : Settled t u) : Settled s u where
  pending := k.pending.trans h.pending
  uptime := k.uptime.trans h.uptime
  lc := k.lc.trans h.lc
  rv := k.rv.trans h.rv
  rt := k.rt.trans h.rt
  channels := k.channels.trans h.channels
  mem := k.mem.trans h.mem
  freeUsed := k.freeUsed.trans h.freeUsed
  latched := k.latched.trans h.latched
  shown := k.shown.trans h.shown
  events := k.events.trans h.events
  dropped := k.dropped.trans h.dropped
  ringNext := k.ringNext.trans h.ringNext
  attention := k.attention.trans h.attention
  readData := k.readData.trans h.readData
  cycle := k.cycle.trans h.cycle

theorem startItem (s : State) (k : ItemKind) (n : Slot) (w : Record) : Settled s (s.startItem k n w) := by
  constructor <;> rfl

theorem startRewrite (s : State) (k : PartSlot) : Settled s (s.startRewrite k) := by
  unfold State.startRewrite State.takePending
  split <;> constructor <;> rfl

theorem takeItem (s : State) : Settled s s.takeItem := by
  have hw : Settled s s.takeWork := by
    unfold State.takeWork
    split
    · exact startItem _ _ _ _
    · split_ifs
      · exact refl s
      · split
        · exact startItem _ _ _ _
        · split
          · exact startRewrite _ _
          · exact refl s
  have hl : Settled s s.takeLoading := by
    unfold State.takeLoading
    split
    · exact startItem _ _ _ _
    · split
      · exact startItem _ _ _ _
      · exact refl s
  unfold State.takeItem
  split
  · exact refl s
  · unfold State.chooseItem
    split
    · exact hl
    all_goals exact hw

theorem grantController {s : State} {x : CpCycle} (h : s.controllerRequest = some x) : Settled s (s.grantController x) := by
  have hx : s.cp.cycle = some x := by
    unfold State.controllerRequest at h
    split at h
    · cases h
    · split at h
      · rename_i hc _; rw [hc]; exact h
      · cases h
  constructor <;> try rfl
  simp [State.grantController, hx]

theorem arbitrate (s : State) : Settled s s.arbitrate := by
  unfold State.arbitrate
  split
  · unfold State.decideGrant
    split
    · exact refl s
    · rename_i h _; exact grantController h
    · constructor <;> rfl
    · rename_i h _
      split
      · exact trans (by constructor <;> rfl) (grantController (s := { s with passOver := s.passOver + 1 }) h)
      · constructor <;> rfl
  · exact refl s

/-- The Memory Agent's choice and the grant leave everything else. -/
theorem settle (s : State) : Settled s s.settle := by
  unfold State.settle
  split
  · exact refl s
  · exact (takeItem s).trans (arbitrate _)

theorem chan {s t : State} (h : Settled s t) (c : Chan) : t.chan c = s.chan c := by simp [State.chan, h.channels]
theorem run {s t : State} (h : Settled s t) (r : Run) : t.run r = s.run r := by simp [State.run, h.rt]
theorem claim {s t : State} (h : Settled s t) (k : TallySlot) : t.claim k = s.claim k := by simp [State.claim, h.rt]
theorem count {s t : State} (h : Settled s t) : t.count = s.count := by simp [State.count, h.uptime]
theorem attentionDue {s t : State} (h : Settled s t) : t.attentionDue = s.attentionDue := by
  simp [State.attentionDue, State.attentionMask, h.lc, h.latched]

/-- The Report Unit keeps all but its marks and its pending set. -/
theorem ru {s t : State} (h : Settled s t) :
    t.ru = { s.ru with dirty := t.ru.dirty, pendingShown := t.ru.pendingShown } := by
  simp only [← h.latched, ← h.shown, ← h.events, ← h.dropped, ← h.ringNext, ← h.attention]

end Settled

/-- What follows the effect u of a command: the Memory Agent and the Port Arbiter go on, or, after the end of a controller
cycle, one free value is used and they go on, or the Memory Agent alone does (R24; log entry 26). -/
inductive After (u : State) : State → Prop
  | settle : After u u.settle
  | decided (hr : u.lc.resetAsserted = false) : After u ({ u with freeUsed := u.freeUsed + 1 } : State).settle
  | opened (hr : u.lc.resetAsserted = false) : After u ({ u with freeUsed := u.freeUsed + 1 } : State).takeItem

theorem After.settleAfter (agent : Bool) (u : State) : After u (u.settleAfter agent) := by
  unfold State.settleAfter State.settleContested
  split
  · exact .settle
  · split
    · rename_i h
      dsimp only
      split
      · exact .opened h.1
      · exact .decided h.1
    · exact .settle

/-- What follows leaves what `Settled` lists, but for the count of free values used. -/
theorem After.settled {u t : State} (h : After u t) : ∃ n, Settled { u with freeUsed := n } t := by
  cases h with
  | settle => exact ⟨u.freeUsed, .settle u⟩
  | decided => exact ⟨_, .settle _⟩
  | opened => exact ⟨_, .takeItem _⟩

/-! ### The pool -/

/-- A word-level refusal, a discard, an expiry: no entry appears and the commit queue stays. -/
theorem Inner.poolWf {s t : State} (h : Inner s t) (hs : PoolWf s) : PoolWf t := by
  obtain ⟨h1, h2⟩ := hs
  have ha := h.assembling
  have hc := h.port.2.2.2.2.2.2.2.1
  refine ⟨?_, h2.sublist (ha.map _)⟩
  have := ha.length_le
  simp only [Verifier.inUse, hc] at h1 ⊢
  omega

theorem Verifier.entry_slot {v : Verifier} {k : Slot} {e : Assembly} (h : v.entry k = some e) :
    e.slot = k ∧ e ∈ v.assembling := by
  have := List.find?_some h
  exact ⟨by simpa using this, List.mem_of_find?_eq_some h⟩

theorem Verifier.entry_none {v : Verifier} {k : Slot} (h : v.entry k = none) : k ∉ v.assembling.map (·.slot) := by
  simp only [List.mem_map, not_exists, not_and]
  intro e he hk
  have := List.find?_eq_none.mp h e he
  simp [hk] at this

/-- The state with its lists of pool entries' slots and the number of commits: what the pool invariant reads. -/
theorem discardAssembly_lt {s : State} {k : Slot} {e : Assembly} (h : s.rv.entry k = some e) :
    (s.discardAssembly k).rv.assembling.length < s.rv.assembling.length := by
  obtain ⟨h1, h2⟩ := Verifier.entry_slot h
  refine Nat.lt_of_le_of_ne (List.length_filter_le _ _) fun hh => ?_
  have := List.filter_eq_self.mp (List.filter_sublist.eq_of_length hh) e h2
  simp [h1] at this

/-- A record that completes leaves the pool within its bounds, where a place was freed for it. -/
theorem poolWf_completeRecord {s : State} {e : Assembly} {w : Record} (h : s.rv.inUse < Config.poolSize)
    (h2 : (s.rv.assembling.map (·.slot)).Nodup) : PoolWf (s.completeRecord e w) := by
  unfold State.completeRecord
  split
  · exact (Inner.refuseRecord _ _ _ (.refl s)).poolWf ⟨h.le, h2⟩
  · rename_i t ht
    have hi := Inner.decideRecord ht (.refl s)
    refine ⟨?_, h2.sublist (hi.assembling.map _)⟩
    have h3 := hi.assembling.length_le
    have h4 := hi.port.2.2.2.2.2.2.2.1
    simp only [State.joinCommits, Verifier.inUse, List.length_append, List.length_singleton, h4] at h ⊢
    omega

/-- Placing a word keeps the pool within its bounds (R33, R35). -/
theorem poolWf_placeWord {s : State} (hs : PoolWf s) (k : Slot) (p : Pos) (v : Word) : PoolWf (s.placeWord k p v) := by
  unfold State.placeWord
  split
  · rename_i e he
    obtain ⟨hk, hm⟩ := Verifier.entry_slot he
    unfold State.placeInEntry
    split
    · have hl : (((s.putEntry (e.store p v)).noteTaken).rv.assembling.map (·.slot)) = s.rv.assembling.map (·.slot) := by
        simp only [State.putEntry, State.noteTaken, List.map_map]
        refine List.map_congr_left fun x _ => ?_
        simp only [Function.comp]
        split
        · rename_i hx; exact hx.symm
        · rfl
      refine ⟨?_, by rw [hl]; exact hs.2⟩
      have hlen := congrArg List.length hl
      simp only [List.length_map] at hlen
      have := hs.1
      simp only [Verifier.inUse] at this ⊢
      rw [hlen]
      exact this
    · have hslot : (e.store p v).slot = k := hk
      have hlt := discardAssembly_lt he
      refine poolWf_completeRecord ?_ ?_
      · rw [hslot]
        have := hs.1
        simp only [Verifier.inUse] at this ⊢
        have e1 : ((s.noteTaken.discardAssembly k).rv.assembling.length) = (s.discardAssembly k).rv.assembling.length := rfl
        have e2 : ((s.noteTaken.discardAssembly k).rv.committing) = s.rv.committing := rfl
        rw [e1, e2]
        omega
      · exact hs.2.sublist (List.Sublist.map _ List.filter_sublist)
  · rename_i hn
    split
    · rename_i hlt
      refine ⟨?_, ?_⟩
      · simp only [State.openEntry, State.noteTaken, Verifier.inUse, List.length_append, List.length_singleton] at hlt ⊢
        omega
      · simp only [State.openEntry, State.noteTaken, List.map_append, List.map_cons, List.map_nil]
        refine List.nodup_append.mpr ⟨hs.2, List.nodup_singleton _, ?_⟩
        intro a ha b hb hab
        simp only [List.mem_singleton] at hb
        subst hb
        subst hab
        exact Verifier.entry_none hn ha
    · exact (Inner.refuseWord _ _ _ (.refl s)).poolWf hs

theorem poolWf_handWord {s : State} (hs : PoolWf s) (k : Slot) (p : Pos) (v : Word) : PoolWf (s.handWord k p v) := by
  unfold State.handWord
  split
  · exact poolWf_placeWord hs k p v
  · exact (Inner.refuseWord _ _ _ (.refl s)).poolWf hs

/-! ### Taking a word or refusing it changes nothing on the memory side -/

/-- The updates of the blocks, and changes of the pool's entries: what a controller write to the record area can do. -/
inductive Taken : State → State → Prop
  | inner {s t : State} (h : Inner s t) : Taken s t
  | pool {s t : State} (v : Verifier) (h : Taken s t) : Taken s { t with rv := v }
  | more {s t u : State} (h : Taken s t) (k : Inner t u) : Taken s u

namespace Taken

/-- The parts on the memory side of the port, the queue, the straps and the reset line stay as they were. -/
theorem port {s t : State} (h : Taken s t) :
    t.pending = s.pending ∧ t.cp = s.cp ∧ t.mp = s.mp ∧ t.passOver = s.passOver ∧ t.ma = s.ma ∧ t.mem = s.mem ∧
    t.freeUsed = s.freeUsed ∧ t.lc.resetAsserted = s.lc.resetAsserted ∧ t.lc.baseSelect = s.lc.baseSelect ∧
    t.lc.stationCode = s.lc.stationCode := by
  induction h with
  | inner h => have := h.port; tauto
  | pool v _ ih => simpa using ih
  | more _ k ih =>
    obtain ⟨a1, a2, a3, a4, a5, a6, a7, a8, a9, a10, a11⟩ := k.port
    obtain ⟨b1, b2, b3, b4, b5, b6, b7, b8, b9, b10⟩ := ih
    exact ⟨a1.trans b1, a2.trans b2, a3.trans b3, a4.trans b4, a5.trans b5, a6.trans b6, a7.trans b7, a9.trans b8,
      a10.trans b9, a11.trans b10⟩

theorem queueWf {s t : State} (h : Taken s t) (hs : QueueWf s) : QueueWf t := by
  induction h with
  | inner h => exact h.queueWf hs
  | pool v _ ih => exact ih
  | more _ k ih => exact k.queueWf ih

/-- No flag joins the pending set (R158). -/
theorem pendingShown {s t : State} (h : Taken s t) (f : Flag) (hf : t.ru.pendingShown.has f = true) :
    s.ru.pendingShown.has f = true := by
  induction h with
  | inner h => exact h.pendingShown f hf
  | pool v _ ih => exact ih hf
  | more _ k ih => exact ih (k.pendingShown f hf)

theorem attention {s t : State} (h : Taken s t) (hs : s.ru.attention = s.attentionDue) :
    t.ru.attention = t.attentionDue := by
  induction h with
  | inner h => exact h.attention hs
  | pool v _ ih => exact ih
  | more _ k ih => exact k.attention ih

theorem channel {s t : State} (h : Taken s t) (c : Chan) : ChanStep (s.chan c) (t.chan c) := by
  induction h with
  | inner h => exact h.channel c
  | pool v _ ih => exact ih
  | more _ k ih => exact ⟨fun h => (k.channel c).outputs (ih.outputs h), fun h => (k.channel c).demand (ih.demand h)⟩

theorem completeRecord {s t : State} (e : Assembly) (w : Record) (h : Taken s t) : Taken s (t.completeRecord e w) := by
  unfold State.completeRecord
  split
  · exact h.more (Inner.refuseRecord _ _ _ (.refl t))
  · rename_i u hu
    exact .pool _ (h.more (Inner.decideRecord hu (.refl t)))

theorem handWord (s : State) (k : Slot) (p : Pos) (v : Word) : Taken s (s.handWord k p v) := by
  have h0 : Taken s s := .inner (.refl s)
  unfold State.handWord
  split
  · unfold State.placeWord
    split
    · unfold State.placeInEntry
      split
      · exact .pool _ (.pool _ h0)
      · exact completeRecord _ _ (.pool _ (.pool _ h0))
    · split
      · exact .pool _ (.pool _ h0)
      · exact .inner (Inner.refuseWord _ _ _ (.refl s))
  · exact .inner (Inner.refuseWord _ _ _ (.refl s))

end Taken

theorem Inner.refuseAtPort (n : Nat) (k : Slot) (p : Pos) {s t : State} (h : Inner s t) :
    Inner s (t.refuseAtPort n k p) := by
  unfold State.refuseAtPort
  split
  · exact discardAssembly _ (refuseWord _ _ _ h)
  · exact refuseWord _ _ _ h

end Sys2Proof.Machine
end

