-- ==== Sys2Proof/Laws/Reports.lean ====
section
/-! SUPPORT. What the blocks report: `Effects s t es fs ks` says that t comes from s with the events es raised in this
order, the flags fs latched and the part records ks marked, and that nothing else of the Report Unit's latches, counts
and queue changes. One lemma for each operation; `Effects.settle` gives the form the statements use. -/

namespace Sys2Proof.Machine

open Sys2Proof.Safety

/-! ### Flags and their bits -/

theorem StationFlag.bit_lt (f : StationFlag) : f.bit < 16 := by cases f <;> decide
theorem ChannelFlag.bit_lt (f : ChannelFlag) : f.bit < 8 := by cases f <;> decide
theorem StationFlag.bit_inj {f g : StationFlag} (h : f.bit = g.bit) : f = g := by
  cases f <;> cases g <;> first | rfl | (revert h; decide)
theorem ChannelFlag.bit_inj {f g : ChannelFlag} (h : f.bit = g.bit) : f = g := by
  cases f <;> cases g <;> first | rfl | (revert h; decide)
theorem RunFlag.word_inj {f g : RunFlag} (h : f.word = g.word) : f = g := by
  cases f <;> cases g <;> first | rfl | (revert h; decide)

theorem Flag.bit_lt (f : Flag) : f.bit < 16 := by
  cases f with
  | station f => exact f.bit_lt
  | channel c f =>
    have := f.bit_lt
    simp only [Flag.bit, channelShift]
    split <;> omega
  | run f r => simp only [Flag.bit]; omega

/-- A flag is known by its word and bit. -/
theorem Flag.ext_place {f g : Flag} (hw : f.word = g.word) (hb : f.bit = g.bit) : f = g := by
  cases f with
  | station f =>
    cases g with
    | station g => rw [StationFlag.bit_inj hb]
    | channel c g => exact absurd (congrArg Fin.val hw) (by simp [Flag.word, channelFlagWord]; omega)
    | run g r => exact absurd hw (by cases g <;> simp [Flag.word, RunFlag.word])
  | channel c f =>
    cases g with
    | station g => exact absurd (congrArg Fin.val hw) (by simp [Flag.word, channelFlagWord])
    | channel d g =>
      have hw' := congrArg Fin.val hw
      have hf := f.bit_lt
      have hg := g.bit_lt
      simp only [Flag.word, Flag.bit, channelFlagWord, channelShift] at hw' hb
      have hc : c = d := by
        apply Fin.ext
        split at hb <;> split at hb <;> omega
      subst hc
      have hfg : f.bit = g.bit := by omega
      rw [ChannelFlag.bit_inj hfg]
    | run g r =>
      have hw' := congrArg Fin.val hw
      cases g <;> simp [Flag.word, channelFlagWord, RunFlag.word] at hw' <;> omega
  | run f r =>
    cases g with
    | station g => exact absurd hw (by cases f <;> simp [Flag.word, RunFlag.word])
    | channel c g =>
      have hw' := congrArg Fin.val hw
      cases f <;> simp [Flag.word, channelFlagWord, RunFlag.word] at hw' <;> omega
    | run g q => rw [RunFlag.word_inj hw, Fin.ext hb]

theorem Flag.mask_getLsbD (f : Flag) (i : Nat) : f.mask.getLsbD i = decide (i = f.bit) := by
  have hb := f.bit_lt
  simp only [Flag.mask, BitVec.getLsbD_shiftLeft, BitVec.getLsbD_one]
  by_cases h : i = f.bit
  · simp [h, hb]
  · by_cases h1 : i < f.bit
    · simp [h, h1]
    · have : i - f.bit ≠ 0 := by omega
      simp [h, h1, this]

theorem FlagWords.has_add (w : FlagWords) (f g : Flag) : (w.add f).has g = (w.has g || decide (g = f)) := by
  simp only [FlagWords.has, FlagWords.add]
  by_cases hw : f.word = g.word
  · have e : (w.set f.word.val (w[f.word] ||| f.mask))[g.word] = w[g.word] ||| f.mask := by
      simp [hw]
    rw [e, BitVec.getLsbD_or, Flag.mask_getLsbD]
    by_cases hb : g.bit = f.bit
    · simp [Flag.ext_place hw hb.symm]
    · have : g ≠ f := fun h => hb (by rw [h])
      simp [hb, this]
  · have hv : f.word.val ≠ g.word.val := fun h => hw (Fin.ext h)
    have e : (w.set f.word.val (w[f.word] ||| f.mask))[g.word] = w[g.word] := by simp [hv]
    have : g ≠ f := fun h => hw (by rw [h])
    rw [e]; simp [this]

theorem FlagWords.has_remove (w : FlagWords) (f g : Flag) : (w.remove f).has g = (w.has g && !decide (g = f)) := by
  simp only [FlagWords.has, FlagWords.remove]
  by_cases hw : f.word = g.word
  · have e : (w.set f.word.val (w[f.word] &&& ~~~f.mask))[g.word] = w[g.word] &&& ~~~f.mask := by
      simp [hw]
    have hg := g.bit_lt
    rw [e, BitVec.getLsbD_and, BitVec.getLsbD_not, Flag.mask_getLsbD]
    by_cases hb : g.bit = f.bit
    · simp [Flag.ext_place hw hb.symm, hg]
    · have : g ≠ f := fun h => hb (by rw [h])
      simp [hb, this, hg]
  · have hv : f.word.val ≠ g.word.val := fun h => hw (Fin.ext h)
    have e : (w.set f.word.val (w[f.word] &&& ~~~f.mask))[g.word] = w[g.word] := by simp [hv]
    have : g ≠ f := fun h => hw (by rw [h])
    rw [e]; simp [this]

/-! ### Effects -/

/-- What an operation reports, before the Memory Agent and the Port Arbiter go on. -/
structure Effects (s t : State) (es : List EventRecord) (fs : List Flag) (ks : List PartSlot) : Prop where
  station : t.lc.station = s.lc.station
  reset : t.lc.resetAsserted = s.lc.resetAsserted
  events : t.ru.events = queueAfter s es
  dropped : t.ru.dropped = droppedAfter s es
  latched : ∀ f, t.ru.latched.has f = (s.ru.latched.has f || decide (f ∈ latching s es fs))
  shown : ∀ f, t.ru.shown.has f = (s.ru.shown.has f && !decide (f ∈ latching s es fs))
  pendingShown : ∀ f, t.ru.pendingShown.has f = (s.ru.pendingShown.has f && !decide (f ∈ latching s es fs))
  ringNext : t.ru.ringNext = s.ru.ringNext
  attention : s.ru.attention = s.attentionDue → t.ru.attention = t.attentionDue
  marks : ∀ k : PartSlot, t.ru.dirty[k] = true ↔ Marked s es fs ks k

theorem State.mark_get (s : State) (k j : PartSlot) :
    (s.mark k).ru.dirty[j] = (decide (j = k) || s.ru.dirty[j]) := by
  rw [State.mark_dirty]
  by_cases h : j = k
  · subst h; simp
  · have : k.val ≠ j.val := fun hh => h (Fin.ext hh.symm)
    simp [this, h]

theorem State.mark_val (s : State) (k j : PartSlot) :
    (s.mark k).ru.dirty[j.val] = (decide (j = k) || s.ru.dirty[j.val]) := s.mark_get k j

theorem State.mark_keeps {s : State} {j : PartSlot} (k : PartSlot) (h : s.ru.dirty[j] = true) :
    (s.mark k).ru.dirty[j] = true := by rw [State.mark_get, h, Bool.or_true]

namespace Effects
variable {s t u : State} {es es' : List EventRecord} {fs fs' : List Flag} {ks ks' : List PartSlot}

theorem queueAfter_nil (s : State) : queueAfter s [] = s.ru.events := by
  simp [queueAfter, passing, queueLimit]

theorem lostEvents_nil (s : State) : lostEvents s [] = 0 := by
  simp only [lostEvents, passing, queueLimit, List.filter_nil, List.append_nil]; omega

theorem latching_nil (s : State) (fs : List Flag) : latching s [] fs = fs := by
  simp [latching, lostEvents_nil]

/-- The state unchanged but for what is not the Report Unit's. -/
theorem same (h1 : t.ru = s.ru) (h2 : t.lc.station = s.lc.station) (h3 : t.lc.resetAsserted = s.lc.resetAsserted) :
    Effects s t [] [] [] where
  station := h2
  reset := h3
  events := by rw [queueAfter_nil, h1]
  dropped := by simp [droppedAfter, lostEvents_nil, h1]
  latched := by simp [latching_nil, h1]
  shown := by simp [latching_nil, h1]
  pendingShown := by simp [latching_nil, h1]
  ringNext := by rw [h1]
  attention := by simp [State.attentionDue, State.attentionMask, h1, h2]
  marks := by simp [Marked, latching_nil, h1]

theorem refl (s : State) : Effects s s [] [] [] := same rfl rfl rfl

theorem passes_eq (h : t.lc.station = s.lc.station) (e : EventCode) : t.passes e = s.passes e := by
  simp [State.passes, h]

theorem passing_eq (h : t.lc.station = s.lc.station) (es : List EventRecord) : passing t es = passing s es := by
  simp [passing, passes_eq h]

theorem length_queueAfter (s : State) (es : List EventRecord) :
    (queueAfter s es).length = min (queueLimit s) (s.ru.events.length + (passing s es).length) := by
  simp [queueAfter]

theorem lost_trans (h : Effects s t es fs ks) : lostEvents s (es ++ es') = lostEvents s es + lostEvents t es' := by
  have h1 := length_queueAfter s es
  simp only [lostEvents, queueLimit, passing_eq h.station, h.events, List.length_append] at h1 ⊢
  simp only [h1, passing, List.filter_append, List.length_append]
  omega

theorem queue_trans (h : Effects s t es fs ks) : queueAfter s (es ++ es') = queueAfter t es' := by
  have h1 := length_queueAfter s es
  have hl : queueLimit t = queueLimit s := by
    simp only [queueLimit, h.events] at h1 ⊢; omega
  simp only [queueAfter, hl, passing_eq h.station, h.events]
  simp only [passing, List.filter_append]
  generalize hn : queueLimit s = n
  have hle : s.ru.events.length ≤ n := by rw [← hn]; exact Nat.le_max_right _ _
  rw [← List.append_assoc]
  generalize s.ru.events ++ List.filter (fun e => s.passes e.code) es = a
  generalize List.filter (fun e => s.passes e.code) es' = b
  rcases Nat.le_total a.length n with ha | ha
  · rw [List.take_of_length_le ha]
  · simp [List.take_append, ha]

theorem mem_latching_trans (h : Effects s t es fs ks) (f : Flag) :
    f ∈ latching s (es ++ es') (fs ++ fs') ↔ f ∈ latching s es fs ∨ f ∈ latching t es' fs' := by
  simp only [latching, lost_trans h]
  by_cases h1 : lostEvents s es = 0 <;> by_cases h2 : lostEvents t es' = 0 <;> simp [h1, h2] <;> tauto

theorem dropped_trans (h : Effects s t es fs ks) : droppedAfter s (es ++ es') = droppedAfter t es' := by
  simp only [droppedAfter, lost_trans h, h.dropped]
  by_cases h1 : lostEvents s es = 0 <;> by_cases h2 : lostEvents t es' = 0 <;> simp [h1, h2, satAdd, Config.max16]
  omega

theorem trans (h : Effects s t es fs ks) (k : Effects t u es' fs' ks') :
    Effects s u (es ++ es') (fs ++ fs') (ks ++ ks') where
  station := k.station.trans h.station
  reset := k.reset.trans h.reset
  events := by rw [k.events, queue_trans h]
  dropped := by rw [k.dropped, dropped_trans h]
  latched f := by
    rw [k.latched, h.latched, Bool.or_assoc]
    congr 1
    rw [Bool.eq_iff_iff]
    simp [mem_latching_trans h]
  shown f := by
    rw [k.shown, h.shown, Bool.and_assoc]
    congr 1
    rw [Bool.eq_iff_iff]
    simp [mem_latching_trans h]
  pendingShown f := by
    rw [k.pendingShown, h.pendingShown, Bool.and_assoc]
    congr 1
    rw [Bool.eq_iff_iff]
    simp [mem_latching_trans h]
  ringNext := k.ringNext.trans h.ringNext
  attention ha := k.attention (h.attention ha)
  marks j := by
    rw [k.marks, Marked, h.marks, Marked, Marked]
    simp only [List.mem_append, mem_latching_trans h, or_and_right, exists_or]
    generalize (∃ f, f ∈ latching s es fs ∧ j ∈ flagMarks f) = a
    generalize (∃ f, f ∈ latching t es' fs' ∧ j ∈ flagMarks f) = b
    tauto

/-- The same flags in another order, and the same marks but those a flag brings with it. -/
theorem recast (h : Effects s t es fs ks) (hk : ∀ k, (k ∈ ks' ↔ k ∈ ks) ∨ ∃ f ∈ fs, k ∈ flagMarks f)
    (hf : ∀ f, f ∈ fs' ↔ f ∈ fs) : Effects s t es fs' ks' where
  station := h.station
  reset := h.reset
  events := h.events
  dropped := h.dropped
  latched f := by
    rw [h.latched]; congr 1; rw [Bool.eq_iff_iff]; simp only [latching]; split <;> simp [hf]
  shown f := by
    rw [h.shown]; congr 1; rw [Bool.eq_iff_iff]; simp only [latching]; split <;> simp [hf]
  pendingShown f := by
    rw [h.pendingShown]; congr 1; rw [Bool.eq_iff_iff]; simp only [latching]; split <;> simp [hf]
  ringNext := h.ringNext
  attention := h.attention
  marks k := by
    have hl : ∀ f, f ∈ latching s es fs' ↔ f ∈ latching s es fs := by
      intro f; simp only [latching]; split <;> simp [hf]
    rw [h.marks]
    simp only [Marked, hl]
    rcases hk k with hk | ⟨f, hm, hkf⟩
    · rw [hk]
    · have : ∃ f ∈ latching s es fs, k ∈ flagMarks f :=
        ⟨f, by simp only [latching]; split <;> simp [hm], hkf⟩
      simp [this]

theorem mark (s : State) (k : PartSlot) : Effects s (s.mark k) [] [] [k] where
  station := rfl
  reset := rfl
  events := by rw [queueAfter_nil]; rfl
  dropped := by simp [droppedAfter, lostEvents_nil]
  latched := by simp [latching_nil]
  shown := by simp [latching_nil]
  pendingShown := by simp [latching_nil]
  ringNext := rfl
  attention := id
  marks j := by
    rw [State.mark_get]
    simp [Marked, latching_nil, or_comm]

/-- The marks after a flag's latch is set. -/
theorem setLatch_marks (s : State) (f : Flag) (j : PartSlot) :
    (((s.setLatch f).mark .status).markFlagReport f).ru.dirty[j] = true ↔ s.ru.dirty[j] = true ∨ j ∈ flagMarks f := by
  have h (k i : PartSlot) : (((s.setLatch f).mark k).ru.dirty[i] = true) ↔ i = k ∨ s.ru.dirty[i] = true := by
    rw [State.mark_get]; simp [State.setLatch]
  cases f with
  | station f => simp only [State.markFlagReport, flagMarks, h, List.mem_singleton]; tauto
  | channel c f =>
    simp only [State.markFlagReport, flagMarks, State.mark_get (State.mark _ _), Bool.or_eq_true, h, decide_eq_true_eq,
      List.mem_cons, List.not_mem_nil, or_false]
    tauto
  | run f r => simp only [State.markFlagReport, flagMarks, h, List.mem_singleton]; tauto

theorem latch_dirty (s : State) (f : Flag) :
    (s.latch f).ru.dirty = (((s.setLatch f).mark .status).markFlagReport f).ru.dirty := by
  unfold State.latch
  dsimp only
  split <;> rfl

theorem latch (s : State) (f : Flag) : Effects s (s.latch f) [] [f] [] where
  station := by simp
  reset := by simp
  events := by rw [queueAfter_nil]; simp
  dropped := by simp [droppedAfter, lostEvents_nil]
  latched g := by rw [latching_nil, State.latch_latched, FlagWords.has_add]; simp
  shown g := by
    rw [latching_nil]
    have : (s.latch f).ru.shown = s.ru.shown.remove f := by
      unfold State.latch; dsimp only; cases f <;> split <;> rfl
    rw [this, FlagWords.has_remove]; simp
  pendingShown g := by
    rw [latching_nil]
    have : (s.latch f).ru.pendingShown = s.ru.pendingShown.remove f := by
      unfold State.latch; dsimp only; cases f <;> split <;> rfl
    rw [this, FlagWords.has_remove]; simp
  ringNext := by simp
  attention := (Inner.latch f (.refl s)).attention
  marks j := by rw [latch_dirty, setLatch_marks]; simp [Marked, latching_nil]

theorem raise (s : State) (e : EventCode) (a d v : Nat) : Effects s (s.raise e a d v) [eventNow s e a d v] [] [] := by
  unfold State.raise
  split_ifs with h1 h2
  · have hp : passing s [eventNow s e a d v] = [eventNow s e a d v] := by simp [passing, eventNow, h1]
    have hl : lostEvents s [eventNow s e a d v] = 0 := by
      simp only [lostEvents, hp, queueLimit, List.length_append, List.length_singleton]; omega
    have hq : queueAfter s [eventNow s e a d v] = s.ru.events ++ [eventNow s e a d v] := by
      simp only [queueAfter, hp, queueLimit]
      exact List.take_of_length_le (by simp only [List.length_append, List.length_singleton]; omega)
    exact
      { station := rfl, reset := rfl, events := by rw [hq]; rfl, dropped := by simp [droppedAfter, hl],
        latched := by simp [latching, hl], shown := by simp [latching, hl], pendingShown := by simp [latching, hl], ringNext := rfl, attention := id,
        marks := by simp [Marked, latching, hl, State.queueEvent] }
  · have hp : passing s [eventNow s e a d v] = [eventNow s e a d v] := by simp [passing, eventNow, h1]
    have hl : lostEvents s [eventNow s e a d v] = 1 := by
      simp only [lostEvents, hp, queueLimit, List.length_append, List.length_singleton]; omega
    have hq : queueAfter s [eventNow s e a d v] = s.ru.events := by
      have : queueLimit s = s.ru.events.length := by simp only [queueLimit]; omega
      simp [queueAfter, this]
    let s1 : State := { s with ru := { s.ru with dropped := satAdd Config.max16 s.ru.dropped 1 } }
    have k := latch s1 (.station .eventDropped)
    have kn : latching s1 [] [Flag.station .eventDropped] = [.station .eventDropped] := latching_nil _ _
    have hd : (s.dropEvent).ru.events = s.ru.events := by simp [State.dropEvent]
    exact
      { station := by simp [State.dropEvent]
        reset := by simp [State.dropEvent]
        events := by rw [hq]; exact hd
        dropped := by simp [droppedAfter, hl, State.dropEvent]
        latched := fun g => by
          have := k.latched g
          rw [kn] at this
          simpa [latching, hl, State.dropEvent] using this
        shown := fun g => by
          have := k.shown g
          rw [kn] at this
          simpa [latching, hl, State.dropEvent] using this
        pendingShown := fun g => by
          have := k.pendingShown g
          rw [kn] at this
          simpa [latching, hl, State.dropEvent] using this
        ringNext := by simp [State.dropEvent]
        attention := fun ha => k.attention ha
        marks := fun j => by
          have := k.marks j
          simp only [Marked, kn] at this
          unfold State.dropEvent
          rw [State.mark_get]
          simp [Marked, latching, hl, flagMarks, s1] at this ⊢
          rw [this]; tauto }
  · have hp : passing s [eventNow s e a d v] = [] := by simp [passing, eventNow, h1]
    have hl : lostEvents s [eventNow s e a d v] = 0 := by
      simp only [lostEvents, hp, queueLimit, List.append_nil]; omega
    have hq : queueAfter s [eventNow s e a d v] = s.ru.events := by
      simp [queueAfter, hp, queueLimit]
    exact
      { station := rfl, reset := rfl, events := by rw [hq], dropped := by simp [droppedAfter, hl],
        latched := by simp [latching, hl], shown := by simp [latching, hl], pendingShown := by simp [latching, hl], ringNext := rfl, attention := id,
        marks := by simp [Marked, latching, hl] }

theorem evalAttention (s : State) : Effects s s.evalAttention [] [] [] where
  station := rfl
  reset := rfl
  events := by rw [queueAfter_nil]; rfl
  dropped := by simp [droppedAfter, lostEvents_nil, State.evalAttention]
  latched := by simp [latching_nil, State.evalAttention]
  shown := by simp [latching_nil, State.evalAttention]
  pendingShown := by simp [latching_nil, State.evalAttention]
  ringNext := rfl
  attention _ := rfl
  marks := by simp [Marked, latching_nil, State.evalAttention]

theorem putChan (s : State) (c : Chan) (x : Channel) :
    Effects s (s.putChan c x) [] [] (if sameReport (s.chan c) x then [] else [.channel c]) := by
  unfold State.putChan
  split_ifs
  · exact same rfl rfl rfl
  · exact (same rfl rfl rfl : Effects s (s.setChan c x) [] [] []).trans (mark _ _)

theorem putRun (s : State) (r : Run) (e : RunEntry) :
    Effects s (s.putRun r e) [] [] (if sameRunReport (s.run r) e then [] else [.run r]) := by
  unfold State.putRun
  split_ifs
  · exact same rfl rfl rfl
  · exact (same rfl rfl rfl : Effects s (s.setRun r e) [] [] []).trans (mark _ _)

/-! One operation more. -/

theorem thenSame (h : Effects s t es fs ks) (h1 : u.ru = t.ru) (h2 : u.lc.station = t.lc.station)
    (h3 : u.lc.resetAsserted = t.lc.resetAsserted) : Effects s u es fs ks := by
  simpa only [List.append_nil] using h.trans (same h1 h2 h3)

theorem thenMark (k : PartSlot) (h : Effects s t es fs ks) : Effects s (t.mark k) es fs (ks ++ [k]) := by
  simpa only [List.append_nil] using h.trans (mark t k)

theorem thenLatch (f : Flag) (h : Effects s t es fs ks) :
    Effects s (t.latch f) es (fs ++ [f]) ks := by
  simpa only [List.append_nil] using h.trans (latch t f)

theorem thenRaise (e : EventCode) (a d v : Nat) (h : Effects s t es fs ks) :
    Effects s (t.raise e a d v) (es ++ [eventNow t e a d v]) fs ks := by
  simpa only [List.append_nil] using h.trans (raise t e a d v)

theorem thenPutChan (c : Chan) (x : Channel) (h : Effects s t es fs ks) :
    Effects s (t.putChan c x) es fs (ks ++ if sameReport (t.chan c) x then [] else [.channel c]) := by
  simpa only [List.append_nil] using h.trans (putChan t c x)

theorem thenSetChan (c : Chan) (x : Channel) (h : Effects s t es fs ks) : Effects s (t.setChan c x) es fs ks :=
  h.thenSame rfl rfl rfl

theorem thenPutRun (r : Run) (e : RunEntry) (h : Effects s t es fs ks) :
    Effects s (t.putRun r e) es fs (ks ++ if sameRunReport (t.run r) e then [] else [.run r]) := by
  simpa only [List.append_nil] using h.trans (putRun t r e)

theorem thenSetRun (r : Run) (e : RunEntry) (h : Effects s t es fs ks) : Effects s (t.setRun r e) es fs ks :=
  h.thenSame rfl rfl rfl

theorem thenSetClaim (k : TallySlot) (x : Claim) (h : Effects s t es fs ks) : Effects s (t.setClaim k x) es fs ks :=
  h.thenSame rfl rfl rfl

/-- The form asked for: the events and flags rewritten, the marks too, but those a flag brings with it. -/
theorem as (h : Effects s t es fs ks) (he : es' = es) (hf : ∀ f, f ∈ fs' ↔ f ∈ fs)
    (hk : ∀ k, (k ∈ ks' ↔ k ∈ ks) ∨ ∃ f ∈ fs, k ∈ flagMarks f) : Effects s t es' fs' ks' := he ▸ h.recast hk hf

end Effects

/-! ### When a report changes -/

theorem sameReport_refl (x : Channel) : sameReport x x = true := by simp [sameReport]

theorem sameReport_trans {x y z : Channel} (h : sameReport x y = true) (k : sameReport y z = true) :
    sameReport x z = true := by
  simp only [sameReport, decide_eq_true_eq] at h k ⊢
  obtain ⟨h1, h2, h3, h4, h5, h6, h7, h8, h9, h10, h11, h12, h13⟩ := h
  obtain ⟨k1, k2, k3, k4, k5, k6, k7, k8, k9, k10, k11, k12, k13⟩ := k
  exact ⟨h1.trans k1, h2.trans k2, h3.trans k3, h4.trans k4, h5.trans k5, h6.trans k6, h7.trans k7, h8.trans k8,
    h9.trans k9, h10.trans k10, h11.trans k11, h12.trans k12, h13.trans k13⟩

/-- Where two changes touch different published fields, the report has changed over both exactly when it has changed
over one of them. -/
theorem report_split {x y z : Channel} {c : PartSlot}
    (h : sameReport x z = true → sameReport x y = true ∧ sameReport y z = true) (k : PartSlot) :
    k ∈ (if sameReport x z then [] else [c]) ↔
      k ∈ (if sameReport x y then [] else [c]) ++ (if sameReport y z then [] else [c]) := by
  have ht := @sameReport_trans x y z
  cases h1 : sameReport x y <;> cases h2 : sameReport y z <;> cases h3 : sameReport x z <;> simp [h1, h2, h3] at h ht ⊢

end Sys2Proof.Machine
end

