-- ==== Sys2Proof/Laws/Step.lean ====
section
/-! SUPPORT. What a step can do, said once: `Outer s t` is what a command does beside the memory port, and `exec_cases`
lists the shapes an answer of `exec` can have. -/

namespace Sys2Proof.Machine

open Sys2Proof.Safety

/-- What a command can do to everything but the memory port and memory. -/
inductive Outer : State → State → Prop
  | inner {s t : State} (h : Inner s t) : Outer s t
  | hand {s t : State} (k : Slot) (p : Pos) (v : Word) (h : Outer s t) : Outer s (t.handWord k p v)
  | side {s t : State} (c : ControllerPort) (m : Option Item) (h : Outer s t) : Outer s { t with cp := c, ma := m }
  | commit {s t : State} (h : Outer s t) : Outer s t.commitDone
  | append {s t : State} (h : Outer s t) : Outer s t.appendDone
  | more {s t u : State} (h : Outer s t) (k : Inner t u) : Outer s u

namespace Outer

theorem refl (s : State) : Outer s s := .inner (.refl s)

/-- The queue, memory, the memory port, the reset line and the straps stay as they were. -/
theorem port {s t : State} (h : Outer s t) :
    t.pending = s.pending ∧ t.mem = s.mem ∧ t.mp = s.mp ∧ t.freeUsed = s.freeUsed ∧
    t.lc.resetAsserted = s.lc.resetAsserted ∧ t.lc.baseSelect = s.lc.baseSelect ∧
    t.lc.stationCode = s.lc.stationCode := by
  induction h with
  | inner h => have := h.port; tauto
  | @hand t k p v _ ih =>
    obtain ⟨a1, a2, a3, a4, a5, a6, a7, a8, a9, a10⟩ := (Taken.handWord t k p v).port
    obtain ⟨b1, b2, b3, b4, b5, b6, b7⟩ := ih
    exact ⟨a1.trans b1, a6.trans b2, a3.trans b3, a7.trans b4, a8.trans b5, a9.trans b6, a10.trans b7⟩
  | side c m _ ih => simpa using ih
  | commit _ ih => simpa [State.commitDone] using ih
  | append _ ih => simpa [State.appendDone] using ih
  | more _ k ih =>
    obtain ⟨a1, a2, a3, a4, a5, a6, a7, a8, a9, a10, a11⟩ := k.port
    obtain ⟨b1, b2, b3, b4, b5, b6, b7⟩ := ih
    exact ⟨a1.trans b1, a6.trans b2, a3.trans b3, a7.trans b4, a9.trans b5, a10.trans b6, a11.trans b7⟩

theorem queueWf {s t : State} (h : Outer s t) (hs : QueueWf s) : QueueWf t := by
  induction h with
  | inner h => exact h.queueWf hs
  | hand k p v _ ih => exact (Taken.handWord _ k p v).queueWf ih
  | side c m _ ih => exact ih
  | commit _ ih => exact ih
  | append _ ih =>
    simp only [QueueWf, State.appendDone, State.mark_events, List.length_tail] at ih ⊢
    omega
  | more _ k ih => exact k.queueWf ih

theorem attention {s t : State} (h : Outer s t) (hs : s.ru.attention = s.attentionDue) :
    t.ru.attention = t.attentionDue := by
  induction h with
  | inner h => exact h.attention hs
  | hand k p v _ ih => exact (Taken.handWord _ k p v).attention ih
  | side c m _ ih => exact ih
  | commit _ ih => exact ih
  | append _ ih => exact ih
  | more _ k ih => exact k.attention ih

theorem channel {s t : State} (h : Outer s t) (c : Chan) : ChanStep (s.chan c) (t.chan c) := by
  induction h with
  | inner h => exact h.channel c
  | @hand t k p v _ ih =>
    have := (Taken.handWord t k p v).channel c
    exact ⟨fun h => this.outputs (ih.outputs h), fun h => this.demand (ih.demand h)⟩
  | side _ _ _ ih => exact ih
  | commit _ ih => exact ih
  | append _ ih => exact ih
  | more _ k ih =>
    exact ⟨fun h => (k.channel c).outputs (ih.outputs h), fun h => (k.channel c).demand (ih.demand h)⟩

theorem poolWf {s t : State} (h : Outer s t) (hs : PoolWf s) : PoolWf t := by
  induction h with
  | inner h => exact h.poolWf hs
  | hand k p v _ ih => exact poolWf_handWord ih k p v
  | side c m _ ih => exact ih
  | commit _ ih =>
    refine ⟨?_, ih.2⟩
    have := ih.1
    simp only [Verifier.inUse, State.commitDone, List.length_tail] at this ⊢
    omega
  | append _ ih => exact ih
  | more _ k ih => exact k.poolWf ih

end Outer

/-! ### Each event at the port -/

theorem Outer.beginCycle (s : State) (a : Addr) (op : BusOp) : Outer s (s.beginCycle a op) := by
  unfold State.beginCycle
  split
  · exact .side _ _ (.refl s)
  · exact .hand _ _ _ (.refl s)
  · exact .inner (.refuseAtPort _ _ _ (.refl s))

theorem Outer.itemDone {s t : State} (x : Item) (h : Outer s t) : Outer s (t.itemDone x) := by
  unfold State.itemDone
  split
  · exact .commit h
  · exact .append h
  · unfold State.rewriteDone
    split
    · exact h.more (.report _ (.refl t) rfl rfl rfl fun f hf => by
        rw [show FlagWords.none.has f = false by simp [FlagWords.has, FlagWords.none]] at hf; cases hf)
    · exact h
  · exact h.more (.takeLoad _ _ (.refl t))

theorem Outer.finishCycle (s : State) (m : MemCycle) : Outer (s.runCycle m) (s.finishCycle m) := by
  unfold State.finishCycle
  dsimp only
  split
  · exact .refl _
  · split
    · unfold State.agentWord
      split
      · exact .refl _
      · split
        · exact .side _ _ (.refl _)
        · exact .itemDone _ (.side _ _ (.refl _))
    · have h1 : Outer (s.runCycle m) ((s.runCycle m).endCycle m.op (readWord s.mem m.addr)) := by
        unfold State.endCycle
        split <;> exact .side _ _ (.refl _)
      unfold State.reportRead
      split
      · split
        · exact h1.more (.statusReadDone _ _ (.refl _))
        · exact h1
      all_goals exact h1

/-! ### The shapes of an answer -/

/-- What the answer to a command can be, before the Memory Agent and the Port Arbiter go on. -/
inductive Shape (s : State) : State → Prop
  /-- Anything beside the memory port, RESET_n not asserted. -/
  | outer {u : State} (hr : s.lc.resetAsserted = false) (h : Outer s u) : Shape s u
  /-- A controller cycle that begins under reset is held. -/
  | stopped (c : ControllerPort) : Shape s { s with cp := c }
  /-- The memory cycle in progress completes, with what follows. -/
  | cycle {u : State} (m : MemCycle) (hm : s.mp = some m) (hr : s.lc.resetAsserted = false)
      (h : Outer (s.runCycle m) u) : Shape s u
  /-- The memory cycle under way at a reset completes, with nothing else. -/
  | carried (m : MemCycle) (hm : s.mp = some m) : Shape s (s.runCycle m)
  /-- RESET_n is asserted. -/
  | assert : Shape s s.assertReset
  /-- RESET_n is released. -/
  | release (gb : BitVec 4) (sc : BitVec 6) : Shape s (s.resetRelease gb sc)

theorem finishCycle_reset {s : State} (m : MemCycle) (h : s.lc.resetAsserted = true) : s.finishCycle m = s.runCycle m := by
  simp [State.finishCycle, h]

theorem Shape.memoryCycle {s t : State} (h : s.memoryCycle = some t) : Shape s t := by
  unfold State.memoryCycle at h
  split at h
  · cases h
  · rename_i m hm
    obtain rfl := Option.some.inj h
    cases hr : s.lc.resetAsserted
    · exact .cycle m hm hr (Outer.finishCycle s m)
    · rw [finishCycle_reset m hr]; exact .carried m hm

theorem Shape.itemCycle {s t : State} {k : ItemKind} (h : s.itemCycle k = some t) : Shape s t := by
  unfold State.itemCycle at h
  split at h
  · exact .memoryCycle h
  · cases h

theorem Shape.controllerCycle {s t : State} {a : Addr} {op : BusOp} (h : s.controllerCycle a op = some t) : Shape s t := by
  unfold State.controllerCycle at h
  split at h
  · cases h
  · obtain rfl := Option.some.inj h
    cases hr : s.lc.resetAsserted
    · exact .outer hr (Outer.beginCycle s a op)
    · exact .stopped _

theorem awake_some {s t : State} {e : Option State} (h : s.awake e = some t) : e = some t ∧ s.lc.resetAsserted = false := by
  unfold State.awake at h
  split at h
  · cases h
  · rename_i hr; exact ⟨h, by simpa using hr⟩

theorem answer_next {s t : State} {e : Option State} (h : answer s e = .next t) :
    t = s ∨ ∃ u, e = some u ∧ t = u.settle := by
  unfold answer at h
  split at h
  · cases h; exact .inl rfl
  · cases h; exact .inr ⟨_, rfl, rfl⟩

theorem answerCycle_next {s t : State} {e : Option State} (h : answerCycle s e = .next t) :
    t = s ∨ ∃ u, e = some u ∧ After u t := by
  unfold answerCycle at h
  split at h
  · cases h; exact .inl rfl
  · cases h; exact .inr ⟨_, rfl, .settleAfter _ _⟩

/-- Every command answers a next state. -/
theorem answer_total (s : State) (e : Option State) : ∃ t, answer s e = .next t := by
  unfold answer
  split <;> exact ⟨_, rfl⟩

theorem answerCycle_total (s : State) (e : Option State) : ∃ t, answerCycle s e = .next t := by
  unfold answerCycle
  split <;> exact ⟨_, rfl⟩

/-- The shapes an answer of `exec` has: the state unchanged, or one of the shapes above and what follows it. -/
theorem exec_cases {i : Instr} {s t : State} (h : exec i s = .next t) : t = s ∨ ∃ u, Shape s u ∧ After u t := by
  have ofInner {e : Option State} (he : answer s (s.awake e) = .next t) (hi : ∀ u, e = some u → Inner s u) :
      t = s ∨ ∃ u, Shape s u ∧ After u t := by
    rcases answer_next he with h | ⟨u, hu, ht⟩
    · exact .inl h
    · exact .inr ⟨u, .outer (awake_some hu).2 (.inner (hi u (awake_some hu).1)), ht ▸ .settle⟩
  have ofShape {e : Option State} (he : answer s e = .next t) (hi : ∀ u, e = some u → Shape s u) :
      t = s ∨ ∃ u, Shape s u ∧ After u t := by
    rcases answer_next he with h | ⟨u, hu, ht⟩
    · exact .inl h
    · exact .inr ⟨u, hi u hu, ht ▸ .settle⟩
  have ofCycle {e : Option State} (he : answerCycle s e = .next t) (hi : ∀ u, e = some u → Shape s u) :
      t = s ∨ ∃ u, Shape s u ∧ After u t := by
    rcases answerCycle_next he with h | ⟨u, hu, ht⟩
    · exact .inl h
    · exact .inr ⟨u, hi u hu, ht⟩
  cases i
  case resetAssert =>
    refine ofShape h fun u hu => ?_
    unfold State.resetAssert at hu
    split at hu
    · cases hu
    · obtain rfl := Option.some.inj hu; exact .assert
  case resetRelease gb sc =>
    refine ofShape (e := some (s.resetRelease gb sc)) h fun u hu => ?_
    obtain rfl := Option.some.inj hu
    exact .release gb sc
  case memoryCycleComplete => exact ofCycle h fun u hu => .memoryCycle hu
  case commitComplete => exact ofShape h fun u hu => .itemCycle hu
  case eventAppendComplete => exact ofShape h fun u hu => .itemCycle hu
  case rewriteComplete => exact ofShape h fun u hu => .itemCycle hu
  case loadingReadComplete => exact ofShape h fun u hu => .itemCycle hu
  case statusRead w =>
    refine ofCycle h fun u hu => ?_
    unfold State.statusReadCycle at hu
    split at hu
    · exact .memoryCycle hu
    · cases hu
  case drainComplete =>
    refine ofInner h fun u hu => ?_
    unfold State.drainComplete at hu
    split at hu
    · obtain rfl := Option.some.inj hu; exact .startReload (.refl s)
    · cases hu
  case assemblyExpired => exact ofInner h fun u hu => .assemblyExpiry hu (.refl s)
  case historyExpiry => exact ofInner h fun u hu => .historyExpiry hu (.refl s)
  case stalenessExpiry => exact ofInner h fun u hu => .stalenessExpiry hu (.refl s)
  case horizonExpiry => exact ofInner h fun u hu => .horizonExpiry hu (.refl s)
  case substitutionStep => exact ofInner h fun u hu => .substitutionStep hu (.refl s)
  case basePeriodExpiry => exact ofInner h fun u hu => .basePeriodExpiry hu (.refl s)
  case precheckExpiry => exact ofInner h fun u hu => .precheckExpiry hu (.refl s)
  case driveExpiry => exact ofInner h fun u hu => .driveExpiry hu (.refl s)
  case proofWindowExpiry => exact ofInner h fun u hu => .proofWindowExpiry hu (.refl s)
  case restEnd => exact ofInner h fun u hu => .restExpiry hu (.refl s)
  case proofClosure => exact ofInner h fun u hu => .proofClosure hu (.refl s)
  case meterPulse => exact ofInner h fun u hu => .meterPulse hu (.refl s)
  all_goals exact ofShape h fun u hu => .controllerCycle hu

/-! ### Invariants of a step -/

/-- The cycle held through reset is taken from the state at the release, its free value used, perhaps settled. -/
theorem Outer.retake (s : State) (x : Option CpCycle) :
    ∃ u, (u = s ∨ ∃ n, u = { s with freeUsed := n } ∨ u = ({ s with freeUsed := n } : State).settle) ∧
      Outer u (s.retake x) := by
  unfold State.retake
  split
  · exact ⟨s, .inl rfl, .refl s⟩
  · dsimp only
    split
    · exact ⟨_, .inr ⟨_, .inl rfl⟩, Outer.beginCycle _ _ _⟩
    · exact ⟨_, .inr ⟨_, .inr rfl⟩, Outer.beginCycle _ _ _⟩

theorem underReset_eq (s : State) (h : s.lc.resetAsserted = true) :
    s.underReset = s ∨ ∃ m, s.mp = some m ∧ s.underReset = s.runCycle m := by
  simp only [State.underReset, h, if_true, State.carryToEnd]
  split
  · exact .inl rfl
  · rename_i m hm; exact .inr ⟨m, hm, finishCycle_reset m h⟩

/-- A property that each kind of update keeps is kept by every step. -/
theorem step_keeps {P : State → Prop} (hset : ∀ s t, Settled s t → P s → P t)
    (hout : ∀ s t, s.lc.resetAsserted = false → Outer s t → P s → P t)
    (hcp : ∀ s c, P s → P { s with cp := c }) (hcyc : ∀ s m, P s → P (s.runCycle m))
    (hass : ∀ s, P s → P s.assertReset) (hrel : ∀ s gb sc, P s → P (s.afterRelease gb sc))
    (hown : ∀ s p n k, P s → P { s with pending := p, uptime := n, freeUsed := k })
    {s t : State} (h : step s = .next t) (hs : P s) : P t := by
  unfold step at h
  split at h
  · cases h
    unfold State.idleStep
    split
    · exact hs
    · split
      · exact hset _ _ (.settle s) hs
      · unfold State.awakeStep
        split
        · exact hown s _ _ _ hs
        · split <;> exact hown s _ _ _ hs
  · rcases exec_cases h with rfl | ⟨u, hu, ha⟩
    · exact hown s _ _ _ hs
    · obtain ⟨n, hn⟩ := ha.settled
      refine hset _ _ hn (hown u u.pending u.uptime n ?_)
      have hs' := hown s ‹List Instr› s.uptime s.freeUsed hs
      cases hu with
      | outer hr h => exact hout _ _ hr h hs'
      | stopped c => exact hcp _ _ hs'
      | cycle m hm hr h =>
        refine hout _ _ ?_ h (hcyc _ _ hs')
        unfold State.runCycle
        split <;> exact hr
      | carried m hm => exact hcyc _ _ hs'
      | assert => exact hass _ hs'
      | release gb sc =>
        have hu : P (State.underReset { s with pending := ‹List Instr› }) := by
          generalize ({ s with pending := ‹List Instr› } : State) = v at hs'
          cases hr : v.lc.resetAsserted
          · have e : v.underReset = v.assertReset.underReset := by simp [State.underReset, hr, State.assertReset]
            rw [e]
            rcases underReset_eq v.assertReset rfl with e | ⟨m, _, e⟩
            · rw [e]; exact hass _ hs'
            · rw [e]; exact hcyc _ _ (hass _ hs')
          · rcases underReset_eq v hr with e | ⟨m, _, e⟩
            · rw [e]; exact hs'
            · rw [e]; exact hcyc _ _ hs'
        have hr := hrel _ gb sc hu
        unfold State.resetRelease
        generalize State.underReset { s with pending := ‹List Instr› } = v at hr
        obtain ⟨w, hw, ho⟩ := Outer.retake (v.afterRelease gb sc) v.cp.cycle
        rcases hw with rfl | ⟨n, rfl | rfl⟩
        · exact hout _ _ rfl ho hr
        · exact hout _ _ rfl ho (hown _ _ _ _ hr)
        · refine hout _ _ ?_ ho (hset _ _ (.settle _) (hown _ _ _ _ hr))
          rw [(Settled.settle _).lc]
          rfl

end Sys2Proof.Machine
end

