-- ==== Sys2Proof/Laws/Settle.lean ====
section
/-! SUPPORT. From an operation's own effect to the state after the command: the Memory Agent's choice and the Port
Arbiter's grant, which follow every command, keep what the operation did. -/

namespace Sys2Proof.Machine

open Sys2Proof.Safety

/-! ### The Memory Agent and the port -/

theorem State.arbitrate_ma (s : State) : s.arbitrate.ma = s.ma := by
  unfold State.arbitrate State.decideGrant
  split
  · split
    · rfl
    · rfl
    · rfl
    · split <;> rfl
  · rfl

theorem State.arbitrate_dirty (s : State) : s.arbitrate.ru = s.ru := by
  unfold State.arbitrate State.decideGrant
  split
  · split
    · rfl
    · rfl
    · rfl
    · split <;> rfl
  · rfl

theorem State.arbitrate_busy {s : State} {m : MemCycle} (h : s.mp = some m) : s.arbitrate = s := by
  simp [State.arbitrate, h]

/-- With no cycle of the controller's in progress a grant leaves the Controller Port alone. -/
theorem State.arbitrate_noCycle {s : State} (h : s.cp.cycle = none) : s.arbitrate.cp = s.cp := by
  have hq : s.controllerRequest = none := by simp [State.controllerRequest, h]
  unfold State.arbitrate
  split
  · unfold State.decideGrant
    rw [hq]
    cases s.ma <;> rfl
  · rfl

theorem State.takeItem_busy {s : State} {x : Item} (h : s.ma = some x) : s.takeItem = s := by
  simp [State.takeItem, h]

theorem State.takeItem_port (s : State) : s.takeItem.mp = s.mp ∧ s.takeItem.passOver = s.passOver ∧ s.takeItem.cp = s.cp := by
  have hi (k : ItemKind) (n : Slot) (w : Record) (u : State) :
      (u.startItem k n w).mp = u.mp ∧ (u.startItem k n w).passOver = u.passOver ∧ (u.startItem k n w).cp = u.cp :=
    ⟨rfl, rfl, rfl⟩
  have hr (k : PartSlot) : (s.startRewrite k).mp = s.mp ∧ (s.startRewrite k).passOver = s.passOver ∧
      (s.startRewrite k).cp = s.cp := by
    unfold State.startRewrite State.takePending
    split <;> exact ⟨rfl, rfl, rfl⟩
  unfold State.takeItem State.chooseItem State.takeLoading State.takeWork
  repeat' split
  all_goals first | exact ⟨rfl, rfl, rfl⟩ | exact hi _ _ _ _ | exact hr _

/-- What a rewrite writes is not changed by what the Memory Agent and the port do. -/
theorem Settled.snapshot {s t : State} (h : Settled s t) (k : PartSlot) : t.snapshot k = s.snapshot k := by
  have e : statusRecord t = statusRecord s := by
    simp [statusRecord, h.lc, h.latched, h.ringNext, h.dropped, h.rv, h.count]
  unfold State.snapshot
  rw [e, h.lc, h.rv, h.latched]
  simp only [h.chan, h.run]

/-! ### What the choice of work yields (R26, R27) -/

theorem ReportUnit.lowestDirty_some {u : ReportUnit} {k : PartSlot} (h : u.lowestDirty = some k) :
    u.dirty[k] = true ∧ ∀ j : PartSlot, j.val < k.val → u.dirty[j] = false := by
  obtain ⟨hk, as, bs, hl, has⟩ := List.find?_eq_some_iff_append.mp h
  refine ⟨hk, fun j hj => ?_⟩
  have hp : (as ++ k :: bs).Pairwise (· < ·) := hl ▸ List.pairwise_lt_finRange 20
  have hm : j ∈ as ++ k :: bs := hl ▸ List.mem_finRange j
  rcases List.mem_append.mp hm with hm | hm
  · simpa using has j hm
  · rcases List.mem_cons.mp hm with rfl | hm
    · exact absurd hj (lt_irrefl _)
    · have h1 := (List.pairwise_cons.mp (List.pairwise_append.mp hp).2.1).1 j hm
      exact absurd hj (Nat.not_lt.mpr (Fin.lt_def.mp h1).le)

theorem ReportUnit.lowestDirty_none {u : ReportUnit} (h : u.lowestDirty = none) (k : PartSlot) : u.dirty[k] = false := by
  simpa using List.find?_eq_none.mp h k (List.mem_finRange k)

theorem ReportUnit.clean_iff (u : ReportUnit) : u.clean = true ↔ ∀ k : PartSlot, u.dirty[k] = false := by
  unfold ReportUnit.clean
  rw [List.all_eq_true]
  constructor
  · intro h k
    simpa using h u.dirty[k] (by simp)
  · intro h x hx
    obtain ⟨i, hi, rfl⟩ := List.mem_iff_getElem.mp hx
    simpa using h ⟨i, by simpa using hi⟩

/-- What an idle Memory Agent's choice leaves: its item the first of the order, a rewrite's mark clear, and, where the
rewrite is the status record's, the latched flags the pending set. -/
structure Chosen (u t : State) : Prop where
  first : ChosenFirst t
  marks : ∀ k : PartSlot, t.ru.dirty[k] = (u.ru.dirty[k] && !decide (t.ma = some ⟨.rewrite, k.slot, t.snapshot k, 0⟩))
  pendingShown : t.ru.pendingShown =
    if t.ma = some ⟨.rewrite, PartSlot.status.slot, t.snapshot .status, 0⟩ then t.ru.latched else u.ru.pendingShown
  fresh : ∀ x, t.ma = some x → x.next = 0

theorem PartSlot.slot_inj {j k : PartSlot} (h : j.slot = k.slot) : j = k := by
  have := congrArg Fin.val h
  simp only [PartSlot.slot] at this
  exact Fin.ext (by omega)

/-- An item that is no rewrite has been taken, or none. -/
theorem Chosen.plain {u : State} {m : Option Item} (h : ChosenFirst { u with ma := m })
    (hm : ∀ x, m = some x → x.kind ≠ .rewrite ∧ x.next = 0) : Chosen u { u with ma := m } where
  first := h
  marks k := by
    have : m ≠ some ⟨.rewrite, k.slot, ({ u with ma := m } : State).snapshot k, 0⟩ := fun e => (hm _ e).1 rfl
    simp [this]
  pendingShown := by
    have : m ≠ some ⟨.rewrite, PartSlot.status.slot, ({ u with ma := m } : State).snapshot .status, 0⟩ :=
      fun e => (hm _ e).1 rfl
    simp [this]
  fresh x hx := (hm x hx).2

theorem Chosen.rewrite {u : State} (hc : u.rv.committing = []) (hl : u.lc.device ≠ .loading)
    (he : u.ru.events = []) {k : PartSlot} (hk : u.ru.lowestDirty = some k) : Chosen u (u.startRewrite k) := by
  obtain ⟨hd, hlow⟩ := ReportUnit.lowestDirty_some hk
  have hs := Settled.startRewrite u k
  have e1 : (u.startRewrite k).ma = some ⟨.rewrite, k.slot, u.snapshot k, 0⟩ := rfl
  have e2 : (u.startRewrite k).ru.dirty = u.ru.dirty.set k.val false := by
    unfold State.startRewrite State.takePending; split <;> rfl
  have e3 : (u.startRewrite k).ru.pendingShown = if k = .status then u.ru.latched else u.ru.pendingShown := by
    unfold State.startRewrite State.takePending; split <;> rfl
  refine ⟨⟨fun x hx => ?_, fun h => by rw [e1] at h; cases h⟩, fun j => ?_, ?_, fun x hx => ?_⟩
  · rw [e1] at hx
    obtain rfl := Option.some.inj hx
    refine .inr (.inr (.inr ⟨by rw [hs.rv, hc], by rw [hs.lc]; exact hl, by rw [hs.events, he], k, ?_, fun j hj => ?_⟩))
    · rw [hs.snapshot]
    · rw [e2]
      by_cases h : j = k
      · subst h; simp
      · have hv : k.val ≠ j.val := fun hh => h (Fin.ext hh.symm)
        have := hlow j (by omega)
        simpa [hv] using this
  · rw [e1, e2, hs.snapshot]
    by_cases h : j = k
    · subst h; simp [hd]
    · have hv : k.val ≠ j.val := fun hh => h (Fin.ext hh.symm)
      have hne : ¬k.slot = j.slot := fun hh => h (PartSlot.slot_inj hh).symm
      simp [hv, hne]
  · rw [e1, e3, hs.snapshot, hs.latched]
    by_cases h : k = .status
    · subst h; simp
    · have hne : ¬k.slot = PartSlot.status.slot := fun hh => h (PartSlot.slot_inj hh)
      simp [h, hne]
  · rw [e1] at hx; cases hx; rfl

theorem State.takeItem_chosen {u : State} (hm : u.ma = none) : Chosen u u.takeItem := by
  have same (h : NothingPending u) : Chosen u u := by
    have e : ({ u with ma := u.ma } : State) = u := rfl
    rw [← e]
    refine Chosen.plain ⟨fun x hx => ?_, fun _ => h⟩ fun x hx => ?_
    · change u.ma = some x at hx; rw [hm] at hx; cases hx
    · rw [hm] at hx; cases hx
  have start (k : ItemKind) (n : Slot) (w : Record) (hk : k ≠ .rewrite)
      (h : FirstInOrder (u.startItem k n w) ⟨k, n, w, 0⟩) : Chosen u (u.startItem k n w) := by
    refine Chosen.plain (m := some ⟨k, n, w, 0⟩) ⟨fun x hx => ?_, fun h => by cases h⟩ fun x hx => ?_
    · cases hx; exact h
    · cases hx; exact ⟨hk, rfl⟩
  have load (hl : u.lc.device = .loading) : Chosen u u.takeLoading := by
    unfold State.takeLoading
    split
    · rename_i x rest hc
      exact start _ _ _ (by decide) (.inl ⟨x, rest, hc, rfl⟩)
    · rename_i hc
      split
      · rename_i k hk
        exact start _ _ _ (by decide) (.inr (.inl ⟨hc, hl, k, hk, rfl⟩))
      · rename_i hk
        exact same ⟨hc, fun _ => hk, fun h => absurd hl h⟩
  have work (hl : u.lc.device ≠ .loading) : Chosen u u.takeWork := by
    unfold State.takeWork
    split
    · rename_i x rest hc
      exact start _ _ _ (by decide) (.inl ⟨x, rest, hc, rfl⟩)
    · rename_i hc
      split
      · rename_i h
        exact same ⟨hc, fun h' => absurd h' hl, fun _ =>
          ⟨(ReportUnit.clean_iff _).mp h.2, fun h' => absurd h.1 h'⟩⟩
      · rename_i h
        split
        · rename_i e rest he
          refine start _ _ _ (by decide) (.inr (.inr (.inl ⟨hc, hl, fun hd => ?_, e, rest, he, rfl⟩)))
          have hd : u.lc.device = .draining := hd
          have hn : ¬u.ru.clean = true := fun hh => h ⟨hd, hh⟩
          rw [ReportUnit.clean_iff] at hn
          push Not at hn
          obtain ⟨k, hk⟩ := hn
          exact ⟨k, (by simpa using hk : u.ru.dirty[k] = true)⟩
        · rename_i he
          split
          · rename_i k hk
            exact Chosen.rewrite hc hl he hk
          · rename_i hk
            exact same ⟨hc, fun h' => absurd h' hl, fun _ => ⟨ReportUnit.lowestDirty_none hk, fun _ => he⟩⟩
  have e : u.takeItem = u.chooseItem := by simp [State.takeItem, hm]
  rw [e]
  unfold State.chooseItem
  split
  · rename_i h; exact load h
  all_goals rename_i h; exact work (by rw [h]; decide)

/-- The grant changes nothing that the choice of work is read from. -/
theorem Chosen.arbitrate {u t : State} (h : Chosen u t) : Chosen u t.arbitrate := by
  have hs := Settled.arbitrate t
  have hru := State.arbitrate_dirty t
  have hma := State.arbitrate_ma t
  constructor
  · refine ⟨fun x hx => ?_, fun hx => ?_⟩
    · have := h.first.1 x (by rw [← hma]; exact hx)
      simpa only [FirstInOrder, hs.rv, hs.lc, hru, hs.snapshot] using this
    · have := h.first.2 (by rw [← hma]; exact hx)
      simpa only [NothingPending, hs.rv, hs.lc, hru] using this
  · simpa only [hru, hma, hs.snapshot] using h.marks
  · simpa only [hru, hma, hs.snapshot] using h.pendingShown
  · simpa only [hma] using h.fresh

/-- An idle Memory Agent, RESET_n deasserted, makes its choice (R26, R27). -/
theorem State.settle_chosen {u : State} (hr : Awake u) (hm : u.ma = none) : Chosen u u.settle := by
  have hr : u.lc.resetAsserted = false := hr
  unfold State.settle
  rw [if_neg (by simp [hr])]
  exact (State.takeItem_chosen hm).arbitrate

/-- An operation that leaves the memory side alone leaves, once the Memory Agent and the port have gone on, what lies
outside the blocks. -/
theorem outside_settle {s u : State} (h1 : u.pending = s.pending) (h2 : u.cp = s.cp) (h3 : u.mp = s.mp)
    (h4 : u.passOver = s.passOver) (h5 : u.ma = s.ma) (h6 : u.mem = s.mem) (h7 : u.freeUsed = s.freeUsed) :
    Outside s u.settle where
  pending := (Settled.settle u).pending.trans h1
  freeUsed := (Settled.settle u).freeUsed.trans h7
  memory k := by rw [(Settled.settle u).mem, h6]
  readData := by rw [(Settled.settle u).readData, h2]
  controllerCycle := by rw [(Settled.settle u).cycle, h2]
  memoryCycle m hm := by
    obtain ⟨p1, p2, p3⟩ := u.takeItem_port
    unfold State.settle
    split
    · rw [h3, h4, h2]; exact ⟨hm, rfl, rfl⟩
    · rw [State.arbitrate_busy (p1.trans (h3.trans hm)), p1, p2, p3, h3, h4, h2]; exact ⟨hm, rfl, rfl⟩
  noCycle hc := by
    obtain ⟨p1, p2, p3⟩ := u.takeItem_port
    unfold State.settle
    split
    · exact h2
    · rw [State.arbitrate_noCycle (by rw [p3, h2]; exact hc), p3, h2]
  item x hx := by
    unfold State.settle
    split
    · rw [h5]; exact hx
    · rw [State.arbitrate_ma, State.takeItem_busy (h5.trans hx), h5]; exact hx

theorem Inner.outside {s u : State} (h : Inner s u) : Outside s u.settle := by
  obtain ⟨a1, a2, a3, a4, a5, a6, a7, _⟩ := h.port
  exact outside_settle a1 a2 a3 a4 a5 a6 a7

theorem Taken.outside {s u : State} (h : Taken s u) : Outside s u.settle := by
  obtain ⟨a1, a2, a3, a4, a5, a6, a7, _⟩ := h.port
  exact outside_settle a1 a2 a3 a4 a5 a6 a7

/-- The marks and the pending set after the Memory Agent has gone on, which had its item or had ended it (R30, R158). -/
theorem State.settle_rewrites {s u : State} (hm : u.ma = s.ma ∨ u.ma = none ∧ ∀ x, s.ma = some x → x.next ≠ 0) :
    Rewrites s u.settle (fun k => u.ru.dirty[k] = true) u.ru.pendingShown.has := by
  have same (h : ∀ k, Starts s u.settle k = false) (h1 : u.settle.ru.dirty = u.ru.dirty)
      (h2 : u.settle.ru.pendingShown = u.ru.pendingShown) :
      Rewrites s u.settle (fun k => u.ru.dirty[k] = true) u.ru.pendingShown.has :=
    ⟨fun k => by simp [h, h1], fun f => by simp [h, h2]⟩
  cases hr : u.lc.resetAsserted with
  | true =>
    have e : u.settle = u := by simp [State.settle, hr]
    refine same (fun k => ?_) (by rw [e]) (by rw [e])
    rw [e]
    rcases hm with hm | ⟨hm, hx⟩ <;> simp [Starts, hm]
  | false =>
    cases hu : u.ma with
    | some y =>
      have hms : s.ma = some y := by
        rcases hm with hm | ⟨hm, _⟩
        · rw [← hm, hu]
        · rw [hu] at hm; cases hm
      have e : u.settle = u.arbitrate := by simp [State.settle, hr, State.takeItem_busy hu]
      have hru := State.arbitrate_dirty u
      refine same (fun k => ?_) (by rw [e, hru]) (by rw [e, hru])
      simp [Starts, e, State.arbitrate_ma, hu, hms]
    | none =>
      have hc := State.settle_chosen hr hu
      have hs (k : PartSlot) : Starts s u.settle k =
          decide (u.settle.ma = some ⟨.rewrite, k.slot, u.settle.snapshot k, 0⟩) := by
        unfold Starts
        by_cases h : u.settle.ma = some ⟨.rewrite, k.slot, u.settle.snapshot k, 0⟩
        · have hne : u.settle.ma ≠ s.ma := by
            intro h2
            rcases hm with hm | ⟨_, hx⟩
            · rw [h, ← hm, hu] at h2; cases h2
            · exact hx _ (h2.symm.trans h) rfl
          simp only [decide_eq_true hne, Bool.true_and]
        · simp only [decide_eq_false h, Bool.and_false]
      refine ⟨fun k => ?_, fun f => ?_⟩
      · rw [hc.marks k, hs]; simp
      · rw [hc.pendingShown, hs]
        by_cases h : u.settle.ma = some ⟨.rewrite, PartSlot.status.slot, u.settle.snapshot .status, 0⟩ <;> simp [h]

/-- What an operation reports, in the form the statements use. -/
theorem Effects.settle {s u : State} {es : List EventRecord} {fs : List Flag} {ks : List PartSlot}
    (h : Effects s u es fs ks) (hm : u.ma = s.ma ∨ u.ma = none ∧ ∀ x, s.ma = some x → x.next ≠ 0) :
    Reports s u.settle es fs ks where
  events := (Settled.settle u).events.trans h.events
  dropped := (Settled.settle u).dropped.trans h.dropped
  latched f := by rw [(Settled.settle u).latched]; exact h.latched f
  shown f := by rw [(Settled.settle u).shown]; exact h.shown f
  ringNext := (Settled.settle u).ringNext.trans h.ringNext
  attention hw ha := by
    simp only [Awake] at hw
    simp only [AttentionFollows, (Settled.settle u).attention, (Settled.settle u).attentionDue,
      (Settled.settle u).lc, h.reset, hw, Bool.not_false, Bool.and_true] at ha ⊢
    exact h.attention ha
  rewrites := by
    have hw := State.settle_rewrites hm
    exact ⟨fun k => by rw [hw.marks, h.marks], fun f => by rw [hw.pendingShown, h.pendingShown]⟩

/-! ### The grant (R24) -/

/-- At the free port the controller's cycle that competes is the one that waits and is not held (R19). -/
theorem controllerRequest_iff {s v : State} (hp : v.mp = none) (h1 : v.cp = s.cp) (h2 : v.lc.baseSelect = s.lc.baseSelect)
    (c : CpCycle) : v.controllerRequest = some c ↔ Competes s v.ma c := by
  have hold : v.holds c = false ↔ ∀ x, v.ma = some x → 0 < x.next → HeldBy s x c = false := by
    obtain ⟨a, op, g⟩ := c
    cases op with
    | write w l => simp [State.holds, HeldBy]
    | read =>
      simp only [State.holds, HeldBy, h2]
      cases hd : decompose s.lc.baseSelect a with
      | none => simp
      | some k =>
        cases hm : v.ma with
        | none => simp [State.underWrite, hm]
        | some y =>
          simp only [State.underWrite, hm, State.agentCycle, hp, Option.some.injEq, forall_eq', Option.map_some]
          have hk : (k.1 = y.slot) = (y.slot = k.1) := propext eq_comm
          cases y.kind.writes <;> by_cases h : y.slot = k.1 <;> by_cases h' : 0 < y.next <;> simp [h, h', hk]
  unfold Competes
  rw [← h1]
  unfold State.controllerRequest
  cases hc : v.cp.cycle with
  | none => simp
  | some x =>
    simp only [Option.some.injEq]
    constructor
    · intro h
      split at h
      · rename_i hx
        cases h
        exact ⟨rfl, hx.1, hold.mp hx.2⟩
      · cases h
    · rintro ⟨rfl, hw, hh⟩
      rw [if_pos ⟨hw, hold.mpr hh⟩]

/-- The bus operation of the next word. -/
theorem nextOp_eq (x : Item) : x.nextOp = wordCycle x x.next := by
  unfold Item.nextOp wordCycle
  cases x.kind <;> rfl

theorem State.arbitrate_granted {s v : State} (hp : v.mp = none) (h1 : v.cp = s.cp)
    (h2 : v.lc.baseSelect = s.lc.baseSelect) (h3 : v.passOver = s.passOver) : Granted s v.arbitrate := by
  have hma := State.arbitrate_ma v
  have hlc := (Settled.arbitrate v).lc
  have hlim : v.arbitrate.starvationLimit = v.starvationLimit := by simp [State.starvationLimit, hlc]
  have hreq := controllerRequest_iff hp h1 h2
  have word (x : Item) (t : State) (h1 : t.mp = some ⟨.agent, x.nextAddr t.lc.baseSelect, x.nextOp⟩) (h2 : t.passOver = 0) :
      WordGranted t x := ⟨by rw [h1, Item.nextAddr, nextOp_eq], h2⟩
  have hdef : v.arbitrate = v.decideGrant := by simp [State.arbitrate, hp]
  constructor
  · intro c hc hm
    rw [hma] at hc hm
    have hq := (hreq c).mpr hc
    rw [hdef, State.decideGrant, hq, hm]
    exact ⟨rfl, h3, by simp [State.grantController, ← h1]⟩
  · intro x hx hn
    rw [hma] at hx hn
    have hq : v.controllerRequest = none := by
      cases h : v.controllerRequest with
      | none => rfl
      | some c => exact absurd ((hreq c).mp h) (hn c)
    rw [hdef, State.decideGrant, hq, hx]
    exact ⟨word x _ rfl rfl, h1⟩
  · intro c x hc hx hlt
    rw [hlim] at hlt
    rw [hma] at hc hx
    have hq := (hreq c).mpr hc
    rw [hdef, State.decideGrant, hq, hx]
    simp only [h3, hlt, if_true]
    exact ⟨rfl, by simp [State.grantController], by simp [State.grantController, ← h1]⟩
  · intro c x hc hx hle
    rw [hlim] at hle
    rw [hma] at hc hx
    have hq := (hreq c).mpr hc
    have hlt : ¬ s.passOver < v.starvationLimit := Nat.not_lt.mpr hle
    rw [hdef, State.decideGrant, hq, hx]
    simp only [h3, hlt, if_false]
    exact ⟨word x _ rfl rfl, h1⟩
  · intro hx hn
    rw [hma] at hx hn
    have hq : v.controllerRequest = none := by
      cases h : v.controllerRequest with
      | none => rfl
      | some c => exact absurd ((hreq c).mp h) (hn c)
    rw [hdef, State.decideGrant, hq, hx]
    exact ⟨hp, h3, h1⟩

/-- Where nothing waits the Memory Agent takes nothing. -/
theorem State.takeItem_nothing {s : State} (h : NothingPending s) : s.takeItem = s := by
  obtain ⟨h1, h2, h3⟩ := h
  unfold State.takeItem State.chooseItem State.takeLoading State.takeWork
  cases s.ma with
  | some x => rfl
  | none =>
    simp only [h1]
    cases hd : s.lc.device with
    | loading => simp [h2 hd]
    | running | fallback =>
      obtain ⟨d, e⟩ := h3 (by rw [hd]; decide)
      have hl : s.ru.lowestDirty = none := by
        unfold ReportUnit.lowestDirty
        rw [List.find?_eq_none]
        intro x _
        simp [d x]
      simp [e (by rw [hd]; decide), hl]
    | draining =>
      obtain ⟨d, e⟩ := h3 (by rw [hd]; decide)
      have : s.ru.clean = true := (ReportUnit.clean_iff _).mpr d
      simp [this]

/-- An idle Memory Agent's choice, in the form the statements use. -/
theorem Chosen.rewrites {s u t : State} (h : Chosen u t) (hm : ∀ x, s.ma = some x → x.next ≠ 0) :
    Rewrites s t (fun k => u.ru.dirty[k] = true) u.ru.pendingShown.has where
  marks k := by
    have hne : t.ma = some ⟨.rewrite, k.slot, t.snapshot k, 0⟩ → t.ma ≠ s.ma := fun h hh => hm _ (hh.symm.trans h) rfl
    rw [h.marks k, Bool.and_eq_true, Bool.not_eq_true']
    unfold Starts
    by_cases hx : t.ma = some ⟨.rewrite, k.slot, t.snapshot k, 0⟩
    · rw [decide_eq_true hx, decide_eq_true (hne hx)]; rfl
    · rw [decide_eq_false hx, Bool.and_false]
  pendingShown f := by
    have hne : t.ma = some ⟨.rewrite, PartSlot.status.slot, t.snapshot .status, 0⟩ → t.ma ≠ s.ma :=
      fun h hh => hm _ (hh.symm.trans h) rfl
    rw [h.pendingShown]
    unfold Starts
    by_cases hx : t.ma = some ⟨.rewrite, PartSlot.status.slot, t.snapshot .status, 0⟩
    · rw [decide_eq_true hx, decide_eq_true (hne hx), if_pos hx]; rfl
    · rw [decide_eq_false hx, Bool.and_false, if_neg hx]; rfl

/-- An item has ended: the next is chosen and the port granted (R24, R27). -/
theorem goesOn_settle {s u : State} (hr : Awake u) (hm : u.ma = none) (hp : u.mp = none) (h1 : u.cp = s.cp)
    (h2 : u.lc.baseSelect = s.lc.baseSelect) (h3 : u.passOver = s.passOver) (h4 : ∀ x, s.ma = some x → x.next ≠ 0) :
    GoesOn s u.settle (fun k => u.ru.dirty[k] = true) u.ru.pendingShown.has := by
  have hc := State.settle_chosen hr hm
  have hr : u.lc.resetAsserted = false := hr
  have e : u.settle = u.takeItem.arbitrate := by simp [State.settle, hr]
  obtain ⟨p1, p2, p3⟩ := u.takeItem_port
  have hl := (Settled.takeItem u).lc
  refine ⟨hc.first, hc.rewrites h4, ?_⟩
  rw [e]
  exact State.arbitrate_granted (p1.trans hp) (p3.trans h1) (by rw [hl]; exact h2) (p2.trans h3)

/-- The choice of work does not read the count of free values used. -/
theorem State.takeItem_free (u : State) (n : Nat) :
    ({ u with freeUsed := n } : State).takeItem = { u.takeItem with freeUsed := n } := by
  have hr (k : PartSlot) : ({ u with freeUsed := n } : State).startRewrite k = { u.startRewrite k with freeUsed := n } := by
    unfold State.startRewrite State.takePending
    split <;> rfl
  have hl : ({ u with freeUsed := n } : State).takeLoading = { u.takeLoading with freeUsed := n } := by
    unfold State.takeLoading
    dsimp only
    split
    · rfl
    · split <;> rfl
  have hw : ({ u with freeUsed := n } : State).takeWork = { u.takeWork with freeUsed := n } := by
    unfold State.takeWork
    dsimp only
    split
    · rfl
    · split
      · rfl
      · split
        · rfl
        · split
          · exact hr _
          · rfl
  unfold State.takeItem State.chooseItem
  dsimp only
  split
  · rfl
  · split
    · exact hl
    all_goals exact hw

/-- The Memory Agent's word at the free port, with no cycle of the controller's (R24). -/
theorem State.arbitrate_agent {v : State} {x : Item} (hp : v.mp = none) (hc : v.cp.cycle = none) (hx : v.ma = some x) :
    WordGranted v.arbitrate x ∧ v.arbitrate.freeUsed = v.freeUsed := by
  have hn : ∀ c, ¬Competes v v.arbitrate.ma c := fun c h => by rw [h.1] at hc; cases hc
  exact ⟨((State.arbitrate_granted (s := v) hp rfl rfl rfl).agentOnly x ((State.arbitrate_ma v).trans hx) hn).1,
    (Settled.arbitrate v).freeUsed⟩

/-- The controller's memory cycle has ended: the Memory Agent and the port go on (R24, R27; log entry 26). -/
theorem returned_settle {s u : State} (hr : Awake u) (hp : u.mp = none) (hc : u.cp.cycle = none) (h1 : u.ma = s.ma)
    (h2 : u.passOver = s.passOver) (h3 : u.freeUsed = s.freeUsed) (h4 : u.ru.pendingShown = s.ru.pendingShown) :
    Returned s u.settleContested (fun k => u.ru.dirty[k] = true) := by
  have hr : u.lc.resetAsserted = false := hr
  -- the two ways on from a state like u
  have way (w t : State) (hw : w = { u with freeUsed := w.freeUsed }) (ht : t = w.takeItem ∨ t = w.settle)
      (hl : LeftToAgent s t) : Returned s t (fun k => u.ru.dirty[k] = true) := by
    have hwm : w.ma = s.ma := by rw [hw]; exact h1
    have hwr : w.lc.resetAsserted = false := by rw [hw]; exact hr
    have hwd : w.ru = u.ru := by rw [hw]
    cases hm : s.ma with
    | none =>
      have hch : Chosen w t := by
        rcases ht with rfl | rfl
        · exact State.takeItem_chosen (hwm.trans hm)
        · exact State.settle_chosen hwr (hwm.trans hm)
      have hrw := hch.rewrites (s := s) (fun x hx => by rw [hm] at hx; cases hx)
      rw [hwd, h4] at hrw
      refine ⟨fun x hx => ?_, fun _ => hch.first, hrw, hl⟩
      rw [hm] at hx; cases hx
    | some x =>
      have hb : w.takeItem = w := State.takeItem_busy (hwm.trans hm)
      have htm : t.ma = s.ma ∧ t.ru = u.ru := by
        rcases ht with rfl | rfl
        · rw [hb]; exact ⟨hwm, hwd⟩
        · simp only [State.settle, hwr, hb]
          exact ⟨(State.arbitrate_ma w).trans hwm, (State.arbitrate_dirty w).trans hwd⟩
      have hst (k : PartSlot) : Starts s t k = false := by simp [Starts, htm.1]
      refine ⟨fun y hy => htm.1.trans hy, fun h => ?_, ⟨fun k => ?_, fun f => ?_⟩, hl⟩
      · rw [hm] at h; cases h
      · rw [hst, htm.2]; simp
      · rw [hst, htm.2, h4]; rfl
  obtain ⟨p1, p2, p3⟩ := u.takeItem_port
  cases hx : u.takeItem.ma with
  | none =>
    have e : u.settleContested = u.settle := by simp [State.settleContested, hr, hx]
    rw [e]
    refine way u _ rfl (.inr rfl) ?_
    have hs : u.settle = u.takeItem.arbitrate := by simp [State.settle, hr]
    have hg := State.arbitrate_granted (s := u) (v := u.takeItem) (p1.trans hp) p3 (by rw [(Settled.takeItem u).lc]) p2
    have hma : u.takeItem.arbitrate.ma = none := (State.arbitrate_ma _).trans hx
    obtain ⟨g1, g2, _⟩ := hg.nobody hma fun c h => by rw [h.1] at hc; cases hc
    unfold LeftToAgent
    rw [hs, hma]
    exact ⟨g1, g2.trans h2, ((Settled.arbitrate _).freeUsed.trans (Settled.takeItem u).freeUsed).trans h3⟩
  | some x =>
    generalize hw : ({ u with freeUsed := u.freeUsed + 1 } : State) = w
    have hwu : w = { u with freeUsed := w.freeUsed } := by rw [← hw]
    have hwx : w.takeItem = { u.takeItem with freeUsed := w.freeUsed } := by
      rw [← hw]; exact State.takeItem_free u _
    have hfree : w.freeUsed = s.freeUsed + 1 := by rw [← hw]; simp [h3]
    have hwr : w.lc.resetAsserted = false := by rw [hwu]; exact hr
    have e : u.settleContested = if Config.freeNextCyclePresent u.freeUsed then w.takeItem else w.settle := by
      simp [State.settleContested, hr, hx, hw]
    rw [e]
    split
    · refine way w _ hwu (.inl rfl) ?_
      unfold LeftToAgent
      rw [hwx]
      simp only [hx]
      exact ⟨hfree, .inr ⟨p1.trans hp, p2.trans h2⟩⟩
    · refine way w _ hwu (.inr rfl) ?_
      have hs : w.settle = w.takeItem.arbitrate := by simp [State.settle, hwr]
      have hg := State.arbitrate_agent (v := w.takeItem) (x := x) (by rw [hwx]; exact p1.trans hp)
        (by rw [hwx]; change u.takeItem.cp.cycle = none; rw [p3]; exact hc) (by rw [hwx]; exact hx)
      unfold LeftToAgent
      rw [hs, (State.arbitrate_ma _).trans (by rw [hwx]; exact hx : w.takeItem.ma = some x)]
      refine ⟨?_, .inl hg.1⟩
      rw [hg.2, hwx]; exact hfree

end Sys2Proof.Machine
end

