-- ==== Sys2Proof/Laws/Writes.lean ====
section
/-! SUPPORT. The controller's write of a word to a controller slot: from its address to what becomes of the record it
completes. -/

namespace Sys2Proof.Machine

open Sys2Proof.Safety

/-! ### Addresses -/

theorem slotAddr_toNat (gb : BitVec 4) (slot : Slot) (p : Pos) :
    (slotAddr gb slot p).toNat = gb.toNat * 65536 + slot.val * 16 + p.val := by
  have := gb.isLt
  simp only [slotAddr, BitVec.toNat_ofNat]
  omega

/-- The address of a slot's word names that slot and word (R2). -/
theorem decompose_slotAddr (gb : BitVec 4) (slot : Slot) (p : Pos) : decompose gb (slotAddr gb slot p) = some (slot, p) := by
  have hn := slotAddr_toNat gb slot p
  have hg := gb.isLt
  have h1 : (slotAddr gb slot p).extractLsb' 16 4 = gb := by
    apply BitVec.eq_of_toNat_eq
    simp only [BitVec.extractLsb'_toNat, Nat.shiftRight_eq_div_pow, hn]
    omega
  have h2 : (slotAddr gb slot p).extractLsb' 13 3 = 0 := by
    apply BitVec.eq_of_toNat_eq
    simp only [BitVec.extractLsb'_toNat, Nat.shiftRight_eq_div_pow, hn]
    change _ = 0
    omega
  have h3 : ((slotAddr gb slot p).extractLsb' 4 9).toFin = slot := by
    apply Fin.ext
    simp only [BitVec.val_toFin, BitVec.extractLsb'_toNat, Nat.shiftRight_eq_div_pow, hn]
    omega
  have h4 : ((slotAddr gb slot p).extractLsb' 0 4).toFin = p := by
    apply Fin.ext
    simp only [BitVec.val_toFin, BitVec.extractLsb'_toNat, Nat.shiftRight_eq_div_pow, hn]
    omega
  rw [decompose, if_pos ⟨h1, h2⟩]
  exact congrArg some (Prod.ext h3 h4)

/-! ### Records -/

/-- A record with its check word set is intact (R10). -/
theorem intact_withCheck (r : Record) : intact (withCheck r) = true := by
  have h : (withCheck r).toList.take 15 = r.toList.take 15 := by
    simp only [withCheck, Vector.toList_set]
    rw [List.take_set_of_le (by omega)]
  have e : checkWord (withCheck r) = checkWord r := by simp only [checkWord, h]
  simp [intact, e]
  simp [withCheck]

/-- The words of a command record. -/
theorem commandRecordOf_words (tag code a b : Word) :
    (commandRecordOf tag code a b)[0] = 0x5400 ∧ (commandRecordOf tag code a b)[1] = tag ∧
    (commandRecordOf tag code a b)[2] = code ∧ (commandRecordOf tag code a b)[3] = a ∧
    (commandRecordOf tag code a b)[4] = b := by
  simp [commandRecordOf, withCheck]

/-- A command record gives back its fields (R147). -/
theorem readCommand_commandRecordOf (tag code a b : Word) :
    readCommand (commandRecordOf tag code a b) = some ⟨tag, code, a, b⟩ := by
  obtain ⟨_, h1, h2, h3, h4⟩ := commandRecordOf_words tag code a b
  have hs : spareFrom (commandRecordOf tag code a b) 5 = true := by
    simp [spareFrom, commandRecordOf, withCheck]
  simp [readCommand, hs, h1, h2, h3, h4]

/-- A command record passes the frame checks of slot 17 (R39). -/
theorem frameReason_commandRecordOf (tag code a b : Word) : frameReason 17 (commandRecordOf tag code a b) = 0 := by
  have h0 := (commandRecordOf_words tag code a b).1
  have hi : intact (commandRecordOf tag code a b) = true := intact_withCheck _
  have hk : recordKind (commandRecordOf tag code a b) = 0x54 := by rw [recordKind, h0]; decide
  have hx : recordIndex (commandRecordOf tag code a b) = 0 := by rw [recordIndex, h0]; decide
  simp only [frameReason, hi, hk, hx]
  decide

/-! ### The write that completes a record -/

/-- The operation that follows a completing write: the record's entry is gone from the assemblies. -/
def State.beforeDecision (slot : Slot) (s : State) : State := s.noteTaken.discardAssembly slot

theorem recordWrite_completes {s : State} {slot : Slot} {p : Pos} {v : Word} {w : Record}
    (h : Completes s slot p v w) (hc : slotClass slot = .controller) :
    ∃ e, s.rv.entry slot = some e ∧ e.slot = slot ∧
      s.recordWrite slot p v = some ((s.beforeDecision slot).completeRecord e w) := by
  have hr : s.lc.resetAsserted = false := h.awake
  have hcl : classify s.lc.baseSelect (slotAddr s.lc.baseSelect slot p) (.write v .both) = .take slot p v := by
    simp [classify, decompose_slotAddr, classifyWrite, hc]
  have hg : gateCode s.lc.device slot = 0 := by
    rcases h.gate with h | ⟨h, h' | h'⟩
    · simp [gateCode, h]
    · simp [gateCode, h, h']
    · simp [gateCode, h, h']
  obtain ⟨e, he, hw⟩ := h.entry
  have hk := (Verifier.entry_slot he).1
  have hall (q : Pos) : (e.words.set p.val (some v))[q] = some w[q] := by
    by_cases hq : q = p
    · subst hq; simp [← h.word]
    · have hv : p.val ≠ q.val := fun hh => hq (Fin.ext hh.symm)
      have := hw q hq
      simpa [hv] using this
  have hvec : e.words.set p.val (some v) = w.map some := by
    ext1 i hi
    have := hall ⟨i, hi⟩
    simpa using this
  have hf : (e.store p v).full = some w := by
    simp only [Assembly.full, Assembly.store, hvec]
    have : (w.map some).toList.all Option.isSome = true := by simp
    rw [if_pos this]
    congr 1
    ext i hi
    simp
  have hs : (e.store p v).slot = slot := hk
  refine ⟨e, he, hk, ?_⟩
  simp only [State.recordWrite, State.controllerCycle, h.free, hr, State.beginCycle, hcl, State.handWord, hg,
    if_true, State.placeWord, he, State.placeInEntry, hf, hs, State.beforeDecision]
  simp only [State.completeRecord, hs, hk]
  rfl

/-- The commit queue once the slot's record w has joined it with its assembly's times (R33, R41). -/
def State.commitsAfter (s : State) (slot : Slot) (w : Record) : List Commit :=
  s.rv.committing ++ ((s.rv.entry slot).map fun e => ⟨slot, w, e.openedAt, e.timeout⟩).toList

theorem verifierAfter_eq (s : State) (slot : Slot) (w : Record) :
    verifierAfter s slot w = { (s.noteTaken.discardAssembly slot).rv with committing := s.commitsAfter slot w } := rfl

/-- A completing write whose record its owner accepts: the effects, the record in the commit queue. -/
theorem recordWrite_accepted {s u : State} {slot : Slot} {p : Pos} {v : Word} {w : Record}
    (h : Completes s slot p v w) (hc : slotClass slot = .controller) (hu : u.rv.committing = s.rv.committing)
    (hd : (s.beforeDecision slot).decideRecord slot w = .accept u) :
    s.recordWrite slot p v = some { u with rv := { u.rv with committing := s.commitsAfter slot w } } := by
  obtain ⟨e, he, hk, hw⟩ := recordWrite_completes h hc
  rw [hw, State.completeRecord, hk, hd]
  simp [State.joinCommits, State.commitsAfter, he, hk, hu]

/-- A command's write that completes its record executes it (R148). -/
theorem commandWrite_executes {s : State} {p : Pos} {tag code a b : Word} (h : CommandReady s p tag code a b) :
    s.commandWrite tag code a b p = some { (s.beforeDecision 17).executeCommand ⟨tag, code, a, b⟩ with
      rv := { ((s.beforeDecision 17).executeCommand ⟨tag, code, a, b⟩).rv with
        committing := s.commitsAfter 17 (commandRecordOf tag code a b) } } := by
  refine recordWrite_accepted h (by decide) (Inner.executeCommand _ (.refl _)).port.2.2.2.2.2.2.2.1 ?_
  have hk : recordIndex (commandRecordOf tag code a b) = 0 := by
    rw [recordIndex, (commandRecordOf_words tag code a b).1]; decide
  simp only [State.decideRecord, frameReason_commandRecordOf, if_true, State.handOff]
  have h1 : asTally 17 = none := by decide
  have h2 : asRunSlot 17 = none := by decide
  have h3 : asChannelSlot 17 = none := by decide
  simp only [h1, h2, h3]
  have h4 : (17 : Slot) ≠ 0 := by decide
  simp only [h4, if_false, State.decideCommand, readCommand_commandRecordOf]

/-- What comes before the decision touches the pool alone. -/
theorem Taken.beforeDecision (s : State) (slot : Slot) : Taken s (s.beforeDecision slot) :=
  .pool _ (.pool _ (.inner (.refl s)))

/-- What a command leaves that executes with outcome o, detail d and the own effects q (R147, R148): those effects, with
the result record, COMMAND_TAKEN and the queued commit. -/
theorem command_answer {s q : State} {p : Pos} {tag code a b : Word} {o : CommandOutcome} {d : Nat}
    {es : List EventRecord} {fs : List Flag} {ks : List PartSlot} (h : CommandReady s p tag code a b)
    (hr : (s.beforeDecision 17).decideOutcome ⟨tag, code, a, b⟩ = ⟨o, d, q⟩)
    (hi : Inner (s.beforeDecision 17) q) (hu : q.uptime = s.uptime) (he : Effects (s.beforeDecision 17) q es fs ks) :
    ∃ t, answer s (s.commandWrite tag code a b p) = .next t ∧ Outside s t ∧
      Reports s t (es ++ [commandTaken s tag code o]) fs (.result :: ks) ∧
      t.lc = { q.lc with result := ⟨tag, code, o, s.count, d⟩ } ∧
      t.rt = q.rt ∧ t.channels = q.channels ∧ t.uptime = s.uptime ∧
      t.rv = { q.rv with committing := s.commitsAfter 17 (commandRecordOf tag code a b) } := by
  rw [commandWrite_executes h]
  have hc : (s.beforeDecision 17).count = s.count := rfl
  generalize hx : (s.beforeDecision 17).executeCommand ⟨tag, code, a, b⟩ = x
  have hxe : x = (q.putResult ⟨tag, code, o, s.count, d⟩).raise .commandTaken code.toNat o.code tag.toNat := by
    rw [← hx]
    simp only [State.executeCommand, hr, hc]
  have hin : Inner q x := by
    rw [hxe]
    exact .raise _ _ _ _ (.mark _ (.loader _ (.refl q) rfl rfl rfl rfl))
  have hef : Effects s x (es ++ [commandTaken s tag code o]) fs (.result :: ks) := by
    have e0 : Effects s (s.beforeDecision 17) [] [] [] := .same rfl rfl rfl
    have e1 : Effects q (q.putResult ⟨tag, code, o, s.count, d⟩) [] [] [.result] :=
      (Effects.same rfl rfl rfl : Effects q { q with lc := { q.lc with result := ⟨tag, code, o, s.count, d⟩ } } [] [] []).trans
        (.mark _ _)
    have e2 := Effects.raise (q.putResult ⟨tag, code, o, s.count, d⟩) .commandTaken code.toNat o.code tag.toNat
    have e3 := ((e0.trans he).trans e1).trans e2
    have hev : eventNow (q.putResult ⟨tag, code, o, s.count, d⟩) .commandTaken code.toNat o.code tag.toNat =
        commandTaken s tag code o := by
      simp [commandTaken, eventNow, State.putResult, State.count, hu]
    rw [hev, ← hxe] at e3
    simp only [List.nil_append, List.append_nil] at e3
    exact e3.recast (fun k => .inl (by simp; tauto)) (by simp)
  generalize hy : ({ x with rv := { x.rv with committing := s.commitsAfter 17 (commandRecordOf tag code a b) } } : State) = y
  have hjoin : Effects s y (es ++ [commandTaken s tag code o]) fs (.result :: ks) := by
    rw [← hy]; exact hef.thenSame rfl rfl rfl
  have htk : Taken s y := by
    rw [← hy]; exact .pool _ (((Taken.beforeDecision s 17).more hi).more hin)
  have hs := Settled.settle y
  have hl : x.lc = { q.lc with result := ⟨tag, code, o, s.count, d⟩ } := by
    rw [hxe]; simp [State.putResult]
  have hcm : x.rv = q.rv := by rw [hxe]; simp [State.putResult]
  refine ⟨y.settle, rfl, htk.outside, hjoin.settle (.inl htk.port.2.2.2.2.1), ?_, ?_, ?_, ?_, ?_⟩
  · rw [hs.lc, ← hy]; exact hl
  · rw [hs.rt, ← hy]; change x.rt = _; rw [hxe]; simp [State.putResult]
  · rw [hs.channels, ← hy]; change x.channels = _; rw [hxe]; simp [State.putResult]
  · rw [hs.uptime, ← hy]; change x.uptime = _; rw [hxe]; simp [State.putResult, hu]
  · rw [hs.rv, ← hy]; simp [hcm]

/-- The same for a command whose own effects leave the loader, the verifier and the time as they were. -/
theorem command_keeps {s q : State} {p : Pos} {tag code a b : Word} {o : CommandOutcome} {d : Nat}
    {es : List EventRecord} {fs : List Flag} {ks : List PartSlot} (h : CommandReady s p tag code a b)
    (hr : (s.beforeDecision 17).decideOutcome ⟨tag, code, a, b⟩ = ⟨o, d, q⟩)
    (hi : Inner (s.beforeDecision 17) q) (hu : q.uptime = s.uptime) (hl : q.lc = s.lc)
    (hv : q.rv = (s.beforeDecision 17).rv) (he : Effects (s.beforeDecision 17) q es fs ks) :
    ∃ t, answer s (s.commandWrite tag code a b p) = .next t ∧ Outside s t ∧ t.uptime = s.uptime ∧ t.rt = q.rt ∧
      t.channels = q.channels ∧ t.lc = loaderAfter s tag code o d ∧
      t.rv = verifierAfter s 17 (commandRecordOf tag code a b) ∧
      Reports s t (es ++ [commandTaken s tag code o]) fs (.result :: ks) := by
  obtain ⟨t, h1, h2, h3, h4, h5, h6, h7, h8⟩ := command_answer h hr hi hu he
  refine ⟨t, h1, h2, h7, h5, h6, ?_, ?_, h3⟩
  · rw [h4, hl]; rfl
  · rw [h8, hv]; rfl

/-- A command answered with no effect of its own (R147). -/
theorem command_nothing {s : State} {p : Pos} {tag code a b : Word} {o : CommandOutcome} {d : Nat}
    (h : CommandReady s p tag code a b)
    (hr : (s.beforeDecision 17).decideOutcome ⟨tag, code, a, b⟩ = ⟨o, d, s.beforeDecision 17⟩) :
    ∃ t, answer s (s.commandWrite tag code a b p) = .next t ∧ Outside s t ∧ t.uptime = s.uptime ∧ t.rt = s.rt ∧
      t.channels = s.channels ∧ t.lc = loaderAfter s tag code o d ∧
      t.rv = verifierAfter s 17 (commandRecordOf tag code a b) ∧ Reports s t [commandTaken s tag code o] [] [.result] :=
  command_keeps h hr (.refl _) rfl rfl rfl (.refl _)

end Sys2Proof.Machine
end

