-- ==== Sys2Proof/Laws/Agent.lean ====
section
/-! SUPPORT. The end of a memory cycle: the controller's cycles and the words of the Memory Agent's items. -/

namespace Sys2Proof.Machine

open Sys2Proof.Safety

/-- The address of the item's next word. -/
def wordAddr (s : State) (x : Item) : Addr := slotAddr s.lc.baseSelect x.slot (Fin.ofNat 16 x.next)

/-- The memory cycle of the item's next word. -/
def agentWordCycle (s : State) (x : Item) : MemCycle := ⟨.agent, wordAddr s x, wordCycle x x.next⟩

/-- A two-lane write that the device state lets through places its word (R34, R35). -/
theorem take_word {s : State} {slot : Slot} {p : Pos} {v : Word} (hr : Awake s) (hf : s.cp.cycle = none)
    (hc : slotClass slot = .controller)
    (hg : s.lc.device = .running ∨ s.lc.device = .fallback ∧ (slot = 0 ∨ slot = 17)) :
    exec (.controllerCycle (slotAddr s.lc.baseSelect slot p) (.write v .both)) s =
      .next (s.placeWord slot p v).settle := by
  have hr : s.lc.resetAsserted = false := hr
  have hcl : classify s.lc.baseSelect (slotAddr s.lc.baseSelect slot p) (.write v .both) = .take slot p v := by
    simp [classify, decompose_slotAddr, classifyWrite, hc]
  have hg : gateCode s.lc.device slot = 0 := by
    rcases hg with h | ⟨h, h' | h'⟩
    · simp [gateCode, h]
    · simp [gateCode, h, h']
    · simp [gateCode, h, h']
  show answer s (s.controllerCycle _ _) = _
  simp only [State.controllerCycle, hf, hr, State.beginCycle, hcl, State.handWord, hg, if_true]
  simp [answer]

/-- The Memory Agent's word completes (R23, R26). -/
theorem agent_answer {s : State} {x : Item} (hr : Awake s)
    (hp : s.mp = some (agentWordCycle s x)) :
    exec .memoryCycleComplete s =
      .next ((s.runCycle (agentWordCycle s x)).agentWord (readWord s.mem (wordAddr s x))).settle := by
  have hr : s.lc.resetAsserted = false := hr
  have ha : s.agentCycle = true := by simp [State.agentCycle, hp, agentWordCycle]
  show answerCycle s s.memoryCycle = _
  simp only [State.memoryCycle, hp, State.finishCycle, hr, answerCycle, ha]
  rfl

/-- An item's word reaches memory (R18). -/
theorem word_written {s t : State} {x : Item} (hm : MemoryWf s)
    (h : t.mem = (s.runCycle (agentWordCycle s x)).mem) : WordWritten s t x := by
  unfold WordWritten
  unfold agentWordCycle wordAddr wordCycle State.runCycle at h
  by_cases hk : x.kind = .loadingRead
  · simp only [hk, if_true] at h ⊢
    intro k; rw [h]
  · simp only [hk, if_false] at h ⊢
    rw [h]
    refine ⟨fun k h1 h2 => by rw [memByte_writeWord hm, if_neg h1, if_neg h2], ?_⟩
    rw [readWord_writeWord_both hm]; simp

/-- What leaves the blocks as they were leaves them so after the Memory Agent and the port have gone on. -/
theorem same_after {s u t : State} (ha : After u t) (h1 : u.pending = s.pending) (h3 : u.uptime = s.uptime)
    (h4 : u.lc = s.lc) (h5 : u.rv = s.rv) (h6 : u.rt = s.rt) (h7 : u.channels = s.channels) (h8 : u.ru = s.ru) :
    SameBlocks s t := by
  obtain ⟨n, hs⟩ := ha.settled
  refine ⟨hs.pending.trans h1, hs.uptime.trans h3, hs.lc.trans h4, hs.rv.trans h5, hs.rt.trans h6,
    hs.channels.trans h7, ?_⟩
  rw [← h8]
  exact hs.ru

/-- Without a cycle in progress the Controller Port stays as it is. -/
theorem settle_cp_none {u : State} (h : u.cp.cycle = none) : u.settle.cp = u.cp := by
  have h0 : u.takeItem.cp = u.cp := u.takeItem_port.2.2
  unfold State.settle
  split
  · rfl
  · have : u.takeItem.controllerRequest = none := by simp [State.controllerRequest, h0, h]
    unfold State.arbitrate State.decideGrant
    rw [this]
    split
    · split <;> first | exact h0 | (rename_i h1 _; simp at h1)
    · exact h0

/-- The end of a memory cycle changes the port and memory alone. -/
theorem runCycle_mem (s : State) (m : MemCycle) : s.runCycle m = { s with mp := none, mem := (s.runCycle m).mem } := by
  unfold State.runCycle; split <;> rfl

/-- With a current item and a free port a grant decision is made. -/
theorem settle_item {u : State} {y : Item} (hr : Awake u) (hy : u.ma = some y) (hp : u.mp = none) :
    u.settle = u.decideGrant := by
  have hr : u.lc.resetAsserted = false := hr
  unfold State.settle State.arbitrate
  rw [State.takeItem_busy hy, hp]; simp [hr]

/-- All items write but the loading reads. -/
theorem writes_iff (k : ItemKind) : k.writes = decide (k ≠ .loadingRead) := by cases k <;> rfl

/-- An item's sixteenth word completes (section 2.4). -/
theorem item_answer {s : State} {x : Item} {k : ItemKind} (hr : Awake s) (h : LastWord s k x) :
    exec .memoryCycleComplete s =
      .next (({ s.runCycle (agentWordCycle s x) with ma := none } : State).itemDone
        (x.advance (readWord s.mem (wordAddr s x)))).settle ∧
    answer s (s.itemCycle k) = exec .memoryCycleComplete s := by
  obtain ⟨hk, hn, hx, hp⟩ := h
  have hp' : s.mp = some (agentWordCycle s x) := by
    unfold agentWordCycle wordAddr
    rw [hn]; exact hp
  have h1 := agent_answer hr hp'
  constructor
  · rw [h1, runCycle_mem]
    simp only [State.agentWord, hx, hn]
    simp
  · have : s.lastWordOf k = true := by
      simp [State.lastWordOf, hx, hk, hn, State.agentCycle, hp]
    have ha : s.agentCycle = true := by simp [State.agentCycle, hp]
    show answer s (s.itemCycle k) = answerCycle s s.memoryCycle
    simp [State.itemCycle, this, answer, answerCycle, ha, State.settleAfter]

end Sys2Proof.Machine
end

