-- ==== Sys2Proof/Laws/Demand.lean ====
section
/-! SUPPORT. The shared operations on a channel's demand: what each does to the channel and what it reports. -/

namespace Sys2Proof.Machine

open Sys2Proof.Safety

/-- The channels after channel c's unit becomes x. -/
theorem chan_of_channels {s t : State} {c : Chan} {x : Channel} (h : t.channels = s.channels.set c.val x) :
    t.chan c = x ∧ ∀ k, k ≠ c → t.chan k = s.chan k := by
  refine ⟨by simp [State.chan, h], fun k hk => ?_⟩
  have : c.val ≠ k.val := fun hh => hk (Fin.ext hh.symm)
  simp [State.chan, h, this]

/-- The operation changes channel c alone, to y, among everything but what is reported. -/
structure OnChannel (c : Chan) (s t : State) (y : Channel) : Prop where
  inner : Inner s t
  uptime : t.uptime = s.uptime
  lc : t.lc = s.lc
  rv : t.rv = s.rv
  rt : t.rt = s.rt
  channels : t.channels = s.channels.set c.val y

namespace OnChannel
variable {c : Chan} {s t u : State} {x y : Channel}

theorem chan (h : OnChannel c s t y) : t.chan c = y := (chan_of_channels h.channels).1
theorem others (h : OnChannel c s t y) : ∀ k, k ≠ c → t.chan k = s.chan k := (chan_of_channels h.channels).2
theorem count (h : OnChannel c s t y) : t.count = s.count := by simp [State.count, h.uptime]
theorem refl (c : Chan) (s : State) : OnChannel c s s (s.chan c) :=
  ⟨.refl s, rfl, rfl, rfl, rfl, by simp [State.chan]⟩

theorem trans (h : OnChannel c s t x) (k : OnChannel c t u y) : OnChannel c s u y where
  inner := h.inner.trans k.inner
  uptime := k.uptime.trans h.uptime
  lc := k.lc.trans h.lc
  rv := k.rv.trans h.rv
  rt := k.rt.trans h.rt
  channels := by rw [k.channels, h.channels]; simp

theorem putChan (h : OnChannel c s t x) (y : Channel) (hy : ChanStep x y) : OnChannel c s (t.putChan c y) y :=
  h.trans ⟨.putChan c y (.refl t) (h.chan ▸ hy), by simp, by simp, by simp, by simp, by simp⟩

theorem setChan (h : OnChannel c s t x) (y : Channel) (hy : ChanStep x y) : OnChannel c s (t.setChan c y) y :=
  h.trans ⟨.chan c y (.refl t) (h.chan ▸ hy), rfl, rfl, rfl, rfl, rfl⟩

theorem same (h : OnChannel c s t y) (hi : Inner t u) (h1 : u.uptime = t.uptime) (h2 : u.lc = t.lc) (h3 : u.rv = t.rv)
    (h4 : u.rt = t.rt) (h5 : u.channels = t.channels) : OnChannel c s u y where
  inner := h.inner.trans hi
  uptime := h1.trans h.uptime
  lc := h2.trans h.lc
  rv := h3.trans h.rv
  rt := h4.trans h.rt
  channels := h5.trans h.channels

theorem raise (h : OnChannel c s t y) (e : EventCode) (a d v : Nat) : OnChannel c s (t.raise e a d v) y :=
  h.same (.raise _ _ _ _ (.refl t)) (by simp) (by simp) (by simp) (by simp) (by simp)

theorem latch (h : OnChannel c s t y) (f : Flag) : OnChannel c s (t.latch f) y :=
  h.same (.latch _ (.refl t)) (by simp) (by simp) (by simp) (by simp) (by simp)

theorem mark (h : OnChannel c s t y) (k : PartSlot) : OnChannel c s (t.mark k) y :=
  h.same (.mark _ (.refl t)) rfl rfl rfl rfl rfl

theorem eventNow (h : OnChannel c s t y) (e : EventCode) (a d v : Nat) :
    Safety.eventNow t e a d v = Safety.eventNow s e a d v := by simp [Safety.eventNow, h.count]

end OnChannel

/-! ### The restrict line and the test of R111 -/

/-- The channel with its line evaluated (R105). -/
def Channel.lineSet (x : Channel) (d : ChannelDescriptor) : Channel :=
  { x with restrict := if d.highMark ≤ x.owed then true else if x.owed ≤ d.lowMark then false else x.restrict }

theorem restrict_eta {x : Channel} {b : Bool} (h : x.restrict = b) : { x with restrict := b } = x := by subst h; rfl

theorem evalRestrict_law {s : State} {c : Chan} {d : ChannelDescriptor} (hd : (s.chan c).descriptor = some d) :
    OnChannel c s (s.evalRestrict c) ((s.chan c).lineSet d) ∧
    Effects s (s.evalRestrict c)
      (if (s.chan c).restrict = false ∧ ((s.chan c).lineSet d).restrict = true
        then [eventNow s .restrictOn c.val d.highMark (s.chan c).owed]
        else if (s.chan c).restrict = true ∧ ((s.chan c).lineSet d).restrict = false
        then [eventNow s .restrictOff c.val d.lowMark (s.chan c).owed] else [])
      (if (s.chan c).restrict = false ∧ ((s.chan c).lineSet d).restrict = true then [.channel c .restrict] else [])
      [] := by
  have h0 := OnChannel.refl c s
  have e0 := Effects.refl s
  simp only [State.evalRestrict, hd]
  by_cases h1 : d.highMark ≤ (s.chan c).owed
  · have hl : (s.chan c).lineSet d = { s.chan c with restrict := true } := by simp [Channel.lineSet, h1]
    rw [if_pos h1, hl]
    cases hr : (s.chan c).restrict
    · rw [if_neg (by simp)]
      simp only [State.assertRestrict]
      refine ⟨(((h0.setChan { s.chan c with restrict := true } ⟨id, id⟩).raise _ _ _ _).latch _), ?_⟩
      refine (((e0.thenSetChan c { s.chan c with restrict := true }).thenRaise .restrictOn c.val d.highMark
        (s.chan c).owed).thenLatch (.channel c .restrict)).as ?_ (by simp) (by simp)
      simp [eventNow]
    · have hx := restrict_eta hr
      rw [if_pos rfl, hx]
      exact ⟨h0, by simpa [hr] using e0⟩
  · rw [if_neg h1]
    by_cases h2 : (s.chan c).owed ≤ d.lowMark
    · have hl : (s.chan c).lineSet d = { s.chan c with restrict := false } := by simp [Channel.lineSet, h1, h2]
      rw [if_pos h2, hl]
      cases hr : (s.chan c).restrict
      · have hx := restrict_eta hr
        rw [if_neg (by simp), hx]
        exact ⟨h0, by simpa [hr] using e0⟩
      · rw [if_pos rfl]
        simp only [State.deassertRestrict]
        refine ⟨(h0.setChan { s.chan c with restrict := false } ⟨id, id⟩).raise _ _ _ _, ?_⟩
        refine ((e0.thenSetChan c { s.chan c with restrict := false }).thenRaise .restrictOff c.val d.lowMark
          (s.chan c).owed).as ?_ (by simp) (by simp)
        simp [eventNow]
    · have hl : (s.chan c).lineSet d = s.chan c := by simp [Channel.lineSet, h1, h2]
      rw [if_neg h2, hl]
      refine ⟨h0, ?_⟩
      cases hr : (s.chan c).restrict <;> simpa [hr] using e0

/-- The channel after the test of R111 at this moment. -/
def Channel.begun (x : Channel) (d : ChannelDescriptor) (now : Nat) : Channel :=
  { x with seq := if x.seq.phase = .idle then (match x.strokeDue with
    | none => x.seq
    | some k => Sequencer.begin k d now) else x.seq }

theorem tryBegin_law {s : State} {c : Chan} {d : ChannelDescriptor} (hd : (s.chan c).descriptor = some d) :
    OnChannel c s (s.tryBegin c) ((s.chan c).begun d s.uptime) ∧
    Effects s (s.tryBegin c) [] []
      (if sameReport (s.chan c) ((s.chan c).begun d s.uptime) then [] else [.channel c]) := by
  have h0 := OnChannel.refl c s
  have e0 := Effects.refl s
  by_cases hp : (s.chan c).seq.phase = .idle
  · cases hk : (s.chan c).strokeDue with
    | none =>
      have hb : (s.chan c).begun d s.uptime = s.chan c := by simp [Channel.begun, hp, hk]
      have ht : s.tryBegin c = s := by simp only [State.tryBegin, hp, hk, hd]
      rw [hb, ht, sameReport_refl]
      exact ⟨h0, e0⟩
    | some k =>
      have hb : (s.chan c).begun d s.uptime = { s.chan c with seq := Sequencer.begin k d s.uptime } := by
        simp [Channel.begun, hp, hk]
      have ht : s.tryBegin c = s.putChan c { s.chan c with seq := Sequencer.begin k d s.uptime } := by
        simp only [State.tryBegin, hp, hk, hd]
      rw [hb, ht]
      refine ⟨h0.putChan _ ⟨fun _ => by simp [OutputsFollow, Sequencer.begin], id⟩, ?_⟩
      exact (e0.thenPutChan c _).as rfl (by simp) (by simp)
  · have hb : (s.chan c).begun d s.uptime = s.chan c := by simp [Channel.begun, hp]
    have ht : s.tryBegin c = s := by
      simp only [State.tryBegin]
      split
      · contradiction
      · rfl
    rw [hb, ht, sameReport_refl]
    exact ⟨h0, e0⟩

/-! ### Crossings -/

theorem distribute_law (s : State) (c : Chan) (n cause : Nat) :
    OnChannel c s (s.distribute c n cause) ((s.chan c).takeCrossings n) ∧
    Effects s (s.distribute c n cause)
      (if (s.chan c).deficit = 0 ∧ 0 < ((s.chan c).takeCrossings n).deficit
        then [eventNow s .deficitStarted c.val cause ((s.chan c).takeCrossings n).deficit] else [])
      (if (s.chan c).deficit = 0 ∧ 0 < ((s.chan c).takeCrossings n).deficit then [.channel c .deficit] else [])
      (if sameReport (s.chan c) ((s.chan c).takeCrossings n) then [] else [.channel c]) := by
  have h1 := (OnChannel.refl c s).putChan _ (.takeCrossings _ n)
  have e1 := (Effects.refl s).thenPutChan c ((s.chan c).takeCrossings n)
  simp only [State.distribute, State.deficitStart, h1.chan]
  by_cases hd : (s.chan c).deficit = 0 ∧ 0 < ((s.chan c).takeCrossings n).deficit
  · rw [if_pos hd, if_pos hd, if_pos hd]
    refine ⟨(h1.raise _ _ _ _).latch _, ?_⟩
    refine ((e1.thenRaise _ _ _ _).thenLatch _).as ?_ (by simp) (by simp)
    rw [h1.eventNow]; rfl
  · rw [if_neg hd, if_neg hd, if_neg hd]
    exact ⟨h1, e1.as rfl (by simp) (by simp)⟩

theorem owedChanged_law {s : State} {c : Chan} {d : ChannelDescriptor} (hd : (s.chan c).descriptor = some d) :
    OnChannel c s (s.owedChanged c) (((s.chan c).lineSet d).begun d s.uptime) ∧
    Effects s (s.owedChanged c)
      (if (s.chan c).restrict = false ∧ ((s.chan c).lineSet d).restrict = true
        then [eventNow s .restrictOn c.val d.highMark (s.chan c).owed]
        else if (s.chan c).restrict = true ∧ ((s.chan c).lineSet d).restrict = false
        then [eventNow s .restrictOff c.val d.lowMark (s.chan c).owed] else [])
      (if (s.chan c).restrict = false ∧ ((s.chan c).lineSet d).restrict = true then [.channel c .restrict] else [])
      (if sameReport ((s.chan c).lineSet d) (((s.chan c).lineSet d).begun d s.uptime) then [] else [.channel c]) := by
  obtain ⟨h1, e1⟩ := evalRestrict_law hd
  have hd' : ((s.evalRestrict c).chan c).descriptor = some d := by rw [h1.chan]; exact hd
  obtain ⟨h2, e2⟩ := tryBegin_law hd'
  rw [h1.chan, h1.uptime] at h2 e2
  exact ⟨h1.trans h2, (e1.trans e2).as (by simp) (by simp) (by simp)⟩

/-- n crossings distributed, the line evaluated and the sequencer's test made, in the statements' words. -/
theorem demand_law {s : State} {c : Chan} {d : ChannelDescriptor} (hd : (s.chan c).descriptor = some d) (n cause : Nat)
    (hn : n ≠ 0) :
    ∃ y, OnChannel c s ((s.distribute c n cause).owedChanged c) y ∧ Distributed (s.chan c) y n (s.chan c).residue ∧
      LineFollows d (s.chan c).restrict y ∧ Begins d s.uptime (s.chan c) y ∧
      Effects s ((s.distribute c n cause).owedChanged c) (demandEvents s ((s.distribute c n cause).owedChanged c) c cause)
        (demandFlags s ((s.distribute c n cause).owedChanged c) c)
        (if sameReport (s.chan c) y then [] else [.channel c]) := by
  obtain ⟨h1, e1⟩ := distribute_law s c n cause
  have hd1 : ((s.distribute c n cause).chan c).descriptor = some d := by rw [h1.chan]; exact hd
  obtain ⟨h2, e2⟩ := owedChanged_law hd1
  rw [h1.chan, h1.uptime] at h2
  have h := h1.trans h2
  refine ⟨_, h, ?_, ?_, ?_, ?_⟩
  · simp [Distributed, Channel.begun, Channel.lineSet, Channel.takeCrossings, Config.maxStrokes, hn]
  · rfl
  · rfl
  · refine (e1.trans e2).as ?_ ?_ ?_
    · simp only [demandEvents, h.chan, h1.chan, h1.eventNow]
      congr 1
      have : (((((s.chan c).takeCrossings n).lineSet d)).begun d s.uptime).descriptor = some d := hd
      rw [this]
      rfl
    · intro f
      simp only [demandFlags, h.chan, h1.chan]
      rfl
    · intro k
      rw [h1.chan, h1.uptime]
      left
      refine (report_split (y := (s.chan c).takeCrossings n) ?_ k).trans ?_
      · simp only [sameReport, Channel.takeCrossings, Channel.lineSet, Channel.begun, Channel.nominal, decide_eq_true_eq]
        tauto
      · have hl : sameReport ((s.chan c).takeCrossings n) (((s.chan c).takeCrossings n).lineSet d) = true := by
          simp [sameReport, Channel.lineSet, Channel.nominal]
        have := report_split (x := (s.chan c).takeCrossings n) (y := ((s.chan c).takeCrossings n).lineSet d)
          (z := (((s.chan c).takeCrossings n).lineSet d).begun d s.uptime) (c := .channel c)
          (by simp only [sameReport, Channel.lineSet, Channel.begun, Channel.nominal, decide_eq_true_eq]; tauto) k
        simp only [List.mem_append, this, hl, if_true, List.not_mem_nil, false_or]

/-- The residue becomes ρ and n crossings are distributed, with what follows (R98, R99). -/
theorem residue_law {s : State} {c : Chan} {d : ChannelDescriptor} (hd : (s.chan c).descriptor = some d)
    (ρ n cause : Nat) {t : State} (ht : t = if n = 0 then s.putChan c { s.chan c with residue := ρ }
      else ((s.putChan c { s.chan c with residue := ρ }).distribute c n cause).owedChanged c) :
    ∃ y, OnChannel c s t y ∧ Distributed (s.chan c) y n ρ ∧ Follows d s.uptime n (s.chan c) y ∧
      Effects s t (demandEvents s t c cause) (demandFlags s t c) (if sameReport (s.chan c) y then [] else [.channel c]) := by
  have h1 := (OnChannel.refl c s).putChan { s.chan c with residue := ρ } ⟨id, id⟩
  have e1 := (Effects.refl s).thenPutChan c { s.chan c with residue := ρ }
  by_cases hn : n = 0
  · rw [if_pos hn] at ht
    subst ht hn
    refine ⟨_, h1, ?_, ?_, e1.as ?_ (fun f => ?_) (by simp)⟩
    · simp [Distributed]
    · simp [Follows]
    · simp only [demandEvents, h1.chan]
      rw [hd]
      cases (s.chan c).restrict <;> simp
    · simp only [demandFlags, h1.chan]
      cases (s.chan c).restrict <;> simp
  · rw [if_neg hn] at ht
    generalize s.putChan c { s.chan c with residue := ρ } = s1 at h1 e1 ht
    have hd1 : (s1.chan c).descriptor = some d := by rw [h1.chan]; exact hd
    obtain ⟨y, h2, hdis, hl, hb, e2⟩ := demand_law hd1 n cause hn
    rw [← ht] at h2 e2
    rw [h1.chan, h1.uptime] at *
    refine ⟨y, h1.trans h2, ?_, ?_, (e1.trans e2).as ?_ ?_ fun k => .inl (report_split ?_ k)⟩
    · simpa only [Distributed] using hdis
    · rw [Follows, if_neg hn]
      exact ⟨hl, hb⟩
    · simp only [demandEvents, h1.chan, h1.eventNow]
      rfl
    · simp only [demandFlags, h1.chan]
      intro f; rfl
    · have hdd : y = _ := hdis
      rw [hdd]
      simp only [sameReport, Channel.nominal, decide_eq_true_eq]
      tauto

/-- Crossings counted against the quantum and distributed, with what follows (R98, R99). -/
theorem countAndSettle_law {s : State} {c : Chan} {d : ChannelDescriptor} (hd : (s.chan c).descriptor = some d)
    (cause : Nat) :
    ∃ y, OnChannel c s (s.countAndSettle c cause) y ∧
      Distributed (s.chan c) y ((s.chan c).residue / (s.chan c).quantum) ((s.chan c).residue % (s.chan c).quantum) ∧
      Follows d s.uptime ((s.chan c).residue / (s.chan c).quantum) (s.chan c) y ∧
      Effects s (s.countAndSettle c cause) (demandEvents s (s.countAndSettle c cause) c cause)
        (demandFlags s (s.countAndSettle c cause) c) (if sameReport (s.chan c) y then [] else [.channel c]) := by
  by_cases hn : (s.chan c).residue / (s.chan c).quantum = 0
  · have e : s.countAndSettle c cause = s := by simp only [State.countAndSettle, hn, if_true]
    have hr : (s.chan c).residue % (s.chan c).quantum = (s.chan c).residue := by
      rcases Nat.div_eq_zero_iff.mp hn with h | h
      · simp [h]
      · exact Nat.mod_eq_of_lt h
    have hsame : (s.chan c).deficit = 0 → ¬ 0 < (s.chan c).deficit := by omega
    have hne : demandEvents s s c cause = [] := by
      simp only [demandEvents, hd]
      cases (s.chan c).restrict <;> simp
    have hnf : demandFlags s s c = [] := by
      simp only [demandFlags]
      cases (s.chan c).restrict <;> simp
    rw [e, hn, hr, hne, hnf]
    refine ⟨s.chan c, .refl c s, ?_, ?_, ?_⟩
    · simp [Distributed]
    · simp [Follows]
    · simpa [sameReport_refl] using Effects.refl s
  · exact residue_law hd _ _ _ (by simp only [State.countAndSettle, hn, if_false, State.countCrossings]; rfl)

/-- The demand of a volume added to the channel (R97, R98, R99). -/
theorem addDemand_law {s : State} {c : Chan} {d : ChannelDescriptor} (hd : (s.chan c).descriptor = some d)
    (volume cause : Nat) :
    ∃ y n, n = ((s.chan c).residue + volume * d.dose) / ((s.chan c).working * 1000) ∧
      OnChannel c s (s.addDemand c volume cause) y ∧
      Distributed (s.chan c) y n (((s.chan c).residue + volume * d.dose) % ((s.chan c).working * 1000)) ∧
      Follows d s.uptime n (s.chan c) y ∧
      Effects s (s.addDemand c volume cause) (demandEvents s (s.addDemand c volume cause) c cause)
        (demandFlags s (s.addDemand c volume cause) c) (if sameReport (s.chan c) y then [] else [.channel c]) := by
  obtain ⟨y, h⟩ := residue_law hd (((s.chan c).residue + volume * d.dose) % (s.chan c).quantum)
    (((s.chan c).residue + volume * d.dose) / (s.chan c).quantum) cause (t := s.addDemand c volume cause)
    (by simp only [State.addDemand, hd])
  exact ⟨y, _, rfl, h⟩

end Sys2Proof.Machine
end

