-- ==== Sys2Proof/Laws/Strokes.lean ====
section
/-! SUPPORT. The stroke sequencer's shared operations: what each does to its channel and what it reports. -/

namespace Sys2Proof.Machine

open Sys2Proof.Safety

/-- From s to t channel c alone becomes y, with these events, flags and marks. -/
structure ChannelOp (c : Chan) (s t : State) (y : Channel) (es : List EventRecord) (fs : List Flag)
    (ks : List PartSlot) : Prop where
  on : OnChannel c s t y
  eff : Effects s t es fs ks

namespace ChannelOp
variable {c : Chan} {s t u : State} {x y : Channel} {es es' : List EventRecord} {fs fs' : List Flag}
  {ks ks' : List PartSlot}

theorem refl (c : Chan) (s : State) : ChannelOp c s s (s.chan c) [] [] [] := ⟨.refl c s, .refl s⟩

theorem trans (h : ChannelOp c s t x es fs ks) (k : ChannelOp c t u y es' fs' ks') :
    ChannelOp c s u y (es ++ es') (fs ++ fs') (ks ++ ks') := ⟨h.on.trans k.on, h.eff.trans k.eff⟩

theorem putChan (h : ChannelOp c s t x es fs ks) (y : Channel) (hy : ChanStep x y) :
    ChannelOp c s (t.putChan c y) y es fs (ks ++ if sameReport x y then [] else [.channel c]) :=
  ⟨h.on.putChan y hy, h.on.chan ▸ h.eff.thenPutChan c y⟩

theorem setChan (h : ChannelOp c s t x es fs ks) (y : Channel) (hy : ChanStep x y) :
    ChannelOp c s (t.setChan c y) y es fs ks := ⟨h.on.setChan y hy, h.eff.thenSetChan c y⟩

theorem raise (h : ChannelOp c s t y es fs ks) (e : EventCode) (a d v : Nat) :
    ChannelOp c s (t.raise e a d v) y (es ++ [eventNow s e a d v]) fs ks :=
  ⟨h.on.raise e a d v, h.on.eventNow e a d v ▸ h.eff.thenRaise e a d v⟩

theorem latch (h : ChannelOp c s t y es fs ks) (f : Flag) :
    ChannelOp c s (t.latch f) y es (fs ++ [f]) ks := ⟨h.on.latch f, h.eff.thenLatch f⟩

theorem mark (h : ChannelOp c s t y es fs ks) (k : PartSlot) : ChannelOp c s (t.mark k) y es fs (ks ++ [k]) :=
  ⟨h.on.mark k, h.eff.thenMark k⟩

/-- The form asked for. -/
theorem as (h : ChannelOp c s t x es fs ks) (hx : y = x) (he : es' = es) (hf : ∀ f, f ∈ fs' ↔ f ∈ fs)
    (hk : ∀ k, (k ∈ ks' ↔ k ∈ ks) ∨ ∃ f ∈ fs, k ∈ flagMarks f) : ChannelOp c s t y es' fs' ks' :=
  ⟨hx ▸ h.on, h.eff.as he hf hk⟩

theorem descriptor (h : ChannelOp c s t x es fs ks) {d : ChannelDescriptor} (hd : x.descriptor = some d) :
    (t.chan c).descriptor = some d := h.on.chan ▸ hd

end ChannelOp

/-- These marks are the channel's report, or none. -/
def OfChannel (c : Chan) (ks : List PartSlot) : Prop := ∀ k ∈ ks, k = .channel c

theorem OfChannel.append {c : Chan} {ks ks' : List PartSlot} (h : OfChannel c ks) (h' : OfChannel c ks') :
    OfChannel c (ks ++ ks') := fun k hk => (List.mem_append.mp hk).elim (h k) (h' k)

theorem OfChannel.ite (c : Chan) (p : Prop) [Decidable p] : OfChannel c (if p then [] else [.channel c]) := by
  intro k hk; split at hk <;> simp_all

theorem OfChannel.nil (c : Chan) : OfChannel c [] := by simp [OfChannel]

theorem OfChannel.one (c : Chan) : OfChannel c [.channel c] := by simp [OfChannel]

/-- Marks of the channel's report that hold it are that one mark. -/
theorem OfChannel.is {c : Chan} {ks : List PartSlot} (h : OfChannel c ks) (hm : PartSlot.channel c ∈ ks) (k : PartSlot) :
    k ∈ [PartSlot.channel c] ↔ k ∈ ks := by
  rw [List.mem_singleton]
  exact ⟨fun e => e ▸ hm, h k⟩

/-- A latched flag of the channel brings the mark of its report with it. -/
theorem OfChannel.flagged {c : Chan} {ks ks' : List PartSlot} {fs : List Flag} {g : ChannelFlag} (h : OfChannel c ks)
    (h' : OfChannel c ks') (hf : Flag.channel c g ∈ fs) (k : PartSlot) :
    (k ∈ ks' ↔ k ∈ ks) ∨ ∃ f ∈ fs, k ∈ flagMarks f := by
  by_cases hk : k = .channel c
  · exact .inr ⟨_, hf, by simp [flagMarks, hk]⟩
  · exact .inl ⟨fun hm => absurd (h' k hm) hk, fun hm => absurd (h k hm) hk⟩

theorem ChanStep.id (x : Channel) : ChanStep x x := ⟨fun h => h, fun h => h⟩

/-- A change of neither the sequencer nor the demand. -/
theorem ChanStep.other {x y : Channel} (h1 : y.seq = x.seq) (h2 : y.owed = x.owed) (h3 : y.credit = x.credit) :
    ChanStep x y := ⟨by simp [OutputsFollow, h1], by simp [DemandBounded, h2, h3]⟩

/-- A change of the sequencer to one whose outputs follow its phase. -/
theorem ChanStep.seq {x y : Channel} (h1 : OutputsFollow x → OutputsFollow y) (h2 : y.owed = x.owed)
    (h3 : y.credit = x.credit) : ChanStep x y := ⟨h1, by simp [DemandBounded, h2, h3]⟩

/-- Crossings counted and distributed, the restrict line not yet evaluated (R98, R99). -/
theorem countCrossings_law (s : State) (c : Chan) (cause : Nat) :
    ∃ y, ChannelOp c s (s.countCrossings c cause) y
      (if (s.chan c).deficit = 0 ∧ 0 < y.deficit then [eventNow s .deficitStarted c.val cause y.deficit] else [])
      (if (s.chan c).deficit = 0 ∧ 0 < y.deficit then [.channel c .deficit] else [])
      (if sameReport (s.chan c) y then [] else [.channel c]) ∧
      Distributed (s.chan c) y ((s.chan c).residue / (s.chan c).quantum) ((s.chan c).residue % (s.chan c).quantum) ∧
      y.restrict = (s.chan c).restrict ∧ y.seq = (s.chan c).seq := by
  by_cases hn : (s.chan c).residue / (s.chan c).quantum = 0
  · have e : s.countCrossings c cause = s := by simp only [State.countCrossings, hn, if_true]
    have hr : (s.chan c).residue % (s.chan c).quantum = (s.chan c).residue := by
      rcases Nat.div_eq_zero_iff.mp hn with h | h
      · simp [h]
      · exact Nat.mod_eq_of_lt h
    rw [e]
    refine ⟨s.chan c, ?_, ?_, rfl, rfl⟩
    · refine (ChannelOp.refl c s).as rfl ?_ ?_ ?_
      · rw [if_neg (by omega)]
      · rw [if_neg (by omega)]; simp
      · simp [sameReport_refl]
    · simp [Distributed, hn, hr]
  · have h1 := (ChannelOp.refl c s).putChan (s.chan c).reduceResidue ⟨id, id⟩
    have e : s.countCrossings c cause = (s.putChan c (s.chan c).reduceResidue).distribute c
        ((s.chan c).residue / (s.chan c).quantum) cause := by
      simp only [State.countCrossings, hn, if_false]
    rw [e]
    generalize s.putChan c (s.chan c).reduceResidue = s1 at h1
    obtain ⟨h2, e2⟩ := distribute_law s1 c ((s.chan c).residue / (s.chan c).quantum) cause
    rw [h1.on.chan] at h2 e2
    simp only [h1.on.eventNow] at e2
    refine ⟨_, (h1.trans ⟨h2, e2⟩).as rfl (by simp; rfl) (by simp; intro f; rfl) ?_, ?_, rfl, rfl⟩
    · intro k
      left
      refine (report_split (y := (s.chan c).reduceResidue) ?_ k).trans (by simp)
      simp only [sameReport, Channel.reduceResidue, Channel.takeCrossings, Channel.nominal, decide_eq_true_eq]
      tauto
    · simp [Distributed, Channel.takeCrossings, Channel.reduceResidue, hn, Config.maxStrokes]

/-! ### The ends of a calibration, and the miss window -/

theorem endCalibration_law (s : State) (c : Chan) (o : CalOutcome) (m : Nat) (v : ServiceState) :
    ChannelOp c s (s.endCalibration c o m v) { s.chan c with cal := (s.chan c).cal.ended o m, service := v }
      [eventNow s .calibrationEnd c.val o.code m] [.channel c o.flag] [.channel c] := by
  have h1 := (ChannelOp.refl c s).putChan { s.chan c with cal := (s.chan c).cal.ended o m, service := v }
    (.other rfl rfl rfl)
  have h2 := ((h1.mark (.channel c)).latch (.channel c o.flag)).raise .calibrationEnd c.val o.code m
  exact h2.as rfl rfl (by simp) fun k =>
    .inl ((((OfChannel.nil c).append (.ite c _)).append (.one c)).is (by simp) k)

theorem failChannel_law (s : State) (c : Chan) (d : ChannelDescriptor) :
    ChannelOp c s (s.failChannel c d)
      { s.chan c with service := .failed, attempts := 0, misses := 0, seq := Sequencer.idle }
      [eventNow s .channelFailed c.val d.missLimit (s.chan c).owed] [.channel c .failed] [.channel c] := by
  have h1 := (ChannelOp.refl c s).putChan
    { s.chan c with service := .failed, attempts := 0, misses := 0, seq := Sequencer.idle }
    (.seq (fun _ => by simp [OutputsFollow, Sequencer.idle]) rfl rfl)
  have h2 := (h1.raise .channelFailed c.val d.missLimit (s.chan c).owed).latch (.channel c .failed)
  exact h2.as rfl rfl (by simp) (((OfChannel.nil c).append (.ite c _)).flagged (g := .failed) (.one c) (by simp))

theorem clearWindow_law (s : State) (c : Chan) :
    ChannelOp c s (s.clearWindow c) { s.chan c with attempts := 0, misses := 0 } [] []
      ([] ++ if sameReport (s.chan c) { s.chan c with attempts := 0, misses := 0 } then [] else [.channel c]) :=
  (ChannelOp.refl c s).putChan { s.chan c with attempts := 0, misses := 0 } (.other rfl rfl rfl)

theorem serving_delivering (x : Channel) : x.service.delivering = InService x := by
  cases h : x.service <;> simp [InService, ServiceState.delivering, h]

/-- The channel after the two tests of the window (R118), the attempt and the miss already in its counts. -/
def Channel.windowTested (x : Channel) (d : ChannelDescriptor) : Channel :=
  if d.missLimit ≤ x.misses then
    { x with
      attempts := 0, misses := 0
      service := if InService x then .failed else x.service
      seq := if InService x then Sequencer.idle else x.seq
      cal := if x.service = .calibrating then calibrationOver .missed else x.cal }
  else if d.missWindow ≤ x.attempts then { x with attempts := 0, misses := 0 } else x

theorem testWindow_law {s : State} {c : Chan} {d : ChannelDescriptor} (hd : (s.chan c).descriptor = some d) :
    ∃ ks, OfChannel c ks ∧ ChannelOp c s (s.testWindow c) ((s.chan c).windowTested d)
      (if d.missLimit ≤ (s.chan c).misses then
        (if (s.chan c).service = .calibrating then [eventNow s .calibrationEnd c.val 4 0] else []) ++
          if InService (s.chan c) then [eventNow s .channelFailed c.val d.missLimit (s.chan c).owed] else [] else [])
      (if d.missLimit ≤ (s.chan c).misses then
        (if (s.chan c).service = .calibrating then [.channel c .calFail] else []) ++
          if InService (s.chan c) then [.channel c .failed] else [] else []) ks := by
  have e : s.testWindow c = if d.missLimit ≤ (s.chan c).misses then s.windowFull c d
      else if d.missWindow ≤ (s.chan c).attempts then s.clearWindow c else s := by
    simp only [State.testWindow, hd]
  rw [e]
  simp only [Channel.windowTested]
  have same (k : PartSlot) (ks : List PartSlot) (fs : List Flag) : (k ∈ ks ↔ k ∈ ks) ∨ ∃ f ∈ fs, k ∈ flagMarks f :=
    .inl Iff.rfl
  have cleared := (OfChannel.nil c).append
    (.ite c (sameReport (s.chan c) { s.chan c with attempts := 0, misses := 0 } = true))
  by_cases h : d.missLimit ≤ (s.chan c).misses
  · simp only [if_pos h, State.windowFull]
    cases hs : (s.chan c).service
    · exact ⟨_, cleared, (clearWindow_law s c).as (by simp [InService, hs]) (by simp [InService, hs])
        (by simp [InService, hs]) (same · _ _)⟩
    · exact ⟨_, cleared, (clearWindow_law s c).as (by simp [InService, hs]) (by simp [InService, hs])
        (by simp [InService, hs]) (same · _ _)⟩
    · exact ⟨_, .one c, (failChannel_law s c d).as (by simp [InService, hs]) (by simp [InService, hs])
        (by simp [InService, hs]) (same · _ _)⟩
    · have h1 := endCalibration_law s c .missed 0 .inService
      have h2 := failChannel_law (s.endCalibration c .missed 0 .inService) c d
      rw [h1.on.chan, h1.on.eventNow] at h2
      refine ⟨_, (OfChannel.one c).append (.one c), (h1.trans h2).as ?_ ?_ ?_ (same · _ _)⟩ <;>
        simp [InService, hs, Calibration.ended, CalOutcome.pulsesKept, calibrationOver, CalOutcome.code, CalOutcome.flag]
    · exact ⟨_, cleared, (clearWindow_law s c).as (by simp [InService, hs]) (by simp [InService, hs])
        (by simp [InService, hs]) (same · _ _)⟩
  · simp only [if_neg h]
    by_cases h2 : d.missWindow ≤ (s.chan c).attempts
    · rw [if_pos h2, if_pos h2]; exact ⟨_, cleared, clearWindow_law s c⟩
    · rw [if_neg h2, if_neg h2]; exact ⟨_, .nil c, .refl c s⟩

/-! ### The end of a stroke -/

/-- The channel once its stroke has had its outcome (R120). -/
def Channel.over (x : Channel) : Channel :=
  { x with seq := if InService x then resting x.seq x.seq.restRef else Sequencer.idle }

theorem afterOutcome_law {s : State} {c : Chan} (hp : (s.chan c).seq.phase ≠ .idle) :
    ChannelOp c s (s.afterOutcome c) (s.chan c).over [] []
      (if (s.chan c).seq.phase = .rest ∧ InService (s.chan c) = true then [] else [.channel c]) := by
  have e : s.afterOutcome c = s.putChan c (s.chan c).over := by
    simp only [State.afterOutcome, serving_delivering, Channel.over]
    cases hq : (s.chan c).seq.phase
    · exact absurd hq hp
    all_goals cases InService (s.chan c) <;> rfl
  rw [e]
  have h1 := (ChannelOp.refl c s).putChan (s.chan c).over (.seq (fun _ => by
    simp only [Channel.over]
    cases InService (s.chan c) <;> simp [OutputsFollow, Sequencer.idle, resting]) rfl rfl)
  refine h1.as rfl rfl (by simp) ?_
  intro k
  left
  cases hq : (s.chan c).seq.phase with
  | idle => exact absurd hq hp
  | _ => cases hi : InService (s.chan c) <;>
    simp [hi, hq, sameReport, Channel.over, Channel.nominal, resting, Sequencer.idle]

theorem afterOutcome_idle {s : State} {c : Chan} (hp : (s.chan c).seq.phase = .idle) : s.afterOutcome c = s := by
  simp only [State.afterOutcome, hp]

/-- The channel, its stroke counted as a miss and reported (R112, R114). -/
def Channel.missCounted (x : Channel) (stuck : Bool) (now : Nat) : Channel :=
  { x with attempts := x.attempts + 1, misses := x.misses + 1, seq := x.seq.restFrom stuck now }

theorem reportMiss_law (s : State) (c : Chan) (stuck : Bool) :
    ChannelOp c s ((s.putChan c ((s.chan c).countAttempt true)).reportMiss c stuck)
      ((s.chan c).missCounted stuck s.uptime)
      [eventNow s (if stuck then .proofStuck else .strokeMissed) c.val (s.chan c).seq.kindCode ((s.chan c).misses + 1)]
      [.channel c (if stuck then .stuck else .miss)] [.channel c] := by
  have h1 := (ChannelOp.refl c s).putChan ((s.chan c).countAttempt true) (.other rfl rfl rfl)
  have h2 := h1.latch (.channel c (if stuck then .stuck else .miss))
  have h3 := h2.raise (if stuck then .proofStuck else .strokeMissed) c.val ((s.chan c).countAttempt true).seq.kindCode
    ((s.chan c).countAttempt true).misses
  have h4 := h3.putChan ((s.chan c).missCounted stuck s.uptime)
    (.seq (by cases stuck <;> exact fun h => h) rfl rfl)
  have e : (s.putChan c ((s.chan c).countAttempt true)).reportMiss c stuck =
      (((s.putChan c ((s.chan c).countAttempt true)).latch (.channel c (if stuck then .stuck else .miss))).raise
        (if stuck then .proofStuck else .strokeMissed) c.val ((s.chan c).countAttempt true).seq.kindCode
        ((s.chan c).countAttempt true).misses).putChan c ((s.chan c).missCounted stuck s.uptime) := by
    simp only [State.reportMiss, h2.on.chan]
    rw [h3.on.chan, h3.on.uptime]
    rfl
  rw [e]
  exact h4.as rfl rfl (by simp) ((((OfChannel.nil c).append (.ite c _)).append (.ite c _)).flagged
    (g := if stuck then .stuck else .miss) (.one c) (by simp))

theorem ownStroke_eq (x : Channel) : x.ownStroke = OwnStroke x := by
  simp only [Channel.ownStroke, OwnStroke]
  cases x.cal.active <;> cases x.seq.finishing <;> simp

/-- The channel once a calibration whose own stroke was missed has ended (R132). -/
def Channel.calMissed (x : Channel) (ends : Bool) : Channel :=
  if ends then { x with cal := calibrationOver .missed, service := .inService } else x

theorem calibrationMissed_law {s : State} {c : Chan} {own full : Bool} (hf : (s.chan c).missesFull = full) :
    ChannelOp c s (s.calibrationMissed c own) ((s.chan c).calMissed (own && !full))
      (if own && !full then [eventNow s .calibrationEnd c.val 4 0] else [])
      (if own && !full then [.channel c .calFail] else []) (if own && !full then [.channel c] else []) := by
  simp only [State.calibrationMissed, hf, Channel.calMissed]
  cases own && !full
  · exact .refl c s
  · have h := endCalibration_law s c .missed 0 .inService
    refine h.as ?_ ?_ ?_ ?_ <;>
      simp [Calibration.ended, CalOutcome.pulsesKept, calibrationOver, CalOutcome.code, CalOutcome.flag]

theorem missed_eq (x : Channel) (d : ChannelDescriptor) (stuck : Bool) (now : Nat) :
    (let y := ((x.missCounted stuck now).calMissed (OwnStroke x && !WindowFull x d true)).windowTested d
      if WindowFull x d true = true ∧ InService x = true then y else y.over) = missed x d stuck now := by
  have hm : WindowFull x d true = decide (d.missLimit ≤ x.misses + 1) := rfl
  have hr : resting (x.seq.restFrom stuck now) (x.seq.restFrom stuck now).restRef =
      resting x.seq (if stuck then now else x.seq.restRef) := rfl
  by_cases h1 : d.missLimit ≤ x.misses + 1 <;> by_cases h4 : d.missWindow ≤ x.attempts + 1 <;>
    cases h2 : OwnStroke x <;> cases hs : x.service <;>
    simp [Channel.missCounted, Channel.calMissed, Channel.windowTested, Channel.over, missed, counted, Fails, EndsMissed,
      hm, h1, h2, h4, InService, hs, hr, bit]

/-- A stroke missed or found STUCK (R112, R114, R118, R120, R132), in the statements' words. -/
theorem missStroke_law {s : State} {c : Chan} {d : ChannelDescriptor} (hd : (s.chan c).descriptor = some d)
    (hp : (s.chan c).seq.phase ≠ .idle) (stuck : Bool) :
    ChannelOp c s (s.missStroke c stuck) (missed (s.chan c) d stuck s.uptime) (missEvents s c d stuck)
      (missFlags (s.chan c) c d stuck) [.channel c] := by
  have h1 := reportMiss_law s c stuck
  simp only [State.missStroke, ownStroke_eq]
  generalize (s.putChan c ((s.chan c).countAttempt true)).reportMiss c stuck = s1 at h1
  have hfull : (s1.chan c).missesFull = WindowFull (s.chan c) d true := by
    rw [h1.on.chan]; simp [Channel.missesFull, Channel.missCounted, hd, WindowFull, bit]
  have h2 := h1.trans (calibrationMissed_law (own := OwnStroke (s.chan c)) hfull)
  have k2 : OfChannel c ([.channel c] ++ if OwnStroke (s.chan c) && !WindowFull (s.chan c) d true then [.channel c] else []) :=
    (OfChannel.one c).append (by intro k hk; split at hk <;> simp_all)
  rw [h1.on.chan, h1.on.eventNow] at h2
  generalize s1.calibrationMissed c (OwnStroke (s.chan c)) = s2 at h2
  have hd2 : (s2.chan c).descriptor = some d := by
    rw [h2.on.chan]; unfold Channel.calMissed; split <;> exact hd
  obtain ⟨ks, k3, h3⟩ := testWindow_law hd2
  rw [h2.on.eventNow, h2.on.eventNow, h2.on.chan] at h3
  have h23 := h2.trans h3
  generalize s2.testWindow c = s3 at h23
  have hm : WindowFull (s.chan c) d true = decide (d.missLimit ≤ (s.chan c).misses + 1) := rfl
  have h24 := h23.as (es' := missEvents s c d stuck) (fs' := missFlags (s.chan c) c d stuck) (ks' := [.channel c]) rfl
    (by
      by_cases h1 : d.missLimit ≤ (s.chan c).misses + 1 <;> cases h2 : OwnStroke (s.chan c) <;>
        cases hs : (s.chan c).service <;>
        simp [missEvents, EndsMissed, Fails, InService, hs, hm, h1, h2, Channel.calMissed, Channel.missCounted])
    (by
      intro f
      by_cases h1 : d.missLimit ≤ (s.chan c).misses + 1 <;> cases h2 : OwnStroke (s.chan c) <;>
        cases hs : (s.chan c).service <;>
        simp [missFlags, EndsMissed, Fails, InService, hs, hm, h1, h2, Channel.calMissed, Channel.missCounted])
    fun k => .inl ((k2.append k3).is (by simp) k)
  rw [← missed_eq]
  by_cases hfi : WindowFull (s.chan c) d true = true ∧ InService (s.chan c) = true
  · rw [if_pos hfi]
    have : (s3.chan c).seq.phase = .idle := by
      rw [h23.on.chan]
      obtain ⟨h1, h2⟩ := hfi
      rw [hm, decide_eq_true_eq] at h1
      cases hs : (s.chan c).service <;>
        simp [InService, hs, hm, h1, Channel.calMissed, Channel.missCounted, Channel.windowTested, Sequencer.idle] at h2 ⊢
    rw [afterOutcome_idle this]
    exact h24
  · rw [if_neg hfi]
    have : (s3.chan c).seq.phase ≠ .idle := by
      rw [h23.on.chan]
      by_cases h1 : d.missLimit ≤ (s.chan c).misses + 1 <;> by_cases h4 : d.missWindow ≤ (s.chan c).attempts + 1 <;>
        cases h2 : OwnStroke (s.chan c) <;> cases hs : (s.chan c).service <;>
        simp [InService, hs, hm, h1, h4, Channel.calMissed, Channel.missCounted, Channel.windowTested] at hfi ⊢ <;>
        exact hp
    exact (h24.trans (afterOutcome_law this)).as (by rw [h23.on.chan]) (by simp) (by simp)
      fun k => .inl (((OfChannel.one c).append (.ite c _)).is (by simp) k)

/-! ### Proof -/

/-- The channel after a delivery, its line evaluated where the owed count changed (R105, R115). -/
def Channel.delivered' (x : Channel) (d : ChannelDescriptor) (k : Option StrokeKind) : Channel :=
  if (x.deliver k).owed = x.owed then x.deliver k else (x.deliver k).lineSet d

theorem deliver_same (x : Channel) (k : Option StrokeKind) :
    (x.deliver k).descriptor = x.descriptor ∧ (x.deliver k).restrict = x.restrict ∧ (x.deliver k).seq = x.seq ∧
      (x.deliver k).deficit = x.deficit := by
  unfold Channel.deliver
  repeat' split
  all_goals exact ⟨rfl, rfl, rfl, rfl⟩

/-- The events of the restrict line between two values of a channel. -/
def lineEvents (s : State) (c : Chan) (d : ChannelDescriptor) (x y : Channel) : List EventRecord :=
  if x.restrict = false ∧ y.restrict = true then [eventNow s .restrictOn c.val d.highMark y.owed]
  else if x.restrict = true ∧ y.restrict = false then [eventNow s .restrictOff c.val d.lowMark y.owed] else []

/-- The flags of the restrict line between two values of a channel. -/
def lineFlags (c : Chan) (x y : Channel) : List Flag :=
  if x.restrict = false ∧ y.restrict = true then [.channel c .restrict] else []

theorem deliverStroke_law {s : State} {c : Chan} {d : ChannelDescriptor} (hd : (s.chan c).descriptor = some d)
    (k : Option StrokeKind) :
    ∃ ks, OfChannel c ks ∧ ChannelOp c s (s.deliverStroke c k) ((s.chan c).delivered' d k)
      (lineEvents s c d (s.chan c) ((s.chan c).delivered' d k)) (lineFlags c (s.chan c) ((s.chan c).delivered' d k)) ks := by
  have h1 := (ChannelOp.refl c s).putChan ((s.chan c).deliver k) (ChanStep.deliver _ k)
  obtain ⟨e1, e2, e3, e4⟩ := deliver_same (s.chan c) k
  simp only [State.deliverStroke, h1.on.chan, Channel.delivered']
  by_cases ho : ((s.chan c).deliver k).owed = (s.chan c).owed
  · rw [if_pos ho, if_pos ho]
    exact ⟨_, (OfChannel.nil c).append (.ite c _), h1.as rfl (by simp [lineEvents, e2]) (by simp [lineFlags, e2])
      fun _ => .inl Iff.rfl⟩
  · rw [if_neg ho, if_neg ho]
    generalize s.putChan c ((s.chan c).deliver k) = t at h1
    obtain ⟨h2, h3⟩ := evalRestrict_law (h1.descriptor (e1.trans hd))
    have h4 := h1.trans ⟨h2, h3⟩
    rw [h1.on.chan, h1.on.eventNow, h1.on.eventNow] at h4
    refine ⟨_, ((OfChannel.nil c).append (.ite c _)).append (.nil c), h4.as rfl ?_ ?_ fun _ => .inl Iff.rfl⟩
    · simp [lineEvents, e2, Channel.lineSet]
    · simp [lineFlags, e2]

/-- The channel once its stroke is proven (R113, R114, R115, R118, R120, R129), apart from its line. -/
def Channel.provenAs (x : Channel) (d : ChannelDescriptor) (line : Bool) : Channel :=
  { counted x d false with
    owed := (afterDelivery x).owed
    credit := (afterDelivery x).credit
    restrict := line
    cal := if WindowFull x d false && decide (x.service = .calibrating) then calibrationOver .missed
      else if OwnStroke x then { x.cal with proven := x.cal.proven + 1 } else x.cal
    seq := if Fails x d false then Sequencer.idle else provenSeq x.seq (InService x) }

theorem counted_tested (x : Channel) (d : ChannelDescriptor) :
    (x.countAttempt false).windowTested d = { counted x d false with
      cal := if WindowFull x d false && decide (x.service = .calibrating) then calibrationOver .missed else x.cal
      seq := if Fails x d false then Sequencer.idle else x.seq } := by
  have hm : WindowFull x d false = decide (d.missLimit ≤ x.misses) := rfl
  by_cases h1 : d.missLimit ≤ x.misses <;> by_cases h4 : d.missWindow ≤ x.attempts + 1 <;> cases hs : x.service <;>
    simp [Channel.countAttempt, Channel.windowTested, counted, Fails, hm, h1, h4, InService, hs, bit]

/-- The line after a delivery (R105, R115). -/
def Channel.lineAfter (x : Channel) (d : ChannelDescriptor) : Bool :=
  if (afterDelivery x).owed = x.owed then x.restrict
  else if d.highMark ≤ (afterDelivery x).owed then true
  else if (afterDelivery x).owed ≤ d.lowMark then false else x.restrict

theorem delivered_eq (x y : Channel) (d : ChannelDescriptor) (h1 : y.owed = x.owed) (h2 : y.credit = x.credit)
    (h3 : y.restrict = x.restrict) :
    y.delivered' d x.seq.kind = { y with
      owed := (afterDelivery x).owed, credit := (afterDelivery x).credit, restrict := x.lineAfter d } := by
  cases hk : x.seq.kind with
  | none => simp [Channel.delivered', Channel.deliver, afterDelivery, hk, Channel.lineAfter, ← h1, ← h2, ← h3]
  | some k =>
    cases k with
    | ordinary =>
      by_cases hz : x.owed - 1 = x.owed <;>
        simp [Channel.delivered', Channel.deliver, afterDelivery, hk, Channel.lineAfter, h1, h3, hz, Channel.lineSet, ← h2]
    | calibration =>
      simp only [Channel.delivered', Channel.deliver, afterDelivery, hk, Channel.lineAfter, ← h1, ← h2, ← h3]
      by_cases h0 : 0 < y.owed
      · have : y.owed ≠ 0 := by omega
        have h5 : y.owed - 1 ≠ y.owed := by omega
        simp [h0, this, h5, Channel.lineSet]
      · have : y.owed = 0 := by omega
        by_cases hc : y.credit < 4095
        · simp [this, hc, Config.maxStrokes]
        · obtain ⟨⟩ := y
          simp_all [Config.maxStrokes]
          simp [Nat.not_lt.mpr hc]

theorem markProven_outputs (q : Sequencer) :
    q.markProven.phase = q.phase ∧ q.markProven.strokeOut = q.strokeOut ∧ q.markProven.wetting = q.wetting := by
  unfold Sequencer.markProven
  split <;> simp_all

theorem proveStroke_law {s : State} {c : Chan} {d : ChannelDescriptor} (hd : (s.chan c).descriptor = some d)
    (hp : (s.chan c).seq.phase = .drive ∨ (s.chan c).seq.phase = .proof) :
    ChannelOp c s (s.proveStroke c) ((s.chan c).provenAs d ((s.chan c).lineAfter d))
      ((if WindowFull (s.chan c) d false && decide ((s.chan c).service = .calibrating)
          then [eventNow s .calibrationEnd c.val 4 0] else []) ++
        (if Fails (s.chan c) d false then [eventNow s .channelFailed c.val d.missLimit (s.chan c).owed] else []) ++
        lineEvents s c d (s.chan c) ((s.chan c).provenAs d ((s.chan c).lineAfter d)))
      ((if WindowFull (s.chan c) d false && decide ((s.chan c).service = .calibrating)
          then [.channel c .calFail] else []) ++
        (if Fails (s.chan c) d false then [.channel c .failed] else []) ++
        lineFlags c (s.chan c) ((s.chan c).provenAs d ((s.chan c).lineAfter d))) [.channel c] := by
  have h1 := (ChannelOp.refl c s).putChan ((s.chan c).countAttempt false) (.other rfl rfl rfl)
  simp only [State.proveStroke, ownStroke_eq]
  generalize s.putChan c ((s.chan c).countAttempt false) = s1 at h1
  obtain ⟨kw, hkw, hw⟩ := testWindow_law (h1.descriptor (d := d) hd)
  have h2 := h1.trans hw
  rw [h1.on.chan, h1.on.eventNow, h1.on.eventNow, counted_tested] at h2
  generalize s1.testWindow c = s2 at h2
  have hm : WindowFull (s.chan c) d false = decide (d.missLimit ≤ (s.chan c).misses) := rfl
  have h3 := h2.as (es' := (if WindowFull (s.chan c) d false && decide ((s.chan c).service = .calibrating)
          then [eventNow s .calibrationEnd c.val 4 0] else []) ++
        (if Fails (s.chan c) d false then [eventNow s .channelFailed c.val d.missLimit (s.chan c).owed] else []))
      (fs' := (if WindowFull (s.chan c) d false && decide ((s.chan c).service = .calibrating)
          then [.channel c .calFail] else []) ++ if Fails (s.chan c) d false then [.channel c .failed] else [])
      (ks' := [.channel c]) rfl
    (by
      by_cases h1 : d.missLimit ≤ (s.chan c).misses <;> cases hs : (s.chan c).service <;>
        simp [Fails, InService, hs, hm, h1, Channel.countAttempt, bit])
    (by
      intro f
      by_cases h1 : d.missLimit ≤ (s.chan c).misses <;> cases hs : (s.chan c).service <;>
        simp [Fails, InService, hs, hm, h1, Channel.countAttempt, bit])
    fun k => .inl ((((OfChannel.nil c).append (.ite c _)).append hkw).is (by simp [sameReport, Channel.countAttempt]) k)
  clear h1 hw h2
  generalize hx : s.chan c = x at *
  generalize hz : (if WindowFull x d false && decide (x.service = .calibrating) then calibrationOver .missed else x.cal)
    = z at h3
  generalize hq : (if Fails x d false then Sequencer.idle else x.seq) = q at h3
  obtain ⟨y, hy⟩ : ∃ y, y = { counted x d false with cal := z, seq := q.markProven } := ⟨_, rfl⟩
  have h4 := h3.setChan y (.seq (by
    obtain ⟨m1, m2, m3⟩ := markProven_outputs q
    rw [hy]
    simp only [OutputsFollow, m1, m2, m3]
    exact fun h => h) (by rw [hy]) (by rw [hy]))
  rw [h3.on.chan, ← hy]
  generalize s2.setChan c y = s3 at h4
  obtain ⟨kd, hkd, h5⟩ := deliverStroke_law (h4.descriptor (d := d) (by rw [hy]; exact hd)) x.seq.kind
  replace h5 := h4.trans h5
  rw [h4.on.chan, delivered_eq x y d (by rw [hy]; rfl) (by rw [hy]; rfl) (by rw [hy]; rfl)] at h5
  generalize s3.deliverStroke c x.seq.kind = s4 at h5
  rw [h5.on.chan]
  obtain ⟨w, hw⟩ : ∃ w, w = { y with
    owed := (afterDelivery x).owed, credit := (afterDelivery x).credit, restrict := x.lineAfter d } := ⟨_, rfl⟩
  rw [← hw] at h5 ⊢
  have h6 := h5.setChan _ (ChanStep.countProven w (OwnStroke x))
  generalize s4.setChan c (w.countProven (OwnStroke x)) = s5 at h6
  have hcal : w.countProven (OwnStroke x) = { w with
      cal := if WindowFull x d false && decide (x.service = .calibrating) then calibrationOver .missed
        else if OwnStroke x then { x.cal with proven := x.cal.proven + 1 } else x.cal } := by
    rw [hw, hy, ← hz]
    simp only [Channel.countProven, OwnStroke]
    cases WindowFull x d false && decide (x.service = .calibrating)
    · by_cases ho : x.cal.active = true ∧ x.seq.kind = some .calibration ∧ x.seq.finishing = false
      · simp [ho]
      · simp [ho]
    · simp [calibrationOver]
  rw [hcal] at h6
  have hins : Fails x d false = false → InService (s5.chan c) = InService x := by
    intro hf
    rw [h6.on.chan, hw, hy]
    simp [InService, counted, hf]
  have hser : (s5.chan c).service.delivering = InService (s5.chan c) := serving_delivering _
  have hlast : (s.chan c).provenAs d (x.lineAfter d) = { s5.chan c with
      seq := if Fails x d false then Sequencer.idle else provenSeq x.seq (InService x) } := by
    rw [hx, h6.on.chan, hw, hy]; rfl
  rw [hx] at hlast
  have hseq : (s5.chan c).seq = q.markProven := by rw [h6.on.chan, hw, hy]
  have hev : ∃ ke, OfChannel c ke ∧ ChannelOp c s5 (s5.afterProof c) (x.provenAs d (x.lineAfter d)) [] [] ke := by
    rw [hlast]
    cases hf : Fails x d false
    · rw [hf] at hq
      have hq' : q = x.seq := by simpa using hq.symm
      subst hq'
      rcases hp with hp | hp
      · have e : s5.afterProof c = s5.putChan c { s5.chan c with seq := provenSeq x.seq (InService x) } := by
          simp only [State.afterProof, hser, hins hf, hseq]
          simp [Sequencer.markProven, hp, Sequencer.stillDriving, provenSeq]
        rw [e]
        have := (ChannelOp.refl c s5).putChan { s5.chan c with seq := provenSeq x.seq (InService x) }
          (.seq (by simp [OutputsFollow, hseq, Sequencer.markProven, hp, provenSeq]) rfl rfl)
        exact ⟨_, (OfChannel.nil c).append (.ite c _), this.as (by simp) rfl (by simp) fun _ => .inl Iff.rfl⟩
      · have hph : (s5.chan c).seq.phase = .proof := by rw [hseq]; simp [Sequencer.markProven, hp]
        have e : s5.afterProof c = s5.afterOutcome c := by simp only [State.afterProof, hph]
        rw [e]
        refine ⟨_, .ite c _, (afterOutcome_law (by rw [hph]; simp)).as ?_ rfl (by simp) fun _ => .inl Iff.rfl⟩
        simp [Channel.over, hins hf, hseq, provenSeq, hp, Sequencer.markProven]
    · rw [hf] at hq
      have hq' : q = Sequencer.idle := by simpa using hq.symm
      have hph : (s5.chan c).seq.phase = .idle := by rw [hseq, hq']; rfl
      have e : s5.afterProof c = s5 := by simp only [State.afterProof, hph]
      rw [e]
      refine ⟨_, .nil c, (ChannelOp.refl c s5).as ?_ rfl (by simp) fun _ => .inl Iff.rfl⟩
      have : (s5.chan c).seq = Sequencer.idle := by rw [hseq, hq']; rfl
      simp [← this]
  obtain ⟨ke, hke, hev⟩ := hev
  refine (h6.trans hev).as rfl ?_ ?_ fun k => .inl ((((OfChannel.one c).append hkd).append hke).is (by simp) k)
  · have : lineEvents s3 c d y w = lineEvents s c d x (x.provenAs d (x.lineAfter d)) := by
      simp only [lineEvents, h4.on.eventNow, hw, hy]; rfl
    simp [this]
  · have : lineFlags c y w = lineFlags c x (x.provenAs d (x.lineAfter d)) := by
      simp only [lineFlags, hw, hy]; rfl
    simp [this]

end Sys2Proof.Machine
end

