-- ==== Sys2Proof/Laws/Timers.lean ====
section
/-! SUPPORT. From an operation on one channel at a timer's deadline to the state after the command; what a calibration's
completion decides. -/

namespace Sys2Proof.Machine

open Sys2Proof.Safety

theorem answer_settle (s v : State) : answer s (some v) = .next v.settle := rfl
theorem awake_eq {s : State} (hr : Awake s) (x : Option State) : s.awake x = x := by
  simp only [Awake] at hr; simp [State.awake, hr]

theorem timer_answer {s v : State} {c : Chan} {y : Channel} {n : Nat} {es fs ks}
    (hr : Awake s) (h : ChannelOp c (s.elapseTo n) v y es fs ks) :
    answer s (s.awake (some v)) = .next v.settle ∧ Elapsed s v.settle n ∧ v.settle.rv = s.rv ∧ v.settle.rt = s.rt ∧
      (∀ k, k ≠ c → v.settle.chan k = s.chan k) ∧ v.settle.chan c = y ∧ Reports (s.elapseTo n) v.settle es fs ks := by
  have hs := Settled.settle v
  have hi : Inner s v := (Inner.elapseTo n (.refl s)).trans h.on.inner
  refine ⟨by rw [awake_eq hr]; rfl, ⟨hi.outside, ?_, ?_⟩, ?_, ?_, ?_, ?_, h.eff.settle (.inl h.on.inner.port.2.2.2.2.1)⟩
  · rw [hs.uptime, h.on.uptime]; rfl
  · rw [hs.lc, h.on.lc]; rfl
  · rw [hs.rv, h.on.rv]; rfl
  · rw [hs.rt, h.on.rt]; rfl
  · intro k hk; rw [hs.chan, h.on.others k hk]; rfl
  · rw [hs.chan, h.on.chan]

theorem demandEvents_chan {s t t' : State} {c : Chan} {n : Nat} (h : t'.chan c = t.chan c) :
    demandEvents s t' c n = demandEvents s t c n := by simp only [demandEvents, h]
theorem demandFlags_chan {s t t' : State} {c : Chan} (h : t'.chan c = t.chan c) :
    demandFlags s t' c = demandFlags s t c := by simp only [demandFlags, h]

theorem completionOutcome_eq {m : Nat} {d : ChannelDescriptor} {o : CalOutcome} (h : CompletesWith m d o) :
    completionOutcome m d = o := by
  have hw : withinTolerance m d = decide ((m - d.nominal) * 100 ≤ d.nominal * d.tolerance ∧ (d.nominal - m) * 100 ≤ d.nominal * d.tolerance ∧
      1000 ≤ m ∧ m ≤ 2000000) := by
    simp only [withinTolerance]
    rcases Nat.le_total m d.nominal with hl | hl
    · have : m - d.nominal = 0 := by omega
      rw [this, Nat.max_eq_right hl, Nat.min_eq_left hl, Bool.eq_iff_iff]; simp
    · have : d.nominal - m = 0 := by omega
      rw [this, Nat.max_eq_left hl, Nat.min_eq_right hl, Bool.eq_iff_iff]; simp
  unfold CompletesWith at h
  unfold completionOutcome
  rw [hw]
  split_ifs at h with h1 h2 <;> simp [h1, h] <;> simp_all

/-- A second test of R111 right after the first changes nothing. -/
theorem begins_again {d : ChannelDescriptor} {now : Nat} {x y : Channel} (h : Begins d now x y) : 
    y.begun d now = y := by
  have hb : ∀ k, (Sequencer.begin k d now).phase ≠ .idle := by intro k; simp [Sequencer.begin]
  unfold Begins at h
  unfold Channel.begun
  by_cases hp : x.seq.phase = .idle
  · rw [if_pos hp] at h
    cases hk : y.strokeDue with
    | none => cases y; simp_all
    | some k =>
      rw [hk] at h
      have : y.seq.phase ≠ .idle := by rw [h]; exact hb k
      simp [this]
  · rw [if_neg hp] at h
    have : y.seq.phase ≠ .idle := by rw [h]; exact hp
    simp [this]

end Sys2Proof.Machine
end

