-- ==== Sys2Proof/Laws/Runs.lean ====
section
/-! SUPPORT. The Run Table's shared operations: what each does to the table and to the channels, and what it reports. -/

namespace Sys2Proof.Machine

open Sys2Proof.Safety

/-- From s to t the Run Table becomes x and the channels y, with these events, flags and marks; the loader, the verifier,
the clock and what lies outside the blocks stay. -/
structure TableOp (s t : State) (x : RunTable) (y : Vector Channel 4) (es : List EventRecord) (fs : List Flag)
    (ks : List PartSlot) : Prop where
  inner : Inner s t
  uptime : t.uptime = s.uptime
  lc : t.lc = s.lc
  rv : t.rv = s.rv
  rt : t.rt = x
  channels : t.channels = y
  eff : Effects s t es fs ks

/-- The table with run r's entry replaced. -/
def RunTable.setRun (x : RunTable) (r : Run) (e : RunEntry) : RunTable := { x with runs := x.runs.set r.val e }

/-- The table with a tally slot's claim replaced. -/
def RunTable.setClaim (x : RunTable) (k : TallySlot) (e : Claim) : RunTable := { x with slots := x.slots.set k.val e }

theorem RunTable.setRun_get (x : RunTable) (r : Run) (e : RunEntry) : (x.setRun r e).runs[r] = e := by
  simp [RunTable.setRun]

theorem RunTable.setRun_ne (x : RunTable) {r q : Run} (e : RunEntry) (h : q ≠ r) : (x.setRun r e).runs[q] = x.runs[q] := by
  have : r.val ≠ q.val := fun hh => h (Fin.ext hh.symm)
  simp [RunTable.setRun, this]

theorem RunTable.setClaim_get (x : RunTable) (k : TallySlot) (e : Claim) : (x.setClaim k e).slots[k] = e := by
  simp [RunTable.setClaim]

theorem RunTable.setClaim_ne (x : RunTable) {k j : TallySlot} (e : Claim) (h : j ≠ k) :
    (x.setClaim k e).slots[j] = x.slots[j] := by
  have : k.val ≠ j.val := fun hh => h (Fin.ext hh.symm)
  simp [RunTable.setClaim, this]

theorem RunTable.setRun_setRun (x : RunTable) (r : Run) (e f : RunEntry) : (x.setRun r e).setRun r f = x.setRun r f := by
  simp [RunTable.setRun]

namespace TableOp
variable {s t u : State} {x z : RunTable} {y w : Vector Channel 4} {es es' : List EventRecord} {fs fs' : List Flag}
  {ks ks' : List PartSlot}

theorem refl (s : State) : TableOp s s s.rt s.channels [] [] [] := ⟨.refl s, rfl, rfl, rfl, rfl, rfl, .refl s⟩

theorem trans (h : TableOp s t x y es fs ks) (k : TableOp t u z w es' fs' ks') :
    TableOp s u z w (es ++ es') (fs ++ fs') (ks ++ ks') :=
  ⟨h.inner.trans k.inner, k.uptime.trans h.uptime, k.lc.trans h.lc, k.rv.trans h.rv, k.rt, k.channels,
    h.eff.trans k.eff⟩

theorem run (h : TableOp s t x y es fs ks) (r : Run) : t.run r = x.runs[r] := by simp [State.run, h.rt]
theorem claim (h : TableOp s t x y es fs ks) (k : TallySlot) : t.claim k = x.slots[k] := by simp [State.claim, h.rt]
theorem chan (h : TableOp s t x y es fs ks) (c : Chan) : t.chan c = y[c] := by simp [State.chan, h.channels]
theorem descriptor (h : TableOp s t x y es fs ks) (r : Run) : t.runDescriptor r = x.descriptors[r] := by
  simp [State.runDescriptor, h.rt]
theorem count (h : TableOp s t x y es fs ks) : t.count = s.count := by simp [State.count, h.uptime]
theorem eventNow (h : TableOp s t x y es fs ks) (e : EventCode) (a d v : Nat) :
    Safety.eventNow t e a d v = Safety.eventNow s e a d v := by simp [Safety.eventNow, h.count]

theorem putRun (h : TableOp s t x y es fs ks) (r : Run) (e : RunEntry) :
    TableOp s (t.putRun r e) (x.setRun r e) y es fs (ks ++ if sameRunReport x.runs[r] e then [] else [.run r]) where
  inner := .putRun r e h.inner
  uptime := by simp [h.uptime]
  lc := by simp [h.lc]
  rv := by simp [h.rv]
  rt := by rw [State.putRun_rt, ← h.rt]; rfl
  channels := by simp [h.channels]
  eff := h.run r ▸ h.eff.thenPutRun r e

theorem setRun (h : TableOp s t x y es fs ks) (r : Run) (e : RunEntry) :
    TableOp s (t.setRun r e) (x.setRun r e) y es fs ks where
  inner := .setRun r e h.inner
  uptime := h.uptime
  lc := h.lc
  rv := h.rv
  rt := by rw [← h.rt]; rfl
  channels := h.channels
  eff := h.eff.thenSetRun r e

theorem setClaim (h : TableOp s t x y es fs ks) (k : TallySlot) (e : Claim) :
    TableOp s (t.setClaim k e) (x.setClaim k e) y es fs ks where
  inner := .setClaim k e h.inner
  uptime := h.uptime
  lc := h.lc
  rv := h.rv
  rt := by rw [← h.rt]; rfl
  channels := h.channels
  eff := h.eff.thenSetClaim k e

theorem raise (h : TableOp s t x y es fs ks) (e : EventCode) (a d v : Nat) :
    TableOp s (t.raise e a d v) x y (es ++ [Safety.eventNow s e a d v]) fs ks where
  inner := .raise e a d v h.inner
  uptime := by simp [h.uptime]
  lc := by simp [h.lc]
  rv := by simp [h.rv]
  rt := by simp [h.rt]
  channels := by simp [h.channels]
  eff := h.eventNow e a d v ▸ h.eff.thenRaise e a d v

theorem latch (h : TableOp s t x y es fs ks) (f : Flag) :
    TableOp s (t.latch f) x y es (fs ++ [f]) ks where
  inner := .latch f h.inner
  uptime := by simp [h.uptime]
  lc := by simp [h.lc]
  rv := by simp [h.rv]
  rt := by simp [h.rt]
  channels := by simp [h.channels]
  eff := h.eff.thenLatch f

theorem mark (h : TableOp s t x y es fs ks) (k : PartSlot) : TableOp s (t.mark k) x y es fs (ks ++ [k]) where
  inner := .mark k h.inner
  uptime := h.uptime
  lc := h.lc
  rv := h.rv
  rt := h.rt
  channels := h.channels
  eff := h.eff.thenMark k

/-- The form asked for. -/
theorem as (h : TableOp s t x y es fs ks) (hx : z = x) (he : es' = es) (hf : ∀ f, f ∈ fs' ↔ f ∈ fs)
    (hk : ∀ k, (k ∈ ks' ↔ k ∈ ks) ∨ ∃ f ∈ fs, k ∈ flagMarks f) : TableOp s t z y es' fs' ks' :=
  { h with rt := hx ▸ h.rt, eff := h.eff.as he hf hk }

/-- After the Memory Agent and the port have gone on. -/
theorem settle (h : TableOp s t x y es fs ks) :
    Outside s t.settle ∧ t.settle.uptime = s.uptime ∧ t.settle.lc = s.lc ∧ t.settle.rv = s.rv ∧ t.settle.rt = x ∧
      t.settle.channels = y ∧ Reports s t.settle es fs ks := by
  have hs := Settled.settle t
  exact ⟨h.inner.outside, hs.uptime.trans h.uptime, hs.lc.trans h.lc, hs.rv.trans h.rv, hs.rt.trans h.rt,
    hs.channels.trans h.channels, h.eff.settle (.inl h.inner.port.2.2.2.2.1)⟩

end TableOp

/-- An operation at a timer's deadline, after the command. -/
theorem table_timer {s v : State} {x : RunTable} {y : Vector Channel 4} {n : Nat} {es fs ks}
    (hr : Awake s) (h : TableOp (s.elapseTo n) v x y es fs ks) :
    answer s (s.awake (some v)) = .next v.settle ∧ Elapsed s v.settle n ∧ v.settle.rv = s.rv ∧ v.settle.rt = x ∧
      v.settle.channels = y ∧ Reports (s.elapseTo n) v.settle es fs ks := by
  obtain ⟨_, h1, h2, h3, h4, h5, h6⟩ := h.settle
  have hi : Inner s v := (Inner.elapseTo n (.refl s)).trans h.inner
  exact ⟨by rw [awake_eq hr]; rfl, ⟨hi.outside, h1, h2⟩, h3, h4, h5, h6⟩

/-- The runs of a state whose table has run r's entry replaced. -/
theorem run_of_setRun {s t : State} {r : Run} {e : RunEntry} (h : t.rt = s.rt.setRun r e) :
    t.run r = e ∧ (∀ q, q ≠ r → t.run q = s.run q) ∧ t.rt.descriptors = s.rt.descriptors ∧ t.rt.slots = s.rt.slots := by
  refine ⟨?_, fun q hq => ?_, by rw [h]; rfl, by rw [h]; rfl⟩
  · rw [State.run, h, RunTable.setRun_get]
  · rw [State.run, h, RunTable.setRun_ne _ _ hq]; rfl

/-! ### Routing (R93, R95, R97) -/

theorem receiver_eq (s : State) (d : RunDescriptor) : s.receiver d = receiverOf s d := by
  simp only [State.receiver, receiverOf]
  cases (s.chan d.primary).service <;> cases (s.chan d.alternate).service <;> cases d.alternatePresent <;>
    simp [ServiceState.usable]

theorem setRun_self (s : State) (r : Run) : s.rt.setRun r (s.run r) = s.rt := by
  simp [RunTable.setRun, State.run]

/-- Nothing of the channel's demand changed: nothing is reported of it. -/
theorem demand_unchanged {s t : State} {c : Chan} (h : t.chan c = s.chan c) (n : Nat) :
    demandEvents s t c n = [] ∧ demandFlags s t c = [] := by
  simp only [demandEvents, demandFlags, h]
  constructor
  · cases (s.chan c).descriptor <;> cases (s.chan c).restrict <;> simp
  · cases (s.chan c).restrict <;> simp

/-- A volume routed (R93): the run's unrouted volume, the channels and what they report. -/
theorem route_law {s : State} {r : Run} {d : RunDescriptor} (hd : s.runDescriptor r = some d) (volume : Nat) :
    ∃ y, TableOp s (s.route r volume) (s.rt.setRun r { s.run r with unrouted := unroutedAfter s r d volume }) y
        (demandEvents s (s.route r volume) (receiverOf s d) r.val) (demandFlags s (s.route r volume) (receiverOf s d))
        ((if unroutedAfter s r d volume = (s.run r).unrouted then [] else [.run r]) ++
          if sameReport (s.chan (receiverOf s d)) ((s.route r volume).chan (receiverOf s d)) then []
          else [.channel (receiverOf s d)]) ∧
      VolumeRouted s (s.route r volume) d volume := by
  by_cases hv : volume = 0
  · have e : s.route r volume = s := by simp only [State.route, hv, if_true]
    have hu : unroutedAfter s r d volume = (s.run r).unrouted := by simp [unroutedAfter, hv]
    obtain ⟨h1, h2⟩ := demand_unchanged (s := s) (c := receiverOf s d) rfl r.val
    rw [e, hu, setRun_self, sameReport_refl, h1, h2, if_pos rfl]
    exact ⟨_, .refl s, fun _ _ => rfl, fun _ => rfl, fun _ h => absurd hv h⟩
  · by_cases hs : (s.chan (receiverOf s d)).service = .unconfigured
    · have e : s.route r volume = s.putRun r { s.run r with unrouted := unroutedAfter s r d volume } := by
        have : unroutedAfter s r d volume = satAdd Config.max48 (s.run r).unrouted volume := by
          rw [unroutedAfter, if_pos ⟨hv, hs⟩]
        simp only [State.route, hv, if_false, hd, receiver_eq, hs, if_true, State.addUnrouted, this]
      have hc : (s.route r volume).chan (receiverOf s d) = s.chan (receiverOf s d) := by rw [e]; simp
      obtain ⟨h1, h2⟩ := demand_unchanged hc r.val
      rw [h1, h2, hc, sameReport_refl]
      rw [e] at hc ⊢
      refine ⟨_, ((TableOp.refl s).putRun r _).as rfl rfl (by simp) fun k => .inl ?_, fun _ _ => by simp, fun _ => hc,
        fun _ _ h => absurd hs h⟩
      have : sameRunReport (s.run r) { s.run r with unrouted := unroutedAfter s r d volume } =
          decide (unroutedAfter s r d volume = (s.run r).unrouted) := by simp [sameRunReport, eq_comm]
      rw [show s.rt.runs[r] = s.run r from rfl, this]
      simp
    · have hu : unroutedAfter s r d volume = (s.run r).unrouted := by simp [unroutedAfter, hs]
      have e : s.route r volume = s.addDemand (receiverOf s d) volume r.val := by
        simp only [State.route, hv, if_false, hd, receiver_eq, hs]
      rw [hu, setRun_self, if_pos rfl, List.nil_append]
      cases hcd : (s.chan (receiverOf s d)).descriptor with
      | none =>
        have e2 : s.addDemand (receiverOf s d) volume r.val = s := by simp only [State.addDemand, hcd]
        obtain ⟨h1, h2⟩ := demand_unchanged (s := s) (c := receiverOf s d) rfl r.val
        rw [e, e2, sameReport_refl, h1, h2]
        exact ⟨_, .refl s, fun _ _ => rfl, fun _ => rfl, fun cd _ _ h => by rw [hcd] at h; simp at h⟩
      | some cd =>
        obtain ⟨y, n, hn, h1, h2, h3, h4⟩ := addDemand_law hcd volume r.val
        rw [← e] at h1 h4
        generalize s.route r volume = t at *
        rw [← h1.chan] at h4
        refine ⟨_, ⟨h1.inner, h1.uptime, h1.lc, h1.rv, h1.rt, h1.channels, h4⟩, h1.others, ?_, ?_⟩
        · rintro (h | h)
          · exact absurd h hv
          · exact absurd h hs
        · intro cd' _ _ hcd'
          have : cd' = cd := Option.some.inj (hcd'.symm.trans hcd)
          subst this
          dsimp only
          rw [← hn, h1.chan]
          exact ⟨h2, h3⟩

end Sys2Proof.Machine
end

