-- ==== Sys2Proof/Laws/Commands.lean ====
section
/-! SUPPORT. The commands of the command record: how a command's own outcome is reached, and what the operations of the
service commands do. -/

namespace Sys2Proof.Machine

open Sys2Proof.Safety

theorem asRun_val {w : Word} {r : Run} (h : w.toNat = r.val) : asRun w.toNat = some r := by simp [asRun, h]

theorem asChan_val {w : Word} {c : Chan} (h : w.toNat = c.val) : asChan w.toNat = some c := by simp [asChan, h]

/-- In RUNNING a command whose code and arguments suit has its own outcome (R147, line 5). -/
theorem own_run {s : State} {x : CommandFields} (hd : s.lc.device = .running)
    (h1 : 1 ≤ x.code.toNat ∧ x.code.toNat ≤ 9) (h2 : argumentA x.code.toNat x.a.toNat = true)
    (h3 : argumentB x.code.toNat x.b.toNat = true) :
    (s.beforeDecision 17).decideOutcome x = (s.beforeDecision 17).ownOutcome x := by
  have hd' : (s.beforeDecision 17).lc.device = .running := hd
  simp [State.decideOutcome, h1, h2, h3, hd']

/-- A command whose own effect is one channel's. -/
theorem command_channel {s q : State} {p : Pos} {tag code a b : Word} {o : CommandOutcome} {d : Nat} {c : Chan}
    {y : Channel} {es : List EventRecord} {fs : List Flag} {ks : List PartSlot} (h : CommandReady s p tag code a b)
    (hr : (s.beforeDecision 17).decideOutcome ⟨tag, code, a, b⟩ = ⟨o, d, q⟩)
    (hq : ChannelOp c (s.beforeDecision 17) q y es fs ks) :
    ∃ t, answer s (s.commandWrite tag code a b p) = .next t ∧ Outside s t ∧ t.uptime = s.uptime ∧ t.rt = s.rt ∧
      t.lc = loaderAfter s tag code o d ∧ t.rv = verifierAfter s 17 (commandRecordOf tag code a b) ∧
      t.chan c = y ∧ (∀ k, k ≠ c → t.chan k = s.chan k) ∧
      Reports s t (es ++ [commandTaken s tag code o]) fs (.result :: ks) := by
  obtain ⟨t, h1, h2, h3, h4, h5, h6, h7, h8⟩ := command_keeps h hr hq.on.inner hq.on.uptime hq.on.lc hq.on.rv hq.eff
  obtain ⟨k1, k2⟩ := chan_of_channels (s := s) (t := t) (h5.trans hq.on.channels)
  exact ⟨t, h1, h2, h3, h4.trans hq.on.rt, h6, h7, k1, k2, h8⟩

/-- A command whose own effect is the Run Table's. -/
theorem command_table {s q : State} {p : Pos} {tag code a b : Word} {o : CommandOutcome} {d : Nat} {x : RunTable}
    {es : List EventRecord} {fs : List Flag} {ks : List PartSlot} (h : CommandReady s p tag code a b)
    (hr : (s.beforeDecision 17).decideOutcome ⟨tag, code, a, b⟩ = ⟨o, d, q⟩)
    (hq : TableOp (s.beforeDecision 17) q x s.channels es fs ks) :
    ∃ t, answer s (s.commandWrite tag code a b p) = .next t ∧ Outside s t ∧ t.uptime = s.uptime ∧
      t.channels = s.channels ∧ t.lc = loaderAfter s tag code o d ∧
      t.rv = verifierAfter s 17 (commandRecordOf tag code a b) ∧ t.rt = x ∧
      Reports s t (es ++ [commandTaken s tag code o]) fs (.result :: ks) := by
  obtain ⟨t, h1, h2, h3, h4, h5, h6, h7, h8⟩ := command_keeps h hr hq.inner hq.uptime hq.lc hq.rv hq.eff
  exact ⟨t, h1, h2, h3, h5.trans hq.channels, h6, h7, h4.trans hq.rt, h8⟩

/-! ### Service changes -/

theorem goInService_law {s : State} {c : Chan} {d : ChannelDescriptor} (hd : (s.chan c).descriptor = some d)
    (former : ServiceState) (hf : (s.chan c).service ≠ .inService) :
    ChannelOp c s (s.goInService c former)
      { s.chan c with
        service := .inService
        seq := if (s.chan c).seq.phase = .idle ∧ 0 < (s.chan c).owed then Sequencer.begin .ordinary d s.uptime
          else (s.chan c).seq }
      [eventNow s .channelService c.val 2 former.code] [] [.channel c] := by
  have h1 := ((ChannelOp.refl c s).putChan { s.chan c with service := .inService } (.other rfl rfl rfl)).raise
    .channelService c.val 2 former.code
  have hs : sameReport (s.chan c) { s.chan c with service := .inService } = false := by simp [sameReport, hf]
  rw [hs] at h1
  generalize hx : ({ s.chan c with service := .inService } : Channel) = x at h1
  have e : s.goInService c former = ((s.putChan c x).raise .channelService c.val 2 former.code).tryBegin c := by
    rw [← hx]; rfl
  rw [e]
  generalize (s.putChan c x).raise .channelService c.val 2 former.code = s1 at h1
  obtain ⟨k1, k2⟩ := tryBegin_law (h1.descriptor (d := d) (by rw [← hx]; exact hd))
  rw [h1.on.chan, h1.on.uptime] at k1 k2
  refine (h1.trans ⟨k1, k2⟩).as ?_ (by simp) (by simp) (by simp)
  subst hx
  simp only [Channel.begun, Channel.strokeDue]
  by_cases hp : (s.chan c).seq.phase = .idle <;> by_cases ho : 0 < (s.chan c).owed <;> simp [hp, ho]

theorem goOutOfService_law (s : State) (c : Chan) (former : ServiceState) :
    ChannelOp c s (s.goOutOfService c former)
      { s.chan c with service := .outOfService, seq := leftService (s.chan c).seq }
      [eventNow s .channelService c.val 1 former.code] [.channel c .outOfService] [.channel c] := by
  have hl : (s.chan c).seq.leave = leftService (s.chan c).seq := by
    simp only [Sequencer.leave, leftService]
    cases (s.chan c).seq.phase <;> rfl
  have h1 := (((ChannelOp.refl c s).putChan { s.chan c with service := .outOfService, seq := (s.chan c).seq.leave }
    (.seq (fun h => outputsFollow_leave h) rfl rfl)).raise .channelService c.val ServiceState.outOfService.code
    former.code).latch (.channel c .outOfService)
  rw [hl] at h1
  have e : s.goOutOfService c former = ((s.putChan c { s.chan c with
      service := .outOfService, seq := leftService (s.chan c).seq }).raise .channelService c.val
      ServiceState.outOfService.code former.code).latch (.channel c .outOfService) := by rw [← hl]; rfl
  rw [e]
  exact h1.as rfl rfl (by simp) (((OfChannel.nil c).append (.ite c _)).flagged (g := .outOfService) (.one c) (by simp))

/-! ### Slots and history -/

theorem leaveSlot_law {s : State} {r : Run} {k : TallySlot} (h : (s.run r).currentSlot = some k) :
    TableOp s (s.leaveSlot r)
      ((s.rt.setClaim k (.history r (s.uptime + s.historyHold))).setRun r
        { s.run r with historyCount := (s.run r).historyCount + 1 }) s.channels [] [] [.run r] := by
  have e : s.leaveSlot r = s.enterHistory r k := by simp only [State.leaveSlot, h]
  rw [e]
  have h1 := (((TableOp.refl s).setClaim k (.history r (s.uptime + s.historyHold))).putRun r
    { s.run r with historyCount := (s.run r).historyCount + 1 }).mark (.run r)
  exact h1.as rfl rfl (by simp) (by simp)

theorem unbind_law {s : State} {r : Run} {k : TallySlot} (h : (s.run r).currentSlot = some k) (v : RunCondition)
    (cause : Nat) :
    TableOp s (s.unbind r v cause)
      ((s.rt.setClaim k (.history r (s.uptime + s.historyHold))).setRun r
        (unboundRun { s.run r with historyCount := (s.run r).historyCount + 1 } v)) s.channels
      [eventNow s .runUnbound r.val cause k.val] [] [.run r] := by
  have h1 := leaveSlot_law h
  have hr := h1.run r
  rw [RunTable.setRun_get] at hr
  have h2 := ((h1.putRun r (unboundRun { s.run r with historyCount := (s.run r).historyCount + 1 } v)).raise .runUnbound
    r.val cause k.val).mark (.run r)
  have hn : (s.run r).slotNumber = k.val := by simp only [RunEntry.slotNumber, h]
  have e : s.unbind r v cause = (((s.leaveSlot r).putRun r
      (unboundRun { s.run r with historyCount := (s.run r).historyCount + 1 } v)).raise .runUnbound r.val cause k.val).mark
      (.run r) := by
    simp only [State.unbind, hr, hn]; rfl
  rw [e]
  exact h2.as (by rw [RunTable.setRun_setRun]) rfl (by simp) fun k => .inl (by simp; tauto)

end Sys2Proof.Machine
end

