-- ==== Sys2Proof/Laws/Events.lean ====
section
/-! SUPPORT. What a command does at the memory port, said exactly: `exec_event` names for every answer of `exec` the
event that made it, before the Memory Agent and the Port Arbiter go on. -/

namespace Sys2Proof.Machine

open Sys2Proof.Safety

/-- The events a command can be. -/
inductive Event (s : State) : State → Prop
  /-- An event of the blocks, beside the port. -/
  | blocks {u : State} (hr : s.lc.resetAsserted = false) (h : Inner s u) : Event s u
  /-- A controller cycle begins under reset (R16). -/
  | stopped (a : Addr) (op : BusOp) (hr : s.lc.resetAsserted = true) : Event s (s.stopCycle a op)
  /-- A controller cycle begins (R17). -/
  | begins (a : Addr) (op : BusOp) (hc : s.cp.cycle = none) (hr : s.lc.resetAsserted = false) :
      Event s (s.beginCycle a op)
  /-- The memory cycle in progress completes (R23). -/
  | ends (m : MemCycle) (hm : s.mp = some m) : Event s (s.finishCycle m)
  /-- RESET_n is asserted. -/
  | assert (hr : s.lc.resetAsserted = false) : Event s s.assertReset
  /-- RESET_n is released. -/
  | release (gb : BitVec 4) (sc : BitVec 6) : Event s (s.resetRelease gb sc)

theorem Event.memoryCycle {s t : State} (h : s.memoryCycle = some t) : Event s t := by
  unfold State.memoryCycle at h
  split at h
  · cases h
  · rename_i m hm
    obtain rfl := Option.some.inj h
    exact .ends m hm

theorem Event.itemCycle {s t : State} {k : ItemKind} (h : s.itemCycle k = some t) : Event s t := by
  unfold State.itemCycle at h
  split at h
  · exact .memoryCycle h
  · cases h

theorem Event.controllerCycle {s t : State} {a : Addr} {op : BusOp} (h : s.controllerCycle a op = some t) :
    Event s t := by
  unfold State.controllerCycle at h
  split at h
  · cases h
  · rename_i hc
    obtain rfl := Option.some.inj h
    cases hr : s.lc.resetAsserted
    · exact .begins a op hc hr
    · exact .stopped a op hr

/-- Every answer of `exec` is the state unchanged, or an event's, after which the Memory Agent and the Port Arbiter have
gone on; on a free port they have both done so. -/
theorem exec_event {i : Instr} {s t : State} (h : exec i s = .next t) :
    t = s ∨ ∃ u, Event s u ∧ After u t ∧ (s.mp = none → t = u.settle) := by
  have ofEvent {e : Option State} (he : answer s e = .next t) (hi : ∀ u, e = some u → Event s u) :
      t = s ∨ ∃ u, Event s u ∧ After u t ∧ (s.mp = none → t = u.settle) := by
    rcases answer_next he with h | ⟨u, hu, ht⟩
    · exact .inl h
    · exact .inr ⟨u, hi u hu, ht ▸ .settle, fun _ => ht⟩
  have ofInner {e : Option State} (he : answer s (s.awake e) = .next t) (hi : ∀ u, e = some u → Inner s u) :
      t = s ∨ ∃ u, Event s u ∧ After u t ∧ (s.mp = none → t = u.settle) :=
    ofEvent he fun u hu => .blocks (awake_some hu).2 (hi u (awake_some hu).1)
  have ofCycle {e : Option State} (he : answerCycle s e = .next t) (hi : ∀ u, e = some u → s.memoryCycle = some u) :
      t = s ∨ ∃ u, Event s u ∧ After u t ∧ (s.mp = none → t = u.settle) := by
    rcases answerCycle_next he with h | ⟨u, hu, ht⟩
    · exact .inl h
    · exact .inr ⟨u, .memoryCycle (hi u hu), ht, fun hp => by
        have := hi u hu
        simp [State.memoryCycle, hp] at this⟩
  cases i
  case resetAssert =>
    refine ofEvent h fun u hu => ?_
    unfold State.resetAssert at hu
    split at hu
    · cases hu
    · rename_i hr
      obtain rfl := Option.some.inj hu
      exact .assert (by simpa using hr)
  case resetRelease gb sc =>
    refine ofEvent (e := some (s.resetRelease gb sc)) h fun u hu => ?_
    obtain rfl := Option.some.inj hu
    exact .release gb sc
  case memoryCycleComplete => exact ofCycle h fun u hu => hu
  case commitComplete => exact ofEvent h fun u hu => .itemCycle hu
  case eventAppendComplete => exact ofEvent h fun u hu => .itemCycle hu
  case rewriteComplete => exact ofEvent h fun u hu => .itemCycle hu
  case loadingReadComplete => exact ofEvent h fun u hu => .itemCycle hu
  case statusRead w =>
    refine ofCycle h fun u hu => ?_
    unfold State.statusReadCycle at hu
    split at hu
    · exact hu
    · cases hu
  case drainComplete =>
    refine ofInner h fun u hu => ?_
    unfold State.drainComplete at hu
    split at hu
    · obtain rfl := Option.some.inj hu; exact .startReload (.refl s)
    · cases hu
  case assemblyExpired => exact ofInner h fun u hu => .assemblyExpiry hu (.refl s)
  case historyExpiry => exact ofInner h fun u hu => .historyExpiry hu (.refl s)
  case stalenessExpiry => exact ofInner h fun u hu => .stalenessExpiry hu (.refl s)
  case horizonExpiry => exact ofInner h fun u hu => .horizonExpiry hu (.refl s)
  case substitutionStep => exact ofInner h fun u hu => .substitutionStep hu (.refl s)
  case basePeriodExpiry => exact ofInner h fun u hu => .basePeriodExpiry hu (.refl s)
  case precheckExpiry => exact ofInner h fun u hu => .precheckExpiry hu (.refl s)
  case driveExpiry => exact ofInner h fun u hu => .driveExpiry hu (.refl s)
  case proofWindowExpiry => exact ofInner h fun u hu => .proofWindowExpiry hu (.refl s)
  case restEnd => exact ofInner h fun u hu => .restExpiry hu (.refl s)
  case proofClosure => exact ofInner h fun u hu => .proofClosure hu (.refl s)
  case meterPulse => exact ofInner h fun u hu => .meterPulse hu (.refl s)
  all_goals exact ofEvent h fun u hu => .controllerCycle hu

/-- A step on a queue with a command: that command's event. A step on an empty queue leaves the blocks as they are, or
takes a decision left open. -/
theorem step_event {s t : State} (h : step s = .next t) :
    (∃ p n k, t = { s with pending := p, uptime := n, freeUsed := k }) ∨
    ∃ p u, Event { s with pending := p } u ∧ After u t := by
  unfold step at h
  split at h
  · cases h
    unfold State.idleStep
    split
    · exact .inl ⟨_, _, _, rfl⟩
    · rename_i hr
      split
      · exact .inr ⟨s.pending, s, .blocks (by simpa using hr) (.refl s), .settle⟩
      · left
        unfold State.awakeStep
        split
        · exact ⟨_, _, _, rfl⟩
        · split <;> exact ⟨_, _, _, rfl⟩
  · rcases exec_event h with rfl | ⟨u, hu, ha, _⟩
    · exact .inl ⟨_, _, _, rfl⟩
    · exact .inr ⟨_, u, hu, ha⟩

/-! ### Slots of the pool -/

/-- Every ASSEMBLING or COMMITTING entry is of a slot with this property. -/
def PoolSlots (P : Slot → Prop) (s : State) : Prop :=
  (∀ e ∈ s.rv.assembling, P e.slot) ∧ ∀ e ∈ s.rv.committing, P e.slot

theorem Inner.poolSlots {P : Slot → Prop} {s t : State} (h : Inner s t) (hs : PoolSlots P s) : PoolSlots P t :=
  ⟨fun e he => hs.1 e (h.assembling.subset he), fun e he => hs.2 e (h.port.2.2.2.2.2.2.2.1 ▸ he)⟩

theorem poolSlots_completeRecord {P : Slot → Prop} {s : State} {e : Assembly} {w : Record} (hk : P e.slot)
    (hs : PoolSlots P s) : PoolSlots P (s.completeRecord e w) := by
  unfold State.completeRecord
  split
  · exact (Inner.refuseRecord _ _ _ (.refl s)).poolSlots hs
  · rename_i u hu
    obtain ⟨h1, h2⟩ := (Inner.decideRecord hu (.refl s)).poolSlots hs
    refine ⟨h1, fun e he => ?_⟩
    rcases List.mem_append.1 he with he | he
    · exact h2 _ he
    · rw [List.mem_singleton.1 he]; exact hk

/-- A word handed over concerns entries of its own slot alone (R35). -/
theorem poolSlots_handWord {P : Slot → Prop} {s : State} (hs : PoolSlots P s) {k : Slot} (hk : P k) (p : Pos) (v : Word) :
    PoolSlots P (s.handWord k p v) := by
  unfold State.handWord
  split
  · unfold State.placeWord
    split
    · rename_i e he
      obtain ⟨hek, _⟩ := Verifier.entry_slot he
      unfold State.placeInEntry
      split
      · refine ⟨fun x hx => ?_, hs.2⟩
        obtain ⟨y, hy, rfl⟩ := List.mem_map.1 hx
        split
        · show P e.slot; rw [hek]; exact hk
        · exact hs.1 y hy
      · refine poolSlots_completeRecord (by show P e.slot; rw [hek]; exact hk) ⟨fun x hx => ?_, hs.2⟩
        exact hs.1 x (List.mem_filter.1 hx).1
    · split
      · refine ⟨fun x hx => ?_, hs.2⟩
        rcases List.mem_append.1 hx with hx | hx
        · exact hs.1 x hx
        · rw [List.mem_singleton.1 hx]; exact hk
      · exact (Inner.refuseWord _ _ _ (.refl s)).poolSlots hs
  · exact (Inner.refuseWord _ _ _ (.refl s)).poolSlots hs

end Sys2Proof.Machine
end

