-- ==== Sys2Proof/Laws/Layouts.lean ====
section
/-! SUPPORT. The layouts of the part records: what each word of `partRecord` is, that it is intact, and that a number
over several words reads back as it was. -/

namespace Sys2Proof.Machine

theorem withCheck_get (r : Record) (i : Fin 15) : (withCheck r)[i.val] = r[i.val] := by
  have := i.isLt
  simp only [withCheck]
  exact Vector.getElem_set_ne _ _ (by omega)

theorem intact_partRecord (kind index : Nat) (v : Vector Word 14) : intact (partRecord kind index v) = true :=
  intact_withCheck _

theorem num2_words (n : Nat) : num2 (wordOf n 1) (wordOf n 0) = n % 2 ^ 32 := by
  simp only [num2, wordOf, BitVec.toNat_ofNat]; omega

theorem num3_words (n : Nat) : num3 (wordOf n 2) (wordOf n 1) (wordOf n 0) = n % 2 ^ 48 := by
  simp only [num3, wordOf, BitVec.toNat_ofNat]; omega

/-- A number over the lower 24 bits of two words, with a byte before it. -/
theorem num2_over (a n : Nat) : num2 (BitVec.ofNat 16 (a * 256 + n / 2 ^ 16)) (wordOf n 0) = (a * 2 ^ 24 + n) % 2 ^ 32 := by
  simp only [num2, wordOf, BitVec.toNat_ofNat]; omega

theorem partRecord_head (kind index : Nat) (v : Vector Word 14) : (partRecord kind index v)[0] = headWord kind index :=
  withCheck_get _ 0

theorem partRecord_get (kind index : Nat) (v : Vector Word 14) (i : Fin 14) :
    (partRecord kind index v)[i.val + 1] = v[i.val] := by
  refine (withCheck_get _ ⟨i.val + 1, by omega⟩).trans ?_
  revert i; intro ⟨i, hi⟩
  match i with
  | 0 | 1 | 2 | 3 | 4 | 5 | 6 | 7 | 8 | 9 | 10 | 11 | 12 | 13 => rfl

/-- Every word between the head and the check word of a part record. -/
theorem partRecord_words {kind index : Nat} {v : Vector Word 14} {w : Record} (h : partRecord kind index v = w)
    (i : Fin 14) : w[i.val + 1] = v[i.val] := h ▸ partRecord_get kind index v i

/-! ### The snapshots of the reports -/

theorem PartSlot.report_slots : (∀ c, asChannelReport (PartSlot.channel c).slot = some c) ∧
    (∀ r, asChannelReport (PartSlot.run r).slot = none) ∧ ∀ r, asRunReport (PartSlot.run r).slot = some r := by decide

theorem PartSlot.channel_ne (c : Chan) : PartSlot.channel c ≠ .result ∧ PartSlot.channel c ≠ .status ∧
    PartSlot.channel c ≠ .captureHeader ∧ PartSlot.channel c ≠ .captureBody := by revert c; decide

theorem PartSlot.run_ne (r : Run) : PartSlot.run r ≠ .result ∧ PartSlot.run r ≠ .status ∧
    PartSlot.run r ≠ .captureHeader ∧ PartSlot.run r ≠ .captureBody := by revert r; decide

theorem snapshot_channel (s : State) (c : Chan) :
    s.snapshot (.channel c) = channelReport c (channelByte s.ru.latched c) (s.chan c) := by
  simp [State.snapshot, PartSlot.channel_ne c, PartSlot.report_slots.1 c]

theorem snapshot_run (s : State) (r : Run) : s.snapshot (.run r) = runReport r (s.run r) := by
  simp [State.snapshot, PartSlot.run_ne r, PartSlot.report_slots.2.1 r, PartSlot.report_slots.2.2 r]

end Sys2Proof.Machine
end

