-- ==== Sys2Proof/Laws/Loads.lean ====
section
/-! SUPPORT. Loading: the hand-over of a loading read, the order of the reads, and load completion. -/

namespace Sys2Proof.Machine

open Sys2Proof.Safety

/-- The state in which the Load Controller takes the words read. -/
def readDone (s : State) : State := { s with mp := none, ma := none }

/-- A loading read's sixteenth word completes (R31). -/
theorem load_answer {s : State} {x : Item} {w : Record} (hr : Awake s) (h : LastRead s x w) :
   exec .memoryCycleComplete s = .next ((readDone s).takeLoad x.slot w).settle ∧
   exec .loadingReadComplete s = .next ((readDone s).takeLoad x.slot w).settle := by
  obtain ⟨⟨hk, hn, hx, hp⟩, _, _, hw⟩ := h
  have hr : s.lc.resetAsserted = false := hr
  have hwc : wordCycle x 15 = .read := by simp [wordCycle, hk]
  rw [hwc] at hp
  have h1 : exec .memoryCycleComplete s = .next ((readDone s).takeLoad x.slot w).settle := by
    have ha : s.agentCycle = true := by simp [State.agentCycle, hp]
    show answerCycle s s.memoryCycle = _
    simp only [answerCycle, ha, State.settleAfter, State.memoryCycle, hp, State.finishCycle, hr, State.runCycle, State.agentWord, hx, hn]
    have hadv : (x.advance (readWord s.mem (slotAddr s.lc.baseSelect x.slot 15))) = { x with words := w, next := 16 } := by
      unfold Item.advance
      rw [hw]
      have : x.kind.writes = false := by rw [hk]; rfl
      simp only [this, hn]
      congr 1
      ext1 i hi; simp [Vector.getElem_set, Vector.getElem_setIfInBounds]
    rw [hadv]
    simp only [State.itemDone, hk]
    rfl
  have : s.lastWordOf .loadingRead = true := by
      simp [State.lastWordOf, hx, hk, hn, State.agentCycle, hp]
  refine ⟨h1, ?_⟩
  rw [← h1]
  have ha : s.agentCycle = true := by simp [State.agentCycle, hp]
  show answer s (s.itemCycle .loadingRead) = answerCycle s s.memoryCycle
  simp [State.itemCycle, this, answer, answerCycle, ha, State.settleAfter]

/-- The slot read next (R169). -/
theorem next_of_after {a st : Bool} {j k : Slot} (h : AfterInLoad a st j k) : nextLoadSlot a st j = some k := by
  obtain ⟨j, hj⟩ := j
  obtain ⟨k, hk⟩ := k
  unfold AfterInLoad at h
  simp only at h
  unfold nextLoadSlot
  simp only
  rcases h with ⟨rfl, rfl, h⟩ | ⟨rfl, rfl, h⟩ | ⟨h1, h2, h⟩ | ⟨rfl, h⟩ | ⟨h1, h2, h⟩ | ⟨rfl, h⟩ | ⟨h1, h2, h⟩ | ⟨rfl, h⟩ |
    ⟨h1, h2, h⟩ | ⟨rfl, h⟩ | ⟨rfl, h⟩ | ⟨rfl, rfl, h⟩ | ⟨h1, h2, h⟩
  all_goals (try subst h)
  all_goals (try (cases st))
  all_goals (try rfl)
  all_goals (split_ifs <;> first | rfl | omega)

/-- In LOADING with no commit queued the Report Unit is left alone. -/
theorem loading_settle {u : State} (hd : u.lc.device = .loading) (hc : u.rv.committing = []) (hm : u.ma = none) :
    u.settle.ru = u.ru := by
  unfold State.settle State.takeItem State.chooseItem State.takeLoading
  rw [hm, hd, hc]
  split
  · rfl
  · rw [State.arbitrate_dirty]
    simp only []
    split <;> rfl

/-- A loading read is handed over, its record used with the effect v, and the next read requested (R31, R169): v is as
before but for what the use of the record changed. -/
theorem load_next {s v : State} {x : Item} {w : Record} {k : Slot} (hr : Awake s) (h : LastRead s x w)
    (hv : v = (readDone s).useRecord x.slot w) (hd : v.lc.device = .loading) (hu : v.uptime = s.uptime)
    (hn : nextLoadSlot v.lc.cause.afterReset v.lc.station.isSome x.slot = some k) :
    ∃ t, exec .loadingReadComplete s = .next t ∧ exec .memoryCycleComplete s = .next t ∧ Requested s t k ∧
      t.lc = { v.lc with loadSlot := some k } ∧ t.rt = v.rt ∧ t.channels = v.channels ∧ t.rv = v.rv ∧ t.ru = v.ru ∧
      ∀ es fs ks, Effects s v es fs ks → Reports s t es fs ks := by
  obtain ⟨h1, h2⟩ := load_answer hr h
  obtain ⟨⟨hk, hx15, hx, hp⟩, _, hc, _⟩ := h
  have hi : Inner (readDone s) v := hv ▸ Inner.useRecord _ _ (.refl _)
  obtain ⟨a1, a2, a3, a4, a5, a6, a7, a8, a9, a10, a11⟩ := hi.port
  have eu : (readDone s).takeLoad x.slot w = { v with lc := { v.lc with loadSlot := some k } } := by
    unfold State.takeLoad State.nextLoad
    rw [← hv, hn]
  rw [eu] at h1 h2
  generalize hu' : ({ v with lc := { v.lc with loadSlot := some k } } : State) = u at h1 h2
  have e1 : u.ma = none := by rw [← hu']; exact a5
  have e2 : u.rv.committing = [] := by rw [← hu']; exact a8.trans hc
  have e3 : u.lc.device = .loading := by rw [← hu']; exact hd
  have hra : Awake u := by rw [← hu']; exact a9.trans hr
  have hs := Settled.settle u
  have hx0 : ∀ y, s.ma = some y → y.next ≠ 0 := fun y hy => by rw [hx] at hy; cases hy; omega
  have hgo := goesOn_settle (s := s) hra e1 (by rw [← hu']; exact a3) (by rw [← hu']; exact a2)
    (by rw [← hu']; exact a10) (by rw [← hu']; exact a4) hx0
  have hl : u.lc.loadSlot = some k := by rw [← hu']
  refine ⟨_, h2, h1, ⟨?_, hgo.port, fun b => ?_, ?_, ?_, ?_⟩, ?_, ?_, ?_, ?_, ?_, fun es fs ks he => ?_⟩
  · cases hm : u.settle.ma with
    | none =>
      have := (hgo.item.2 hm).2.1 (by rw [hs.lc]; exact e3)
      rw [hs.lc, hl] at this; cases this
    | some y =>
      rcases hgo.item.1 y hm with ⟨c, rest, h, _⟩ | ⟨_, _, j, hj, rfl⟩ | ⟨_, h, _⟩ | ⟨_, h, _⟩
      · rw [hs.rv, e2] at h; cases h
      · rw [hs.lc, hl] at hj; cases hj; rfl
      · rw [hs.lc] at h; exact absurd e3 h
      · rw [hs.lc] at h; exact absurd e3 h
  · rw [hs.mem, ← hu']; exact congrArg (memByte · b) a6
  · rw [hs.uptime, ← hu']; exact hu
  · rw [hs.pending, ← hu']; exact a1
  · rw [hs.freeUsed, ← hu']; exact a7
  · rw [hs.lc, ← hu']
  · rw [hs.rt, ← hu']
  · rw [hs.channels, ← hu']
  · rw [hs.rv, ← hu']
  · rw [loading_settle e3 e2 e1, ← hu']
  · have : Effects s u es fs ks := by rw [← hu']; exact he.thenSame rfl rfl rfl
    exact this.settle (.inr ⟨e1, hx0⟩)

/-- A record that is not intact is absent (R10, R170). -/
theorem useRecord_absent {s : State} {k : Slot} {w : Record} (h : intact w = false) :
    s.useRecord k w = if k.val = 0
      then ({ s with lc := { s.lc with station := none, fallbackReason := 1 } } : State).evalAttention else s := by
  have hf : ∀ k, frameValid k w = false := by intro k; simp [frameValid, h]
  have hst : s.stationLoadReason w = 1 := by simp [State.stationLoadReason, h]
  unfold State.useRecord
  split
  · unfold State.loadStation; rw [hst]; rfl
  · simp only [State.loadStatus, State.loadCapture, State.loadChannel, State.loadRun, State.loadChannelReport,
      State.loadRunReport, State.scanTally, hf, h]
    simp
    repeat' split
    all_goals simp

/-- Marks set one after another. -/
theorem marks_eff {α : Type} {s t : State} {es fs ks} (f : α → PartSlot) (l : List α) (h : Effects s t es fs ks) :
    Effects s (l.foldl (fun u a => u.mark (f a)) t) es fs (ks ++ l.map f) := by
  induction l generalizing t ks with
  | nil => simpa using h
  | cons a l ih => simpa using ih (h.thenMark (f a))

/-- Marks change the dirty marks alone. -/
theorem marks_only {α : Type} (f : α → PartSlot) (l : List α) (t : State) :
    ∃ dd, l.foldl (fun u a => u.mark (f a)) t = { t with ru := { t.ru with dirty := dd } } := by
  induction l generalizing t with
  | nil => exact ⟨_, rfl⟩
  | cons a l ih => obtain ⟨dd, h⟩ := ih (t.mark (f a)); exact ⟨dd, by rw [List.foldl_cons, h]; rfl⟩

/-- The marks of load completion change the dirty marks alone. -/
theorem markReports_only (t : State) : ∃ dd, t.markReports = { t with ru := { t.ru with dirty := dd } } := by
  obtain ⟨d1, h1⟩ := marks_only PartSlot.channel (List.finRange 4) (t.mark .status)
  obtain ⟨d2, h2⟩ := marks_only PartSlot.run (List.finRange 12)
    ((List.finRange 4).foldl (fun u a => u.mark (.channel a)) (t.mark .status))
  refine ⟨d2, ?_⟩
  unfold State.markReports
  rw [h2, h1]; rfl

/-- Load completion up to the device state (R175). -/
theorem loaded_eff {s t : State} (h : t.ru = s.ru) (hl : t.lc = s.lc) (hu : t.uptime = s.uptime) :
    ∃ v, v = (t.loadResult.markReports).raise .loadDone s.lc.cause.code s.lc.scan.bound s.lc.scan.valid ∧
    Effects s v [eventNow s .loadDone s.lc.cause.code s.lc.scan.bound s.lc.scan.valid] []
      ((if s.lc.cause = .stationAccepted then [] else [.result]) ++ .status ::
        (List.finRange 4).map .channel ++ (List.finRange 12).map .run) ∧ v.lc = { s.lc with result := loadedResult s } ∧
     v.rt = t.rt ∧ v.channels = t.channels ∧ v.rv = t.rv ∧ v.uptime = s.uptime := by
  have e0 : Effects s t [] [] [] := .same h (by rw [hl]) (by rw [hl])
  have hcnt : t.count = s.count := by simp [State.count, hu]
  have e1 : Effects s t.loadResult [] [] (if s.lc.cause = .stationAccepted then [] else [.result]) ∧
      t.loadResult.lc = { s.lc with result := loadedResult s } ∧ t.loadResult.rt = t.rt ∧
      t.loadResult.channels = t.channels ∧ t.loadResult.rv = t.rv ∧ t.loadResult.uptime = s.uptime := by
    unfold State.loadResult loadedResult
    rw [hl]
    cases hc : s.lc.cause
    · refine ⟨?_, ?_, rfl, rfl, rfl, hu⟩
      · exact (e0.thenSame (u := { t with lc := { t.lc with result := ⟨0, 0, .none, t.count, 0⟩ } }) rfl rfl rfl).thenMark .result
      · simp [State.putResult, hl, hcnt]
    · rename_i tag
      refine ⟨?_, ?_, rfl, rfl, rfl, hu⟩
      · exact (e0.thenSame (u := { t with lc := { t.lc with result := ⟨tag, 9, .done, t.count, 0⟩ } }) rfl rfl rfl).thenMark .result
      · simp [State.putResult, hl, hcnt]
    · refine ⟨e0, ?_, rfl, rfl, rfl, hu⟩
      show t.lc = _; rw [hl]
  obtain ⟨e1, e2, e3, e4, e5, e6⟩ := e1
  have e7 := marks_eff PartSlot.run (List.finRange 12) (marks_eff PartSlot.channel (List.finRange 4) (e1.thenMark .status))
  have e8 := e7.thenRaise .loadDone s.lc.cause.code s.lc.scan.bound s.lc.scan.valid
  obtain ⟨dd, hdd⟩ := markReports_only t.loadResult
  have hm : (List.finRange 12).foldl (fun u a => u.mark (.run a))
      ((List.finRange 4).foldl (fun u a => u.mark (.channel a)) (t.loadResult.mark .status)) = t.loadResult.markReports := rfl
  rw [hm] at e8
  refine ⟨_, rfl, e8.as ?_ (by simp) (by simp), ?_, ?_, ?_, ?_, ?_⟩
  · simp [eventNow, State.count, hdd, e6]
  · simp [hdd, e2]
  · simp [hdd, e3]
  · simp [hdd, e4]
  · simp [hdd, e5]
  · simp [hdd, e6]

/-- An empty scan leaves every tally slot FREE (R174). -/
theorem claims_empty (n : Nat) : Scan.empty.claims n = Vector.replicate 384 .free := by
  have h : ∀ m r, Scan.empty.claimRun n m r = m := by
    intro m r
    have h1 : Scan.empty.others[r] = [] := by simp [Scan.empty]
    have h2 : Scan.empty.best[r] = none := by simp [Scan.empty]
    unfold Scan.claimRun
    rw [h1, h2]; rfl
  unfold Scan.claims
  induction (List.finRange 12) with
  | nil => rfl
  | cons a l ih => rw [List.foldl_cons, h, ih]

end Sys2Proof.Machine
end

