-- ==== Sys2Proof/Laws/Records.lean ====
section
/-! SUPPORT. Completed records: from the owner's acceptance to the state after the command, and the Run Table's ways of
taking a tally. -/

namespace Sys2Proof.Machine

open Sys2Proof.Safety

/-- A completing write whose record its owner accepts, with the owner's effects u. -/
theorem record_answer {s u : State} {slot : Slot} {p : Pos} {v : Word} {w : Record} {es : List EventRecord}
    {fs : List Flag} {ks : List PartSlot} (h : Completes s slot p v w) (hc : slotClass slot = .controller)
    (hd : (s.beforeDecision slot).decideRecord slot w = .accept u) (hi : Inner (s.beforeDecision slot) u)
    (hu : u.uptime = s.uptime) (he : Effects (s.beforeDecision slot) u es fs ks) :
    ∃ t, answer s (s.recordWrite slot p v) = .next t ∧ Outside s t ∧ t.uptime = s.uptime ∧ t.lc = u.lc ∧ t.rt = u.rt ∧
      t.channels = u.channels ∧ t.rv = { u.rv with committing := s.commitsAfter slot w } ∧
      Reports s t es fs ks ∧ t.ru.attention = u.ru.attention ∧ t.attentionDue = u.attentionDue := by
  rw [recordWrite_accepted h hc hi.port.2.2.2.2.2.2.2.1 hd]
  generalize hy : ({ u with rv := { u.rv with committing := s.commitsAfter slot w } } : State) = y
  have htk : Taken s y := by rw [← hy]; exact .pool _ ((Taken.beforeDecision s slot).more hi)
  have e0 : Effects s (s.beforeDecision slot) [] [] [] := .same rfl rfl rfl
  have e1 : Effects s y ([] ++ es) ([] ++ fs) ([] ++ ks) := by
    rw [← hy]; exact (e0.trans he).thenSame rfl rfl rfl
  have hs := Settled.settle y
  refine ⟨_, rfl, htk.outside, ?_, ?_, ?_, ?_, ?_, (e1.as (by simp) (by simp) (by simp)).settle
    (.inl htk.port.2.2.2.2.1), ?_, ?_⟩
  · rw [hs.uptime, ← hy]; exact hu
  · rw [hs.lc, ← hy]
  · rw [hs.rt, ← hy]
  · rw [hs.channels, ← hy]
  · rw [hs.rv, ← hy]
  · rw [hs.attention, ← hy]
  · rw [hs.attentionDue, ← hy]; rfl

/-- The same for an owner that changes the Run Table and the channels alone. -/
theorem record_table {s u : State} {slot : Slot} {p : Pos} {v : Word} {w : Record} {x : RunTable}
    {y : Vector Channel 4} {es : List EventRecord} {fs : List Flag} {ks : List PartSlot} (h : Completes s slot p v w)
    (hc : slotClass slot = .controller) (hd : (s.beforeDecision slot).decideRecord slot w = .accept u)
    (ho : TableOp (s.beforeDecision slot) u x y es fs ks) :
    ∃ t, answer s (s.recordWrite slot p v) = .next t ∧ Outside s t ∧ t.uptime = s.uptime ∧ t.lc = s.lc ∧
      t.rv = verifierAfter s slot w ∧ t.rt = x ∧ t.channels = y ∧ Reports s t es fs ks := by
  obtain ⟨t, h1, h2, h3, h4, h5, h6, h7, h8, _⟩ := record_answer h hc hd ho.inner ho.uptime ho.eff
  exact ⟨t, h1, h2, h3, h4.trans ho.lc, by rw [h7, ho.rv]; rfl, h5.trans ho.rt, h6.trans ho.channels, h8⟩

/-- The same for an owner that changes one channel alone. -/
theorem record_channel {s u : State} {slot : Slot} {p : Pos} {v : Word} {w : Record} {c : Chan} {y : Channel}
    {es : List EventRecord} {fs : List Flag} {ks : List PartSlot} (h : Completes s slot p v w)
    (hc : slotClass slot = .controller) (hd : (s.beforeDecision slot).decideRecord slot w = .accept u)
    (ho : ChannelOp c (s.beforeDecision slot) u y es fs ks) :
    ∃ t, answer s (s.recordWrite slot p v) = .next t ∧ Outside s t ∧ t.uptime = s.uptime ∧ t.lc = s.lc ∧ t.rt = s.rt ∧
      t.rv = verifierAfter s slot w ∧ t.chan c = y ∧ (∀ k, k ≠ c → t.chan k = s.chan k) ∧ Reports s t es fs ks := by
  obtain ⟨t, h1, h2, h3, h4, h5, h6, h7, h8, _⟩ := record_answer h hc hd ho.on.inner ho.on.uptime ho.eff
  obtain ⟨k1, k2⟩ := chan_of_channels (s := s) (t := t) (h6.trans ho.on.channels)
  exact ⟨t, h1, h2, h3, h4.trans ho.on.lc, h5.trans ho.on.rt, by rw [h7, ho.on.rv]; rfl, k1, k2, h8⟩

/-! ### Frames -/

theorem headWord_kind {w : Record} {n i : Nat} (h : w[0] = headWord n i) (hn : n < 256) (hi : i < 256) :
    recordKind w = n ∧ recordIndex w = i := by
  have hv : (headWord n i).toNat = n * 256 + i := by simp only [headWord, BitVec.toNat_ofNat]; omega
  constructor
  · rw [recordKind, h, hiByte, BitVec.extractLsb'_toNat, Nat.shiftRight_eq_div_pow, hv]; omega
  · rw [recordIndex, h, loByte, BitVec.extractLsb'_toNat, Nat.shiftRight_eq_div_pow, hv]; omega

theorem tallySlot_class : ∀ k : TallySlot, slotClass (tallySlotOf k) = .controller := by decide +kernel

theorem tallySlot_kind : ∀ k : TallySlot, expectedKind (tallySlotOf k) = 0x55 := by decide +kernel

theorem channelSlot_class : ∀ c : Chan, slotClass (channelDescriptorSlot c) = .controller := by decide

theorem runSlot_class : ∀ r : Run, slotClass (runDescriptorSlot r) = .controller := by decide

/-- A tally record whose frame is good goes to the Run Table (R40). -/
theorem decideRecord_tally {s : State} {k : TallySlot} {w : Record} {r : Run} (hi : intact w = true)
    (hw : w[0] = headWord 0x55 r.val) : s.decideRecord (tallySlotOf k) w = s.decideTally k w := by
  obtain ⟨h1, h2⟩ := headWord_kind hw (by decide) (by omega)
  have he := tallySlot_kind k
  have hf : frameReason (tallySlotOf k) w = 0 := by
    have : ¬ (tallySlotOf k).val ≤ 17 := by simp only [tallySlotOf]; omega
    simp [frameReason, hi, h1, he, this]
  have ht : asTally (tallySlotOf k) = some k := by simp [asTally, tallySlotOf]
  simp only [State.decideRecord, hf, if_true, State.handOff, ht]

/-- A channel descriptor whose frame is good goes to its Channel Unit (R40). -/
theorem decideRecord_channel {s : State} {c : Chan} {w : Record} (hi : intact w = true)
    (hw : w[0] = headWord 0x52 c.val) : s.decideRecord (channelDescriptorSlot c) w = s.decideChannel c w := by
  obtain ⟨h1, h2⟩ := headWord_kind hw (by decide) (by omega)
  have he : expectedKind (channelDescriptorSlot c) = 0x52 := by
    have hv : (channelDescriptorSlot c).val = 1 + c.val := rfl
    unfold expectedKind
    rw [if_neg (by omega), if_pos (by omega)]
  have hx : expectedIndex (channelDescriptorSlot c) = c.val := by
    have hv : (channelDescriptorSlot c).val = 1 + c.val := rfl
    unfold expectedIndex
    rw [if_neg (by omega), if_pos (by omega)]; omega
  have hf : frameReason (channelDescriptorSlot c) w = 0 := by simp [frameReason, hi, h1, he, hx, h2]
  have hv : (channelDescriptorSlot c).val = 1 + c.val := rfl
  have h3 : asTally (channelDescriptorSlot c) = none := by unfold asTally; rw [dif_neg (by omega)]
  have h4 : asRunSlot (channelDescriptorSlot c) = none := by unfold asRunSlot; rw [dif_neg (by omega)]
  have h5 : asChannelSlot (channelDescriptorSlot c) = some c := by
    unfold asChannelSlot
    rw [dif_pos (by omega)]
    exact congrArg some (Fin.ext (by show (channelDescriptorSlot c).val - 1 = c.val; omega))
  simp only [State.decideRecord, hf, if_true, State.handOff, h3, h4, h5]

/-- A run descriptor whose frame is good goes to the Run Table (R40). -/
theorem decideRecord_run {s : State} {r : Run} {w : Record} (hi : intact w = true)
    (hw : w[0] = headWord 0x53 r.val) : s.decideRecord (runDescriptorSlot r) w = s.decideRun r w := by
  obtain ⟨h1, h2⟩ := headWord_kind hw (by decide) (by omega)
  have he : expectedKind (runDescriptorSlot r) = 0x53 := by
    have hv : (runDescriptorSlot r).val = 5 + r.val := rfl
    unfold expectedKind
    rw [if_neg (by omega), if_neg (by omega), if_pos (by omega)]
  have hx : expectedIndex (runDescriptorSlot r) = r.val := by
    have hv : (runDescriptorSlot r).val = 5 + r.val := rfl
    unfold expectedIndex
    rw [if_neg (by omega), if_neg (by omega), if_pos (by omega)]; omega
  have hf : frameReason (runDescriptorSlot r) w = 0 := by simp [frameReason, hi, h1, he, hx, h2]
  have hv : (runDescriptorSlot r).val = 5 + r.val := rfl
  have h3 : asTally (runDescriptorSlot r) = none := by unfold asTally; rw [dif_neg (by omega)]
  have h4 : asRunSlot (runDescriptorSlot r) = some r := by
    unfold asRunSlot
    rw [dif_pos (by omega)]
    exact congrArg some (Fin.ext (by show (runDescriptorSlot r).val - 5 = r.val; omega))
  simp only [State.decideRecord, hf, if_true, State.handOff, h3, h4]

/-! ### Tallies -/

theorem decideTally_accept {s : State} {k : TallySlot} {w : Record} {r : Run} (hw : w[0] = headWord 0x55 r.val)
    (hr : (s.run r).condition ≠ .retired) (h0 : s.tallyRunReason r k (readTally w) = 0) :
    s.decideTally k w = .accept (s.acceptTally r k (readTally w)) := by
  obtain ⟨_, h2⟩ := headWord_kind hw (by decide) (by omega)
  have hr' : asRun (recordIndex w) = some r := by rw [h2]; simp [asRun]
  have ht : s.tallyReason k w = 0 := by simp only [State.tallyReason, hr', hr, if_false, h0]
  simp only [State.decideTally, hr', ht, if_true]

/-- What every acceptance ends with (R70). -/
theorem acceptCommon_law {s t : State} {x : RunTable} {y : Vector Channel 4} {es : List EventRecord} {fs : List Flag}
    {ks : List PartSlot} (h : TableOp s t x y es fs ks) (r : Run) (w : Record) :
    TableOp s (t.acceptCommon r (readTally w)) (x.setRun r (shadowed x.runs[r] w s.count s.uptime x.descriptors[r])) y es
      fs (ks ++ [.run r]) := by
  have h1 := (h.putRun r (shadowed x.runs[r] w s.count s.uptime x.descriptors[r])).mark (.run r)
  have e : t.acceptCommon r (readTally w) =
      (t.putRun r (shadowed x.runs[r] w s.count s.uptime x.descriptors[r])).mark (.run r) := by
    have hf (d : Option RunDescriptor) (n : Nat) :
        startFreshness d n = d.map fun d => ⟨n, d.staleness * 1000, d.horizon * 1000⟩ := by cases d <;> rfl
    simp only [State.acceptCommon, h.run r, h.count, h.uptime, h.descriptor r, hf]
    rfl
  rw [e]
  exact h1.as rfl rfl (fun _ => Iff.rfl) (by simp; tauto)

/-! ### Descriptors and further pieces -/

/-- The runs of a state whose table comes from a table with the same runs and descriptors. -/
theorem run_of_table {s t : State} {x : RunTable} {r : Run} {e : RunEntry} (h : t.rt = x.setRun r e)
    (hx : x.runs = s.rt.runs) (hd : x.descriptors = s.rt.descriptors) :
    t.run r = e ∧ (∀ q, q ≠ r → t.run q = s.run q) ∧ t.rt.descriptors = s.rt.descriptors ∧ t.rt.slots = x.slots := by
  refine ⟨?_, fun q hq => ?_, by rw [h, ← hd]; rfl, by rw [h]; rfl⟩
  · rw [State.run, h, RunTable.setRun_get]
  · rw [State.run, h, RunTable.setRun_ne _ _ hq, hx]; rfl

/-- RUN_LIVE where a spell ends (R88). -/
theorem raiseRunLive_law {s t : State} {x : RunTable} {y : Vector Channel 4} {es fs ks} (h : TableOp s t x y es fs ks)
    (r : Run) (k : TallySlot) (e : RunEntry) :
    TableOp s (t.raiseRunLive r k e) x y
      (es ++ if e.condition = .stale ∨ e.condition = .lost then [eventNow s .runLive r.val k.val e.estimated] else []) fs ks := by
  unfold State.raiseRunLive
  cases hc : e.condition
  · simpa using h
  · simpa using h
  · simpa using h
  · simpa using h.raise .runLive r.val k.val e.estimated
  · simpa using h.raise .runLive r.val k.val e.estimated

/-- A channel descriptor that no check fails is accepted (R142). -/
theorem chan_accept {s : State} {c : Chan} {w : Record} {d : ChannelDescriptor} (hd : readChannel w = some d)
   (hc : (s.chan c).configState d = false) : s.decideChannel c w = .accept (s.acceptChannel c d w) := by
  simp [State.decideChannel, hd, hc]

/-- The physics fields that change (R141). -/
theorem physics_iff (o d : ChannelDescriptor) : physicsChanges o d = true ↔ PhysicsChange o d := by
  unfold physicsChanges PhysicsChange; simp; try tauto

/-- Leaving a bound condition without a slot. -/
theorem unbind_noslot {s : State} {r : Run} (h : (s.run r).currentSlot = none) (v : RunCondition) (cause : Nat) :
    TableOp s (s.unbind r v cause) (s.rt.setRun r (unboundRun (s.run r) v)) s.channels
      [eventNow s .runUnbound r.val cause (s.run r).slotNumber] [] [.run r] := by
  have e0 : s.leaveSlot r = s := by simp only [State.leaveSlot, h]
  have h2 := (((TableOp.refl s).putRun r (unboundRun (s.run r) v)).raise .runUnbound
    r.val cause (s.run r).slotNumber).mark (.run r)
  have e : s.unbind r v cause = ((s.putRun r
      (unboundRun (s.run r) v)).raise .runUnbound r.val cause (s.run r).slotNumber).mark
      (.run r) := by
    simp only [State.unbind, e0]; rfl
  rw [e]
  exact h2.as rfl rfl (by simp) (by simp)

/-- A run descriptor put in force. -/
theorem putRunDescriptor_op {s t : State} {x : RunTable} {y : Vector Channel 4} {es fs ks} (h : TableOp s t x y es fs ks)
    (r : Run) (d : RunDescriptor) :
    TableOp s (t.putRunDescriptor r d) { x with descriptors := x.descriptors.set r.val (some d) } y es fs ks where
  inner := .runs _ h.inner
  uptime := h.uptime
  lc := h.lc
  rv := h.rv
  rt := by rw [← h.rt]; rfl
  channels := h.channels
  eff := by
    have := h.eff.trans (Effects.same (t := t.putRunDescriptor r d) rfl rfl rfl)
    simpa using this

/-- The enabled field takes effect (R146). -/
theorem applyEnabled_law (s : State) (r : Run) (d : RunDescriptor) :
    ∃ x, TableOp s (s.applyEnabled r d) x s.channels
      (if d.enabled = false ∧ (s.run r).condition.bound = true
        then [eventNow s .runUnbound r.val 2 (s.run r).slotNumber] else []) []
      (if d.enabled = decide ((s.run r).condition = .retired) then [.run r] else []) ∧
      x.descriptors = s.rt.descriptors ∧ (∀ q, q ≠ r → x.runs[q] = s.run q) ∧
      (d.enabled = true → x.slots = s.rt.slots ∧
        x.runs[r] = (if (s.run r).condition = .retired then { s.run r with condition := .unbound } else s.run r)) ∧
      (d.enabled = false → (s.run r).condition = .retired → x.slots = s.rt.slots ∧ x.runs[r] = s.run r) ∧
      (d.enabled = false → (s.run r).condition = .unbound → x.slots = s.rt.slots ∧
        x.runs[r] = unboundRun (s.run r) .retired) ∧
      (∀ k, d.enabled = false → (s.run r).condition.bound = true → (s.run r).currentSlot = some k →
        x.runs[r] = unboundRun { s.run r with historyCount := (s.run r).historyCount + 1 } .retired ∧
        x.slots[k] = .history r (s.uptime + s.historyHold) ∧ ∀ j, j ≠ k → x.slots[j] = s.claim j) := by
  have h0 := TableOp.refl s
  cases he : d.enabled
  · by_cases hc : (s.run r).condition = .retired
    · have e : s.applyEnabled r d = s := by simp [State.applyEnabled, he, hc]
      rw [e]
      refine ⟨_, h0.as rfl (by simp [hc, RunCondition.bound]) (by simp) (by simp [hc]), rfl,
        fun _ _ => rfl, by simp, fun _ _ => ⟨rfl, rfl⟩, by simp [hc], by simp [hc, RunCondition.bound]⟩
    · cases hb : (s.run r).condition.bound
      · have hu : (s.run r).condition = .unbound := by revert hb hc; cases (s.run r).condition <;> simp [RunCondition.bound]
        have e : s.applyEnabled r d = (s.putRun r ((s.run r).released .retired)).mark (.run r) := by
          simp [State.applyEnabled, he, hc, State.retire, hb]
        rw [e]
        refine ⟨_, ((h0.putRun r ((s.run r).released .retired)).mark (.run r)).as rfl (by simp) (by simp)
          fun k => .inl (by simp [hc]), rfl, ?_,
          by simp, by simp [hc], ?_, by simp⟩
        · intro q hq; exact RunTable.setRun_ne _ _ hq
        · intro _ _; exact ⟨rfl, RunTable.setRun_get _ _ _⟩
      · have e : s.applyEnabled r d = s.unbind r .retired 2 := by
          simp [State.applyEnabled, he, hc, State.retire, hb]
        rw [e]
        have hub : (s.run r).condition ≠ .unbound := by intro h; rw [h] at hb; simp [RunCondition.bound] at hb
        cases hk : (s.run r).currentSlot with
        | none =>
          refine ⟨_, (unbind_noslot hk .retired 2).as rfl (by simp) (by simp) (by simp [hc]), rfl, ?_,
          by simp, by simp [hc], by simp [hub], by simp⟩
          intro q hq; exact RunTable.setRun_ne _ _ hq
        | some k =>
          refine ⟨_, (unbind_law hk .retired 2).as rfl (by simp [RunEntry.slotNumber, hk]) (by simp) (by simp [hc]), rfl, ?_, by simp, by simp [hc], by simp [hub], ?_⟩
          · intro q hq; exact RunTable.setRun_ne _ _ hq
          · intro j _ _ hj
            obtain rfl := Option.some.inj hj
            refine ⟨RunTable.setRun_get _ _ _, RunTable.setClaim_get _ _ _, fun j hj => RunTable.setClaim_ne _ _ hj⟩
  · by_cases hc : (s.run r).condition = .retired
    · have e : s.applyEnabled r d = (s.putRun r { s.run r with condition := .unbound }).mark (.run r) := by
          simp [State.applyEnabled, he, hc]
      rw [e]
      refine ⟨_, ((h0.putRun r { s.run r with condition := .unbound }).mark (.run r)).as rfl (by simp) (by simp)
        fun k => .inl (by simp [hc]), rfl, ?_, ?_, by simp, by simp, by simp⟩
      · intro q hq; exact RunTable.setRun_ne _ _ hq
      · intro _; rw [if_pos hc]; exact ⟨rfl, RunTable.setRun_get _ _ _⟩
    · have e : s.applyEnabled r d = s := by simp [State.applyEnabled, he, hc]
      rw [e]
      refine ⟨_, h0.as rfl (by simp) (by simp) (by simp [hc]), rfl, fun _ _ => rfl, ?_, by simp, by simp, by simp⟩
      intro _; rw [if_neg hc]; exact ⟨rfl, rfl⟩

/-- A station descriptor whose frame is good goes to the Load Controller (R40). -/
theorem decideRecord_station {s : State} {w : Record} (hi : intact w = true)
    (hw : w[0] = 0x5100) : s.decideRecord 0 w = s.decideStation w := by
  have h1 : recordKind w = 0x51 := by rw [recordKind, hw]; decide
  have h2 : recordIndex w = 0 := by rw [recordIndex, hw]; decide
  have hf : frameReason 0 w = 0 := by
    simp only [frameReason, hi, h1, h2]; decide
  have a1 : asTally 0 = none := by decide
  have a2 : asRunSlot 0 = none := by decide
  have a3 : asChannelSlot 0 = none := by decide
  simp only [State.decideRecord, hf, if_true, State.handOff, a1, a2, a3]

end Sys2Proof.Machine
end

