-- ==== Sys2Proof/Laws/Refusals.lean ====
section
/-! SUPPORT. Refused records: from the failing check to the refusal, and what the Record Verifier's shared operations of a
refusal do. -/

namespace Sys2Proof.Machine

open Sys2Proof.Safety

/-- A tally that fails a check is refused with that check's code (R59). -/
theorem tallyReason_fails {s : State} {k : TallySlot} {w : Record} {r : Run} {n : Nat} (h : TallyFails s k r w n) :
    s.tallyRunReason r k (readTally w) = n ∧ n ≠ 0 := by
  have htt : (readTally w).total = num3 w[2] w[3] w[4] := rfl
  have hts : (readTally w).sequence = w[1] := rfl
  have htr : (readTally w).rate = num2 w[5] w[6] := rfl
  have hadm : Admitted s k r ↔ (s.claim k).admits r = true := by
    unfold Admitted
    cases hc : s.claim k <;> simp [Claim.admits]
  simp only [TallyFails, hadm] at h
  simp only [State.tallyRunReason, RunEntry.comparable, htt, hts]
  rcases h with ⟨rfl, h⟩ | ⟨rfl, h, h2⟩ | ⟨rfl, h, h2, h3, h4⟩ | ⟨rfl, h, h2, h3, h4, h5⟩ | ⟨rfl, h, h2, h3, h4, h5, d, hd, h6⟩
  · simp [h]
  · simp [h, h2]
  · simp [h, h2, h3]; intro hx; exact absurd hx h4
  · simp only [h, h2, h4, h5]
    by_cases ha : (s.run r).awaitingBaseline = false
    · have : w[1] = (s.run r).shadowSequence + 1 := by
        by_contra hx; exact h3 ⟨⟨h4, ha⟩, hx⟩
      simp [ha, this]
    · simp [ha]
  · have hs : w[1] = (s.run r).shadowSequence + 1 := by
      by_contra hx; exact h3 ⟨h5, hx⟩
    have ht : ¬ num3 w[2] w[3] w[4] < (s.run r).shadowTotal := fun hx => h4 ⟨h5.1, hx⟩
    have hp : plausible (s.runDescriptor r) (s.age r) (s.run r).shadowTotal (readTally w) = false := by
      simp only [plausible, hd, htt, htr, ageSeconds]
      rcases h6 with h6 | h6
      · simp [Nat.not_le.mpr h6]
      · simp [Nat.not_le.mpr h6]
    simp [h, h2, h5.1, h5.2, hs, ht, hp]

/-- A record that fails a check is refused with the first failing reason (R39). -/
theorem decide_refused {s : State} {slot : Slot} {w : Record} {n : Nat} (hc : slotClass slot = .controller)
    (h : RefusedFor s slot w n) : s.decideRecord slot w = .refuse n ∧ n ≠ 0 := by
  have hcl : slot.val ≤ 17 ∨ 128 ≤ slot.val := by
    revert hc; unfold slotClass; split_ifs <;> simp <;> omega
  rcases h with ⟨rfl, h⟩ | ⟨rfl, h, h2⟩ | ⟨rfl, h, h2, h3, h4⟩ | ⟨h, h2, h3, h4⟩
  · simp [State.decideRecord, frameReason, h]
  · simp [State.decideRecord, frameReason, h, h2]
  · simp [State.decideRecord, frameReason, h, h2, h3, h4]
  · have hf : frameReason slot w = 0 := by
      simp only [frameReason, h, h2]
      simp; intro h5; exact h3 h5
    simp only [State.decideRecord, hf, if_true]
    rcases h4 with ⟨h5, h6⟩ | ⟨c, h5, h6⟩ | ⟨h5, h5', rfl, h6⟩ | ⟨h5, rfl, h6⟩ | ⟨k, h5, h6⟩
    · have e : slot = 0 := Fin.ext h5
      subst e
      have a1 : asTally 0 = none := by decide
      have a2 : asRunSlot 0 = none := by decide
      have a3 : asChannelSlot 0 = none := by decide
      simp only [State.handOff, a1, a2, a3, if_true, State.decideStation]
      rcases h6 with ⟨rfl, h6⟩ | ⟨rfl, d, h6, h7⟩
      · simp [h6]
      · simp [h6, h7]
    · have a1 : asTally slot = none := by unfold asTally; rw [dif_neg (by omega)]
      have a2 : asRunSlot slot = none := by unfold asRunSlot; rw [dif_neg (by omega)]
      have a3 : asChannelSlot slot = some c := by
        unfold asChannelSlot
        rw [dif_pos (by omega)]
        exact congrArg some (Fin.ext (by show slot.val - 1 = c.val; omega))
      simp only [State.handOff, a1, a2, a3, State.decideChannel]
      rcases h6 with ⟨rfl, h6⟩ | ⟨rfl, o, d, h6, h7, h8, h9⟩
      · simp [h6]
      · have hp : physicsChanges o d = true := by
          unfold physicsChanges; unfold PhysicsChange at h8; simp; tauto
        have : (s.chan c).configState d = true := by
          simp only [Channel.configState, h7, hp]
          rcases h9 with h | h | h <;> rw [h] <;> rfl
        simp [h6, this]
    · have a1 : asTally slot = none := by unfold asTally; rw [dif_neg (by omega)]
      have a2 : asRunSlot slot = some ⟨slot.val - 5, by omega⟩ := by unfold asRunSlot; rw [dif_pos (by omega)]
      simp only [State.handOff, a1, a2, State.decideRun, h6]
      simp
    · have e : slot = 17 := Fin.ext h5
      subst e
      have a1 : asTally 17 = none := by decide
      have a2 : asRunSlot 17 = none := by decide
      have a3 : asChannelSlot 17 = none := by decide
      have a4 : (17 : Slot) ≠ 0 := by decide
      simp only [State.handOff, a1, a2, a3, a4, if_false, State.decideCommand, h6]
      simp
    · have a1 : asTally slot = some k := by
        unfold asTally; rw [dif_pos (by omega)]
        exact congrArg some (Fin.ext (by show slot.val - 128 = k.val; omega))
      simp only [State.handOff, a1, State.decideTally, State.tallyReason]
      rcases h6 with ⟨rfl, h6⟩ | ⟨r, h6, h7, h8⟩
      · rcases h6 with h6 | ⟨r, h6, h7⟩
        · have : asRun (recordIndex w) = none := by unfold asRun; rw [dif_neg (by omega)]
          simp [this]
        · have : asRun (recordIndex w) = some r := by rw [h6]; simp [asRun]
          simp [this, h7]
      · have : asRun (recordIndex w) = some r := by rw [h6]; simp [asRun]
        obtain ⟨e1, e2⟩ := tallyReason_fails h8
        simp [this, h7, e1, e2]

/-- The run a refusal is attributed to (R44). -/
theorem attributed_eq (s : State) (slot : Slot) (w : Record) (n : Nat) : s.attributed slot n w = attributedTo s slot w n := by
  unfold State.attributed attributedTo asTally asRunSlot
  by_cases h : 128 ≤ slot.val
  · rw [dif_pos h, dif_pos h]
    simp only []
    by_cases hn : n = 1 ∨ n = 2
    · rw [if_pos hn, if_pos hn]; unfold Claim.currentRun; cases s.claim ⟨slot.val - 128, by omega⟩ <;> rfl
    · rw [if_neg hn, if_neg hn]; rfl
  · rw [dif_neg h, dif_neg h]

/-- From s to t the Record Verifier becomes v and the Run Table x, with these events, flags and marks. -/
structure VerifierOp (s t : State) (v : Verifier) (x : RunTable) (es : List EventRecord) (fs : List Flag)
    (ks : List PartSlot) : Prop where
  inner : Inner s t
  uptime : t.uptime = s.uptime
  lc : t.lc = s.lc
  rv : t.rv = v
  rt : t.rt = x
  channels : t.channels = s.channels
  eff : Effects s t es fs ks

namespace VerifierOp
variable {s t : State} {v z : Verifier} {x : RunTable} {es es' : List EventRecord} {fs fs' : List Flag}
  {ks ks' : List PartSlot}

theorem refl (s : State) : VerifierOp s s s.rv s.rt [] [] [] := ⟨.refl s, rfl, rfl, rfl, rfl, rfl, .refl s⟩
theorem eventNow (h : VerifierOp s t v x es fs ks) (e : EventCode) (a d n : Nat) :
    Safety.eventNow t e a d n = Safety.eventNow s e a d n := by simp [Safety.eventNow, State.count, h.uptime]
theorem raise (h : VerifierOp s t v x es fs ks) (e : EventCode) (a d n : Nat) :
    VerifierOp s (t.raise e a d n) v x (es ++ [Safety.eventNow s e a d n]) fs ks where
  inner := .raise e a d n h.inner
  uptime := by simp [h.uptime]
  lc := by simp [h.lc]
  rv := by simp [h.rv]
  rt := by simp [h.rt]
  channels := by simp [h.channels]
  eff := h.eventNow e a d n ▸ h.eff.thenRaise e a d n
theorem latch (h : VerifierOp s t v x es fs ks) (f : Flag) :
    VerifierOp s (t.latch f) v x es (fs ++ [f]) ks where
  inner := .latch f h.inner
  uptime := by simp [h.uptime]
  lc := by simp [h.lc]
  rv := by simp [h.rv]
  rt := by simp [h.rt]
  channels := by simp [h.channels]
  eff := h.eff.thenLatch f
theorem mark (h : VerifierOp s t v x es fs ks) (k : PartSlot) : VerifierOp s (t.mark k) v x es fs (ks ++ [k]) where
  inner := .mark k h.inner
  uptime := h.uptime
  lc := h.lc
  rv := h.rv
  rt := h.rt
  channels := h.channels
  eff := h.eff.thenMark k
theorem setRv (h : VerifierOp s t v x es fs ks) (z : Verifier) (h1 : z.assembling = v.assembling)
    (h2 : z.committing = v.committing) : VerifierOp s { t with rv := z } z x es fs ks where
  inner := .verifier z h.inner (by rw [h.rv, h1]) (by rw [h.rv, h2])
  uptime := h.uptime
  lc := h.lc
  rv := rfl
  rt := h.rt
  channels := h.channels
  eff := h.eff.thenSame rfl rfl rfl
theorem putRun (h : VerifierOp s t v x es fs ks) (r : Run) (e : RunEntry) :
    VerifierOp s (t.putRun r e) v (x.setRun r e) es fs (ks ++ if sameRunReport x.runs[r] e then [] else [.run r]) where
  inner := .putRun r e h.inner
  uptime := by simp [h.uptime]
  lc := by simp [h.lc]
  rv := by simp [h.rv]
  rt := by rw [State.putRun_rt, ← h.rt]; rfl
  channels := by simp [h.channels]
  eff := by
    have : x.runs[r] = t.run r := by rw [State.run, h.rt]
    rw [this]; exact h.eff.thenPutRun r e
theorem as (h : VerifierOp s t v x es fs ks) (hv : z = v) (he : es' = es) (hf : ∀ f, f ∈ fs' ↔ f ∈ fs)
    (hk : ∀ k, (k ∈ ks' ↔ k ∈ ks) ∨ ∃ f ∈ fs, k ∈ flagMarks f) : VerifierOp s t z x es' fs' ks' :=
   { h with rv := hv ▸ h.rv, eff := h.eff.as he hf hk }
end VerifierOp

/-- The count since capture takes a refusal, and the header is marked where it changes (R46, R162). -/
theorem countSince_law {s t : State} {v : Verifier} {x es fs ks} (h : VerifierOp s t v x es fs ks) :
    VerifierOp s t.countSince
      { v with capture := { v.capture with
        since := if v.capture.since < 65535 then v.capture.since + 1 else v.capture.since } } x es fs
      (ks ++ if v.capture.since < 65535 then [.captureHeader] else []) := by
  have e1 : t.rv = v := h.rv
  unfold State.countSince
  rw [e1, show Config.max16 = 65535 from rfl]
  by_cases hs : v.capture.since < 65535
  · simp only [hs, if_true]
    exact (h.setRv { v with capture := { v.capture with since := v.capture.since + 1 } } rfl rfl).mark .captureHeader
  · simp only [hs, if_false, List.append_nil]
    exact h

/-- One refusal counted (R46). -/
theorem countRefusal_law {s t : State} {v : Verifier} {x es fs ks} (h : VerifierOp s t v x es fs ks) :
    VerifierOp s t.countRefusal
      { v with
        refusals := satAdd 65535 v.refusals 1
        capture := { v.capture with
          since := if v.capture.occupied ∧ v.capture.since < 65535 then v.capture.since + 1 else v.capture.since } } x
      es fs (ks ++ .status :: if v.capture.occupied ∧ v.capture.since < 65535 then [.captureHeader] else []) := by
  have h1 := (h.setRv { v with refusals := satAdd 65535 v.refusals 1 } rfl rfl).mark .status
  have e1 : t.rv = v := h.rv
  unfold State.countRefusal
  rw [e1]
  cases ho : v.capture.occupied
  · rw [if_neg (by decide)]
    exact h1.as (by simp) rfl (fun _ => Iff.rfl) (by simp)
  · rw [if_pos rfl]
    exact (countSince_law h1).as (by simp [ho]) rfl (fun _ => Iff.rfl) (by simp)

/-- A list over the runs with one entry. -/
theorem flatMap_one {α} (f : Run → Option α) (r : Run) (a : α) (h1 : f r = some a) (h2 : ∀ q, q ≠ r → f q = none) :
   ((List.finRange 12).flatMap fun q => (f q).toList) = [a] := by
  have h := List.nodup_finRange 12
  have hm := List.mem_finRange r
  generalize List.finRange 12 = l at *
  induction l with
  | nil => simp at hm
  | cons b l ih =>
    rw [List.flatMap_cons]
    rcases List.mem_cons.mp hm with rfl | hm'
    · have : (l.flatMap fun q => (f q).toList) = [] := by
        rw [List.flatMap_eq_nil_iff]; intro q hq
        rw [h2 q]; rfl
        rintro rfl; exact (List.nodup_cons.mp h).1 hq
      rw [h1, this]; rfl
    · have hne : b ≠ r := by rintro rfl; exact (List.nodup_cons.mp h).1 hm'
      rw [h2 b hne, ih (List.nodup_cons.mp h).2 hm']; rfl

/-- A list over the runs with none. -/
theorem flatMap_none {α} (f : Run → Bool) (a : Run → α) (h : ∀ q, f q = false) :
    ((List.finRange 12).flatMap fun q => if f q then [a q] else []) = [] := by
  rw [List.flatMap_eq_nil_iff]; intro q _; simp [h]

/-- A list over the runs with run r's entry alone. -/
theorem flatMap_only {α} (f : Run → Bool) (a : Run → α) (r : Run) (h : f r = true) (h2 : ∀ q, q ≠ r → f q = false) :
    ((List.finRange 12).flatMap fun q => if f q then [a q] else []) = [a r] := by
  rw [← flatMap_one (fun q => if f q then some (a q) else none) r (a r) (by simp [h]) (fun q hq => by simp [h2 q hq])]
  congr 1; funext q; cases f q <;> rfl

end Sys2Proof.Machine
end

