-- ==== Sys2Proof/WellFormed.lean ====
section
/-! DEFINITION. Which commands are well formed. The operand types already bound slots, runs, channels and word
positions; one check is left: a STATUS_READ names one of the flag words w2 to w8 (R155, R159). An argument of a
command record that does not suit its code is well formed: the part accepts it and answers BAD_ARGUMENT (R147). -/

namespace Sys2Proof

/-- The word position is one of the status record's flag words, w2 to w8 (R155). -/
def isFlagWord (w : Pos) : Bool := decide (2 ≤ w.val ∧ w.val ≤ 8)

/-- A command is well formed. -/
def Instr.wf : Instr → Bool
  | .controllerCycle _ _ => true
  | .memoryCycleComplete => true
  | .commitComplete => true
  | .eventAppendComplete => true
  | .rewriteComplete => true
  | .loadingReadComplete => true
  | .drainComplete => true
  | .resetAssert => true
  | .resetRelease _ _ => true
  | .tallyRecord _ _ _ => true
  | .stationDescriptor _ _ => true
  | .channelDescriptor _ _ _ => true
  | .runDescriptor _ _ _ => true
  | .clearRun _ _ _ => true
  | .clearChannel _ _ _ => true
  | .clearDeficit _ _ _ => true
  | .clearCapture _ _ => true
  | .setServiceIn _ _ _ => true
  | .setServiceOut _ _ _ => true
  | .calibrate _ _ _ _ => true
  | .unbindRun _ _ _ => true
  | .releaseHistory _ _ _ => true
  | .restart _ _ => true
  | .statusRead w => isFlagWord w
  | .assemblyExpired _ => true
  | .historyExpiry _ => true
  | .stalenessExpiry _ => true
  | .horizonExpiry _ => true
  | .substitutionStep _ => true
  | .basePeriodExpiry _ => true
  | .precheckExpiry _ _ => true
  | .driveExpiry _ => true
  | .proofWindowExpiry _ => true
  | .restEnd _ => true
  | .proofClosure _ => true
  | .meterPulse _ => true
  | .commandRecord _ _ => true

end Sys2Proof
end

