-- ==== Sys2Proof/Tests/Slice0.lean ====
section
/-! SUPPORT. Tests: the well-formedness smoke, figures of the manual's worked examples, and for every statement with
hypotheses a state and operands that meet them (`test_applies_<the statement>`). -/

namespace Sys2Proof.Tests

open Sys2Proof.Machine Sys2Proof.Safety

set_option Elab.async false

/-! ### Well-formedness, words, reset -/

theorem test_wf_refuses_status_read_of_w1 : (Instr.statusRead 1).wf = false := rfl
theorem test_wf_refuses_status_read_of_w9 : (Instr.statusRead 9).wf = false := rfl
theorem test_wf_admits_every_flag_word : ∀ i : Fin 7, (Instr.statusRead ⟨i.val + 2, by omega⟩).wf = true := fun i => by revert i; decide +kernel
theorem test_no_word_spells_a_command : decodeTableWord 0 0 = none ∧ decodeTableWord 32 0xFFFFFFFF = none := ⟨rfl, rfl⟩
theorem test_reset_settles : (State.released 0 0).settle = State.reset := rfl
theorem test_front_command : (State.reset.withCommand .drainComplete).pending = [.drainComplete] := rfl

/-! ### Small states -/

/-- The station descriptor of the tests. -/
def station0 : StationDescriptor := ⟨22, .latched, 60, 500, 0x3F, 0x1FF, 8⟩

/-- The part in a device state, base select 5, with or without a station descriptor. -/
def part (d : DeviceState) (st : Option StationDescriptor) : State :=
  { State.released 5 22 with lc := { (State.released 5 22).lc with device := d, station := st, loadSlot := none } }

def running : State := part .running (some station0)

/-- A record with these words in front, and its check word. -/
def recordOf (l : List Word) : Record := withCheck (Vector.ofFn fun i => l.getD i.val 0)

def stationRecord (code : Nat) : Record :=
  recordOf [0x5100, BitVec.ofNat 16 code, 1, 60, 500, 0x3F, 0x1FF, 8]

def channelRecord (c nominal : Nat) : Record :=
  recordOf [BitVec.ofNat 16 (0x5200 + c), 3, 0, BitVec.ofNat 16 nominal, 16000, 200, 1000, 400, 20, 0x0402, 100, 50, 60,
    2500, 5]

def runRecord (r flags : Nat) : Record :=
  recordOf [BitVec.ofNat 16 (0x5300 + r), BitVec.ofNat 16 flags, 0, 2000, 0, 500, 300, 900, 0, 5000]

def tallyRecord (r seq total rate : Nat) : Record :=
  recordOf [BitVec.ofNat 16 (0x5500 + r), BitVec.ofNat 16 seq, 0, BitVec.ofNat 16 (total / 65536), BitVec.ofNat 16 total,
    0, BitVec.ofNat 16 rate]

def channel0 : ChannelDescriptor := ⟨true, true, 50000, 16000, 200, 1000, 400, 20, 4, 2, 100, 50, 60, 2500, 5⟩

def run0 : RunDescriptor := ⟨true, 0, false, 0, 2000, 500, 300, 900, 5000⟩

/-- A channel in a service state with its descriptor. -/
def channelIn (x : ServiceState) : Channel :=
  { Channel.reset with service := x, descriptor := some channel0, working := 50000, owed := 2 }

/-- The running part with this channel 3. -/
def withChannel (x : Channel) : State := running.setChan 3 x

/-- A stroke in a phase. -/
def strokeIn (p : Phase) (k : StrokeKind) (proven : Bool) (window : Nat) : Sequencer :=
  ⟨p, some k, ⟨20, 200, window, 1000⟩, 0, 20, proven, false, decide (p = .drive), decide (p ≠ .rest)⟩

/-- The running part with this run 11, bound in tally slot 383 where it is bound. -/
def withRun (e : RunEntry) : State :=
  let s := running.setRun 11 e
  let t := { s with rt := { s.rt with descriptors := s.rt.descriptors.set 11 (some run0) }, uptime := 1000 }
  if e.condition.bound then t.setClaim 383 (.current 11) else t

def entryIn (x : RunCondition) : RunEntry :=
  { RunEntry.reset with
    condition := x, shadowSequence := 7, shadowTotal := 1000, shadowRate := 90, ageStart := some 0
    currentSlot := if x.bound then some 383 else none
    freshness := if x.bound then some ⟨0, 300000, 900000⟩ else none }

/-- The slot's assembly holds every word of w but the last. -/
def lastWord (s : State) (slot : Slot) (w : Record) : State :=
  { s with rv := { s.rv with assembling := [⟨slot, (w.map some).set 15 none, 0, 500⟩] } }

theorem completes_lastWord (s : State) (slot : Slot) (w : Record) (h : s.lc.resetAsserted = false)
    (hc : s.cp.cycle = none) (hg : s.lc.device = .running ∨ s.lc.device = .fallback ∧ (slot = 0 ∨ slot = 17)) :
    Completes (lastWord s slot w) slot 15 w[15] w := by
  refine ⟨h, hc, hg, rfl, ⟨slot, (w.map some).set 15 none, 0, 500⟩, by simp [lastWord, Verifier.entry], fun q hq => ?_⟩
  have : ¬15 = q.val := fun e => hq (Fin.ext e.symm)
  simp [this]

/-- The Memory Agent's item at its last word, that word granted. -/
def lastItem (s : State) (k : ItemKind) (slot : Slot) (w : Record) : State :=
  { s with ma := some ⟨k, slot, w, 15⟩
           mp := some ⟨.agent, slotAddr s.lc.baseSelect slot 15, wordCycle ⟨k, slot, w, 15⟩ 15⟩ }

/-- The last word of a loading read; memory holds that word of w. -/
def lastLoad (cause : LoadCause) (st : Option StationDescriptor) (slot : Slot) (w : Record) : State :=
  let s := part .loading st
  lastItem { s with lc := { s.lc with cause := cause }, mem := writeWord [] (slotAddr 5 slot 15) w[15] .both }
    .loadingRead slot w

theorem lastRead_lastLoad (cause : LoadCause) (st : Option StationDescriptor) (slot : Slot) (w : Record) :
    LastRead (lastLoad cause st slot w) ⟨.loadingRead, slot, w, 15⟩
      (w.set 15 (readWord (lastLoad cause st slot w).mem (slotAddr 5 slot 15))) :=
  ⟨⟨rfl, rfl, rfl, rfl⟩, rfl, rfl, rfl⟩

/-- A read's last word is the last word in every state that agrees on the port, the item, the device and the memory. -/
theorem lastRead_of_agree {s t : State} {x : Item} {w : Record} (h : LastRead t x w) (hma : s.ma = t.ma) (hmp : s.mp = t.mp)
    (hlc : s.lc.device = t.lc.device ∧ s.lc.baseSelect = t.lc.baseSelect) (hrv : s.rv = t.rv) (hmem : s.mem = t.mem) :
    LastRead s x w := by
  unfold LastRead LastWord at *
  rw [hma, hmp, hlc.1, hlc.2, hrv, hmem]
  exact h

theorem emptyScan_best (r : Run) : Scan.empty.best[r] = none := Vector.getElem_replicate r.isLt
theorem emptyScan_ranked : ∀ r : Run, Scan.empty.best[r] = none → Scan.empty.others[r] = [] := by decide +kernel

/-! ### Figures of the manual -/

/-- Section 1.5: addresses of the record area at base select 5. -/
theorem test_addresses :
    decompose 5 327990 = some (19, 6) ∧ decompose 5 329750 = some (129, 6) ∧ decompose 5 328400 = some (45, 0) ∧
    decompose 5 335872 = none ∧ decompose 5 327679 = none := by decide +kernel

/-- The two disposals of a one-lane write: PARTIAL_WORD in a controller slot, PROTECTED in a part slot (R12). -/
theorem test_one_lane_writes :
    classify 5 (slotAddr 5 17 0) (.write 1 .upper) = .refuse 21 17 0 ∧
    classify 5 (slotAddr 5 18 0) (.write 1 .upper) = .refuse 20 18 0 := by decide +kernel

theorem test_records_are_intact :
    intact (stationRecord 22) = true ∧ intact (channelRecord 3 50000) = true ∧ intact (runRecord 11 1) = true ∧
    intact (tallyRecord 11 8 8000 2000) = true := by decide +kernel

theorem test_descriptors_read :
    readStation (stationRecord 22) = some station0 ∧ readChannel (channelRecord 3 50000) = some channel0 ∧
    readRun (runRecord 11 1) = some run0 := by decide +kernel

/-- The check word over "123456789" of the CRC the manual describes, had it nine bytes, is 0x29B1; over eight bytes and
seven words of zeros no such value is known, so the test is the one bit of R9's point 4. -/
theorem test_crc_bit : crcBit 0xFFFF true = 0xFFFE ∧ crcBit 0xFFFF false = 0xEFDF := by decide +kernel

/-! ### What each statement's hypotheses admit: the machine as a whole -/

theorem test_applies_StepTakesTheFront : ∃ (c : Instr) (rest : List Instr) (s : State), s.pending = c :: rest :=
  ⟨.drainComplete, [], State.reset.withCommand .drainComplete, rfl⟩

/-- RESET_n asserted. -/
def asserted : State := { running with lc := { running.lc with resetAsserted := true } }

theorem test_applies_StepOnAnEmptyQueue_reset : asserted.pending = [] ∧ asserted.lc.resetAsserted = true := ⟨rfl, rfl⟩

/-- A decision left open: the Memory Agent has an item, and the port is free. -/
def openDecision : State := { running with ma := some ⟨.rewrite, 18, Vector.replicate 16 0, 0⟩ }

theorem test_applies_StepOnAnEmptyQueue_open :
    openDecision.pending = [] ∧ Awake openDecision ∧ openDecision.mp = none ∧ openDecision.ma ≠ none :=
  ⟨rfl, rfl, rfl, by decide⟩

theorem reset_claims (k : TallySlot) : State.reset.claim k = .free := Vector.getElem_replicate k.isLt
theorem reset_runs (r : Run) : State.reset.run r = RunEntry.reset := Vector.getElem_replicate r.isLt
theorem reset_chans (c : Chan) : State.reset.chan c = Channel.reset := Vector.getElem_replicate c.isLt

theorem test_applies_StepOnAnEmptyQueue_tick :
    State.reset.pending = [] ∧ Awake State.reset ∧ (State.reset.mp = none → State.reset.ma = none) ∧
    ∀ c, ¬DueNow State.reset c := by
  refine ⟨rfl, rfl, fun h => (by cases h), fun c => ?_⟩
  cases c <;> simp only [DueNow, reset_claims, reset_runs, reset_chans] <;>
    simp [RunEntry.reset, Channel.reset, Sequencer.idle, State.reset, State.released]

theorem test_applies_StepOnAnEmptyQueue_due : let s := part .draining none
    s.pending = [] ∧ Awake s ∧ (s.mp = none → s.ma = none) ∧ DueNow s .drainComplete :=
  ⟨rfl, rfl, fun _ => rfl, rfl, rfl, rfl, by decide +kernel⟩

/-- Each line of `DueNow` at the moment of its deadline. -/
theorem test_applies_DueNow :
    (let s := lastWord { running with uptime := 500 } 511 (recordOf []); DueNow s (.assemblyExpired 511)) ∧
    DueNow ({ running with uptime := 9 }.setClaim 383 (.history 11 9)) (.historyExpiry 383) ∧
    DueNow { withRun (entryIn .live) with uptime := 300000 } (.stalenessExpiry 11) ∧
    DueNow { withRun (entryIn .stale) with uptime := 900000 } (.horizonExpiry 11) ∧
    DueNow { withRun { entryIn .stale with substitution := some ⟨300000, 0⟩ } with uptime := 301000 } (.substitutionStep 11) ∧
    DueNow ({ part .fallback none with uptime := 7 }.setChan 3 { channelIn .failed with baseTimer := some ⟨7, 7⟩ })
      (.basePeriodExpiry 3) ∧
    (let at_ (n : Nat) (p : Phase) : State :=
        { withChannel { channelIn .inService with seq := strokeIn p .ordinary false 400 } with uptime := n }
     DueNow (at_ 20 .precheck) (.precheckExpiry 3 (Config.freeContact 0 3)) ∧ DueNow (at_ 220 .drive) (.driveExpiry 3) ∧
     DueNow (at_ 420 .proof) (.proofWindowExpiry 3) ∧ DueNow (at_ 1020 .rest) (.restEnd 3)) := by
  refine ⟨⟨_, List.mem_singleton_self _, rfl, by decide⟩, ⟨11, 9, by decide +kernel, by decide⟩,
    ⟨by decide +kernel, ⟨0, 300000, 900000⟩, by decide +kernel, by decide⟩,
    ⟨by decide +kernel, ⟨0, 300000, 900000⟩, by decide +kernel, by decide⟩,
    ⟨⟨300000, 0⟩, by decide +kernel, by decide⟩, ⟨rfl, ⟨7, 7⟩, by decide +kernel, by decide⟩, ⟨rfl, by decide, rfl⟩,
    ⟨rfl, by decide⟩, ⟨rfl, by decide⟩, ⟨rfl, by decide⟩⟩

theorem test_applies_invariants : ∃ s t, step s = .next t ∧ MemoryWf s ∧ PoolWf s ∧ QueueWf s ∧ AttentionFollows s ∧
    OutputsFollow (s.chan 3) ∧ DemandBounded (s.chan 3) ∧ AgentBusy s :=
  ⟨State.reset.withCommand (.meterPulse 3), _, rfl, by unfold MemoryWf; decide +kernel, by unfold PoolWf; decide +kernel,
    by unfold QueueWf; decide +kernel, by unfold AttentionFollows; decide +kernel, by unfold OutputsFollow; decide +kernel,
    by unfold DemandBounded; decide +kernel, fun _ h => by cases h⟩

/-- The running part with run 11 LIVE in slot 383, no other slot of a run, and a channel in service. -/
def wholeTable : State := { withRun (entryIn .live) with
  pending := [.meterPulse 3], channels := running.channels.set 3 (channelIn .inService) }

theorem wholeTable_claim (k : TallySlot) : wholeTable.claim k = if k = 383 then .current 11 else .free := by
  show (Vector.set (Vector.replicate 384 Claim.free) 383 (.current 11))[k.val] = _
  rw [Vector.getElem_set]
  by_cases h : k = 383
  · subst h; rfl
  · have : ¬383 = k.val := fun e => h (Fin.ext e.symm)
    simp [h, this]

theorem loadWf_wholeTable : LoadWf wholeTable where
  reading x hx _ := by cases hx
  empty h := by cases h
  distinct := by show (scannedSlots Scan.empty).Nodup; decide +kernel
  behind k h := by cases h
  ranked := emptyScan_ranked
  draining h := by cases h
  channels _ k h := by cases h

theorem test_applies_RunTableStaysConsistent : ∃ s t, step s = .next t ∧ RunTableWf s ∧ LoadWf s := by
  refine ⟨wholeTable, _, rfl, ⟨by decide +kernel, fun r k => ?_, fun r => ?_, by decide +kernel⟩,
    loadWf_wholeTable⟩
  · rw [wholeTable_claim]
    have hr : (wholeTable.run r).currentSlot = if r = 11 then some 383 else none := by revert r; decide +kernel
    rw [hr]
    by_cases h1 : r = 11 <;> by_cases h2 : k = 383 <;> simp [h1, h2, eq_comm]
  · have h : historySlotsOf wholeTable r = 0 := by
      unfold historySlotsOf
      rw [List.length_eq_zero_iff, List.filter_eq_nil_iff]
      intro k _
      rw [wholeTable_claim]
      by_cases hk : k = 383 <;> simp [hk]
    rw [h]
    revert r; decide +kernel

theorem test_applies_ChannelsKeepTheirBounds : ∃ s t, step s = .next t ∧ ChannelsWf s ∧ LoadWf s ∧
    (s.chan 3).descriptor = some channel0 ∧ ∀ c, OutputsFollow (s.chan c) ∧ DemandBounded (s.chan c) := by
  have h (c : Chan) : wholeTable.chan c = if c = 3 then channelIn .inService else Channel.reset := by
    revert c; decide +kernel
  refine ⟨wholeTable, _, rfl, ⟨fun c => ?_, fun _ c => ?_⟩,
    loadWf_wholeTable, rfl, fun c => ?_⟩ <;> rw [h] <;> split
  · exact ⟨by simp [channelIn], by simp [channelIn], fun d hd => by cases hd; decide⟩
  · exact ⟨by simp [Channel.reset], by decide, fun d hd => by cases hd⟩
  · exact fun d hd => by cases hd; decide
  · exact fun d hd => by cases hd
  · unfold OutputsFollow DemandBounded; decide
  · unfold OutputsFollow DemandBounded; decide

theorem test_applies_ReadsStayWhole : ∃ s t, step s = .next t ∧ ReadsWhole s :=
  ⟨{ running with pending := [.meterPulse 3], mp := some ⟨.controller, slotAddr 5 19 0, .read⟩ }, _, rfl,
    fun _ _ _ _ _ _ _ => rfl⟩

/-- The status record under write with one flag in its snapshot, which is the pending set. -/
theorem test_applies_PendingFlagsAreUnderWrite : ∃ s t, step s = .next t ∧ PendingFollows s ∧
    s.ru.pendingShown.has (.station .poolFull) = true := by
  let u : State := { running with ru := { running.ru with latched := FlagWords.none.add (.station .poolFull) } }
  refine ⟨{ u with pending := [.meterPulse 3], ma := some ⟨.rewrite, 19, statusRecord u, 0⟩
                   ru := { u.ru with pendingShown := u.ru.latched } }, _, rfl, fun _ f hf => ?_, by decide +kernel⟩
  have hf : (FlagWords.none.add (.station .poolFull)).has f = true := hf
  rw [FlagWords.has_add] at hf
  have h0 : FlagWords.none.has f = false := by
    show ((Vector.replicate 7 (0 : Word))[f.word.val]).getLsbD f.bit = false
    rw [Vector.getElem_replicate]; simp
  rw [h0, Bool.false_or, decide_eq_true_eq] at hf
  subst hf
  exact ⟨_, rfl, rfl, rfl, by decide +kernel⟩

theorem test_applies_WorkItemsReachMemory : ∃ s t, step s = .next t ∧ MemoryWf s ∧ WritesInOrder s := by
  refine ⟨{ running with pending := [.meterPulse 3], ma := some ⟨.rewrite, 18, Vector.replicate 16 0, 1⟩ }, _, rfl,
    by unfold MemoryWf; decide +kernel, ?_, ?_, ?_, ?_, ?_, ?_⟩
  · intro _ c h; cases h
  · intro m h; cases h
  · intro e h; cases h
  · intro e h; cases h
  · intro _ m h; cases h
  · intro x h; cases h; exact ⟨rfl, by decide, Or.inr ⟨by decide, by decide +kernel⟩⟩

/-! ### The record area and the bus -/

/-- The register values of R9's computation. -/
def registers (r : Record) : Nat → Word
  | 0 => 0xFFFF#16
  | n + 1 =>
    if r[Fin.ofNat 16 (n / 16)].getLsbD (15 - n % 16) ≠ (registers r n).getLsbD 15
    then (registers r n <<< 1) ^^^ 0x1021#16 else registers r n <<< 1

theorem test_applies_CheckWordsFollowR9 : ∃ (r : Record) (reg : Nat → Word), reg 0 = 0xFFFF#16 ∧
    ∀ (i : Fin 15) (j : Fin 16), reg (16 * i.val + j.val + 1) =
      if r[i.val].getLsbD (15 - j.val) ≠ (reg (16 * i.val + j.val)).getLsbD 15
      then (reg (16 * i.val + j.val) <<< 1) ^^^ 0x1021#16 else reg (16 * i.val + j.val) <<< 1 := by
  refine ⟨Vector.replicate 16 0x5100, registers (Vector.replicate 16 0x5100), rfl, fun i j => ?_⟩
  have h' : (16 * i.val + j.val) % 16 = j.val := by omega
  have hr : (Vector.replicate 16 (0x5100 : Word))[Fin.ofNat 16 ((16 * i.val + j.val) / 16)] =
      (Vector.replicate 16 (0x5100 : Word))[i.val] := by simp
  rw [registers, hr, h']

/-- The bounds of the slot classes of R12. -/
theorem test_applies_CyclesAreClassified :
    decompose 5 (slotAddr 5 38 0) = some (38, 0) ∧ decompose 5 (slotAddr 5 63 15) = some (63, 15) ∧
    decompose 5 (slotAddr 5 18 0) = some (18, 0) ∧ decompose 5 (slotAddr 5 37 15) = some (37, 15) ∧
    decompose 5 (slotAddr 5 64 0) = some (64, 0) ∧ decompose 5 (slotAddr 5 127 15) = some (127, 15) ∧
    decompose 5 (slotAddr 5 0 0) = some (0, 0) ∧ decompose 5 (slotAddr 5 17 15) = some (17, 15) ∧
    decompose 5 (slotAddr 5 128 0) = some (128, 0) ∧ decompose 5 (slotAddr 5 511 15) = some (511, 15) ∧
    decompose 5 0 = none := by decide +kernel

theorem running_nothing : NothingPending running :=
  ⟨rfl, fun h => (by cases h), fun _ => ⟨by decide +kernel, fun _ => rfl⟩⟩

theorem test_applies_ForwardedCyclesAreRequested_free :
    running.cp.cycle = none ∧ Awake running ∧ classify running.lc.baseSelect 0 .read = .forward ∧ running.mp = none ∧
    running.ma = none ∧ NothingPending running := ⟨rfl, rfl, by decide +kernel, rfl, rfl, running_nothing⟩

theorem test_applies_ForwardedCyclesAreRequested_open :
    openDecision.cp.cycle = none ∧ Awake openDecision ∧
    classify openDecision.lc.baseSelect 0 .read = .forward ∧ openDecision.mp = none ∧ openDecision.ma ≠ none :=
  ⟨rfl, rfl, by decide +kernel, rfl, by decide⟩

theorem test_applies_ForwardedCyclesAreRequested_busy :
    State.reset.cp.cycle = none ∧ Awake State.reset ∧
    classify State.reset.lc.baseSelect 0 (.write 1 .both) = .take 0 0 1 ∧
    classify State.reset.lc.baseSelect 8192 (.write 1 .both) = .forward ∧
    State.reset.mp = some ⟨.agent, 0, .read⟩ ∧ (State.reset.ma = none → NothingPending State.reset) :=
  ⟨rfl, rfl, by decide +kernel, by decide +kernel, rfl, fun h => by cases h⟩

theorem test_applies_ForwardedCyclesAreRequested_reset : asserted.cp.cycle = none ∧ asserted.lc.resetAsserted = true :=
  ⟨rfl, rfl⟩

/-- Every code of the table of R47 has its flag. -/
theorem test_applies_WordsAreRefused_flags : ∀ code ∈ [20, 21, 22, 23, 24], ∃ flag : StationFlag, (code, flag) ∈
    [(20, StationFlag.protectedWrite), (21, .partialWord), (22, .poolFull), (23, .notReady), (24, .notConfigured)] := by
  simp

/-- A pool with no FREE entry. -/
def poolFull : State :=
  { running with rv := { running.rv with committing := List.replicate 8 ⟨0, Vector.replicate 16 0, 0, 500⟩ } }

theorem test_applies_WordsAreRefused :
    WordRefused running 18 .upper 20 ∧ WordRefused running 127 .both 20 ∧ WordRefused running 17 .upper 21 ∧
    WordRefused running 511 .lower 21 ∧ WordRefused poolFull 128 .both 22 ∧
    WordRefused (part .loading none) 0 .both 23 ∧ WordRefused (part .draining none) 511 .both 23 ∧
    WordRefused (part .fallback none) 1 .both 24 ∧ Awake poolFull ∧ poolFull.cp.cycle = none := by
  refine ⟨?_, ?_, ?_, ?_, ?_, ?_, ?_, ?_, rfl, rfl⟩
  · exact Or.inl (by decide)
  · exact Or.inl (by decide)
  · exact Or.inr (Or.inl (by decide))
  · exact Or.inr (Or.inl (by decide))
  · exact Or.inr (Or.inr ⟨by decide, rfl, Or.inl ⟨rfl, Or.inl rfl, rfl, by decide⟩⟩)
  · exact Or.inr (Or.inr ⟨by decide, rfl, Or.inr (Or.inl ⟨rfl, Or.inl rfl⟩)⟩)
  · exact Or.inr (Or.inr ⟨by decide, rfl, Or.inr (Or.inl ⟨rfl, Or.inr rfl⟩)⟩)
  · exact Or.inr (Or.inr ⟨by decide, rfl, Or.inr (Or.inr ⟨rfl, rfl, by decide, by decide⟩)⟩)

theorem test_applies_WordsArePlaced_entry : ∃ (s : State) (slot : Slot) (p : Pos) (e : Assembly), Awake s ∧ s.cp.cycle = none ∧
    slotClass slot = .controller ∧ s.lc.device = .running ∧ s.rv.entry slot = some e ∧ ∃ q : Pos, q ≠ p ∧ e.words[q] = none :=
  ⟨lastWord running 511 (recordOf []), 511, 0, _, rfl, rfl, by decide, rfl, rfl, 15, by decide, by decide +kernel⟩

theorem test_applies_WordsArePlaced_new : ∃ s slot, Awake s ∧ s.cp.cycle = none ∧ slotClass slot = .controller ∧
    s.lc.device = .fallback ∧ (slot = 0 ∨ slot = 17) ∧ s.rv.entry slot = none ∧ s.rv.inUse < 8 :=
  ⟨part .fallback none, 17, rfl, rfl, by decide, rfl, by decide, rfl, by decide⟩

theorem test_applies_ControllerCyclesComplete : ∃ s a op, Awake s ∧ MemoryWf s ∧ s.mp = some ⟨.controller, a, op⟩ ∧
    op = .write 7 .upper :=
  ⟨{ running with mp := some ⟨.controller, 0, .write 7 .upper⟩ }, 0, _, rfl, by unfold MemoryWf; decide +kernel, rfl, rfl⟩

theorem test_applies_ControllerCyclesComplete_read : ∃ s a, Awake s ∧ MemoryWf s ∧
    s.mp = some ⟨.controller, a, .read⟩ ∧ ∀ p : Pos, 2 ≤ p.val → p.val ≤ 8 → decompose s.lc.baseSelect a ≠ some (19, p) :=
  ⟨{ running with mp := some ⟨.controller, slotAddr 5 19 9, .read⟩ }, slotAddr 5 19 9, rfl,
    by unfold MemoryWf; decide +kernel, rfl, by decide +kernel⟩

/-! ### The Memory Agent -/

/-- An item at its fifteenth word, with a cycle of the controller waiting. -/
def midItem (passOver : Nat) (a : Addr) : State :=
  let x : Item := ⟨.commit, 511, tallyRecord 11 8 8000 90, 14⟩
  { running with ma := some x, mp := some ⟨.agent, slotAddr 5 511 14, wordCycle x 14⟩, passOver := passOver
                 cp := { running.cp with cycle := some ⟨a, .read, .waiting⟩, waitLine := true } }

/-- Both clauses, at the bound of the pass-over count; a read of the slot under write does not compete. -/
theorem test_applies_AgentWordsFollowInOrder : ∃ x, ∀ n ∈ [7, 8],
    Awake (midItem n 0) ∧ MemoryWf (midItem n 0) ∧ (midItem n 0).ma = some x ∧ x.next = 14 ∧
    (midItem n 0).mp = some ⟨.agent, slotAddr 5 x.slot (Fin.ofNat 16 x.next), wordCycle x x.next⟩ ∧
    HeldBy (midItem n 0) x ⟨0, .read, .waiting⟩ = false ∧
    HeldBy (midItem n 0) x ⟨slotAddr 5 511 0, .read, .waiting⟩ = true ∧
    ((midItem n 0).passOver < (midItem n 0).starvationLimit ↔ n = 7) := by
  refine ⟨⟨.commit, 511, tallyRecord 11 8 8000 90, 14⟩, ?_⟩
  unfold Awake MemoryWf
  decide +kernel

theorem test_applies_CommitsComplete : ∃ s x, Awake s ∧ MemoryWf s ∧ LastWord s .commit x :=
  ⟨lastItem running .commit 511 (tallyRecord 11 8 8000 90), _, rfl, by unfold MemoryWf; decide +kernel, rfl, rfl, rfl, rfl⟩

theorem test_applies_AppendsComplete : ∃ s x, Awake s ∧ MemoryWf s ∧ LastWord s .eventAppend x :=
  ⟨lastItem running .eventAppend 127 (recordOf []), _, rfl, by unfold MemoryWf; decide +kernel, rfl, rfl, rfl, rfl⟩

theorem test_applies_RewritesComplete : ∃ s x, Awake s ∧ MemoryWf s ∧ LastWord s .rewrite x ∧ x.slot = 19 :=
  ⟨lastItem running .rewrite 19 (recordOf []), _, rfl, by unfold MemoryWf; decide +kernel, ⟨rfl, rfl, rfl, rfl⟩, rfl⟩

/-- An item's last word in a device state, with work of these kinds waiting. -/
def waitingWork (d : DeviceState) (commits : List Commit) (events : List EventRecord) (dirty : Bool) : State :=
  let s := part d none
  lastItem { s with rv := { s.rv with committing := commits }
                    ru := { s.ru with events := events, dirty := Vector.replicate 20 dirty } } .rewrite 18 (recordOf [])

/-- Work of every kind waits, each kind first once, in RUNNING, FALLBACK and DRAINING; and nothing waits. -/
theorem test_applies_WorkIsTakenInOrder : ∀ d ∈ [DeviceState.running, .fallback, .draining], ∀ x ∈
    [([(⟨0, recordOf [], 0, 500⟩ : Commit)], [(⟨.loadDone, 0, 0, 0, 0⟩ : EventRecord)], true),
     ([], [⟨.loadDone, 0, 0, 0, 0⟩], true), ([], [⟨.loadDone, 0, 0, 0, 0⟩], false), ([], [], true), ([], [], false)],
    Awake (waitingWork d x.1 x.2.1 x.2.2) ∧
    LastWord (waitingWork d x.1 x.2.1 x.2.2) .rewrite ⟨.rewrite, 18, recordOf [], 15⟩ :=
  fun _ _ _ _ => ⟨rfl, rfl, rfl, rfl, rfl⟩

/-- A loading read's last word in LOADING, with a commit from before. -/
theorem test_applies_WorkIsTakenInOrder_loading : ∃ s x, Awake s ∧ LastWord s .loadingRead x ∧ s.lc.device = .loading :=
  ⟨lastLoad .reset none 1 (recordOf []), _, rfl, ⟨rfl, rfl, rfl, rfl⟩, rfl⟩

theorem test_applies_PartRecordHolds :
    (∃ (s : State) (r : Record), s.rv.capture.body = some r) ∧ ((withChannel (channelIn .failed)).chan 3).descriptor = some channel0 ∧
    (running.chan 3).descriptor = none :=
  ⟨⟨{ running with rv := { running.rv with capture := { running.rv.capture with body := some (tallyRecord 11 1 0 0) } } }, _, rfl⟩,
    rfl, rfl⟩

theorem test_applies_WorkIsTakenInOrder_idle : Awake running ∧ running.ma = none ∧ NothingPending running :=
  ⟨rfl, rfl, running_nothing⟩

/-! ### Loading -/

/-- A loading read that is still the one requested. -/
def requestedLoad (cause : LoadCause) (st : Option StationDescriptor) (slot : Slot) (w : Record) : State :=
  let s := lastLoad cause st slot w
  { s with lc := { s.lc with loadSlot := some slot } }

theorem test_applies_AbsentRecordsAreSkipped : ∃ s x w, Awake s ∧ LastRead s x w ∧ AbsentAt x.slot w ∧ x.slot.val < 128 ∧
    AfterInLoad s.lc.cause.afterReset (x.slot.val ≠ 0 && s.lc.station.isSome) x.slot 1 :=
  ⟨lastLoad .reset none 0 (Vector.replicate 16 0), _, _, rfl, lastRead_lastLoad _ _ _ _, Or.inl (by decide +kernel),
    by decide, Or.inl (by decide)⟩

/-- Every way to be absent, at the bounds of the slots it is of. -/
theorem test_applies_AbsentAt :
    AbsentAt 37 (Vector.replicate 16 0) ∧ AbsentAt 1 (runRecord 0 1) ∧ AbsentAt 4 (channelRecord 2 50000) ∧
    AbsentAt 1 (channelRecord 0 1) ∧ AbsentAt 4 (channelRecord 3 1) ∧ AbsentAt 5 (runRecord 0 0xFFFF) ∧
    AbsentAt 16 (runRecord 11 0xFFFF) ∧ AbsentAt 22 (recordOf [0x6500, 0, 0, 0, 0, 0x50]) ∧
    AbsentAt 25 (recordOf [0x6503, 0, 0, 0, 0, 0x50]) ∧ AbsentAt 26 (recordOf [0x6600, 0x5000]) ∧
    AbsentAt 37 (recordOf [0x660B, 0x5000]) ∧ AbsentAt 19 (recordOf [0x6200, 0, 0, 0, 0, 0, 0, 0, 0, 64]) ∧
    AbsentAt 20 (recordOf [0x6300, 0]) := by
  refine ⟨Or.inl (by decide +kernel), ?_, ?_, ?_, ?_, ?_, ?_, ?_, ?_, ?_, ?_, ?_, ?_⟩ <;>
    refine Or.inr ⟨by decide, by decide, ?_⟩
  · exact Or.inl (by decide +kernel)
  · exact Or.inr (Or.inl (by decide +kernel))
  · exact Or.inr (Or.inr (Or.inl ⟨0, by decide +kernel⟩))
  · exact Or.inr (Or.inr (Or.inl ⟨3, by decide +kernel⟩))
  · exact Or.inr (Or.inr (Or.inr (Or.inl ⟨0, by decide +kernel⟩)))
  · exact Or.inr (Or.inr (Or.inr (Or.inl ⟨11, by decide +kernel⟩)))
  · exact Or.inr (Or.inr (Or.inr (Or.inr (Or.inl ⟨0, by decide +kernel⟩))))
  · exact Or.inr (Or.inr (Or.inr (Or.inr (Or.inl ⟨3, by decide +kernel⟩))))
  · exact Or.inr (Or.inr (Or.inr (Or.inr (Or.inr (Or.inl ⟨0, by decide +kernel⟩)))))
  · exact Or.inr (Or.inr (Or.inr (Or.inr (Or.inr (Or.inl ⟨11, by decide +kernel⟩)))))
  · exact Or.inr (Or.inr (Or.inr (Or.inr (Or.inr (Or.inr (Or.inl (by decide +kernel)))))))
  · exact Or.inr (Or.inr (Or.inr (Or.inr (Or.inr (Or.inr (Or.inr (by decide +kernel)))))))

/-- Every line of the reading order has a slot that follows, at the bounds of its range. -/
theorem test_applies_AfterInLoad :
    AfterInLoad true false 0 1 ∧ AfterInLoad false false 0 19 ∧ AfterInLoad false true 0 5 ∧ AfterInLoad true true 1 2 ∧
    AfterInLoad true true 3 4 ∧ AfterInLoad true true 4 22 ∧ AfterInLoad true true 22 23 ∧ AfterInLoad true true 24 25 ∧
    AfterInLoad true true 25 5 ∧ AfterInLoad true false 25 19 ∧ AfterInLoad true true 5 6 ∧ AfterInLoad true true 16 26 ∧
    AfterInLoad true true 26 27 ∧ AfterInLoad true true 36 37 ∧ AfterInLoad true true 37 19 ∧
    AfterInLoad true false 19 20 ∧ AfterInLoad true true 20 128 ∧ AfterInLoad true true 128 129 ∧
    AfterInLoad true true 510 511 := by
  unfold AfterInLoad; and_intros <;> decide +kernel

theorem test_applies_LoadedStationDescriptorsHold :
    let s := lastLoad .reset none 0 (stationRecord 22)
    let w := (stationRecord 22).set 15 (readWord s.mem (slotAddr 5 0 15))
    Awake s ∧ intact w = true ∧ w[0] = 0x5100 ∧ readStation w = some station0 ∧
    station0.stationCode = s.lc.stationCode.toNat := by
  unfold Awake; decide +kernel

/-- Each test of R170 that an intact record of slot 0 fails first. -/
theorem test_applies_StationFails :
    StationFails running (tallyRecord 0 1 1 1) 2 ∧ StationFails running (recordOf [0x5101]) 3 ∧
    StationFails running (recordOf [0x5100, 22, 7, 60, 500, 0x3F, 0x1FF, 8]) 4 ∧ StationFails running (stationRecord 21) 12 :=
  ⟨⟨by decide +kernel, Or.inl (by decide +kernel)⟩, ⟨by decide +kernel, Or.inr (Or.inl (by decide +kernel))⟩,
    ⟨by decide +kernel, Or.inr (Or.inr (Or.inl (by decide +kernel)))⟩,
    ⟨by decide +kernel, Or.inr (Or.inr (Or.inr ⟨rfl, by decide +kernel, { station0 with stationCode := 21 },
      by decide +kernel, by decide⟩))⟩⟩

/-- What a loading read of w hands over, memory holding its last word. -/
def handed (slot : Slot) (w : Record) : Record := w.set 15 (readWord (lastLoad .reset none slot w).mem (slotAddr 5 slot 15))

theorem test_applies_LoadedChannelsAreConfigured :
    let s := lastLoad .reset none 4 (channelRecord 3 50000)
    let w := handed 4 (channelRecord 3 50000)
    Awake s ∧ LastRead s ⟨.loadingRead, 4, channelRecord 3 50000, 15⟩ w ∧ AfterInLoad true false 4 22 ∧
    channelDescriptorSlot 3 = 4 ∧ intact w = true ∧ w[0] = headWord 0x52 3 ∧ readChannel w = some channel0 := by
  refine ⟨rfl, lastRead_lastLoad _ _ _ _, by unfold AfterInLoad; decide, by decide, ?_⟩
  decide +kernel

/-- A report of channel 3 that shows CALIBRATING, a residue above the quantum and a deficit; and no descriptor. -/
theorem test_applies_LoadedChannelsAreConfigured_report :
    let r := channelReport 3 0 { channelIn .calibrating with residue := 50000001, deficit := 1 }
    let t := lastLoad .reset none 25 r
    let s := t.setChan 3 { channelIn .inService with owed := 0 }
    let w := handed 25 r
    Awake s ∧ LastRead s ⟨.loadingRead, 25, r, 15⟩ w ∧ AfterInLoad true false 25 19 ∧ intact w = true ∧
    w[0] = headWord 0x65 3 ∧
    readChannelReport w = some ⟨true, .none, 0, 2, 0, 50000001, 1, 0, 50000, 50000⟩ ∧
    (s.chan 3).descriptor = some channel0 ∧ (t.chan 3).descriptor = none := by
  intro r t s w
  refine ⟨rfl, lastRead_of_agree (t := t) (lastRead_lastLoad .reset none 25 r) rfl rfl ⟨rfl, rfl⟩ rfl rfl,
    by unfold AfterInLoad; decide, ?_⟩
  decide +kernel

theorem test_applies_LoadedRunsAreConfigured : ∀ f ∈ [0, 1],
    let s := lastLoad .reset (some station0) 16 (runRecord 11 f)
    let w := handed 16 (runRecord 11 f)
    Awake s ∧ LastRead s ⟨.loadingRead, 16, runRecord 11 f, 15⟩ w ∧ AfterInLoad true true 16 26 ∧
    runDescriptorSlot 11 = 16 ∧ intact w = true ∧ w[0] = headWord 0x53 11 ∧
    readRun w = some { run0 with enabled := decide (f = 1) } := by
  intro f hf
  refine ⟨rfl, lastRead_lastLoad _ _ _ _, by unfold AfterInLoad; decide, by decide, ?_⟩
  revert f; decide +kernel

theorem test_applies_LoadedRunsAreConfigured_report : ∀ x ∈ [RunCondition.unbound, .retired],
    let r := runReport 11 { entryIn x with credit := 70000 }
    let s := (lastLoad (.restart 1) (some station0) 37 r).setRun 11 (entryIn x)
    let w := handed 37 r
    Awake s ∧ LastRead s ⟨.loadingRead, 37, r, 15⟩ w ∧ AfterInLoad false true 37 19 ∧ intact w = true ∧
    w[0] = headWord 0x66 11 ∧ (w[1].extractLsb' 12 4).toNat ≤ 4 ∧ (s.run 11).condition = x := by
  intro x hx
  refine ⟨rfl, lastRead_lastLoad (.restart 1) (some station0) 37 _, by unfold AfterInLoad; decide, ?_⟩
  revert x; decide +kernel

/-- The last position of the ring. -/
theorem test_applies_LoadedStatusAndCaptureRestore_status :
    let r := recordOf [0x6200, 0, 0, 0, 0, 0, 0, 0, 0, 63]
    let s := lastLoad .reset none 19 r
    let w := handed 19 r
    Awake s ∧ LastRead s ⟨.loadingRead, 19, r, 15⟩ w ∧ AfterInLoad true false 19 20 ∧ intact w = true ∧ w[0] = 0x6200 ∧
    w[9].toNat = 63 := by
  refine ⟨rfl, lastRead_lastLoad _ _ _ _, by unfold AfterInLoad; decide, ?_⟩
  decide +kernel

/-- A header of an occupied capture. -/
def headerRecord : Record := recordOf [0x6300, 1, 9, 511, 0, 5, 65535, 1]

theorem header_restores (st : Option StationDescriptor) :
    HeaderRestores (lastLoad .reset st 20 headerRecord) (handed 20 headerRecord) :=
  ⟨rfl, by decide +kernel, by decide +kernel, by decide +kernel⟩

theorem test_applies_LoadedStatusAndCaptureRestore_capture : ∀ cause ∈ [LoadCause.reset, .stationAccepted],
    let s := lastLoad cause (some station0) 20 headerRecord
    Awake s ∧ LastRead s ⟨.loadingRead, 20, headerRecord, 15⟩ (handed 20 headerRecord) ∧
    AfterInLoad s.lc.cause.afterReset s.lc.station.isSome 20 128 ∧ (cause = .reset → HeaderRestores s (handed 20 headerRecord)) ∧
    s.lc.cause = cause := fun cause _ =>
  ⟨rfl, lastRead_lastLoad _ _ _ _, by unfold AfterInLoad; simp [lastLoad, lastItem, part],
    fun h => h ▸ header_restores (some station0), rfl⟩

/-- A loading read of a tally slot, in the order of a load. -/
theorem loadWf_requestedLoad (slot : Slot) (w : Record) (h : 4 < slot.val) :
    LoadWf (requestedLoad .reset (some station0) slot w) where
  reading x hx _ := by cases hx; exact ⟨rfl, rfl⟩
  empty _ := ⟨reset_claims, fun r => Or.inl (by show (State.reset.run r).condition = _; rw [reset_runs]; rfl)⟩
  distinct := by show (scannedSlots Scan.empty).Nodup; decide +kernel
  behind k _ j hj := by
    have : scannedSlots Scan.empty = [] := by decide +kernel
    rw [show (requestedLoad .reset (some station0) slot w).lc.scan = Scan.empty from rfl, this] at hj
    cases hj
  ranked := emptyScan_ranked
  draining h := by cases h
  channels _ k hk h4 := by cases hk; omega

theorem lastRead_requestedLoad (slot : Slot) (w : Record) :
    LastRead (requestedLoad .reset (some station0) slot w) ⟨.loadingRead, slot, w, 15⟩ (handed slot w) :=
  lastRead_of_agree (lastRead_lastLoad .reset (some station0) slot w) rfl rfl ⟨rfl, rfl⟩ rfl rfl

/-- The first and the last tally slot but one, with a record that is not valid. -/
theorem test_applies_TallySlotsAreWeighed : ∀ k ∈ [128, (510 : Slot)],
    let s := requestedLoad .reset (some station0) k (recordOf [])
    Awake s ∧ LoadWf s ∧ LastRead s ⟨.loadingRead, k, recordOf [], 15⟩ (handed k (recordOf [])) ∧
    ∃ t : TallySlot, k.val = 128 + t.val := by
  intro k hk
  refine ⟨rfl, loadWf_requestedLoad k _ ?_, lastRead_requestedLoad k _, ?_⟩ <;> simp at hk
  · rcases hk with rfl | rfl <;> decide
  · rcases hk with rfl | rfl
    · exact ⟨0, rfl⟩
    · exact ⟨382, rfl⟩

/-- What the scan's order asks of the best record so far: a larger total, then a larger sequence, then a lower slot. -/
theorem test_applies_Replaces :
    Replaces ⟨5, 7, 999, 0⟩ 9 (tallyRecord 11 0 1000 90) ∧ Replaces ⟨5, 7, 1000, 0⟩ 9 (tallyRecord 11 8 1000 90) ∧
    Replaces ⟨5, 8, 1000, 0⟩ 4 (tallyRecord 11 8 1000 90) ∧ ¬Replaces ⟨5, 8, 1000, 0⟩ 6 (tallyRecord 11 8 1000 90) := by
  unfold Replaces; decide +kernel

/-- The last tally slot: a record that is not valid, and the first valid record of run 11. -/
theorem test_applies_LoadsComplete :
    let s := requestedLoad .reset (some station0) 511 (tallyRecord 11 8 8000 90)
    let u : State := { s with rt := { s.rt with descriptors := s.rt.descriptors.set 11 (some run0) } }
    let w := handed 511 (tallyRecord 11 8 8000 90)
    Awake s ∧ LoadWf s ∧ LastRead s ⟨.loadingRead, 511, tallyRecord 11 8 8000 90, 15⟩ w ∧ s.lc.station = some station0 ∧
    Weighed s 383 w s.lc.scan ∧
    Weighed u 383 w { Scan.empty with best := Scan.empty.best.set 11 (some ⟨383, 8, 8000, 90⟩), valid := 1 } := by
  intro s u w
  have hw : intact w = true ∧ recordKind w = 0x55 ∧ recordIndex w = 11 := by decide +kernel
  have hs : ∀ r, ¬ScanValid s r w := fun r h => by
    obtain ⟨_, _, _, d, hd, _⟩ := h
    revert hd
    rw [show s.runDescriptor r = none from Vector.getElem_replicate r.isLt]
    exact fun h => by cases h
  have hu : ∀ r, ScanValid u r w → r = 11 := fun r h => Fin.ext (h.2.2.1.symm.trans hw.2.2)
  have h11 : ScanValid u 11 w := ⟨hw.1, hw.2.1, hw.2.2, run0, by decide +kernel, rfl⟩
  refine ⟨rfl, loadWf_requestedLoad _ _ (by decide), lastRead_requestedLoad 511 _, rfl,
    ⟨fun _ => rfl, fun r h => absurd h (hs r), fun r _ h => absurd h (hs r), fun r h => absurd h (hs r),
      fun r _ h => absurd h (hs r), fun r _ h => absurd h (hs r)⟩,
    ⟨fun h => absurd h11 (h 11), fun _ _ => rfl, fun r q h hq => ?_, fun r h _ => ?_, fun r b h hb => ?_,
      fun r b h hb => ?_⟩⟩
  · obtain rfl := hu r h
    revert q; decide +kernel
  · obtain rfl := hu r h
    decide +kernel
  · obtain rfl := hu r h
    cases (emptyScan_best 11).symm.trans hb
  · obtain rfl := hu r h
    cases (emptyScan_best 11).symm.trans hb

/-- An occupied header, and a record that is not intact. -/
theorem test_applies_FallbackIsEntered :
    (let s := lastLoad .reset none 20 headerRecord
     Awake s ∧ LastRead s ⟨.loadingRead, 20, headerRecord, 15⟩ (handed 20 headerRecord) ∧ s.lc.station = none ∧
     s.lc.scan = Scan.empty ∧ HeaderRestores s (handed 20 headerRecord)) ∧
    (let s := lastLoad .reset none 20 (Vector.replicate 16 0)
     Awake s ∧ LastRead s ⟨.loadingRead, 20, Vector.replicate 16 0, 15⟩ (handed 20 (Vector.replicate 16 0)) ∧
     ¬HeaderRestores s (handed 20 (Vector.replicate 16 0))) :=
  ⟨⟨rfl, lastRead_lastLoad _ _ _ _, rfl, rfl, header_restores none⟩,
    rfl, lastRead_lastLoad _ _ _ _, fun h => absurd h.2.1 (by decide +kernel)⟩

/-! ### Status reads, the drain, RESET_n -/

theorem test_applies_StatusReadsClearFlags : ∀ i : Fin 7, ∃ s : State, Awake s ∧
    s.mp = some ⟨.controller, slotAddr s.lc.baseSelect 19 ⟨i.val + 2, by omega⟩, .read⟩ :=
  fun i => ⟨{ running with mp := some ⟨.controller, slotAddr 5 19 ⟨i.val + 2, by omega⟩, .read⟩ }, rfl, rfl⟩

/-- A read that clears a flag, and one whose flag's condition is present and clears nothing. -/
theorem test_applies_ReadClears :
    let f := Flag.station .recordRefused
    let g := Flag.station .fallback
    let s := { part .fallback none with
      mem := writeWord [] (slotAddr 5 19 2) (f.mask ||| g.mask) .both
      ru := { running.ru with latched := (FlagWords.none.add f).add g, shown := (FlagWords.none.add f).add g } }
    ReadClears s 2 f = true ∧ ReadClears s 2 g = false := by decide +kernel

/-- DRAINING with nothing left to write and channel 3 in this service state. -/
def drained (x : ServiceState) : State := (part .draining none).setChan 3 (channelIn x)

theorem test_applies_DrainsComplete : ∀ s ∈ [drained .inService, drained .calibrating], Awake s ∧
    s.lc.device = .draining ∧ s.ma = none ∧ s.rv.committing = [] ∧ ∀ k : PartSlot, s.ru.dirty[k] = false := by
  unfold Awake; decide +kernel

theorem test_applies_ResetIsAsserted : Awake (midItem 0 0) ∧ (midItem 0 0).cp.cycle ≠ none ∧
    ∃ m, asserted.lc.resetAsserted = true ∧ ({ asserted with mp := some m } : State).mp = some m :=
  ⟨rfl, by decide, ⟨.agent, 0, .read⟩, rfl, rfl⟩

/-- A release with no assertion before it, a memory cycle under way, with a cycle held and without. -/
theorem test_applies_ResetIsReleased : Awake State.reset ∧ State.reset.mp ≠ none ∧ State.reset.cp.cycle = none ∧
    Awake (midItem 0 0) ∧ (midItem 0 0).mp ≠ none ∧ (midItem 0 0).cp.cycle = some ⟨0, .read, .waiting⟩ ∧
    asserted.lc.resetAsserted = true ∧ asserted.cp.cycle = none :=
  ⟨rfl, by decide, rfl, rfl, by decide, rfl, rfl, rfl⟩

/-! ### Tallies and refused records -/

theorem test_applies_BaselinesDoseNothing_binding : ∃ s k p v w r, Completes s (tallySlotOf k) p v w ∧ intact w = true ∧
    w[0] = headWord 0x55 r ∧ ∃ h : r < 12, (s.run ⟨r, h⟩).condition = .unbound ∧ (s.run ⟨r, h⟩).held = false ∧
    s.claim k = .free :=
  ⟨lastWord (withRun (entryIn .unbound)) (tallySlotOf 383) (tallyRecord 11 8 8000 90), 383, 15, _, _, 11,
    completes_lastWord _ _ _ rfl rfl (Or.inl rfl), by decide +kernel, by decide +kernel, by decide, by decide +kernel,
    by decide +kernel, by decide +kernel⟩

/-- In place and into a FREE slot; the total equals the shadow, the least value that passes. -/
theorem test_applies_BaselinesDoseNothing_load : ∀ k ∈ [383, (0 : TallySlot)], ∃ (s : State) (w : Record),
    Completes s (tallySlotOf k) 15 w[15] w ∧ intact w = true ∧ w[0] = headWord 0x55 11 ∧
    (s.run 11).condition.bound = true ∧ (s.run 11).held = false ∧ (s.run 11).awaitingBaseline = true ∧
    (s.run 11).currentSlot = some 383 ∧ (s.claim k = .current 11 ∧ k = 383 ∨ s.claim k = .free ∧ k ≠ 383) ∧
    (s.run 11).shadowTotal = num3 w[2] w[3] w[4] := by
  intro k hk
  refine ⟨lastWord (withRun { entryIn .lost with awaitingBaseline := true }) (tallySlotOf k) (tallyRecord 11 0 1000 90),
    tallyRecord 11 0 1000 90, completes_lastWord _ _ _ rfl rfl (Or.inl rfl), by decide +kernel, by decide +kernel, ?_⟩
  revert k
  decide +kernel

/-- In place and into a FREE slot, the increment and the rate at their limits (R64). -/
theorem test_applies_TalliesReconcile : ∀ k ∈ [383, (0 : TallySlot)], ∃ (s : State) (w : Record),
    Completes s (tallySlotOf k) 15 w[15] w ∧ intact w = true ∧ w[0] = headWord 0x55 11 ∧
    (s.run 11).condition.bound = true ∧ (s.run 11).held = false ∧ (s.run 11).awaitingBaseline = false ∧
    (s.run 11).currentSlot = some 383 ∧ (s.claim k = .current 11 ∧ k = 383 ∨ s.claim k = .free ∧ k ≠ 383) ∧
    w[1] = (s.run 11).shadowSequence + 1 ∧ (s.run 11).shadowTotal ≤ num3 w[2] w[3] w[4] ∧
    s.runDescriptor 11 = some run0 ∧ num2 w[5] w[6] = run0.maxFlow ∧
    num3 w[2] w[3] w[4] - (s.run 11).shadowTotal = run0.maxFlow * ((s.age 11 + 999) / 1000) + run0.slack := by
  intro k hk
  refine ⟨lastWord (withRun (entryIn .stale)) (tallySlotOf k) (tallyRecord 11 8 8000 2000),
    tallyRecord 11 8 8000 2000, completes_lastWord _ _ _ rfl rfl (Or.inl rfl), by decide +kernel, by decide +kernel, ?_⟩
  revert k
  decide +kernel

/-- A record in place of its last word, whatever the checks say of it. -/
theorem test_applies_RecordsAreRefused : ∀ slot w, ∃ s, Completes s slot 15 w[15] w :=
  fun slot w => ⟨lastWord running slot w, completes_lastWord _ _ _ rfl rfl (Or.inl rfl)⟩

theorem test_applies_RefusedFor_frame :
    RefusedFor running 511 (Vector.replicate 16 0) 1 ∧ RefusedFor running 17 (tallyRecord 11 8 8000 90) 2 ∧
    RefusedFor running 4 (channelRecord 2 50000) 3 :=
  ⟨Or.inl (by decide +kernel), Or.inr (Or.inl (by decide +kernel)), Or.inr (Or.inr (Or.inl (by decide +kernel)))⟩

theorem test_applies_RefusedFor_content :
    RefusedFor running 0 (recordOf [0x5100, 22, 7, 60, 500, 0x3F, 0x1FF, 8]) 4 ∧
    RefusedFor running 4 (channelRecord 3 1) 4 ∧ RefusedFor running 16 (runRecord 11 0xFFFF) 4 ∧
    RefusedFor running 17 (recordOf [0x5400, 0, 0, 0, 0, 1]) 4 ∧ RefusedFor running 0 (stationRecord 21) 12 := by
  refine ⟨?_, ?_, ?_, ?_, ?_⟩ <;>
    refine Or.inr (Or.inr (Or.inr ⟨by decide +kernel, by decide +kernel, by decide +kernel, ?_⟩))
  · exact Or.inl ⟨rfl, Or.inl ⟨rfl, by decide +kernel⟩⟩
  · exact Or.inr (Or.inl ⟨3, rfl, Or.inl ⟨rfl, by decide +kernel⟩⟩)
  · exact Or.inr (Or.inr (Or.inl ⟨by decide, by decide, rfl, by decide +kernel⟩))
  · exact Or.inr (Or.inr (Or.inr (Or.inl ⟨rfl, rfl, by decide +kernel⟩)))
  · exact Or.inl ⟨rfl, Or.inr ⟨rfl, { station0 with stationCode := 21 }, by decide +kernel, by decide⟩⟩

/-- A physics field of a channel in service changes (R142). -/
theorem test_applies_RefusedFor_physics : RefusedFor (withChannel (channelIn .failed)) 4 (channelRecord 3 49999) 11 := by
  refine Or.inr (Or.inr (Or.inr ⟨by decide +kernel, by decide +kernel, by decide +kernel, Or.inr (Or.inl ⟨3, rfl, Or.inr
    ⟨rfl, channel0, { channel0 with nominal := 49999 }, by decide +kernel, by decide +kernel, Or.inl (by decide),
      by decide +kernel⟩⟩)⟩))

/-- The tally's own checks, each at the bound where it fails (R60 to R64). -/
theorem test_applies_RefusedFor_tally :
    RefusedFor running 511 (tallyRecord 12 8 8000 90) 5 ∧ RefusedFor running 128 (tallyRecord 11 8 8000 90) 5 ∧
    RefusedFor (withRun { entryIn .live with held := true }) 511 (tallyRecord 11 8 8000 90) 6 ∧
    RefusedFor ((withRun (entryIn .live)).setClaim 0 (.history 3 9)) 128 (tallyRecord 11 8 8000 90) 7 ∧
    RefusedFor (withRun (entryIn .live)) 511 (tallyRecord 11 7 8000 90) 8 ∧
    RefusedFor (withRun (entryIn .live)) 511 (tallyRecord 11 8 999 90) 9 ∧
    RefusedFor (withRun (entryIn .live)) 511 (tallyRecord 11 8 8001 90) 10 ∧
    RefusedFor (withRun (entryIn .live)) 511 (tallyRecord 11 8 1000 2001) 10 := by
  refine ⟨?_, ?_, ?_, ?_, ?_, ?_, ?_, ?_⟩ <;>
    refine Or.inr (Or.inr (Or.inr ⟨by decide +kernel, by decide +kernel, by decide, Or.inr (Or.inr (Or.inr (Or.inr ?_)))⟩))
  · exact ⟨383, rfl, Or.inl ⟨rfl, Or.inl (by decide +kernel)⟩⟩
  · exact ⟨0, rfl, Or.inl ⟨rfl, Or.inr ⟨11, by decide +kernel, by decide +kernel⟩⟩⟩
  · exact ⟨383, rfl, Or.inr ⟨11, by decide +kernel, by decide +kernel, Or.inl ⟨rfl, by decide +kernel⟩⟩⟩
  · exact ⟨0, rfl, Or.inr ⟨11, by decide +kernel, by decide +kernel,
      Or.inr (Or.inl ⟨rfl, by decide +kernel, by unfold Admitted; decide +kernel⟩)⟩⟩
  · exact ⟨383, rfl, Or.inr ⟨11, by decide +kernel, by decide +kernel,
      Or.inr (Or.inr (Or.inl ⟨rfl, by decide +kernel, by unfold Admitted; decide +kernel, by decide +kernel⟩))⟩⟩
  · exact ⟨383, rfl, Or.inr ⟨11, by decide +kernel, by decide +kernel, Or.inr (Or.inr (Or.inr (Or.inl
      ⟨rfl, by decide +kernel, by unfold Admitted; decide +kernel, by decide +kernel, by decide +kernel⟩)))⟩⟩
  · exact ⟨383, rfl, Or.inr ⟨11, by decide +kernel, by decide +kernel, Or.inr (Or.inr (Or.inr (Or.inr
      ⟨rfl, by decide +kernel, by unfold Admitted; decide +kernel, by decide +kernel, by decide +kernel,
        by decide +kernel, run0, by decide +kernel, by decide +kernel⟩)))⟩⟩
  · exact ⟨383, rfl, Or.inr ⟨11, by decide +kernel, by decide +kernel, Or.inr (Or.inr (Or.inr (Or.inr
      ⟨rfl, by decide +kernel, by unfold Admitted; decide +kernel, by decide +kernel, by decide +kernel,
        by decide +kernel, run0, by decide +kernel, by decide +kernel⟩)))⟩⟩

/-- The refusals that hold a run, and one that does not (R44, R45). -/
theorem test_applies_HeldByRefusal :
    HeldByRefusal (withRun (entryIn .live)) 511 (Vector.replicate 16 0) 1 11 = true ∧
    HeldByRefusal (withRun (entryIn .live)) 511 (tallyRecord 11 7 8000 90) 8 11 = true ∧
    HeldByRefusal (withRun (entryIn .live)) 511 (tallyRecord 11 7 8000 90) 6 11 = false := by decide +kernel

/-! ### Descriptors -/

theorem test_applies_StationDescriptorsAreAccepted : ∀ d ∈ [DeviceState.running, .fallback], ∃ (s : State) (w : Record),
    s.lc.device = d ∧ Completes s 0 15 w[15] w ∧ intact w = true ∧ w[0] = 0x5100 ∧ readStation w = some station0 ∧
    station0.stationCode = s.lc.stationCode.toNat := by
  intro d hd
  refine ⟨lastWord (part d none) 0 (stationRecord 22), stationRecord 22, rfl, completes_lastWord _ _ _ rfl rfl ?_,
    by decide +kernel, by decide +kernel, by decide +kernel, rfl⟩
  simpa [part] using hd

theorem test_applies_ChannelDescriptorsConfigure : ∃ (s : State) (w : Record),
    Completes s (channelDescriptorSlot 3) 15 w[15] w ∧ intact w = true ∧ w[0] = headWord 0x52 3 ∧
    readChannel w = some channel0 ∧ (s.chan 3).service = .unconfigured ∧ (s.chan 3).descriptor = none :=
  ⟨lastWord running 4 (channelRecord 3 50000), channelRecord 3 50000, completes_lastWord _ _ _ rfl rfl (Or.inl rfl),
    by decide +kernel, by decide +kernel, by decide +kernel, rfl, rfl⟩

/-- A change of the nominal displacement out of service, and no change in service. -/
theorem test_applies_ChannelDescriptorsReconfigure :
    ∀ x ∈ [(ServiceState.outOfService, 49999), (.inService, 50000)], ∃ (s : State) (w : Record) (d : ChannelDescriptor),
    Completes s (channelDescriptorSlot 3) 15 w[15] w ∧ intact w = true ∧ w[0] = headWord 0x52 3 ∧
    readChannel w = some d ∧ (s.chan 3).descriptor = some channel0 ∧ (s.chan 3).service = x.1 ∧ d.nominal = x.2 ∧
    (PhysicsChange channel0 d → x.1 = .outOfService) := by
  intro x hx
  refine ⟨lastWord (withChannel (channelIn x.1)) 4 (channelRecord 3 x.2), channelRecord 3 x.2,
    { channel0 with nominal := x.2 }, completes_lastWord _ _ _ rfl rfl (Or.inl rfl), ?_, ?_, ?_, rfl, rfl, rfl, ?_⟩
  · revert x; decide +kernel
  · revert x; decide +kernel
  · revert x; decide +kernel
  · revert x; unfold PhysicsChange; decide +kernel

/-- Enabling and disabling, in a condition of each clause. -/
theorem test_applies_RunDescriptorsAreAccepted :
    ∀ x ∈ [(RunCondition.retired, 1), (.live, 1), (.retired, 0), (.unbound, 0), (.lost, 0)], ∃ (s : State) (w : Record),
    Completes s (runDescriptorSlot 11) 15 w[15] w ∧ intact w = true ∧ w[0] = headWord 0x53 11 ∧
    readRun w = some { run0 with enabled := decide (x.2 = 1) } ∧ (s.run 11).condition = x.1 ∧
    (x.1 = .lost → (s.run 11).currentSlot = some 383) := by
  intro x hx
  refine ⟨lastWord (withRun (entryIn x.1)) 16 (runRecord 11 x.2), runRecord 11 x.2, completes_lastWord _ _ _ ?_ ?_ ?_, ?_⟩
  · revert x; decide +kernel
  · revert x; decide +kernel
  · revert x; decide +kernel
  · revert x; decide +kernel

/-! ### Commands -/

/-- Every command record can be at its last word, in RUNNING and in FALLBACK, over any state of runs and channels. -/
theorem test_applies_CommandReady (tag code a b : Word) (s : State) (h : s.lc.resetAsserted = false)
    (hc : s.cp.cycle = none) (hg : s.lc.device = .running ∨ s.lc.device = .fallback) :
    CommandReady (lastWord s 17 (commandRecordOf tag code a b)) 15 tag code a b :=
  completes_lastWord _ _ _ h hc (hg.imp id fun x => ⟨x, Or.inr rfl⟩)

/-- The states the clauses on a channel ask for: its service state, its descriptor, its sequencer idle. -/
theorem test_applies_channel_commands (x : ServiceState) :
    let s := withChannel (channelIn x)
    s.lc.resetAsserted = false ∧ s.cp.cycle = none ∧ s.lc.device = .running ∧ (s.chan 3).service = x ∧
    (s.chan 3).descriptor = some channel0 ∧ (s.chan 3).seq.phase = .idle := ⟨rfl, rfl, rfl, rfl, rfl, rfl⟩

/-- The states the clauses on a run ask for: held or not, bound with a current slot or not. -/
theorem test_applies_run_commands :
    (∀ h : Bool, ((withRun { entryIn .live with held := h }).run 11).held = h) ∧
    ((withRun (entryIn .live)).run 11).condition.bound = true ∧
    ((withRun (entryIn .live)).run 11).currentSlot = some 383 ∧
    ((withRun (entryIn .unbound)).run 11).condition.bound = false ∧
    (withRun (entryIn .live)).lc.device = .running ∧
    ((withRun (entryIn .live)).setClaim 0 (.history 11 9)).claim 0 = .history 11 9 := by decide +kernel

theorem test_applies_UnsuitableCommandsAreAnswered :
    Unsuitable running 0 0 0 .badArgument 1 ∧ Unsuitable running 10 0 0 .badArgument 1 ∧
    Unsuitable running 1 12 0 .badArgument 2 ∧ Unsuitable running 2 4 0 .badArgument 2 ∧
    Unsuitable running 9 1 0 .badArgument 2 ∧ Unsuitable running 5 3 2 .badArgument 3 ∧
    Unsuitable running 6 3 7 .badArgument 3 ∧ Unsuitable running 1 11 1 .badArgument 3 ∧
    Unsuitable (part .fallback none) 8 11 0 .wrongState 2 := by
  refine ⟨Or.inl (by decide), Or.inl (by decide), Or.inr (Or.inl ?_), Or.inr (Or.inl ?_), Or.inr (Or.inl ?_),
    Or.inr (Or.inr (Or.inl ?_)), Or.inr (Or.inr (Or.inl ?_)), Or.inr (Or.inr (Or.inl ?_)), Or.inr (Or.inr (Or.inr ?_))⟩ <;>
  simp [SuitsA, SuitsB, part]

/-! ### Timers -/

theorem test_applies_AssembliesAndHistoryExpire :
    (∃ s slot e, Awake s ∧ s.rv.entry slot = some e) ∧ ∃ s k r x, Awake s ∧ s.claim k = .history r x :=
  ⟨⟨lastWord running 511 (recordOf []), 511, ⟨511, ((recordOf []).map some).set 15 none, 0, 500⟩, rfl,
      by simp [lastWord, Verifier.entry]⟩,
    running.setClaim 383 (.history 11 3600000), 383, 11, 3600000, rfl, by decide +kernel⟩

theorem test_applies_StalenessAndHorizonExpire : ∀ x ∈ [RunCondition.live, .stale],
    Awake (withRun (entryIn x)) ∧ ((withRun (entryIn x)).run 11).freshness = some ⟨0, 300000, 900000⟩ ∧
    (withRun (entryIn x)).runDescriptor 11 = some run0 ∧ ((withRun (entryIn x)).run 11).condition = x := by
  unfold Awake; decide +kernel

/-- The last step at the shadow rate and the first at the fallback flow, in RUNNING and in DRAINING. -/
theorem test_applies_SubstitutionStepsAreTaken : ∀ n ∈ [599, 600], ∀ d ∈ [DeviceState.running, .draining],
    let t := withRun { entryIn .stale with substitution := some ⟨300000, n⟩ }
    let s : State := { t with lc := { t.lc with device := d } }
    Awake s ∧ (s.run 11).substitution = some ⟨300000, n⟩ ∧ (s.run 11).freshness = some ⟨0, 300000, 900000⟩ ∧
    s.runDescriptor 11 = some run0 ∧ s.lc.device = d ∧ (300000 + 1000 * (n + 1) ≤ 900000 ↔ n = 599) := by
  unfold Awake; decide +kernel

/-! ### Channels -/

theorem test_applies_BasePeriodsDemandStrokes :
    let x : Channel := { channelIn .inService with baseTimer := some ⟨60000, 60000⟩ }
    let s := (part .fallback none).setChan 3 x
    Awake s ∧ s.lc.device = .fallback ∧ (s.chan 3).baseTimer = some ⟨60000, 60000⟩ ∧
    (s.chan 3).descriptor = some channel0 := ⟨rfl, rfl, rfl, rfl⟩

/-- A channel in a service state with a stroke in a phase. -/
def stroking (x : ServiceState) (q : Sequencer) : Channel := { channelIn x with seq := q }

theorem test_applies_PrechecksEnd :
    let s := withChannel (stroking .inService (strokeIn .precheck .ordinary false 400))
    Awake s ∧ (s.chan 3).seq.phase = .precheck ∧ (s.chan 3).descriptor = some channel0 := ⟨rfl, rfl, rfl⟩

/-- Proven; unproven with a longer window; unproven with a window that ends with the drive. -/
theorem test_applies_DrivesAndProofWindowsEnd_drive : ∀ x ∈ [(true, 400), (false, 201), (false, 200)],
    let s := withChannel (stroking .inService (strokeIn .drive .ordinary x.1 x.2))
    Awake s ∧ (s.chan 3).seq.phase = .drive ∧ (s.chan 3).descriptor = some channel0 ∧ (s.chan 3).seq.proven = x.1 ∧
    (s.chan 3).seq.times = ⟨20, 200, x.2, 1000⟩ := fun _ _ => ⟨rfl, rfl, rfl, rfl, rfl⟩

theorem test_applies_DrivesAndProofWindowsEnd_proof :
    let s := withChannel (stroking .outOfService (strokeIn .proof .ordinary false 400))
    Awake s ∧ (s.chan 3).seq.phase = .proof ∧ (s.chan 3).descriptor = some channel0 := ⟨rfl, rfl, rfl⟩

/-- The rest of an ordinary stroke, and of the last stroke of a calibration. -/
theorem test_applies_RestsEnd :
    (let s := withChannel (stroking .inService (strokeIn .rest .ordinary true 400))
     Awake s ∧ (s.chan 3).seq.phase = .rest ∧ (s.chan 3).descriptor = some channel0 ∧ (s.chan 3).cal.active = false) ∧
    (let x := { stroking .calibrating (strokeIn .rest .calibration true 400) with
      cal := ⟨true, 2, 2, true, 40, .none, 0⟩ }
     Awake (withChannel x) ∧ (x.cal.active = true ∧ x.seq.kind = some .calibration ∧ x.cal.required ≤ x.cal.proven) ∧
     measurement x channel0 = 50000 ∧ CompletesWith 50000 channel0 .okApplied ∧
     CompletesWith 52501 channel0 .outOfTolerance) := by
  refine ⟨⟨rfl, rfl, rfl, rfl⟩, rfl, ⟨rfl, rfl, by decide⟩, by decide +kernel, ?_, ?_⟩ <;>
  simp [CompletesWith, channel0]

theorem test_applies_ClosuresProveStrokes : ∀ p ∈ [Phase.drive, .proof],
    let s := withChannel (stroking .inService (strokeIn p .ordinary false 400))
    Awake s ∧ (s.chan 3).seq.wetting = true ∧ (s.chan 3).seq.proven = false ∧ (s.chan 3).seq.phase = p ∧
    (s.chan 3).descriptor = some channel0 := by
  unfold Awake; decide +kernel

theorem test_applies_ClosuresProveStrokes_none :
    ((withChannel (stroking .inService (strokeIn .rest .ordinary true 400))).chan 3).seq.wetting = false ∧
    ((withChannel (stroking .inService (strokeIn .drive .ordinary true 400))).chan 3).seq.proven = true ∧
    (∀ p ∈ [Phase.precheck, .rest, .idle],
      let x := ((withChannel (stroking .inService (strokeIn p .ordinary false 400))).chan 3).seq.phase
      x ≠ .drive ∧ x ≠ .proof) ∧ asserted.lc.resetAsserted = true := by
  decide +kernel

theorem test_applies_MeterPulsesAreCounted :
    (∃ s d, Awake s ∧ (s.chan 3).service ≠ .unconfigured ∧ (s.chan 3).descriptor = some d) ∧
    (running.chan 3).service = .unconfigured ∧ asserted.lc.resetAsserted = true :=
  ⟨⟨withChannel (channelIn .failed), channel0, rfl, by decide +kernel, rfl⟩, rfl, rfl⟩

/-- One pulse of 2,500 nL: 2 microlitres, 500 nL left over (R124). -/
theorem test_one_meter_pulse : ((withChannel (channelIn .inService)).setChan 3 { channelIn .inService with remainder := 999 }
    |> fun s => match exec (.meterPulse 3) s with
      | .next t => (t.chan 3).delivered.toNat * 1000 + (t.chan 3).remainder
      | .fault _ => 0
      | .refused _ => 0) = 3499 := by decide +kernel

end Sys2Proof.Tests
end

section
/-! PROOFS. The order of the writes: an item's words reach memory one after another, and no forwarded cycle of the
controller's reaches the slots an item writes (R12, R15, R26). -/

namespace Sys2Proof.Machine

open Sys2Proof.Safety

/-! ### What stands in the pool, at the port and in memory (R12, R15, R26) -/

/-- The slots the pool may hold records of. -/
def ControllerSlot (k : Slot) : Prop := slotClass k = .controller

/-- The item writes no open slot, and its words up to its next one are in memory. -/
def ItemWritten (s : State) (x : Item) : Prop :=
  x.next ≤ 15 ∧ (x.kind = .loadingRead ∨ slotClass x.slot ≠ .openSlot ∧
    ∀ p : Pos, p.val < x.next → readWord s.mem (slotAddr s.lc.baseSelect x.slot p) = x.words[p])

/-- A memory cycle of the Memory Agent is the current item's next word. -/
def AgentCycleFollows (s : State) : Prop :=
  ∀ m, s.mp = some m → m.requester = .agent →
    ∃ x, s.ma = some x ∧ m.addr = slotAddr s.lc.baseSelect x.slot (Fin.ofNat 16 x.next) ∧ m.op = wordCycle x x.next

/-- `WritesInOrder`, its parts under names. -/
structure InOrder (s : State) : Prop where
  waiting : Awake s → ∀ c, s.cp.cycle = some c → classify s.lc.baseSelect c.addr c.op = .forward
  running : ∀ m, s.mp = some m → m.requester = .controller → classify s.lc.baseSelect m.addr m.op = .forward
  pool : PoolSlots ControllerSlot s
  agent : Awake s → AgentCycleFollows s
  item : ∀ x, s.ma = some x → Awake s ∧ ItemWritten s x

theorem writesInOrder_iff {s : State} : WritesInOrder s ↔ InOrder s :=
  ⟨fun ⟨h1, h2, h3, h4, h5, h6⟩ => ⟨h1, h2, ⟨h3, h4⟩, h5, h6⟩,
   fun h => ⟨h.waiting, h.running, h.pool.1, h.pool.2, h.agent, h.item⟩⟩

/-! #### Slots, addresses and the end of a memory cycle -/

theorem partSlot_class (k : PartSlot) : slotClass k.slot ≠ .openSlot := by revert k; decide

theorem ringSlot_class (p : Fin 64) : slotClass (ringSlot p) ≠ .openSlot := by revert p; decide

/-- A word the port takes is of a controller slot (R12). -/
theorem controllerSlot_of_take {gb : BitVec 4} {a : Addr} {op : BusOp} {k : Slot} {p : Pos} {v : Word}
    (h : classify gb a op = .take k p v) : ControllerSlot k := by
  unfold classify at h
  split at h
  · cases h
  · cases h
  · unfold classifyWrite at h
    split at h <;> cases h
    assumption

/-- A write that R12 forwards is not to a word of a slot that an item writes. -/
theorem forwarded_ne_slotAddr {gb : BitVec 4} {a : Addr} {v : Word} {l : Lanes} {k : Slot}
    (h : classify gb a (.write v l) = .forward) (hk : slotClass k ≠ .openSlot) (p : Pos) : slotAddr gb k p ≠ a := by
  rintro rfl
  simp only [classify, decompose_slotAddr, classifyWrite] at h
  split at h
  · rename_i ho; exact hk ho
  all_goals cases h

theorem slotAddr_inj {gb : BitVec 4} {k : Slot} {p q : Pos} (h : slotAddr gb k p = slotAddr gb k q) : p = q := by
  have := congrArg (decompose gb) h
  rw [decompose_slotAddr, decompose_slotAddr] at this
  exact congrArg Prod.snd (Option.some.inj this)

/-- A write of the controller's changes no word of memory but its own. -/
theorem readWord_writeWord_ne {m : List Host.Cell} (h : Memory.wf m = true) {a b : Addr} (hb : b ≠ a) (v : Word)
    (l : Lanes) : readWord (writeWord m a v l) b = readWord m b := by
  cases l
  · rw [readWord_writeWord_both h, if_neg hb]
  · rw [readWord_writeWord_upper h, if_neg hb]
  · rw [readWord_writeWord_lower h, if_neg hb]

/-! What the end of a memory cycle leaves (R23). -/

@[simp] theorem State.runCycle_mp (s : State) (m : MemCycle) : (s.runCycle m).mp = none := by
  unfold State.runCycle; split <;> rfl
@[simp] theorem State.runCycle_ma (s : State) (m : MemCycle) : (s.runCycle m).ma = s.ma := by
  unfold State.runCycle; split <;> rfl
@[simp] theorem State.runCycle_cp (s : State) (m : MemCycle) : (s.runCycle m).cp = s.cp := by
  unfold State.runCycle; split <;> rfl
@[simp] theorem State.runCycle_lc (s : State) (m : MemCycle) : (s.runCycle m).lc = s.lc := by
  unfold State.runCycle; split <;> rfl
@[simp] theorem State.runCycle_rv (s : State) (m : MemCycle) : (s.runCycle m).rv = s.rv := by
  unfold State.runCycle; split <;> rfl

/-- The cycle that competes for the port is the controller's cycle in progress. -/
theorem State.cycle_of_controllerRequest {s : State} {c : CpCycle} (h : s.controllerRequest = some c) :
    s.cp.cycle = some c := by
  unfold State.controllerRequest at h
  split at h
  · cases h
  · rename_i hs
    split at h
    · rw [hs]; exact h
    · cases h

namespace InOrder
variable {s t : State}

/-- What leaves the port, the current item, memory, the reset line and the straps alone keeps the order of the writes. -/
theorem keep (h : InOrder s) (hp : PoolSlots ControllerSlot t)
    (hc : (t.cp.cycle.map fun x => (x.addr, x.op)) = s.cp.cycle.map fun x => (x.addr, x.op)) (hm : t.mp = s.mp)
    (ha : t.ma = s.ma) (hmem : t.mem = s.mem) (hr : t.lc.resetAsserted = s.lc.resetAsserted)
    (hb : t.lc.baseSelect = s.lc.baseSelect) : InOrder t where
  waiting hw c hcy := by
    have hcs : (s.cp.cycle.map fun x => (x.addr, x.op)) = some (c.addr, c.op) := by rw [← hc, hcy]; rfl
    obtain ⟨d, hd, he⟩ := Option.map_eq_some_iff.mp hcs
    obtain ⟨e1, e2⟩ := Prod.mk.inj he
    rw [hb, ← e1, ← e2]
    exact h.waiting (hr.symm.trans hw) d hd
  running m hmp := by rw [hb]; exact h.running m (hm.symm.trans hmp)
  pool := hp
  agent hw := by
    have := h.agent (hr.symm.trans hw)
    simpa only [AgentCycleFollows, hm, ha, hb] using this
  item x hx := by
    obtain ⟨hw, hi⟩ := h.item x (ha.symm.trans hx)
    exact ⟨hr.trans hw, by simpa only [ItemWritten, hmem, hb] using hi⟩

/-- The commands that wait, the time and the free values used have no part in it. -/
theorem own (h : InOrder s) (p : List Instr) (n k : Nat) :
    InOrder { s with pending := p, uptime := n, freeUsed := k } := h.keep h.pool rfl rfl rfl rfl rfl rfl

theorem inner (h : InOrder s) (hi : Inner s t) : InOrder t := by
  obtain ⟨_, hcp, hmp, _, hma, hmem, _, _, hr, hb, _⟩ := hi.port
  exact h.keep (hi.poolSlots h.pool) (by rw [hcp]) hmp hma hmem hr hb

/-! #### The Memory Agent and the Port Arbiter go on -/

/-- An item that starts has no word to show yet; it is of no open slot if it writes. -/
theorem startItem (h : InOrder s) (hw : Awake s) (hm : s.ma = none) (k : ItemKind) (n : Slot) (w : Record)
    (hn : k = .loadingRead ∨ slotClass n ≠ .openSlot) : InOrder (s.startItem k n w) where
  waiting := h.waiting
  running := h.running
  pool := h.pool
  agent _ m hmp hq := by
    obtain ⟨x, hx, _⟩ := h.agent hw m hmp hq
    rw [hm] at hx; cases hx
  item x hx := by
    obtain rfl := Option.some.inj hx
    exact ⟨hw, Nat.zero_le _, hn.imp_right fun hn => ⟨hn, fun p hp => absurd hp (Nat.not_lt_zero _)⟩⟩

theorem startRewrite (h : InOrder s) (hw : Awake s) (hm : s.ma = none) (k : PartSlot) : InOrder (s.startRewrite k) := by
  have hk : InOrder ((s.takePending k).unmark k) := by
    unfold State.takePending
    split <;> exact h.keep h.pool rfl rfl rfl rfl rfl rfl
  have hs : ((s.takePending k).unmark k).ma = none ∧ Awake ((s.takePending k).unmark k) := by
    unfold State.takePending
    split <;> exact ⟨hm, hw⟩
  exact hk.startItem hs.2 hs.1 _ _ _ (.inr (partSlot_class k))

theorem takeCommit (h : InOrder s) (hw : Awake s) (hm : s.ma = none) {x : Commit} {rest : List Commit}
    (hx : s.rv.committing = x :: rest) : InOrder (s.startItem .commit x.slot x.words) := by
  have hc : slotClass x.slot = .controller := h.pool.2 x (by rw [hx]; exact List.mem_cons_self)
  exact h.startItem hw hm _ _ _ (.inr (by rw [hc]; decide))

theorem takeWork (h : InOrder s) (hw : Awake s) (hm : s.ma = none) : InOrder s.takeWork := by
  unfold State.takeWork
  split
  · rename_i hx; exact h.takeCommit hw hm hx
  · split
    · exact h
    · split
      · exact h.startItem hw hm _ _ _ (.inr (ringSlot_class _))
      · split
        · exact h.startRewrite hw hm _
        · exact h

theorem takeLoading (h : InOrder s) (hw : Awake s) (hm : s.ma = none) : InOrder s.takeLoading := by
  unfold State.takeLoading
  split
  · rename_i hx; exact h.takeCommit hw hm hx
  · split
    · exact h.startItem hw hm _ _ _ (.inl rfl)
    · exact h

theorem takeItem (h : InOrder s) (hw : Awake s) : InOrder s.takeItem := by
  unfold State.takeItem
  split
  · exact h
  · rename_i hm
    unfold State.chooseItem
    split
    · exact h.takeLoading hw hm
    all_goals exact h.takeWork hw hm

theorem grantAgent (h : InOrder s) {x : Item} (hx : s.ma = some x) : InOrder (s.grantAgent x) where
  waiting := h.waiting
  running m hm hq := by cases hm; cases hq
  pool := h.pool
  agent _ m hm _ := by
    obtain rfl := Option.some.inj hm
    exact ⟨x, hx, rfl, nextOp_eq x⟩
  item := h.item

theorem grantController (h : InOrder s) (hw : Awake s) {c : CpCycle} (hc : s.controllerRequest = some c) :
    InOrder (s.grantController c) := by
  have hf := h.waiting hw c (State.cycle_of_controllerRequest hc)
  exact
    { waiting := fun _ d hd => by cases hd; exact hf
      running := fun m hm _ => by cases hm; exact hf
      pool := h.pool
      agent := fun _ m hm hq => by cases hm; cases hq
      item := h.item }

theorem arbitrate (h : InOrder s) (hw : Awake s) : InOrder s.arbitrate := by
  unfold State.arbitrate
  split
  · unfold State.decideGrant
    split
    · exact h
    · rename_i hc _; exact h.grantController hw hc
    · rename_i hx; exact h.grantAgent hx
    · rename_i hc hx
      split
      · have h' : InOrder { s with passOver := s.passOver + 1 } := h.keep h.pool rfl rfl rfl rfl rfl rfl
        exact h'.grantController hw hc
      · exact h.grantAgent hx
  · exact h

theorem settle (h : InOrder s) : InOrder s.settle := by
  unfold State.settle
  split
  · exact h
  · rename_i hr
    have hw : Awake s := by simpa [Awake] using hr
    refine (h.takeItem hw).arbitrate ?_
    rw [Awake, (Settled.takeItem s).lc]; exact hw

theorem after (h : InOrder s) (ha : After s t) : InOrder t := by
  cases ha with
  | settle => exact h.settle
  | decided hr => exact (h.own s.pending s.uptime _).settle
  | opened hr => exact (h.own s.pending s.uptime _).takeItem hr

/-! #### Cycles of the controller -/

/-- A word for a controller slot concerns the pool alone (R35). -/
theorem handWord (h : InOrder s) {k : Slot} (hk : ControllerSlot k) (p : Pos) (v : Word) : InOrder (s.handWord k p v) := by
  obtain ⟨_, hcp, hmp, _, hma, hmem, _, hr, hb, _⟩ := (Taken.handWord s k p v).port
  exact h.keep (poolSlots_handWord h.pool hk p v) (by rw [hcp]) hmp hma hmem hr hb

theorem beginCycle (h : InOrder s) (a : Addr) (op : BusOp) : InOrder (s.beginCycle a op) := by
  unfold State.beginCycle
  split
  · rename_i hf
    exact
      { waiting := fun _ c hc => by cases hc; exact hf
        running := h.running
        pool := h.pool
        agent := h.agent
        item := h.item }
  · rename_i hk; exact h.handWord (controllerSlot_of_take hk) _ _
  · exact h.inner (.refuseAtPort _ _ _ (.refl s))

theorem stopCycle (h : InOrder s) (hr : s.lc.resetAsserted = true) (a : Addr) (op : BusOp) :
    InOrder (s.stopCycle a op) where
  waiting hw := by have hw : s.lc.resetAsserted = false := hw; rw [hr] at hw; cases hw
  running := h.running
  pool := h.pool
  agent := h.agent
  item := h.item

/-! #### A memory cycle ends -/

/-- The word of the controller's cycle reaches memory beside every slot an item writes. -/
theorem itemWritten_runCycle (hm : MemoryWf s) {m : MemCycle} (hf : classify s.lc.baseSelect m.addr m.op = .forward)
    {x : Item} (hx : ItemWritten s x) : ItemWritten (s.runCycle m) x := by
  unfold State.runCycle
  split
  · exact hx
  · rename_i v l hop
    rw [hop] at hf
    refine ⟨hx.1, hx.2.imp_right fun ⟨hk, hw⟩ => ⟨hk, fun p hp => ?_⟩⟩
    exact (readWord_writeWord_ne hm (forwarded_ne_slotAddr hf hk p) v l).trans (hw p hp)

/-- With the port idle, what is left of the order of the writes. -/
theorem ofIdle (hmp : t.mp = none)
    (hc : Awake t → ∀ c, t.cp.cycle = some c → classify t.lc.baseSelect c.addr c.op = .forward)
    (hp : PoolSlots ControllerSlot t) (hi : ∀ x, t.ma = some x → Awake t ∧ ItemWritten t x) : InOrder t where
  waiting := hc
  running m hm := by rw [hmp] at hm; cases hm
  pool := hp
  agent _ m hm := by rw [hmp] at hm; cases hm
  item := hi

/-- A memory cycle has ended, the Memory Agent now holding the item y. -/
theorem ended (h : InOrder s) (m : MemCycle) (y : Option Item)
    (hy : ∀ x, y = some x → Awake s ∧ ItemWritten (s.runCycle m) x) : InOrder { s.runCycle m with ma := y } := by
  refine ofIdle (s.runCycle_mp m) ?_ ?_ fun x hx => ⟨?_, (hy x hx).2⟩
  · simpa only [Awake, State.runCycle_cp, State.runCycle_lc] using h.waiting
  · simpa only [PoolSlots, State.runCycle_rv] using h.pool
  · simpa only [Awake, State.runCycle_lc] using (hy x hx).1

/-- The controller's cycle completes beside every slot an item writes. -/
theorem controllerEnds (h : InOrder s) (hwf : MemoryWf s) {m : MemCycle} (hm : s.mp = some m)
    (hq : m.requester = .controller) : InOrder (s.runCycle m) := by
  have e : s.runCycle m = { s.runCycle m with ma := s.ma } := by unfold State.runCycle; split <;> rfl
  rw [e]
  exact h.ended m s.ma fun x hx => ⟨(h.item x hx).1, itemWritten_runCycle hwf (h.running m hm hq) (h.item x hx).2⟩

/-- Once the item's next word has reached memory, its words up to the one after it are there. -/
theorem itemWritten_advance (hwf : MemoryWf s) {x : Item} (hx : ItemWritten s x) (hn : x.next < 15) (v : Word) :
    ItemWritten (s.runCycle (agentWordCycle s x)) (x.advance v) := by
  refine ⟨hn, ?_⟩
  by_cases hl : x.kind = .loadingRead
  · exact .inl hl
  · obtain ⟨hk, hw⟩ := hx.2.resolve_left hl
    refine .inr ⟨hk, fun p hp => ?_⟩
    have hp : p.val < x.next + 1 := hp
    have hwr : x.kind.writes = true := by simp [writes_iff, hl]
    have e : (x.advance v).words = x.words := by simp [Item.advance, hwr]
    have hmem : (s.runCycle (agentWordCycle s x)).mem =
        writeWord s.mem (wordAddr s x) (x.words[x.next]?.getD 0) .both := by
      simp [State.runCycle, agentWordCycle, wordCycle, hl]
    rw [hmem, State.runCycle_lc, e, readWord_writeWord_both hwf]
    have hsl : (x.advance v).slot = x.slot := rfl
    rw [hsl]
    split
    · rename_i ha
      have hpn : p = Fin.ofNat 16 x.next := slotAddr_inj ha
      have hv : p.val = x.next := by rw [hpn]; exact Nat.mod_eq_of_lt (by omega)
      simp [← hv]
    · rename_i ha
      refine hw p (Nat.lt_of_le_of_ne (by omega) fun hv => ha ?_)
      have hpn : p = Fin.ofNat 16 x.next := Fin.ext (by rw [hv]; exact (Nat.mod_eq_of_lt (by omega)).symm)
      rw [hpn]; rfl

/-- An item that ends frees its commit, its event or its read, and hands it over. -/
theorem itemDone (h : InOrder s) (x : Item) : InOrder (s.itemDone x) := by
  unfold State.itemDone
  split
  · exact h.keep ⟨h.pool.1, fun e he => h.pool.2 e (List.mem_of_mem_tail he)⟩ rfl rfl rfl rfl rfl rfl
  · exact h.keep h.pool rfl rfl rfl rfl rfl rfl
  · unfold State.rewriteDone
    split
    · exact h.keep h.pool rfl rfl rfl rfl rfl rfl
    · exact h
  · exact h.inner (.takeLoad _ _ (.refl s))

/-- The Memory Agent's word completes: the next one is to come, or the item ends. -/
theorem agentWord (h : InOrder s) (hwf : MemoryWf s) (hw : Awake s) {x : Item} (hx : s.ma = some x) (v : Word) :
    InOrder ((s.runCycle (agentWordCycle s x)).agentWord v) := by
  have hx' : (s.runCycle (agentWordCycle s x)).ma = some x := (s.runCycle_ma _).trans hx
  unfold State.agentWord
  rw [hx']
  dsimp only
  split
  · rename_i hn
    exact h.ended _ _ fun z hz => by cases hz; exact ⟨hw, itemWritten_advance hwf (h.item x hx).2 hn v⟩
  · exact (h.ended _ none fun z hz => by cases hz).itemDone _

theorem reportRead (h : InOrder s) (a : Addr) (op : BusOp) (v : Word) : InOrder (s.reportRead a op v) := by
  unfold State.reportRead
  split
  · split
    · exact h.inner (.statusReadDone _ _ (.refl s))
    · exact h
  all_goals exact h

theorem endCycle (h : InOrder s) (op : BusOp) (v : Word) : InOrder (s.endCycle op v) := by
  have cleared (d : Word) : InOrder { s with cp := ⟨none, false, d⟩ } :=
    { waiting := fun _ c hc => by cases hc
      running := h.running
      pool := h.pool
      agent := h.agent
      item := h.item }
  unfold State.endCycle
  split <;> exact cleared _

theorem finishCycle (h : InOrder s) (hwf : MemoryWf s) {m : MemCycle} (hm : s.mp = some m) :
    InOrder (s.finishCycle m) := by
  cases hr : s.lc.resetAsserted with
  | true =>
    have asleep : s.ma = none := by
      cases hx : s.ma with
      | none => rfl
      | some x => have hw : s.lc.resetAsserted = false := (h.item x hx).1; rw [hr] at hw; cases hw
    have e : s.runCycle m = { s.runCycle m with ma := none } := by
      unfold State.runCycle; rw [← asleep]; split <;> rfl
    rw [finishCycle_reset m hr, e]
    exact h.ended m none fun x hx => by cases hx
  | false =>
    unfold State.finishCycle
    simp only [hr]
    cases hq : m.requester with
    | agent =>
      obtain ⟨x, hx, ha, ho⟩ := h.agent hr m hm hq
      have e : m = agentWordCycle s x := by
        obtain ⟨q, a, o⟩ := m
        simp only at hq ha ho
        rw [hq, ha, ho]; rfl
      rw [e]
      exact h.agentWord hwf hr hx _
    | controller => exact ((h.controllerEnds hwf hm hq).endCycle _ _).reportRead _ _ _

/-! #### RESET_n -/

theorem assertReset (h : InOrder s) : InOrder s.assertReset where
  waiting hw := by cases hw
  running := h.running
  pool := h.pool
  agent hw := by cases hw
  item x hx := by cases hx

theorem afterRelease (s : State) (gb : BitVec 4) (sc : BitVec 6) : InOrder (s.afterRelease gb sc) :=
  ofIdle rfl (fun _ c hc => by cases hc)
    ⟨fun _ he => absurd he List.not_mem_nil, fun _ he => absurd he List.not_mem_nil⟩ fun x hx => by cases hx

theorem resetRelease (s : State) (gb : BitVec 4) (sc : BitVec 6) : InOrder (s.resetRelease gb sc) := by
  have h := afterRelease s.underReset gb sc
  unfold State.resetRelease State.retake
  split
  · exact h
  · generalize s.underReset.afterRelease gb sc = v at h
    have h' : InOrder { v with freeUsed := v.freeUsed + 1 } := h.own _ _ _
    dsimp only
    split
    · exact h'.beginCycle _ _
    · exact h'.settle.beginCycle _ _

theorem event (h : InOrder s) (hwf : MemoryWf s) (he : Event s t) : InOrder t := by
  cases he with
  | blocks hr hi => exact h.inner hi
  | stopped a op hr => exact h.stopCycle hr a op
  | begins a op hc hr => exact h.beginCycle a op
  | ends m hm => exact h.finishCycle hwf hm
  | assert hr => exact h.assertReset
  | release gb sc => exact resetRelease s gb sc

/-- Every step keeps the order of the writes. -/
theorem step (h : InOrder s) (hwf : MemoryWf s) (hs : Machine.step s = .next t) : InOrder t := by
  rcases step_event hs with ⟨p, n, k, rfl⟩ | ⟨p, u, he, ha⟩
  · exact h.own p n k
  · exact ((h.own p s.uptime s.freeUsed).event hwf he).after ha

end InOrder

/-- Settles O18: the invariant `InOrder`, kept by every event at the port and by what follows it. -/
theorem workItemsReachMemory : Obligations.WorkItemsReachMemory := by
  unfold Obligations.WorkItemsReachMemory
  intro s t hs hwf h
  exact writesInOrder_iff.mpr ((writesInOrder_iff.mp h).step hwf hs)

end Sys2Proof.Machine
end

section
/-! PROOFS. The check word (R9, R10): the fold of `checkWord` is the register of R9, and the computation over all sixteen
words leaves it at 0 exactly where w15 is the check word. -/

namespace Sys2Proof.Machine

open Sys2Proof.Safety

/-! ### A register that takes one value after another -/

/-- A register that each step turns into the fold's next value holds the fold's result after the last step. -/
theorem foldl_ofFn_register {α β : Type} (f : β → α → β) : ∀ (n : Nat) (x : Fin n → α) (reg : Nat → β),
    (∀ i : Fin n, reg (i.val + 1) = f (reg i.val) (x i)) → (List.ofFn x).foldl f (reg 0) = reg n
  | 0, _, _, _ => by simp
  | n + 1, x, reg, h => by
    have h0 : reg 1 = f (reg 0) (x 0) := h 0
    rw [List.ofFn_succ, List.foldl_cons, ← h0]
    exact foldl_ofFn_register f n (fun i => x i.succ) (fun i => reg (i + 1)) fun i => h i.succ

/-- The bits of a word as they are presented: bit 15 first (R9). -/
def presentedBits (w : Word) : List Bool := List.ofFn fun j : Fin 16 => w.getLsbD (15 - j.val)

theorem crcWord_eq (g w : Word) : crcWord g w = (presentedBits w).foldl crcBit g := by
  rw [crcWord, ← List.foldl_map (f := fun i => w.getLsbD i) (g := crcBit)]
  rfl

/-- One bit presented, in the words of R9. -/
theorem crcBit_eq (g : Word) (b : Bool) :
    crcBit g b = if b ≠ g.getLsbD 15 then (g <<< 1) ^^^ 0x1021#16 else g <<< 1 := by
  simp [crcBit, BitVec.msb_eq_getLsbD_last]

/-- The words w0 to w14. -/
theorem take15_toList (r : Record) : r.toList.take 15 = List.ofFn fun i : Fin 15 => r[i.val] := by
  refine List.ext_getElem (by simp) fun i h1 h2 => ?_
  simp only [List.getElem_take, Vector.getElem_toList, List.getElem_ofFn]

/-- The check word is the register after 240 steps of R9. -/
theorem checkWord_register (r : Record) (reg : Nat → Word) (h0 : reg 0 = 0xFFFF#16)
    (h : ∀ (i : Fin 15) (j : Fin 16), reg (16 * i.val + j.val + 1) =
      crcBit (reg (16 * i.val + j.val)) (r[i.val].getLsbD (15 - j.val))) : checkWord r = reg 240 := by
  rw [checkWord, take15_toList, ← h0]
  refine foldl_ofFn_register crcWord 15 (fun i => r[i.val]) (fun i => reg (16 * i)) fun i => ?_
  rw [crcWord_eq]
  exact (foldl_ofFn_register crcBit 16 _ (fun j => reg (16 * i.val + j)) (h i)).symm

/-! ### The register at 0 (R10) -/

/-- A bit that differs from the register's bit 15 sets the register's bit 0. -/
theorem crcBit_getLsbD_zero (g : Word) (b : Bool) : (crcBit g b).getLsbD 0 = (b != g.msb) := by
  unfold crcBit
  split <;> simp_all

/-- At most sixteen bits leave the register at 0 exactly where each is the register's bit then on top, and no other bit
of the register is left. -/
theorem foldl_crcBit_eq_zero : ∀ (l : List Bool) (g : Word), l.length ≤ 16 →
    (l.foldl crcBit g = 0 ↔ (∀ i (h : i < l.length), l[i] = g.getLsbD (15 - i)) ∧ g <<< l.length = 0)
  | [], g, _ => by simp
  | b :: l, g, hl => by
    have hl : l.length + 1 ≤ 16 := hl
    rw [List.foldl_cons, foldl_crcBit_eq_zero l (crcBit g b) (by omega)]
    by_cases hb : b = g.getLsbD 15
    · have hc : crcBit g b = g <<< 1 := by rw [crcBit_eq, if_neg (not_not.mpr hb)]
      have hbit (i : Nat) (hi : i < l.length) : (g <<< 1).getLsbD (15 - i) = g.getLsbD (15 - (i + 1)) := by
        have h1 : 15 - i < 16 := by omega
        have h2 : ¬15 - i < 1 := by omega
        rw [BitVec.getLsbD_shiftLeft, decide_eq_true h1, decide_eq_false h2, Nat.sub_sub]; rfl
      rw [hc, ← BitVec.shiftLeft_add, Nat.add_comm 1]
      refine and_congr_left fun _ => ⟨fun h i hi => ?_, fun h i hi => ?_⟩
      · cases i with
        | zero => exact hb
        | succ i =>
          have hi : i < l.length := Nat.lt_of_succ_lt_succ hi
          exact (h i hi).trans (hbit i hi)
      · exact (h (i + 1) (Nat.succ_lt_succ hi)).trans (hbit i hi).symm
    · have hset : (crcBit g b <<< l.length).getLsbD l.length = true := by
        have h1 : l.length < 16 := by omega
        have h2 : (crcBit g b).getLsbD 0 = true := by rw [crcBit_getLsbD_zero, BitVec.msb_eq_getLsbD_last]; simpa using hb
        simp [h1, h2]
      constructor
      · rintro ⟨_, h⟩
        rw [h] at hset; simp at hset
      · rintro ⟨h, _⟩
        exact absurd (h 0 (Nat.succ_pos _)) hb

/-- A word presented leaves the register at 0 exactly where it is the register. -/
theorem crcWord_eq_zero (g w : Word) : crcWord g w = 0 ↔ w = g := by
  have hlen : (presentedBits w).length = 16 := List.length_ofFn
  rw [crcWord_eq, foldl_crcBit_eq_zero _ _ (by omega)]
  have hz : g <<< (presentedBits w).length = 0 := BitVec.shiftLeft_eq_zero (by omega)
  constructor
  · rintro ⟨h, _⟩
    refine BitVec.eq_of_getLsbD_eq fun i hi => ?_
    have := h (15 - i) (by omega)
    simp only [presentedBits, List.getElem_ofFn] at this
    rwa [show 15 - (15 - i) = i by omega] at this
  · rintro rfl
    exact ⟨fun i _ => by simp only [presentedBits, List.getElem_ofFn], hz⟩

/-- The computation over all sixteen words ends with w15 presented to the check word. -/
theorem foldl_crcWord_record (r : Record) : r.toList.foldl crcWord 0xFFFF#16 = crcWord (checkWord r) r[15] := by
  have h : r.toList = r.toList.take 15 ++ [r[15]] := by
    have := List.take_append_drop 15 r.toList
    rw [List.drop_eq_getElem_cons (by simp), List.drop_of_length_le (by simp)] at this
    simpa using this.symm
  conv_lhs => rw [h, List.foldl_append]
  rfl

theorem intact_iff (r : Record) : intact r = true ↔ r[15] = checkWord r := by simp [intact]

/-- Settles O11: the fold is the register of R9, and a word presented to a register of its own value clears it. -/
theorem checkWordsFollowR9 : Obligations.CheckWordsFollowR9 := by
  unfold Obligations.CheckWordsFollowR9
  refine ⟨fun r reg h0 h => checkWord_register r reg h0 fun i j => ?_, intact_iff, fun r => ?_⟩
  · rw [crcBit_eq]; exact h i j
  · rw [intact_iff, foldl_crcWord_record, crcWord_eq_zero]

end Sys2Proof.Machine
end

section
/-! PROOFS. Which cycles are in the record area (R2) and what the Controller Port does with them (R12). -/

namespace Sys2Proof.Machine

open Sys2Proof.Safety

/-! ### Addresses (R2) -/

/-- An address in the area is the sum of its fields. -/
theorem decompose_toNat {gb : BitVec 4} {a : Addr} {k : Slot} {p : Pos} (h : decompose gb a = some (k, p)) :
    a.toNat = gb.toNat * 65536 + k.val * 16 + p.val := by
  unfold decompose at h
  split at h
  · rename_i hin
    obtain ⟨hgb, hz⟩ := hin
    obtain ⟨hk, hp⟩ := Prod.mk.inj (Option.some.inj h)
    have hz := congrArg BitVec.toNat hz
    have ha := a.isLt
    rw [← hgb, ← hk, ← hp]
    simp only [BitVec.extractLsb'_toNat, BitVec.val_toFin, Nat.shiftRight_eq_div_pow] at hz ⊢
    change _ = 0 at hz
    omega
  · cases h

/-- Every address of the area is the address of exactly one word. -/
theorem decompose_eq_some_iff {gb : BitVec 4} {a : Addr} {k : Slot} {p : Pos} :
    decompose gb a = some (k, p) ↔ a = slotAddr gb k p := by
  constructor
  · intro h
    exact BitVec.eq_of_toNat_eq ((decompose_toNat h).trans (slotAddr_toNat gb k p).symm)
  · rintro rfl; exact decompose_slotAddr gb k p

/-- The area is the 8,192 words from the base. -/
theorem decompose_isSome_iff (gb : BitVec 4) (a : Addr) :
    (decompose gb a).isSome ↔ gb.toNat * 65536 ≤ a.toNat ∧ a.toNat ≤ gb.toNat * 65536 + 8191 := by
  constructor
  · intro h
    obtain ⟨⟨k, p⟩, hkp⟩ := Option.isSome_iff_exists.mp h
    have := decompose_toNat hkp
    omega
  · rintro ⟨hlo, hhi⟩
    have e : a = slotAddr gb ⟨(a.toNat - gb.toNat * 65536) / 16, by omega⟩ ⟨(a.toNat - gb.toNat * 65536) % 16, by omega⟩ := by
      apply BitVec.eq_of_toNat_eq
      rw [slotAddr_toNat]
      dsimp only
      omega
    rw [decompose_eq_some_iff.mpr e]; rfl

/-! ### Slot classes and dispositions (R12) -/

theorem slotClass_open {k : Slot} (h : 38 ≤ k.val ∧ k.val ≤ 63) : slotClass k = .openSlot := by
  unfold slotClass
  rw [if_neg (by omega), if_neg (by omega), if_pos (by omega)]

theorem slotClass_part {k : Slot} (h : 18 ≤ k.val ∧ k.val ≤ 37 ∨ 64 ≤ k.val ∧ k.val ≤ 127) : slotClass k = .part := by
  unfold slotClass
  rcases h with h | h
  · rw [if_neg (by omega), if_pos (by omega)]
  · rw [if_neg (by omega), if_neg (by omega), if_neg (by omega), if_pos (by omega)]

theorem slotClass_controller {k : Slot} (h : k.val ≤ 17 ∨ 128 ≤ k.val) : slotClass k = .controller := by
  unfold slotClass
  rcases h with h | h
  · rw [if_pos h]
  · rw [if_neg (by omega), if_neg (by omega), if_neg (by omega), if_neg (by omega)]

theorem classify_read (gb : BitVec 4) (a : Addr) : classify gb a .read = .forward := rfl

theorem classify_outside {gb : BitVec 4} {a : Addr} (h : decompose gb a = none) (v : Word) (l : Lanes) :
    classify gb a (.write v l) = .forward := by simp [classify, h]

theorem classify_inside {gb : BitVec 4} {a : Addr} {k : Slot} {p : Pos} (h : decompose gb a = some (k, p)) (v : Word)
    (l : Lanes) : classify gb a (.write v l) = classifyWrite k p v l := by simp [classify, h]

/-- Settles O12, from the sum of an address's fields and the three slot classes. -/
theorem cyclesAreClassified : Obligations.CyclesAreClassified := by
  unfold Obligations.CyclesAreClassified
  refine fun gb a v lanes => ⟨fun k p => decompose_eq_some_iff, fun k p => decompose_toNat, decompose_isSome_iff gb a,
    classify_read gb a, fun h => classify_outside h v lanes, fun k p h => ⟨fun ho => ?_, fun hp => ?_, fun hc => ?_⟩⟩
  · simp only [classify_inside h, classifyWrite, slotClass_open ho]
  · simp only [classify_inside h, classifyWrite, slotClass_part hp]
  · simp only [classify_inside h, classifyWrite, slotClass_controller hc, and_self]

end Sys2Proof.Machine
end

section
/-! PROOFS. A forwarded cycle of the controller's (R16, R17, R19, R20, R24): granted at once, in competition, waiting, or
held under reset. -/

namespace Sys2Proof.Machine

open Sys2Proof.Safety

/-! ### A grant, and the answers that need none -/

/-- A grant changes the port, the pass-over count and the Controller Port alone. -/
theorem State.arbitrate_frame (s : State) : s.arbitrate =
    { s with mp := s.arbitrate.mp, passOver := s.arbitrate.passOver, cp := s.arbitrate.cp } := by
  unfold State.arbitrate State.decideGrant
  split
  · split
    · rfl
    · rfl
    · rfl
    · split <;> rfl
  · rfl

/-- RESET_n deasserted, the Memory Agent makes its choice and a free port is granted (R24, R26). -/
theorem State.settle_awake {s : State} (hw : Awake s) : s.settle = s.takeItem.arbitrate := by
  have hr : s.lc.resetAsserted = false := hw
  simp [State.settle, hr]

/-- Under reset nothing is started (R23). -/
theorem State.settle_reset {s : State} (hr : s.lc.resetAsserted = true) : s.settle = s := by simp [State.settle, hr]

/-- A Memory Agent that has an item, or for which nothing waits, takes nothing. -/
theorem State.takeItem_same {s : State} (h : s.ma = none → NothingPending s) : s.takeItem = s := by
  cases hm : s.ma with
  | none => exact State.takeItem_nothing (h hm)
  | some x => exact State.takeItem_busy hm

/-- A controller cycle begins (R17). -/
theorem exec_controllerCycle_awake {s : State} (hc : s.cp.cycle = none) (hw : Awake s) (a : Addr) (op : BusOp) :
    exec (.controllerCycle a op) s = .next (s.beginCycle a op).settle := by
  have hr : s.lc.resetAsserted = false := hw
  show answer s (s.controllerCycle a op) = _
  simp [State.controllerCycle, hc, hr, answer]

/-- A controller cycle that R12 forwards is requested (R17, R20). -/
theorem exec_controllerCycle_forward {s : State} (hc : s.cp.cycle = none) (hw : Awake s) {a : Addr} {op : BusOp}
    (hf : classify s.lc.baseSelect a op = .forward) :
    exec (.controllerCycle a op) s = .next (s.forwardCycle a op).settle := by
  rw [exec_controllerCycle_awake hc hw, State.beginCycle, hf]

/-- A controller cycle is held under reset (R16). -/
theorem exec_controllerCycle_reset {s : State} (hc : s.cp.cycle = none) (hr : s.lc.resetAsserted = true) (a : Addr)
    (op : BusOp) : exec (.controllerCycle a op) s = .next (s.stopCycle a op) := by
  have e : (s.stopCycle a op).settle = s.stopCycle a op := State.settle_reset hr
  show answer s (s.controllerCycle a op) = _
  simp [State.controllerCycle, hc, hr, answer, e]

/-- Alone at the free port, the controller's cycle is granted at once (R24). -/
theorem forwardCycle_granted {s : State} (hp : s.mp = none) (hm : s.ma = none) (a : Addr) (op : BusOp) :
    (s.forwardCycle a op).arbitrate = { s with
      mp := some ⟨.controller, a, op⟩
      cp := { s.cp with cycle := some ⟨a, op, .running⟩, waitLine := false } } := by
  have hcp : Competes (s.forwardCycle a op) (s.forwardCycle a op).arbitrate.ma ⟨a, op, .waiting⟩ := by
    refine ⟨rfl, rfl, fun x hx => ?_⟩
    rw [State.arbitrate_ma] at hx
    exact absurd (hm.symm.trans hx) (by simp)
  have hg := State.arbitrate_granted (s := s.forwardCycle a op) (v := s.forwardCycle a op) hp rfl rfl rfl
  obtain ⟨hmp, hpass, hport⟩ := hg.controllerOnly _ hcp ((State.arbitrate_ma _).trans hm)
  rw [State.arbitrate_frame, hmp, hpass, hport]
  rfl

/-- Settles O13: each case of what a forwarded cycle finds at the port. -/
theorem forwardedCyclesAreRequested : Obligations.ForwardedCyclesAreRequested := by
  unfold Obligations.ForwardedCyclesAreRequested
  refine fun s a op hc => ⟨fun hw hf hp hm hn => ?_, fun u hw hf hp hm hu => ?_, fun m hw hf hp hn => ?_, fun hr => ?_⟩
  · have hn : NothingPending (s.forwardCycle a op) := hn
    have hw' : Awake (s.forwardCycle a op) := hw
    rw [exec_controllerCycle_forward hc hw hf, State.settle_awake hw', State.takeItem_nothing hn,
      forwardCycle_granted hp hm]
  · have hu : u = s.forwardCycle a op := hu
    subst hu
    have hw' : Awake (s.forwardCycle a op) := hw
    obtain ⟨x, hx⟩ := Option.ne_none_iff_exists'.mp hm
    have hb : (s.forwardCycle a op).takeItem = s.forwardCycle a op := State.takeItem_busy hx
    refine ⟨(s.forwardCycle a op).arbitrate, ?_,
      State.arbitrate_granted (v := s.forwardCycle a op) hp rfl rfl rfl, State.arbitrate_frame _⟩
    rw [exec_controllerCycle_forward hc hw hf, State.settle_awake hw', hb]
  · have hw' : Awake (s.forwardCycle a op) := hw
    have hb : (s.forwardCycle a op).takeItem = s.forwardCycle a op := State.takeItem_same hn
    have hp : (s.forwardCycle a op).mp = some m := hp
    rw [exec_controllerCycle_forward hc hw hf, State.settle_awake hw', hb, State.arbitrate_busy hp]
    rfl
  · exact exec_controllerCycle_reset hc hr a op

end Sys2Proof.Machine
end

section
/-! PROOFS. RESET_n (R16, R23, R168): what its assertion leaves, the memory cycle that outlives it, and the part at its
release. -/

namespace Sys2Proof.Machine

open Sys2Proof.Safety

/-! ### Under reset -/

/-- The end of the memory cycle in progress leaves memory as it is once carried to its end (R23). -/
theorem runCycle_carried {s : State} {m : MemCycle} (hm : s.mp = some m) :
    s.runCycle m = { s with mp := none, mem := carried s } := by
  unfold State.runCycle carried
  rw [hm]
  dsimp only
  cases m.op <;> rfl

theorem carryToEnd_reset {s : State} (hr : s.lc.resetAsserted = true) :
    s.carryToEnd = { s with mp := none, mem := carried s } := by
  cases hm : s.mp with
  | none => simp only [State.carryToEnd, carried, hm]; rw [← hm]
  | some m => simp only [State.carryToEnd, hm]; rw [finishCycle_reset m hr, runCycle_carried hm]

/-- The state the release finds: as RESET_n leaves it, the memory cycle under way carried to its end (R23). -/
theorem underReset_carried (s : State) :
    s.underReset = { (if s.lc.resetAsserted then s else s.assertReset) with mp := none, mem := carried s } := by
  unfold State.underReset
  split
  · rename_i hr; exact carryToEnd_reset hr
  · exact carryToEnd_reset (s := s.assertReset) rfl

theorem atReset_cycle (p : ControllerPort) :
    p.atReset.cycle = p.cycle.map fun x => { x with progress := .stopped } := by
  unfold ControllerPort.atReset
  cases h : p.cycle <;> simp [h]

/-- What the release keeps of the state it finds: the commands that wait, memory with the cycle under way carried to its
end, the count of free values, and the address and direction of the cycle held. -/
theorem underReset_frame (s : State) : s.underReset.pending = s.pending ∧ s.underReset.mem = carried s ∧
    s.underReset.freeUsed = s.freeUsed ∧
    (s.underReset.cp.cycle.map fun x => (x.addr, x.op)) = s.cp.cycle.map fun x => (x.addr, x.op) := by
  rw [underReset_carried]
  split
  · exact ⟨rfl, rfl, rfl, rfl⟩
  · refine ⟨rfl, rfl, rfl, ?_⟩
    show ((s.cp.atReset.cycle).map _) = _
    rw [atReset_cycle, Option.map_map]; rfl

/-- RESET_n asserted, the end of the memory cycle under way changes memory and the port alone (R23). -/
theorem exec_memoryCycleComplete_reset {s : State} {m : MemCycle} (hr : s.lc.resetAsserted = true) (hm : s.mp = some m) :
    exec .memoryCycleComplete s = .next { s with mp := none, mem := carried s } := by
  have e : s.memoryCycle = some { s with mp := none, mem := carried s } := by
    rw [State.memoryCycle, hm, ← runCycle_carried hm, ← finishCycle_reset m hr]
  have hs (b : Bool) : ({ s with mp := none, mem := carried s } : State).settleAfter b =
      { s with mp := none, mem := carried s } := by
    cases b <;> simp [State.settleAfter, State.settleContested, State.settle, hr]
  show answerCycle s s.memoryCycle = _
  rw [e, answerCycle, hs]

theorem exec_resetAssert_awake {s : State} (hw : Awake s) : exec .resetAssert s = .next s.assertReset := by
  have hr : s.lc.resetAsserted = false := hw
  have e : s.assertReset.settle = s.assertReset := State.settle_reset rfl
  show answer s s.resetAssert = _
  simp [State.resetAssert, hr, answer, e]

/-- Settles O30: the effects of the assertion, field by field, and the end of a memory cycle under reset. -/
theorem resetIsAsserted : Obligations.ResetIsAsserted := by
  unfold Obligations.ResetIsAsserted
  refine fun s => ⟨fun hw => ⟨s.assertReset, exec_resetAssert_awake hw, rfl, rfl, rfl, fun _ => rfl, rfl, fun c => ?_,
    fun x hx => ?_, fun hc => ?_, rfl, rfl, rfl, rfl, rfl⟩, fun m hr hm => exec_memoryCycleComplete_reset hr hm⟩
  · simp [State.chan, State.assertReset, Channel.atReset]
  · simp [State.assertReset, ControllerPort.atReset, hx]
  · simp [State.assertReset, ControllerPort.atReset, hc]

/-! ### At the release -/

/-- The item of the first loading read (R169), 0 at the positions not yet read. -/
def firstRead : Item := ⟨.loadingRead, 0, Vector.replicate 16 0, 0⟩

/-- Every block at its value after the release, memory and what is not the part's as given. -/
def releasedWith (gb : BitVec 4) (sc : BitVec 6) (p : List Instr) (m : List Host.Cell) (n : Nat) : State :=
  { State.released gb sc with pending := p, mem := m, freeUsed := n }

/-- With no cycle held the first loading read is granted at once (R24, R169). -/
theorem settle_releasedWith (gb : BitVec 4) (sc : BitVec 6) (p : List Instr) (m : List Host.Cell) (n : Nat) :
    (releasedWith gb sc p m n).settle =
      { releasedWith gb sc p m n with ma := some firstRead, mp := some ⟨.agent, slotAddr gb 0 0, .read⟩ } := rfl

theorem afterRelease_underReset (s : State) (gb : BitVec 4) (sc : BitVec 6) :
    s.underReset.afterRelease gb sc = releasedWith gb sc s.pending (carried s) s.freeUsed := by
  obtain ⟨hp, hm, hf, _⟩ := underReset_frame s
  rw [State.afterRelease, hp, hm, hf]; rfl

/-- The part at the release: as after reset, or a held cycle taken again, before or after the first grant decision. -/
theorem resetRelease_cases (s : State) (gb : BitVec 4) (sc : BitVec 6) :
    (s.cp.cycle = none → s.resetRelease gb sc = releasedWith gb sc s.pending (carried s) s.freeUsed) ∧
    ∀ x, s.cp.cycle = some x →
      s.resetRelease gb sc = (releasedWith gb sc s.pending (carried s) (s.freeUsed + 1)).beginCycle x.addr x.op ∨
      s.resetRelease gb sc = (releasedWith gb sc s.pending (carried s) (s.freeUsed + 1)).settle.beginCycle x.addr x.op := by
  obtain ⟨_, _, _, hc⟩ := underReset_frame s
  unfold State.resetRelease
  rw [afterRelease_underReset]
  refine ⟨fun h => ?_, fun x h => ?_⟩
  · rw [h] at hc
    rw [Option.map_eq_none_iff.mp hc]; rfl
  · rw [h] at hc
    obtain ⟨y, hy, he⟩ := Option.map_eq_some_iff.mp hc
    obtain ⟨ha, ho⟩ := Prod.mk.inj he
    rw [hy, ← ha, ← ho]
    unfold State.retake
    dsimp only
    split
    · exact .inl rfl
    · exact .inr rfl

theorem exec_resetRelease (s : State) (gb : BitVec 4) (sc : BitVec 6) :
    exec (.resetRelease gb sc) s = .next (s.resetRelease gb sc).settle := rfl

/-- Settles O31: a held cycle, taken again at the release, is a controller cycle that begins there. -/
theorem resetIsReleased : Obligations.ResetIsReleased := by
  unfold Obligations.ResetIsReleased
  intro s u v gb sc hu hv
  have hu : u = releasedWith gb sc s.pending (carried s) s.freeUsed := hu
  have hv : v = releasedWith gb sc s.pending (carried s) (s.freeUsed + 1) := by rw [hv, hu]; rfl
  obtain ⟨hnone, hsome⟩ := resetRelease_cases s gb sc
  refine ⟨fun hc => ?_, fun x hx => ?_⟩
  · rw [exec_resetRelease, hnone hc, hu, settle_releasedWith]; rfl
  · rw [exec_resetRelease, hv]
    rcases hsome x hx with h | h
    · left
      rw [h]
      exact (exec_controllerCycle_awake (s := releasedWith gb sc s.pending (carried s) (s.freeUsed + 1)) rfl rfl
        x.addr x.op).symm
    · right
      rw [h, settle_releasedWith]
      exact (exec_controllerCycle_awake (s := { releasedWith gb sc s.pending (carried s) (s.freeUsed + 1) with
        ma := some firstRead, mp := some ⟨.agent, slotAddr gb 0 0, .read⟩ }) rfl rfl x.addr x.op).symm

end Sys2Proof.Machine
end

section
/-! PROOFS. The controller's read of a flag word of the status record (R14, R159): which flags it clears, which part
records are then to be rewritten, and what goes on after it. -/

namespace Sys2Proof.Machine

open Sys2Proof.Safety

/-! ### Flags withdrawn from a set -/

/-- The set without the flags of word i in c. -/
def FlagWords.without (w : FlagWords) (i : Fin 7) (c : Word) : FlagWords := w.set i.val (w[i] &&& ~~~c)

theorem FlagWords.has_without (w : FlagWords) (i : Fin 7) (c : Word) (f : Flag) :
    (w.without i c).has f = (w.has f && !(decide (f.word = i) && c.getLsbD f.bit)) := by
  unfold FlagWords.has FlagWords.without
  by_cases h : f.word = i
  · have hb := f.bit_lt
    subst h
    simp [hb]
  · have hv : i.val ≠ f.word.val := fun e => h (Fin.ext e.symm)
    simp [h, hv]

theorem FlagWords.without_zero (w : FlagWords) (i : Fin 7) : w.without i 0 = w := by
  have h : w[i] &&& ~~~(0 : Word) = w[i] := by
    show w[i] &&& ~~~0#16 = w[i]
    rw [BitVec.not_zero, BitVec.and_allOnes]
  unfold FlagWords.without
  rw [h]
  exact Vector.set_getElem_self _

/-! ### Marks of the reports -/

/-- The marks of the channels that a test selects. -/
theorem foldl_mark_dirty (P : Chan → Prop) [DecidablePred P] (l : List Chan) (s : State) (k : PartSlot) :
    (l.foldl (fun s c => if P c then s.mark (.channel c) else s) s).ru.dirty[k] = true ↔
      s.ru.dirty[k] = true ∨ ∃ c ∈ l, P c ∧ k = .channel c := by
  induction l generalizing s with
  | nil => simp
  | cons c l ih =>
    rw [List.foldl_cons, ih]
    by_cases hc : P c
    · simp only [hc, if_true, State.mark_get, Bool.or_eq_true, decide_eq_true_eq, List.mem_cons, exists_eq_or_imp,
        true_and]
      tauto
    · simp only [hc, if_false, List.mem_cons, exists_eq_or_imp, false_and, false_or]

/-- A channel report is to be rewritten where its flag byte lost a flag. -/
def ByteCleared (i : Fin 7) (c : Word) (h : Chan) : Prop :=
  channelFlagWord h = i ∧ c.extractLsb' (channelShift h) 8 ≠ 0

theorem markCleared_dirty (s : State) (i : Fin 7) (c : Word) (k : PartSlot) :
    (s.markCleared i c).ru.dirty[k] = true ↔ s.ru.dirty[k] = true ∨ ∃ h, ByteCleared i c h ∧ k = .channel h := by
  unfold State.markCleared
  rw [foldl_mark_dirty (fun h => channelFlagWord h = i ∧ c.extractLsb' (channelShift h) 8 ≠ 0)]
  simp only [List.mem_finRange, true_and]
  rfl

/-- The flags c of word i are gone from the latched and the shown set, the marks are d, and the attention line is
evaluated. -/
def State.flagsCleared (s : State) (i : Fin 7) (c : Word) (d : Vector Bool 20) : State :=
  ({ s with ru := { s.ru with latched := s.ru.latched.without i c, shown := s.ru.shown.without i c, dirty := d } } :
    State).evalAttention

/-- What a completed read of flag word i does, whose value clears the flags c: they leave the latched and the shown set,
the records that show them are marked, and the attention line is evaluated (R159, R161). -/
theorem statusReadDone_law (s : State) {p : Pos} {i : Fin 7} (hi : flagWordOf p = some i) (v : Word) :
    ∃ d, s.statusReadDone p v = s.flagsCleared i (s.clearedBy i v) d ∧
      ∀ k : PartSlot, d[k] = true ↔ s.ru.dirty[k] = true ∨ (k = .status ∧ s.clearedBy i v ≠ 0) ∨
        ∃ h, ByteCleared i (s.clearedBy i v) h ∧ k = .channel h := by
  unfold State.statusReadDone
  rw [hi]
  dsimp only
  generalize s.clearedBy i v = c
  split
  · rename_i hc
    subst hc
    refine ⟨s.ru.dirty, by simp only [State.flagsCleared, FlagWords.without_zero], fun k => ?_⟩
    simp [ByteCleared]
  · rename_i hc
    refine ⟨(((s.dropFlags i c).markCleared i c).mark .status).ru.dirty, ?_, fun k => ?_⟩
    · rw [State.markCleared_eq]; rfl
    · rw [State.mark_get, Bool.or_eq_true, decide_eq_true_eq, markCleared_dirty]
      have hd : (s.dropFlags i c).ru.dirty = s.ru.dirty := rfl
      rw [hd]
      tauto

/-! ### The flags a read clears -/

/-- The channel flags have each bit of the flag byte. -/
theorem ChannelFlag.exists_bit : ∀ n < 8, ∃ g : ChannelFlag, g.bit = n := by
  intro n hn
  match n with
  | 0 => exact ⟨.miss, rfl⟩
  | 1 => exact ⟨.stuck, rfl⟩
  | 2 => exact ⟨.calDone, rfl⟩
  | 3 => exact ⟨.calFail, rfl⟩
  | 4 => exact ⟨.failed, rfl⟩
  | 5 => exact ⟨.restrict, rfl⟩
  | 6 => exact ⟨.deficit, rfl⟩
  | 7 => exact ⟨.outOfService, rfl⟩

theorem flagWordOf_eq {w : Pos} {i : Fin 7} (h : w.val = i.val + 2) : flagWordOf w = some i := by
  unfold flagWordOf
  rw [dif_pos (by omega)]
  exact congrArg some (Fin.ext (by show w.val - 2 = i.val; omega))

/-- The flags a read of flag word i clears, in the words of R159. -/
theorem readClears_eq {s : State} {w : Pos} {i : Fin 7} (h : w.val = i.val + 2) (f : Flag) :
    ReadClears s w f = (decide (f.word = i) &&
      (s.clearedBy i (readWord s.mem (slotAddr s.lc.baseSelect 19 w))).getLsbD f.bit) := by
  have hw : (f.word.val + 2 = w.val) = (f.word = i) := propext (by rw [h, Fin.ext_iff]; omega)
  unfold ReadClears State.clearedBy FlagWords.has
  simp only [hw]
  by_cases hf : f.word = i
  · subst hf
    have hb := f.bit_lt
    simp [hb]
  · simp [hf]

/-- A channel's byte lost a flag exactly where the read clears one of the channel's flags. -/
theorem byteCleared_iff {s : State} {w : Pos} {i : Fin 7} (h : w.val = i.val + 2) (c : Chan) :
    ByteCleared i (s.clearedBy i (readWord s.mem (slotAddr s.lc.baseSelect 19 w))) c ↔
      ∃ g, ReadClears s w (.channel c g) = true := by
  have hword (g : ChannelFlag) : (Flag.channel c g).word = channelFlagWord c := rfl
  simp only [readClears_eq h, Bool.and_eq_true, decide_eq_true_eq, hword, exists_and_left, ByteCleared]
  refine and_congr_right fun _ => ?_
  generalize s.clearedBy i (readWord s.mem (slotAddr s.lc.baseSelect 19 w)) = v
  constructor
  · intro hne
    by_contra hn
    push Not at hn
    refine hne (BitVec.eq_of_getLsbD_eq fun j hj => ?_)
    obtain ⟨g, rfl⟩ := ChannelFlag.exists_bit j hj
    have : ¬v.getLsbD (channelShift c + g.bit) = true := hn g
    simp [hj, this]
  · rintro ⟨g, hg⟩ hz
    have := congrArg (fun b : BitVec 8 => b.getLsbD g.bit) hz
    have hg : v.getLsbD (channelShift c + g.bit) = true := hg
    simp [g.bit_lt, hg] at this

/-! ### The read completes -/

/-- The controller's read has ended with this data word, the port idle. -/
def State.readEnded (s : State) (v : Word) : State := { s with mp := none, cp := ⟨none, false, v⟩ }

/-- The completion of the controller's read of a flag word, by either command (R17, R159). -/
theorem exec_statusRead {s : State} {w : Pos} {i : Fin 7} (hr : Awake s) (h : w.val = i.val + 2)
    (hp : s.mp = some ⟨.controller, slotAddr s.lc.baseSelect 19 w, .read⟩) :
    exec .memoryCycleComplete s = .next ((s.readEnded (readWord s.mem (slotAddr s.lc.baseSelect 19 w))).statusReadDone w
      (readWord s.mem (slotAddr s.lc.baseSelect 19 w))).settleContested ∧
    exec (.statusRead w) s = exec .memoryCycleComplete s := by
  have hr : s.lc.resetAsserted = false := hr
  have hag : s.agentCycle = false := by simp [State.agentCycle, hp]
  have hfin : s.memoryCycle = some ((s.readEnded (readWord s.mem (slotAddr s.lc.baseSelect 19 w))).statusReadDone w
      (readWord s.mem (slotAddr s.lc.baseSelect 19 w))) := by
    simp only [State.memoryCycle, hp, State.finishCycle, hr, State.runCycle, State.endCycle, State.reportRead,
      decompose_slotAddr]
    rfl
  have hst : s.statusReadCycle w = s.memoryCycle := by
    simp [State.statusReadCycle, flagWordOf_eq h, State.readsStatus, hp, decompose_slotAddr, hr]
  constructor
  · show answerCycle s s.memoryCycle = _
    rw [hfin, answerCycle, hag]; rfl
  · show answerCycle s (s.statusReadCycle w) = answerCycle s s.memoryCycle
    rw [hst]

/-- With no cycle of the controller's in progress the Controller Port stays as the command left it. -/
theorem After.cp_none {u t : State} (h : After u t) (hc : u.cp.cycle = none) : t.cp = u.cp := by
  cases h with
  | settle => exact settle_cp_none hc
  | decided hr => exact settle_cp_none (u := { u with freeUsed := u.freeUsed + 1 }) hc
  | opened hr => exact (State.takeItem_port _).2.2

/-- The same going on with the marks said in other words. -/
theorem returned_congr {s t : State} {D D' : PartSlot → Prop} (h : Returned s t D) (hd : ∀ k, D' k ↔ D k) :
    Returned s t D' where
  kept := h.kept
  item := h.item
  rewrites := ⟨fun k => by rw [h.rewrites.marks, hd], h.rewrites.pendingShown⟩
  port := h.port

/-- Settles O28, from what the read does to the Report Unit and what follows a cycle of the controller's. -/
theorem statusReadsClearFlags : Obligations.StatusReadsClearFlags := by
  unfold Obligations.StatusReadsClearFlags
  intro s w i hr hw hp
  obtain ⟨hexec, hboth⟩ := exec_statusRead hr hw hp
  have hclear (f : Flag) := readClears_eq (s := s) hw f
  have hbyte (c : Chan) := byteCleared_iff (s := s) hw c
  generalize hv : readWord s.mem (slotAddr s.lc.baseSelect 19 w) = v at hexec hclear hbyte ⊢
  obtain ⟨d, hu, hd⟩ := statusReadDone_law (s.readEnded v) (flagWordOf_eq hw) v
  have hcl : (s.readEnded v).clearedBy i v = s.clearedBy i v := rfl
  rw [hcl] at hu hd
  rw [hu] at hexec
  generalize hx : (s.readEnded v).flagsCleared i (s.clearedBy i v) d = u at hexec
  have hret : Returned s u.settleContested fun k => u.ru.dirty[k] = true := by
    subst hx; exact returned_settle hr rfl rfl rfl rfl rfl rfl
  have ha : After u u.settleContested := .settleAfter false u
  obtain ⟨n, hs⟩ := ha.settled
  have hru : u.settleContested.ru = { u.ru with
      dirty := u.settleContested.ru.dirty, pendingShown := u.settleContested.ru.pendingShown } := hs.ru
  have hcp : u.settleContested.cp = ⟨none, false, v⟩ := by subst hx; exact ha.cp_none rfl
  have hatt : u.settleContested.ru.attention = u.settleContested.attentionDue := by
    rw [hs.attention, hs.attentionDue, ← hx]; rfl
  have hlc : u.settleContested.lc = s.lc := by rw [hs.lc, ← hx]; rfl
  refine ⟨u.settleContested, hboth.trans hexec, hexec, hcp, fun f => ?_, fun f => ?_, fun _ => ?_,
    returned_congr hret fun k => ?_, ?_, fun k => ?_, ?_, ?_, ?_, hlc, ?_, ?_⟩
  · rw [hs.latched, ← hx, hclear]; exact FlagWords.has_without _ _ _ f
  · rw [hs.shown, ← hx, hclear]; exact FlagWords.has_without _ _ _ f
  · have hr : s.lc.resetAsserted = false := hr
    rw [AttentionFollows, hatt, hlc, hr, Bool.not_false, Bool.and_true]
  · have hk : u.ru.dirty = d := by rw [← hx]; rfl
    rw [hk, hd]
    simp only [hbyte]
    refine or_congr_right (or_congr_right ⟨?_, ?_⟩)
    · rintro ⟨c, g, rfl, hg⟩; exact ⟨c, ⟨g, hg⟩, rfl⟩
    · rintro ⟨c, ⟨g, hg⟩, rfl⟩; exact ⟨c, g, rfl, hg⟩
  · rw [hru, ← hx]; rfl
  · rw [hs.mem, ← hx]; rfl
  · rw [hs.rv, ← hx]; rfl
  · rw [hs.rt, ← hx]; rfl
  · rw [hs.channels, ← hx]; rfl
  · rw [hs.uptime, ← hx]; rfl
  · rw [hs.pending, ← hx]; rfl

end Sys2Proof.Machine
end

section
/-! PROOFS. A loading read below the tally band whose record is not valid (R10, R169 to R173). -/

namespace Sys2Proof.Machine

open Sys2Proof.Safety

/-! ### Records that are not used -/

theorem frameValid_intact {k : Slot} {w : Record} (h : frameValid k w = true) : intact w = true := by
  unfold frameValid at h
  rw [Bool.and_eq_true, Bool.and_eq_true] at h
  exact h.1.1

theorem frameValid_head {k : Slot} {w : Record} (h : frameValid k w = true) :
    recordKind w = expectedKind k ∧ recordIndex w = expectedIndex k := by
  simp only [frameValid, Bool.and_eq_true, decide_eq_true_eq] at h
  exact ⟨h.1.2, h.2⟩

/-- What is left of a record's absence where its frame is good: its step's own test fails. -/
def StepFails (slot : Slot) (w : Record) : Prop :=
  (∃ c : Chan, slot.val = 1 + c.val ∧ readChannel w = none) ∨ (∃ r : Run, slot.val = 5 + r.val ∧ readRun w = none) ∨
  (∃ c : Chan, slot.val = 22 + c.val ∧ readChannelReport w = none) ∨
  (∃ r : Run, slot.val = 26 + r.val ∧ 4 < (w[1].extractLsb' 12 4).toNat) ∨
  (slot.val = 19 ∧ 64 ≤ w[9].toNat) ∨ (slot.val = 20 ∧ w[1].getLsbD 0 = false)

theorem stepFails_of_absent {slot : Slot} {w : Record} (h : AbsentAt slot w) (hf : frameValid slot w = true) :
    StepFails slot w := by
  obtain ⟨hk, hx⟩ := frameValid_head hf
  rcases h with h | ⟨_, _, h⟩
  · rw [frameValid_intact hf] at h; cases h
  · exact (h.resolve_left (not_not.mpr hk)).resolve_left (not_not.mpr hx)

/-! Each step's record changes nothing where it is valid in frame only with content that is not (R171 to R173, R51). -/

theorem loadStatus_absent {s : State} {w : Record} (h : frameValid 19 w = true → readRingNext w = none) :
    s.loadStatus w = s := by
  unfold State.loadStatus
  split
  · rename_i hf; rw [h hf]
  · rfl

theorem loadCapture_absent {s : State} {w : Record} (h : frameValid 20 w = true → readCaptureHeader w = none) :
    s.loadCapture w = s := by
  unfold State.loadCapture
  split
  · rename_i hf; rw [h hf.2]
  · rfl

theorem loadChannel_absent {s : State} {c : Chan} {w : Record}
    (h : frameValid (channelDescriptorSlot c) w = true → readChannel w = none) : s.loadChannel c w = s := by
  unfold State.loadChannel
  split
  · rename_i hf; rw [h hf]
  · rfl

theorem loadRun_absent {s : State} {r : Run} {w : Record}
    (h : frameValid (runDescriptorSlot r) w = true → readRun w = none) : s.loadRun r w = s := by
  unfold State.loadRun
  split
  · rename_i hf; rw [h hf]
  · rfl

theorem loadChannelReport_absent {s : State} {c : Chan} {k : Slot} {w : Record}
    (h : frameValid k w = true → readChannelReport w = none) : s.loadChannelReport c k w = s := by
  unfold State.loadChannelReport
  split
  · rfl
  · split
    · rename_i hf; rw [h hf]
    · rfl

theorem loadRunReport_absent {s : State} {r : Run} {k : Slot} {w : Record}
    (h : frameValid k w = true → readRunReport w = none) : s.loadRunReport r k w = s := by
  unfold State.loadRunReport
  split
  · rename_i hf; rw [h hf.1]
  · rfl

/-! The slots of the tables of section 1.2. -/

theorem asChannelSlot_some {k : Slot} {c : Chan} (h : asChannelSlot k = some c) : k = channelDescriptorSlot c := by
  unfold asChannelSlot at h
  split at h <;> cases h
  exact Fin.ext (by simp only [channelDescriptorSlot]; omega)

theorem asRunSlot_some {k : Slot} {r : Run} (h : asRunSlot k = some r) : k = runDescriptorSlot r := by
  unfold asRunSlot at h
  split at h <;> cases h
  exact Fin.ext (by simp only [runDescriptorSlot]; omega)

theorem asChannelReport_some {k : Slot} {c : Chan} (h : asChannelReport k = some c) : k.val = 22 + c.val := by
  unfold asChannelReport at h
  split at h <;> cases h
  dsimp only
  omega

theorem asRunReport_some {k : Slot} {r : Run} (h : asRunReport k = some r) : k.val = 26 + r.val := by
  unfold asRunReport at h
  split at h <;> cases h
  dsimp only
  omega

/-! Which step's test has failed, by the slot. -/

namespace StepFails
variable {k : Slot} {w : Record}

theorem status (h : StepFails k w) (hk : k.val = 19) : readRingNext w = none := by
  rcases h with ⟨c, hc, _⟩ | ⟨r, hr, _⟩ | ⟨c, hc, _⟩ | ⟨r, hr, _⟩ | ⟨_, hw⟩ | ⟨h20, _⟩
  · omega
  · omega
  · omega
  · omega
  · unfold readRingNext; rw [dif_neg (by omega)]
  · omega

theorem capture (h : StepFails k w) (hk : k.val = 20) : readCaptureHeader w = none := by
  rcases h with ⟨c, hc, _⟩ | ⟨r, hr, _⟩ | ⟨c, hc, _⟩ | ⟨r, hr, _⟩ | ⟨h19, _⟩ | ⟨_, hw⟩
  · omega
  · omega
  · omega
  · omega
  · omega
  · unfold readCaptureHeader; rw [if_neg (by rw [hw]; decide)]

theorem channel (h : StepFails k w) {c : Chan} (hk : k.val = 1 + c.val) : readChannel w = none := by
  rcases h with ⟨_, _, hw⟩ | ⟨r, hr, _⟩ | ⟨c, hc, _⟩ | ⟨r, hr, _⟩ | ⟨h19, _⟩ | ⟨h20, _⟩
  · exact hw
  all_goals omega

theorem run (h : StepFails k w) {r : Run} (hk : k.val = 5 + r.val) : readRun w = none := by
  rcases h with ⟨c, hc, _⟩ | ⟨_, _, hw⟩ | ⟨c, hc, _⟩ | ⟨r, hr, _⟩ | ⟨h19, _⟩ | ⟨h20, _⟩
  · omega
  · exact hw
  all_goals omega

theorem channelReport (h : StepFails k w) {c : Chan} (hk : k.val = 22 + c.val) : readChannelReport w = none := by
  rcases h with ⟨c, hc, _⟩ | ⟨r, hr, _⟩ | ⟨_, _, hw⟩ | ⟨r, hr, _⟩ | ⟨h19, _⟩ | ⟨h20, _⟩
  · omega
  · omega
  · exact hw
  all_goals omega

theorem runReport (h : StepFails k w) {r : Run} (hk : k.val = 26 + r.val) : readRunReport w = none := by
  rcases h with ⟨c, hc, _⟩ | ⟨r, hr, _⟩ | ⟨c, hc, _⟩ | ⟨_, _, hw⟩ | ⟨h19, _⟩ | ⟨h20, _⟩
  · omega
  · omega
  · omega
  · unfold readRunReport; rw [if_neg (by omega)]
  all_goals omega

end StepFails

/-- Of slots 1 to 127 an absent record changes nothing (R169). -/
theorem useRecord_absentAt (s : State) {k : Slot} {w : Record} (h : AbsentAt k w) (h0 : k.val ≠ 0)
    (h1 : k.val < 128) : s.useRecord k w = s := by
  have fails := stepFails_of_absent h
  unfold State.useRecord
  rw [if_neg h0]
  split
  · rename_i hk
    have e : k = 19 := Fin.ext hk
    subst e
    exact loadStatus_absent fun hf => (fails hf).status rfl
  · split
    · rename_i hk
      have e : k = 20 := Fin.ext hk
      subst e
      exact loadCapture_absent fun hf => (fails hf).capture rfl
    · split
      · rename_i c hc
        have e := asChannelSlot_some hc
        subst e
        exact loadChannel_absent fun hf => (fails hf).channel rfl
      · rename_i r hr
        have e := asRunSlot_some hr
        subst e
        exact loadRun_absent fun hf => (fails hf).run rfl
      · split
        · rename_i hc
          exact loadChannelReport_absent fun hf => (fails hf).channelReport (asChannelReport_some hc)
        · rename_i hr
          exact loadRunReport_absent fun hf => (fails hf).runReport (asRunReport_some hr)
        · have ht : asTally k = none := by unfold asTally; rw [dif_neg (by omega)]
          rw [ht]

/-! ### The read is handed over -/

/-- An absent record of slots 1 to 127: the next read is requested and nothing else changes. -/
theorem absent_skipped {s : State} {x : Item} {w : Record} {k : Slot} (hw : Awake s) (h : LastRead s x w)
    (ha : AbsentAt x.slot w) (h0 : x.slot.val ≠ 0) (h1 : x.slot.val < 128)
    (hn : AfterInLoad s.lc.cause.afterReset s.lc.station.isSome x.slot k) :
    ∃ t, exec .loadingReadComplete s = .next t ∧ exec .memoryCycleComplete s = .next t ∧ Requested s t k ∧
      t.lc = { s.lc with loadSlot := some k } ∧ t.rt = s.rt ∧ t.channels = s.channels ∧ t.rv = s.rv ∧ t.ru = s.ru := by
  obtain ⟨t, he, hm, hreq, hlc, hrt, hch, hrv, hru, _⟩ :=
    load_next (v := readDone s) hw h (useRecord_absentAt _ ha h0 h1).symm h.2.1 rfl (next_of_after hn)
  exact ⟨t, he, hm, hreq, hlc, hrt, hch, hrv, hru⟩

/-- The part once slot 0's record is found not intact: no station descriptor is in force, and every group is enabled on the
attention line (R161, R170). -/
def State.stationAbsent (s : State) : State :=
  ({ s with lc := { s.lc with station := none, fallbackReason := 1 } } : State).evalAttention

/-- A record of slot 0 that is not intact (R170). -/
theorem station_skipped {s : State} {x : Item} {w : Record} {k : Slot} (hw : Awake s) (h : LastRead s x w)
    (hi : intact w = false) (h0 : x.slot.val = 0) (hn : AfterInLoad s.lc.cause.afterReset false x.slot k) :
    ∃ t, exec .loadingReadComplete s = .next t ∧ exec .memoryCycleComplete s = .next t ∧ Requested s t k ∧
      t.lc = { s.lc with loadSlot := some k, station := none, fallbackReason := 1 } ∧ t.rt = s.rt ∧
      t.channels = s.channels ∧ t.rv = s.rv ∧ t.ru = (readDone s).stationAbsent.ru := by
  have hv : (readDone s).stationAbsent = (readDone s).useRecord x.slot w := by
    rw [useRecord_absent hi, if_pos h0]; rfl
  obtain ⟨t, he, hm, hreq, hlc, hrt, hch, hrv, hru, _⟩ := load_next hw h hv h.2.1 rfl (next_of_after hn)
  exact ⟨t, he, hm, hreq, hlc, hrt, hch, hrv, hru⟩

/-- Settles O23, by the slot read: slot 0, or one of slots 1 to 127. -/
theorem absentRecordsAreSkipped : Obligations.AbsentRecordsAreSkipped := by
  unfold Obligations.AbsentRecordsAreSkipped
  intro s x w k hw h ha h1 hn
  by_cases h0 : x.slot.val = 0
  · have hi : intact w = false := ha.resolve_right fun ⟨hpos, _⟩ => by omega
    have hst : (x.slot.val ≠ 0 && s.lc.station.isSome) = false := by simp [h0]
    rw [hst] at hn
    obtain ⟨t, he, hm, hreq, hlc, hrt, hch, hrv, hru⟩ := station_skipped hw h hi h0 hn
    refine ⟨t, he, hm, hreq, ?_, hrt, hch, hrv, fun hne => absurd h0 hne, ?_, fun _ => ?_⟩
    · rw [if_pos h0, hlc]
    · rw [hru]; rfl
    · have hr : s.lc.resetAsserted = false := hw
      rw [AttentionFollows, State.attentionDue, State.attentionMask, hru, hlc]
      simp only [hr, Bool.not_false, Bool.and_true]
      rfl
  · have hst : (x.slot.val ≠ 0 && s.lc.station.isSome) = s.lc.station.isSome := by simp [h0]
    rw [hst] at hn
    obtain ⟨t, he, hm, hreq, hlc, hrt, hch, hrv, hru⟩ := absent_skipped hw h ha h0 h1 hn
    refine ⟨t, he, hm, hreq, ?_, hrt, hch, hrv, fun _ => hru, ?_, fun hat => ?_⟩
    · rw [if_neg h0, hlc]
    · rw [hru]
    · rw [AttentionFollows, State.attentionDue, State.attentionMask, hru, hlc]
      exact hat

end Sys2Proof.Machine
end

section
/-! PROOFS. The Memory Agent takes its work in the order of R27 (R24, R26 to R32): at the end of an item, at the first
work of an idle Memory Agent, and through every step. -/

namespace Sys2Proof.Machine

open Sys2Proof.Safety

/-- Every command answers a next state. -/
theorem exec_total (c : Instr) (s : State) : ∃ t, exec c s = .next t := by
  cases c
  case memoryCycleComplete => exact answerCycle_total _ _
  case statusRead => exact answerCycle_total _ _
  case resetRelease gb sc => exact answer_total s (some (s.resetRelease gb sc))
  all_goals exact answer_total _ _

/-! ### The end of an item -/

/-- What an item's hand-over leaves as it was (section 2.4). -/
theorem itemDone_port (s : State) (x : Item) : (s.itemDone x).cp = s.cp ∧ (s.itemDone x).mp = s.mp ∧
    (s.itemDone x).passOver = s.passOver ∧ (s.itemDone x).ma = s.ma ∧
    (s.itemDone x).lc.resetAsserted = s.lc.resetAsserted ∧ (s.itemDone x).lc.baseSelect = s.lc.baseSelect := by
  unfold State.itemDone
  split
  · exact ⟨rfl, rfl, rfl, rfl, rfl, rfl⟩
  · exact ⟨rfl, rfl, rfl, rfl, rfl, rfl⟩
  · unfold State.rewriteDone
    split <;> exact ⟨rfl, rfl, rfl, rfl, rfl, rfl⟩
  · obtain ⟨_, hcp, hmp, hpass, hma, _, _, _, hr, hb, _⟩ := (Inner.takeLoad x.slot x.words (.refl s)).port
    exact ⟨hcp, hmp, hpass, hma, hr, hb⟩

/-- Where an item's sixteenth word completes the first item that waits is taken and the port granted (R24, R27). -/
theorem lastWord_goesOn {s : State} {k : ItemKind} {x : Item} (hw : Awake s) (h : LastWord s k x) :
    ∃ t, exec .memoryCycleComplete s = .next t ∧ ChosenFirst t ∧ Granted s t := by
  have hexec := (item_answer hw h).1
  obtain ⟨_, hn, hx, _⟩ := h
  rw [runCycle_mem] at hexec
  generalize hv : ({ s with mp := none, mem := (s.runCycle (agentWordCycle s x)).mem, ma := none } : State) = v at hexec
  obtain ⟨hcp, hmp, hpass, hma, hr, hb⟩ := itemDone_port v (x.advance (readWord s.mem (wordAddr s x)))
  subst hv
  have hgo := goesOn_settle (s := s) (hr.trans hw) hma hmp hcp hb hpass fun y hy => by rw [hx] at hy; cases hy; omega
  exact ⟨_, hexec, hgo.item, hgo.port⟩

/-! ### What follows a command -/

theorem After.lc {u t : State} (h : After u t) : t.lc = u.lc := by
  obtain ⟨n, hs⟩ := h.settled; exact hs.lc

/-- RESET_n deasserted, an idle Memory Agent makes its choice after every command. -/
theorem After.chosen {u t : State} (h : After u t) (hw : Awake t) (hm : u.ma = none) : ChosenFirst t := by
  have hu : Awake u := by rw [Awake, ← h.lc]; exact hw
  cases h with
  | settle => exact (State.settle_chosen hu hm).first
  | decided hr => exact (State.settle_chosen (u := { u with freeUsed := u.freeUsed + 1 }) hu hm).first
  | opened hr => exact (State.takeItem_chosen (u := { u with freeUsed := u.freeUsed + 1 }) hm).first

theorem State.settle_busy {u : State} {x : Item} (hx : u.ma = some x) : u.settle.ma = some x := by
  unfold State.settle
  split
  · exact hx
  · rw [State.arbitrate_ma, State.takeItem_busy hx]; exact hx

/-- A current item stays. -/
theorem After.item {u t : State} (h : After u t) {x : Item} (hx : u.ma = some x) : t.ma = some x := by
  cases h with
  | settle => exact State.settle_busy hx
  | decided hr => exact State.settle_busy (u := { u with freeUsed := u.freeUsed + 1 }) hx
  | opened hr => rw [State.takeItem_busy (s := { u with freeUsed := u.freeUsed + 1 }) hx]; exact hx

/-- While the Memory Agent is idle nothing waits, through every step: what follows a step has made its choice. -/
theorem step_agentBusy {s t : State} (h : step s = .next t) (hb : AgentBusy s) : AgentBusy t := by
  rcases step_event h with ⟨p, n, k, rfl⟩ | ⟨p, u, _, ha⟩
  · exact hb
  · intro hw hm
    have hu : u.ma = none := by
      cases hx : u.ma with
      | none => rfl
      | some x => rw [ha.item hx] at hm; cases hm
    exact (ha.chosen hw hu).2 hm

/-! ### The first work of an idle Memory Agent -/

/-- The first loading read is the Memory Agent's item, and nothing goes before it. -/
structure ReadsFirst (s : State) : Prop where
  item : s.ma = some firstRead
  commits : s.rv.committing = []
  device : s.lc.device = .loading
  slot : s.lc.loadSlot = some 0

theorem ReadsFirst.chosen {u t : State} (h : ReadsFirst u) (ha : After u t) : ChosenFirst t := by
  have hm := ha.item h.item
  obtain ⟨n, hs⟩ := ha.settled
  refine ⟨fun x hx => ?_, fun hn => by rw [hm] at hn; cases hn⟩
  obtain rfl := Option.some.inj (hm.symm.trans hx)
  exact .inr (.inl ⟨by rw [hs.rv]; exact h.commits, by rw [hs.lc]; exact h.device, 0, by rw [hs.lc]; exact h.slot, rfl⟩)

theorem countRefusal_lc (s : State) : s.countRefusal.lc = s.lc := by
  unfold State.countRefusal State.countSince
  dsimp only
  split
  · split <;> rfl
  · rfl

/-- A word-level refusal leaves the Load Controller alone. -/
theorem refuseWord_lc (s : State) (n : Nat) (k : Slot) (p : Pos) : (s.refuseWord n k p).lc = s.lc := by
  unfold State.refuseWord State.rememberRefusal
  dsimp only
  split <;> simp [countRefusal_lc]

/-- In LOADING a controller cycle leaves the Load Controller and the commit queue alone: no word is placed (R34). -/
theorem beginCycle_loading {s : State} (hd : s.lc.device = .loading) (a : Addr) (op : BusOp) :
    (s.beginCycle a op).lc = s.lc ∧ (s.beginCycle a op).rv.committing = s.rv.committing := by
  have refused (n : Nat) (k : Slot) (p : Pos) :
      (s.refuseWord n k p).lc = s.lc ∧ (s.refuseWord n k p).rv.committing = s.rv.committing := by
    obtain ⟨_, _, _, _, _, _, _, hcm, _⟩ := (Inner.refuseWord n k p (.refl s)).port
    exact ⟨refuseWord_lc s n k p, hcm⟩
  unfold State.beginCycle
  split
  · exact ⟨rfl, rfl⟩
  · unfold State.handWord
    rw [hd, if_neg (by simp [gateCode])]
    exact refused _ _ _
  · unfold State.refuseAtPort
    split <;> exact refused _ _ _

/-- A controller cycle that begins leaves the memory port and the current item alone, and, but for a forwarded one, the
Controller Port. -/
theorem beginCycle_port (s : State) (a : Addr) (op : BusOp) : (s.beginCycle a op).ma = s.ma ∧
    (s.beginCycle a op).mp = s.mp ∧ (s.beginCycle a op = s.forwardCycle a op ∨ (s.beginCycle a op).cp = s.cp) := by
  unfold State.beginCycle
  split
  · exact ⟨rfl, rfl, .inl rfl⟩
  · obtain ⟨_, hcp, hmp, _, hma, _⟩ := (Taken.handWord s _ _ _).port
    exact ⟨hma, hmp, .inr hcp⟩
  · obtain ⟨_, hcp, hmp, _, hma, _⟩ := (Inner.refuseAtPort _ _ _ (.refl s)).port
    exact ⟨hma, hmp, .inr hcp⟩

theorem ReadsFirst.beginCycle {s : State} (h : ReadsFirst s) (a : Addr) (op : BusOp) : ReadsFirst (s.beginCycle a op) := by
  obtain ⟨hlc, hcm⟩ := beginCycle_loading h.device a op
  exact ⟨(beginCycle_port s a op).1.trans h.item, hcm.trans h.commits, by rw [hlc]; exact h.device,
    by rw [hlc]; exact h.slot⟩

/-- The end of a memory cycle gives an idle Memory Agent no item. -/
theorem finishCycle_ma {s : State} (hm : s.ma = none) (m : MemCycle) : (s.finishCycle m).ma = none := by
  have hu : (s.runCycle m).ma = none := (s.runCycle_ma m).trans hm
  have hend (v : Word) : ((s.runCycle m).endCycle m.op v).ma = none := by
    unfold State.endCycle
    split <;> exact hu
  have hread {u : State} (h : u.ma = none) (v : Word) : (u.reportRead m.addr m.op v).ma = none := by
    unfold State.reportRead
    split
    · split
      · obtain ⟨_, _, _, _, hma, _⟩ := (Inner.statusReadDone _ _ (.refl u)).port
        exact hma.trans h
      · exact h
    all_goals exact h
  unfold State.finishCycle
  dsimp only
  split
  · exact hu
  · split
    · rw [State.agentWord, hu]; exact hu
    · exact hread (hend _) _

/-- No command gives an idle Memory Agent an item before its choice, but for the first loading read that a release may
grant before a held cycle is taken again. -/
theorem Event.idle {s u : State} (h : Event s u) (hm : s.ma = none) : u.ma = none ∨ ReadsFirst u := by
  cases h with
  | blocks hr hi =>
    obtain ⟨_, _, _, _, hma, _⟩ := hi.port
    exact .inl (hma.trans hm)
  | stopped a op hr => exact .inl hm
  | begins a op hc hr => exact .inl ((beginCycle_port s a op).1.trans hm)
  | ends m hmp => exact .inl (finishCycle_ma hm m)
  | assert hr => exact .inl rfl
  | release gb sc =>
    obtain ⟨hnone, hsome⟩ := resetRelease_cases s gb sc
    cases hc : s.cp.cycle with
    | none => rw [hnone hc]; exact .inl rfl
    | some x =>
      rcases hsome x hc with e | e
      · rw [e]; exact .inl (beginCycle_port _ _ _).1
      · rw [e, settle_releasedWith]
        exact .inr (ReadsFirst.beginCycle ⟨rfl, rfl, rfl, rfl⟩ _ _)

/-- On a free port with no cycle of the controller's, an idle Memory Agent either finds them still free or finds nothing
to do. -/
theorem Event.free {s u : State} (h : Event s u) (hw : Awake s) (hu : Awake u) (hm : s.ma = none) (hn : NothingPending s)
    (hp : s.mp = none) (hc : s.cp.cycle = none) :
    u.ma = none ∧ (u.mp = none ∧ u.cp.cycle = none ∨ NothingPending u) := by
  have hr : s.lc.resetAsserted = false := hw
  cases h with
  | blocks _ hi =>
    obtain ⟨_, hcp, hmp, _, hma, _⟩ := hi.port
    exact ⟨hma.trans hm, .inl ⟨hmp.trans hp, by rw [hcp]; exact hc⟩⟩
  | stopped a op hs => rw [hs] at hr; cases hr
  | begins a op _ _ =>
    obtain ⟨hma, hmp, hf | hcp⟩ := beginCycle_port s a op
    · refine ⟨hma.trans hm, .inr ?_⟩
      rw [hf]; exact hn
    · exact ⟨hma.trans hm, .inl ⟨hmp.trans hp, by rw [hcp]; exact hc⟩⟩
  | ends m hmp => rw [hp] at hmp; cases hmp
  | assert _ => cases hu
  | release gb sc => rw [(resetRelease_cases s gb sc).1 hc]; exact ⟨rfl, .inl ⟨rfl, rfl⟩⟩

/-- The first word of an item taken on a free port with no cycle of the controller's is granted at once (R24). -/
theorem settle_begun {u : State} {x : Item} (hw : Awake u) (hm : u.ma = none)
    (hf : u.mp = none ∧ u.cp.cycle = none ∨ NothingPending u) (hx : u.settle.ma = some x) : Begun u.settle x := by
  have hnext := (State.settle_chosen hw hm).fresh x hx
  rw [State.settle_awake hw] at hx ⊢
  have hx' : u.takeItem.ma = some x := (State.arbitrate_ma _).symm.trans hx
  rcases hf with ⟨hp, hc⟩ | hn
  · obtain ⟨tmp, _, tcp⟩ := u.takeItem_port
    exact ⟨hx, hnext, (State.arbitrate_agent (tmp.trans hp) (by rw [tcp]; exact hc) hx').1⟩
  · rw [State.takeItem_nothing hn, hm] at hx'; cases hx'

/-- Where a command gives an idle Memory Agent its first work, that is the first in the order of R27. -/
theorem exec_firstWork {c : Instr} {s : State} (hw : Awake s) (hm : s.ma = none) (hn : NothingPending s) :
    ∃ t, exec c s = .next t ∧ (Awake t → ChosenFirst t ∧
      (s.mp = none → s.cp.cycle = none → ∀ x, t.ma = some x → Begun t x)) := by
  obtain ⟨t, ht⟩ := exec_total c s
  refine ⟨t, ht, fun hwt => ?_⟩
  rcases exec_event ht with rfl | ⟨u, he, ha, hset⟩
  · have hnone (x : Item) : t.ma ≠ some x := by rw [hm]; simp
    exact ⟨⟨fun x hx => absurd hx (hnone x), fun _ => hn⟩, fun _ _ x hx => absurd hx (hnone x)⟩
  · have hwu : Awake u := by rw [Awake, ← ha.lc]; exact hwt
    refine ⟨?_, fun hp hc x hx => ?_⟩
    · rcases he.idle hm with hu | hu
      · exact ha.chosen hwt hu
      · exact hu.chosen ha
    · obtain ⟨hu, hf⟩ := he.free hw hwu hm hn hp hc
      have e := hset hp
      subst e
      exact settle_begun hwu hu hf hx

end Sys2Proof.Machine
end

section
/-! PROOFS. What a rewrite and an event append write (R4, R7, R155, R163, R164, R180, R182): each part record's snapshot
in the layout of its kind, and the assembly of the statement on the order of work. -/

namespace Sys2Proof.Machine

open Sys2Proof.Safety

/-- A part slot is that of the result, the status record, the capture header or body, a channel's or a run's report. -/
theorem PartSlot.cases_slot (k : PartSlot) : k = .result ∨ k = .status ∨ k = .captureHeader ∨ k = .captureBody ∨
    (∃ c, k = .channel c) ∨ ∃ r, k = .run r := by revert k; decide

/-- The kinds and indices of the part slots (the slot map of section 1.2). -/
theorem PartSlot.expected :
    (expectedKind PartSlot.result.slot = 0x61 ∧ expectedIndex PartSlot.result.slot = 0) ∧
    (expectedKind PartSlot.status.slot = 0x62 ∧ expectedIndex PartSlot.status.slot = 0) ∧
    (expectedKind PartSlot.captureHeader.slot = 0x63 ∧ expectedIndex PartSlot.captureHeader.slot = 0) ∧
    (∀ c, expectedKind (PartSlot.channel c).slot = 0x65 ∧ expectedIndex (PartSlot.channel c).slot = c.val) ∧
    ∀ r, expectedKind (PartSlot.run r).slot = 0x66 ∧ expectedIndex (PartSlot.run r).slot = r.val := by decide

/-! ### Fields -/

/-- A byte and a byte's number in one word (R180). -/
theorem hiByte_ofNat (a b : Nat) (hb : b < 256) : (hiByte (BitVec.ofNat 16 (a * 256 + b))).toNat = a % 256 := by
  simp only [hiByte, BitVec.extractLsb'_toNat, Nat.shiftRight_eq_div_pow, BitVec.toNat_ofNat]; omega

theorem loByte_ofNat (a b : Nat) (hb : b < 256) : (loByte (BitVec.ofNat 16 (a * 256 + b))).toNat = b := by
  simp only [loByte, BitVec.extractLsb'_toNat, Nat.shiftRight_eq_div_pow, BitVec.toNat_ofNat]; omega

theorem num2_count (c : Count) : num2 (wordOf c.toNat 1) (wordOf c.toNat 0) = c.toNat := by
  rw [num2_words]; exact Nat.mod_eq_of_lt c.isLt

/-- A channel's flag byte shows its flags. -/
theorem channelByte_bit (w : FlagWords) (c : Chan) (f : ChannelFlag) :
    (channelByte w c).getLsbD f.bit = w.has (.channel c f) := by
  simp [channelByte, FlagWords.has, Flag.word, Flag.bit, f.bit_lt]

/-- Words of a part record that its layout leaves spare. -/
theorem partRecord_spare {kind index n : Nat} {v : Vector Word 14} (h : ∀ i : Fin 14, n ≤ i.val → v[i.val] = 0) (p : Pos)
    (h1 : n + 1 ≤ p.val) (h2 : p.val ≤ 14) : (partRecord kind index v)[p] = 0 := by
  obtain ⟨p, hp⟩ := p
  cases p with
  | zero => exact absurd h1 (Nat.not_succ_le_zero n)
  | succ q =>
    have hq : q < 14 := h2
    exact (partRecord_get kind index v ⟨q, hq⟩).trans (h ⟨q, hq⟩ (Nat.le_of_succ_le_succ h1))

/-! ### Each snapshot's words -/

theorem snapshot_result (s : State) : s.snapshot .result = resultRecord s.lc.result := by simp [State.snapshot]

theorem snapshot_status (s : State) : s.snapshot .status = statusRecord s := by
  have h : PartSlot.status ≠ .result := by decide
  simp [State.snapshot, h]

theorem snapshot_captureHeader (s : State) : s.snapshot .captureHeader = captureHeader s.rv.capture := by
  have h : PartSlot.captureHeader ≠ .result ∧ PartSlot.captureHeader ≠ .status := by decide
  simp [State.snapshot, h]

theorem snapshot_captureBody (s : State) :
    s.snapshot .captureBody = s.rv.capture.body.getD (Vector.replicate 16 0) := by
  have h : PartSlot.captureBody ≠ .result ∧ PartSlot.captureBody ≠ .status ∧
    PartSlot.captureBody ≠ .captureHeader := by decide
  simp [State.snapshot, h]

theorem resultRecord_words {x : ResultContent} {w : Record} (h : resultRecord x = w) :
    w[1] = x.tag ∧ w[2] = x.code ∧ w[3] = BitVec.ofNat 16 x.outcome.code ∧ num2 w[4] w[5] = x.time.toNat ∧
    num2 w[6] w[7] = x.detail % 2 ^ 32 ∧ ∀ p : Pos, 8 ≤ p.val → p.val ≤ 14 → w[p] = 0 := by
  have hw := partRecord_words h
  refine ⟨hw 0, hw 1, hw 2, ?_, ?_, fun p => ?_⟩
  · exact (congrArg₂ num2 (hw 3) (hw 4)).trans (num2_count _)
  · exact (congrArg₂ num2 (hw 5) (hw 6)).trans (num2_words _)
  · rw [← h]
    refine partRecord_spare (n := 7) (fun ⟨i, hi⟩ hn => ?_) p
    dsimp only at hn
    interval_cases i <;> rfl

theorem statusRecord_words {s : State} {w : Record} (h : statusRecord s = w) :
    (hiByte w[1]).toNat = s.lc.device.code ∧ (loByte w[1]).toNat = s.lc.stationCode.toNat ∧
    (∀ f : Flag, (w[f.word.val + 2]?.getD 0).getLsbD f.bit = s.ru.latched.has f) ∧
    (∀ i : Fin 7, w[i.val + 2]?.getD 0 = s.ru.latched[i]) ∧
    w[9] = BitVec.ofNat 16 s.ru.ringNext.val ∧ w[10] = BitVec.ofNat 16 s.ru.dropped ∧
    w[11] = BitVec.ofNat 16 s.rv.refusals ∧ num2 w[12] w[13] = s.count.toNat ∧ w[14] = BitVec.ofNat 16 s.rv.inUse := by
  have hw := partRecord_words h
  have h1 : w[1] = BitVec.ofNat 16 (s.lc.device.code * 256 + s.lc.stationCode.toNat) := hw 0
  have hsc : s.lc.stationCode.toNat < 256 := by omega
  have hdev : s.lc.device.code < 256 := by cases s.lc.device <;> decide
  have hflags (i : Fin 7) : w[i.val + 2]?.getD 0 = s.ru.latched[i] := by
    have hi : i.val + 2 < 16 := by omega
    rw [Vector.getElem?_eq_getElem hi, Option.getD_some]
    refine (hw ⟨i.val + 1, by omega⟩).trans ?_
    obtain ⟨i, hi7⟩ := i
    interval_cases i <;> rfl
  refine ⟨?_, ?_, fun f => ?_, hflags, hw 8, hw 9, hw 10, ?_, hw 13⟩
  · rw [h1, hiByte_ofNat _ _ hsc, Nat.mod_eq_of_lt hdev]
  · rw [h1, loByte_ofNat _ _ hsc]
  · rw [hflags]; rfl
  · exact (congrArg₂ num2 (hw 11) (hw 12)).trans (num2_count _)

theorem captureHeader_words {x : Capture} {w : Record} (h : captureHeader x = w) :
    w[1] = BitVec.ofNat 16 (bit x.occupied) ∧ w[2] = x.reason ∧ w[3] = x.slot ∧ num2 w[4] w[5] = x.time.toNat ∧
    w[6] = BitVec.ofNat 16 x.since ∧ w[7] = x.guard ∧ ∀ p : Pos, 8 ≤ p.val → p.val ≤ 14 → w[p] = 0 := by
  have hw := partRecord_words h
  refine ⟨hw 0, hw 1, hw 2, ?_, hw 5, hw 6, fun p => ?_⟩
  · exact (congrArg₂ num2 (hw 3) (hw 4)).trans (num2_count _)
  · rw [← h]
    refine partRecord_spare (n := 7) (fun ⟨i, hi⟩ hn => ?_) p
    dsimp only at hn
    interval_cases i <;> rfl

theorem channelReport_words {c : Chan} {b : Byte} {x : Channel} {w : Record} (h : channelReport c b x = w) :
    num2 w[1] w[2] = (b.toNat * 2 ^ 24 + x.working) % 2 ^ 32 ∧
    (x.descriptor = none → (hiByte w[3]).toNat = x.attempts % 2 ^ 8) ∧
    (∀ d, x.descriptor = some d → num2 w[3] w[4] = (x.attempts * 2 ^ 24 + d.nominal) % 2 ^ 32) ∧
    w[5] = BitVec.ofNat 16 (x.misses * 2 ^ 8 + x.service.code * 2 ^ 4 + x.seq.phase.code) ∧
    w[6] = BitVec.ofNat 16 (x.cal.lastOutcome.code * 2 ^ 13 + if x.credit = 0 then x.owed else 2 ^ 12 + x.credit) ∧
    num2 w[7] w[8] = x.cal.lastMeasured % 2 ^ 32 ∧ num2 w[9] w[10] = x.residue % 2 ^ 32 ∧
    num2 w[11] w[12] = x.deficit % 2 ^ 32 ∧ num2 w[13] w[14] = x.delivered.toNat := by
  have hw := partRecord_words h
  have h3 : w[3] = BitVec.ofNat 16 (x.attempts * 256 + x.nominal / 2 ^ 16) := hw 2
  refine ⟨?_, fun hd => ?_, fun d hd => ?_, hw 4, hw 5, ?_, ?_, ?_, ?_⟩
  · exact (congrArg₂ num2 (hw 0) (hw 1)).trans (num2_over _ _)
  · have hz : x.nominal = 0 := by simp [Channel.nominal, hd]
    rw [h3, hz]
    exact hiByte_ofNat _ 0 (by decide)
  · have hn : x.nominal = d.nominal := by simp [Channel.nominal, hd]
    rw [← hn]
    exact (congrArg₂ num2 h3 (hw 3)).trans (num2_over _ _)
  · exact (congrArg₂ num2 (hw 6) (hw 7)).trans (num2_words _)
  · exact (congrArg₂ num2 (hw 8) (hw 9)).trans (num2_words _)
  · exact (congrArg₂ num2 (hw 10) (hw 11)).trans (num2_words _)
  · exact (congrArg₂ num2 (hw 12) (hw 13)).trans (num2_count _)

theorem num3_of_words {w0 w1 w2 : Word} {n : Nat} (h2 : w2 = wordOf n 2) (h1 : w1 = wordOf n 1) (h0 : w0 = wordOf n 0) :
    num3 w2 w1 w0 = n % 2 ^ 48 := by rw [h2, h1, h0, num3_words]

theorem runReport_words {r : Run} {x : RunEntry} {w : Record} (h : runReport r x = w) :
    w[1] = BitVec.ofNat 16 (x.condition.code * 2 ^ 12 + bit x.held * 2 ^ 11 + bit x.awaitingBaseline * 2 ^ 10) ∧
    w[2] = currentSlotWord x.currentSlot ∧ w[3] = BitVec.ofNat 16 x.historyCount ∧
    num3 w[4] w[5] w[6] = x.estimated % 2 ^ 48 ∧ num3 w[7] w[8] w[9] = x.credit % 2 ^ 48 ∧
    num3 w[10] w[11] w[12] = x.unrouted % 2 ^ 48 ∧ num2 w[13] w[14] = x.shadowTime.toNat := by
  have hw := partRecord_words h
  exact ⟨hw 0, hw 1, hw 2, num3_of_words (hw 3) (hw 4) (hw 5), num3_of_words (hw 6) (hw 7) (hw 8),
    num3_of_words (hw 9) (hw 10) (hw 11), (congrArg₂ num2 (hw 12) (hw 13)).trans (num2_count _)⟩

/-- Every snapshot but the capture body has the head of its slot and a correct check word (R4, R30). -/
theorem snapshot_frame (s : State) {k : PartSlot} (hk : k ≠ .captureBody) :
    (s.snapshot k)[0] = headWord (expectedKind k.slot) (expectedIndex k.slot) ∧ intact (s.snapshot k) = true := by
  have frame {kind index : Nat} {v : Vector Word 14} (h : s.snapshot k = partRecord kind index v)
      (he : expectedKind k.slot = kind ∧ expectedIndex k.slot = index) :
      (s.snapshot k)[0] = headWord (expectedKind k.slot) (expectedIndex k.slot) ∧ intact (s.snapshot k) = true := by
    rw [he.1, he.2, h]
    exact ⟨partRecord_head _ _ _, intact_partRecord _ _ _⟩
  obtain ⟨hres, hsta, hcap, hchan, hrun⟩ := PartSlot.expected
  rcases k.cases_slot with rfl | rfl | rfl | rfl | ⟨c, rfl⟩ | ⟨r, rfl⟩
  · exact frame (snapshot_result s) hres
  · exact frame (snapshot_status s) hsta
  · exact frame (snapshot_captureHeader s) hcap
  · exact absurd rfl hk
  · exact frame (snapshot_channel s c) (hchan c)
  · exact frame (snapshot_run s r) (hrun r)

/-- The snapshot of a part slot holds the record's current content (R30, R182). -/
theorem partRecordHolds_snapshot (s : State) (k : PartSlot) : PartRecordHolds s k (s.snapshot k) where
  frame := snapshot_frame s
  result := by rintro rfl; exact resultRecord_words (snapshot_result s).symm
  status := by rintro rfl; exact statusRecord_words (snapshot_status s).symm
  header := by rintro rfl; exact captureHeader_words (snapshot_captureHeader s).symm
  body := by
    rintro rfl r hr
    rw [snapshot_captureBody, hr, Option.getD_some]
  channel := by
    rintro c x rfl rfl
    exact ⟨channelByte_bit _ c, channelReport_words (snapshot_channel s c).symm⟩
  run := by
    rintro r x rfl rfl
    exact runReport_words (snapshot_run s r).symm

/-- The ring's record at a position holds its event (R7, R164). -/
theorem eventRecordHolds_at (p : Fin 64) (e : EventRecord) : EventRecordHolds p e (eventRecordAt p e) := by
  have hw := partRecord_words (w := eventRecordAt p e) rfl
  exact
    { frame := ⟨partRecord_head _ _ _, intact_partRecord _ _ _⟩
      code := hw 0
      time := (congrArg₂ num2 (hw 1) (hw 2)).trans (num2_count _)
      subject := hw 3
      detail := hw 4
      value := num3_of_words (hw 5) (hw 6) (hw 7)
      spare := fun q => by
        refine partRecord_spare (n := 8) (fun ⟨i, hi⟩ hn => ?_) q
        dsimp only at hn
        interval_cases i <;> rfl }

/-- Settles O22: the end of an item, the first work of an idle Memory Agent, every step, and what is written. -/
theorem workIsTakenInOrder : Obligations.WorkIsTakenInOrder := by
  unfold Obligations.WorkIsTakenInOrder
  exact ⟨fun s k x hw h => lastWord_goesOn hw h, fun c s hw hm hn => exec_firstWork hw hm hn,
    fun s t h hb => step_agentBusy h hb, partRecordHolds_snapshot, eventRecordHolds_at⟩

end Sys2Proof.Machine
end

section
/-! PROOFS. The controller's reads and the slots under write (R19): a read is granted only off a slot under write, and no
item writes its first word while the port runs another cycle, so that no read is torn. -/

namespace Sys2Proof.Machine

open Sys2Proof.Safety

/-- With no cycle of the Memory Agent's at the port, the item of a slot under write has had a word written. -/
theorem State.underWrite_begun {s : State} {k : Slot} (ha : s.agentCycle = false) (h : s.underWrite k = true) :
    ∃ x, s.ma = some x ∧ 0 < x.next := by
  unfold State.underWrite at h
  split at h
  · cases h
  · rename_i x hx
    rw [ha, Bool.or_false, Bool.and_eq_true, decide_eq_true_eq] at h
    exact ⟨x, hx, h.2⟩

/-- A cycle of the controller's at the port is none of the Memory Agent's. -/
theorem State.agentCycle_controller {s : State} {m : MemCycle} (hm : s.mp = some m) (hq : m.requester = .controller) :
    s.agentCycle = false := by simp [State.agentCycle, hm, hq]

/-- A cycle that competes for the port reads no slot under write (R19). -/
theorem State.holds_of_controllerRequest {s : State} {c : CpCycle} (h : s.controllerRequest = some c) :
    s.holds c = false := by
  unfold State.controllerRequest at h
  split at h
  · cases h
  · split at h
    · rename_i hx; cases h; exact hx.2
    · cases h

/-- A read that is not held is of no slot under write. -/
theorem State.underWrite_of_holds {s : State} {c : CpCycle} (h : s.holds c = false) (hr : c.op = .read) {k : Slot} {p : Pos}
    (hd : decompose s.lc.baseSelect c.addr = some (k, p)) : s.underWrite k = false := by
  simpa only [State.holds, hr, hd] using h

/-- What has begun without a cycle of the Memory Agent's at the port has begun with one too. -/
theorem State.underWrite_grantController {s : State} {c : CpCycle} {k : Slot} (h : s.underWrite k = false) :
    (s.grantController c).underWrite k = false := by
  cases hx : (s.grantController c).underWrite k with
  | false => rfl
  | true =>
    unfold State.underWrite State.grantController State.agentCycle at hx
    unfold State.underWrite at h
    split at h
    · rename_i hm; simp [hm] at hx
    · rename_i x hm
      simp only [hm] at hx
      simp only [Bool.and_eq_true, decide_eq_true_eq, reduceCtorEq, decide_false, Bool.or_false] at hx
      simp [hx] at h

/-- No slot is under write while an item awaits its first word at a port that runs another cycle. -/
theorem State.underWrite_fresh {s : State} (ha : s.agentCycle = false) (hf : ∀ x, s.ma = some x → x.next = 0) (k : Slot) :
    s.underWrite k = false := by
  cases h : s.underWrite k with
  | false => rfl
  | true =>
    obtain ⟨x, hx, hn⟩ := State.underWrite_begun ha h
    exact absurd (hf x hx) (Nat.pos_iff_ne_zero.mp hn)

namespace ReadsKept
variable {s t : State}

/-- What leaves the port, the current item and the base select alone keeps the reads whole. -/
theorem keep (h : ReadsWhole s) (hp : t.mp = s.mp) (hm : t.ma = s.ma) (hb : t.lc.baseSelect = s.lc.baseSelect) :
    ReadsWhole t := by
  simpa only [ReadsWhole, State.underWrite, State.agentCycle, hp, hm, hb] using h

theorem idle (h : t.mp = none) : ReadsWhole t := fun m _ _ hm => by rw [h] at hm; cases hm

/-- With no word written of the current item no read is torn. -/
theorem fresh (hf : ∀ x, t.ma = some x → x.next = 0) : ReadsWhole t := fun _ k _ hm hq _ _ =>
  State.underWrite_fresh (State.agentCycle_controller hm hq) hf k

theorem inner (h : ReadsWhole s) (hi : Inner s t) : ReadsWhole t := by
  obtain ⟨_, _, hmp, _, hma, _, _, _, _, hb, _⟩ := hi.port
  exact keep h hmp hma hb

/-! ### The Memory Agent and the Port Arbiter go on -/

theorem takeItem (h : ReadsWhole s) : ReadsWhole s.takeItem := by
  cases hm : s.ma with
  | some x => rw [State.takeItem_busy hm]; exact h
  | none => exact fresh (State.takeItem_chosen hm).fresh

theorem grantAgent (s : State) (x : Item) : ReadsWhole (s.grantAgent x) := fun m _ _ hm hq => by cases hm; cases hq

/-- The cycle granted is none that R19 holds. -/
theorem grantController {c : CpCycle} (hc : s.holds c = false) : ReadsWhole (s.grantController c) := by
  intro m k p hm _ hr hd
  cases hm
  exact State.underWrite_grantController (State.underWrite_of_holds hc hr hd)

theorem arbitrate (h : ReadsWhole s) : ReadsWhole s.arbitrate := by
  unfold State.arbitrate
  split
  · unfold State.decideGrant
    split
    · exact h
    · rename_i hc _; exact grantController (State.holds_of_controllerRequest hc)
    · exact grantAgent _ _
    · rename_i c _ hc _
      split
      · exact grantController (s := { s with passOver := s.passOver + 1 }) (c := c) (State.holds_of_controllerRequest hc)
      · exact grantAgent _ _
  · exact h

theorem settle (h : ReadsWhole s) : ReadsWhole s.settle := by
  unfold State.settle
  split
  · exact h
  · exact arbitrate (takeItem h)

theorem after (h : ReadsWhole s) (ha : After s t) : ReadsWhole t := by
  cases ha with
  | settle => exact settle h
  | decided hr => exact settle (s := { s with freeUsed := s.freeUsed + 1 }) h
  | opened hr => exact takeItem (s := { s with freeUsed := s.freeUsed + 1 }) h

/-! ### The events at the port -/

/-- Until its grant a cycle of the controller's concerns neither the port nor the current item. -/
theorem beginCycle (h : ReadsWhole s) (a : Addr) (op : BusOp) : ReadsWhole (s.beginCycle a op) := by
  unfold State.beginCycle
  split
  · exact h
  · rename_i k p v _
    obtain ⟨_, _, hmp, _, hma, _, _, _, hb, _⟩ := (Taken.handWord s k p v).port
    exact keep h hmp hma hb
  · exact inner h (.refuseAtPort _ _ _ (.refl s))

/-- The end of a memory cycle leaves the port idle (R23). -/
theorem finishCycle_mp (s : State) (m : MemCycle) : (s.finishCycle m).mp = none :=
  (Outer.finishCycle s m).port.2.2.1.trans (s.runCycle_mp m)

theorem resetRelease (s : State) (gb : BitVec 4) (sc : BitVec 6) : ReadsWhole (s.resetRelease gb sc) := by
  have h : ReadsWhole (s.underReset.afterRelease gb sc) := idle rfl
  unfold State.resetRelease State.retake
  split
  · exact h
  · generalize s.underReset.afterRelease gb sc = v at h
    have h' : ReadsWhole { v with freeUsed := v.freeUsed + 1 } := h
    dsimp only
    split
    · exact beginCycle h' _ _
    · exact beginCycle (settle h') _ _

theorem event (h : ReadsWhole s) (he : Event s t) : ReadsWhole t := by
  cases he with
  | blocks hr hi => exact inner h hi
  | stopped a op hr => exact h
  | begins a op hc hr => exact beginCycle h a op
  | ends m hm => exact idle (finishCycle_mp s m)
  | assert hr => exact fresh fun x hx => by cases hx
  | release gb sc => exact resetRelease s gb sc

end ReadsKept

/-- Settles O10: every event at the port keeps the reads whole, and so does what follows it. -/
theorem readsStayWhole : Obligations.ReadsStayWhole := by
  unfold Obligations.ReadsStayWhole
  intro s t hs h
  rcases step_event hs with ⟨p, n, k, rfl⟩ | ⟨p, u, he, ha⟩
  · exact h
  · have h' : ReadsWhole { s with pending := p } := h
    exact ReadsKept.after (ReadsKept.event h' he) ha

end Sys2Proof.Machine
end

section
/-! PROOFS. A step on an empty queue (R24; log entries 3, 5 and 26): what is due, and what the step makes of it. -/

namespace Sys2Proof.Machine

open Sys2Proof.Safety

/-! ### What is due -/

theorem reached_iff {s : State} {n : Nat} : s.reached n = true ↔ n ≤ s.uptime := by simp [State.reached]

theorem drained_iff (s : State) : s.drained = true ↔ s.rv.committing = [] ∧ ∀ k : PartSlot, s.ru.dirty[k] = false := by
  rw [State.drained, Bool.and_eq_true, List.isEmpty_iff, ReportUnit.clean_iff]

theorem mem_dueDrain {s : State} {c : Instr} : c ∈ s.dueDrain ↔ c = .drainComplete ∧ DueNow s .drainComplete := by
  unfold State.dueDrain
  rw [List.mem_ite_nil_right, List.mem_singleton, State.drainReady, Bool.and_eq_true, Bool.and_eq_true, drained_iff,
    decide_eq_true_eq, Option.isNone_iff_eq_none, and_comm, and_assoc]
  rfl

theorem mem_dueAssemblies {s : State} {c : Instr} :
    c ∈ s.dueAssemblies ↔ ∃ k, c = .assemblyExpired k ∧ DueNow s (.assemblyExpired k) := by
  simp only [State.dueAssemblies, List.mem_map, List.mem_filter, reached_iff, DueNow]
  constructor
  · rintro ⟨e, ⟨he, hd⟩, rfl⟩; exact ⟨_, rfl, e, he, rfl, hd⟩
  · rintro ⟨k, rfl, e, he, rfl, hd⟩; exact ⟨e, ⟨he, hd⟩, rfl⟩

theorem historyDue_iff {s : State} {k : TallySlot} : s.historyDue k = true ↔ DueNow s (.historyExpiry k) := by
  simp only [State.historyDue, DueNow]
  cases s.claim k with
  | history r x => simp [reached_iff]
  | free => simp
  | current r => simp

theorem mem_dueHistory {s : State} {c : Instr} :
    c ∈ s.dueHistory ↔ ∃ k, c = .historyExpiry k ∧ DueNow s (.historyExpiry k) := by
  simp only [State.dueHistory, List.mem_map, List.mem_filter, List.mem_finRange, true_and, historyDue_iff]
  exact exists_congr fun k => by rw [and_comm, eq_comm]

theorem mem_dueFreshness {s : State} {r : Run} {c : Instr} : c ∈ s.dueFreshness r ↔
    c = .stalenessExpiry r ∧ DueNow s (.stalenessExpiry r) ∨ c = .horizonExpiry r ∧ DueNow s (.horizonExpiry r) := by
  simp only [State.dueFreshness, DueNow]
  split
  · rename_i hc hf; simp [hc, hf, reached_iff, and_comm]
  · rename_i hc hf; simp [hc, hf, reached_iff, and_comm]
  · rename_i hl hs
    simp only [List.not_mem_nil, false_iff]
    rintro (⟨_, hc, f, hf, _⟩ | ⟨_, hc, f, hf, _⟩)
    · exact hl f hc hf
    · exact hs f hc hf

theorem mem_dueStep {s : State} {r : Run} {c : Instr} :
    c ∈ s.dueStep r ↔ c = .substitutionStep r ∧ DueNow s (.substitutionStep r) := by
  simp only [State.dueStep, DueNow]
  split
  · rename_i h; simp [h]
  · rename_i u h; simp [h, reached_iff, Substitution.due, and_comm]

theorem mem_dueBase {s : State} {k : Chan} {c : Instr} :
    c ∈ s.dueBase k ↔ c = .basePeriodExpiry k ∧ DueNow s (.basePeriodExpiry k) := by
  simp only [State.dueBase, DueNow]
  split
  · rename_i b hd hb; simp [hd, hb, reached_iff, and_comm]
  · rename_i h
    simp only [List.not_mem_nil, false_iff]
    rintro ⟨_, hd, b, hb, _⟩
    exact h b hd hb

/-- Channel k's stroke timer that is due is that of its phase. -/
theorem mem_dueStroke {s : State} {k : Chan} {c : Instr} : c ∈ s.dueStroke k ↔
    (∃ b, c = .precheckExpiry k b ∧ DueNow s (.precheckExpiry k b)) ∨ c = .driveExpiry k ∧ DueNow s (.driveExpiry k) ∨
    c = .proofWindowExpiry k ∧ DueNow s (.proofWindowExpiry k) ∨ c = .restEnd k ∧ DueNow s (.restEnd k) := by
  simp only [State.dueStroke, DueNow]
  cases hp : (s.chan k).seq.phase <;>
    simp [reached_iff, Sequencer.precheckEnd, Sequencer.driveEnd, Sequencer.windowEnd,
      Sequencer.restEnd, and_comm]

/-- The events the model finds due are those of the rules. -/
theorem mem_dueEvents {s : State} {c : Instr} : c ∈ s.dueEvents ↔ DueNow s c := by
  simp only [State.dueEvents, List.mem_append, List.mem_flatMap, List.mem_finRange, true_and, mem_dueDrain,
    mem_dueAssemblies, mem_dueHistory, mem_dueFreshness, mem_dueStep, mem_dueBase, mem_dueStroke]
  constructor
  · rintro ((((((⟨rfl, h⟩ | ⟨k, rfl, h⟩) | ⟨k, rfl, h⟩) | ⟨r, ⟨rfl, h⟩ | ⟨rfl, h⟩⟩) | ⟨r, rfl, h⟩) | ⟨k, rfl, h⟩) |
      ⟨k, ⟨b, rfl, h⟩ | ⟨rfl, h⟩ | ⟨rfl, h⟩ | ⟨rfl, h⟩⟩)
    all_goals exact h
  · intro h
    cases c
    case precheckExpiry k b => exact .inr ⟨k, .inl ⟨b, rfl, h⟩⟩
    case drainComplete | assemblyExpired | historyExpiry | stalenessExpiry | horizonExpiry | substitutionStep |
        basePeriodExpiry | driveExpiry | proofWindowExpiry | restEnd => simp [h]
    all_goals exact absurd h id

/-! ### The step -/

/-- Whatever free value decides, the event taken is one of those due. -/
theorem awakeStep_due {s : State} {c : Instr} (hc : DueNow s c) : ∃ j, DueNow s j ∧ s.awakeStep = s.comeUp j := by
  have hmem := mem_dueEvents.mpr hc
  unfold State.awakeStep
  cases hl : s.dueEvents with
  | nil => rw [hl] at hmem; cases hmem
  | cons i rest =>
    have due (j : Instr) (h : j ∈ i :: rest) : DueNow s j := mem_dueEvents.mp (hl ▸ h)
    cases hp : s.pick (i :: rest) with
    | none => exact ⟨i, due i List.mem_cons_self, by simp only [hp]⟩
    | some j => exact ⟨j, due j (List.mem_of_getElem? hp), by simp only [hp]⟩

theorem awakeStep_nothing {s : State} (h : ∀ c, ¬DueNow s c) : s.awakeStep = s.tick := by
  have hl : s.dueEvents = [] := List.eq_nil_iff_forall_not_mem.mpr fun c hc => h c (mem_dueEvents.mp hc)
  rw [State.awakeStep, hl]

/-- A step on an empty queue, RESET_n deasserted, with no grant decision left open. -/
theorem idleStep_decided {s : State} (hw : Awake s) (h : s.mp = none → s.ma = none) : s.idleStep = s.awakeStep := by
  have hr : s.lc.resetAsserted = false := hw
  have hd : s.decisionOpen = false := by
    unfold State.decisionOpen
    cases hp : s.mp with
    | none => rw [h hp]; rfl
    | some m => rfl
  simp [State.idleStep, hr, hd]

/-- A grant decision left open is taken. -/
theorem idleStep_open {s : State} (hw : Awake s) (hp : s.mp = none) (hm : s.ma ≠ none) : s.idleStep = s.arbitrate := by
  have hr : s.lc.resetAsserted = false := hw
  have hd : s.decisionOpen = true := by simp [State.decisionOpen, hp, Option.isSome_iff_ne_none.mpr hm]
  obtain ⟨x, hx⟩ := Option.ne_none_iff_exists'.mp hm
  simp [State.idleStep, hr, hd, State.settle_awake hw, State.takeItem_busy hx]

theorem step_empty {s : State} (h : s.pending = []) : step s = .next s.idleStep := by rw [step, h]

/-- Settles O2, line by line: under reset, a decision left open, nothing due, an event due. -/
theorem stepOnAnEmptyQueue : Obligations.StepOnAnEmptyQueue := by
  unfold Obligations.StepOnAnEmptyQueue
  intro s he
  rw [step_empty he]
  refine ⟨fun hr => ?_, fun hw hp hm => ?_, fun hw hn hd => ?_, fun hw hn ⟨c, hc⟩ => ?_⟩
  · rw [State.idleStep, if_pos hr]
  · rw [idleStep_open hw hp hm]
    exact ⟨s.arbitrate, rfl, State.arbitrate_granted hp rfl rfl rfl, State.arbitrate_frame s⟩
  · rw [idleStep_decided hw hn, awakeStep_nothing hd]; rfl
  · obtain ⟨j, hj, hstep⟩ := awakeStep_due hc
    refine ⟨j, hj, ?_⟩
    rw [idleStep_decided hw hn, hstep, State.comeUp, he]; rfl

end Sys2Proof.Machine
end

section
/-! PROOFS. The end of the controller's memory cycle (R17, R18, R23, R24, R27), and the record rows, which are cycles of
the controller's (R17, R22, R148). -/

namespace Sys2Proof.Machine

open Sys2Proof.Safety

/-! ### The end of the controller's cycle -/

/-- The controller's cycle has ended with this data word and this memory, the port idle. -/
def State.cycleEnded (s : State) (d : Word) (mem : List Host.Cell) : State :=
  { s with mp := none, mem := mem, cp := ⟨none, false, d⟩ }

/-- What the end of the controller's cycle leaves, the Memory Agent and the port having gone on (R17, R24, R27). -/
structure CycleOver (s t : State) (d : Word) (mem : List Host.Cell) : Prop where
  ended : Ended t d
  blocks : SameBlocks s t
  returned : Returned s t fun k => s.ru.dirty[k] = true
  memory : t.mem = mem

theorem cycleEnded_over {s : State} (hw : Awake s) (d : Word) (mem : List Host.Cell) :
    CycleOver s (s.cycleEnded d mem).settleContested d mem := by
  have ha : After (s.cycleEnded d mem) (s.cycleEnded d mem).settleContested := .settleAfter false _
  obtain ⟨n, hs⟩ := ha.settled
  exact ⟨ha.cp_none rfl, same_after ha rfl rfl rfl rfl rfl rfl rfl, returned_settle hw rfl rfl rfl rfl rfl rfl, hs.mem⟩

/-- The controller's memory cycle completes (R17, R18, R23). -/
theorem exec_controller_ends {s : State} {a : Addr} {op : BusOp} (hw : Awake s) (hp : s.mp = some ⟨.controller, a, op⟩) :
    exec .memoryCycleComplete s = .next (((s.runCycle ⟨.controller, a, op⟩).endCycle op (readWord s.mem a)).reportRead a op
      (readWord s.mem a)).settleContested := by
  have hr : s.lc.resetAsserted = false := hw
  have hag : s.agentCycle = false := State.agentCycle_controller hp rfl
  show answerCycle s s.memoryCycle = _
  simp only [answerCycle, State.memoryCycle, hp, State.finishCycle, hr, hag]
  rfl

theorem exec_controller_write {s : State} {a : Addr} {v : Word} {lanes : Lanes} (hw : Awake s)
    (hp : s.mp = some ⟨.controller, a, .write v lanes⟩) : exec .memoryCycleComplete s =
      .next (s.cycleEnded s.cp.readData (writeWord s.mem a v lanes)).settleContested := by
  rw [exec_controller_ends hw hp]; rfl

/-- A word of the status record that holds no flags concerns the Report Unit in nothing (R14, R159). -/
theorem statusReadDone_noFlags (s : State) {p : Pos} (h : ¬(2 ≤ p.val ∧ p.val ≤ 8)) (v : Word) :
    s.statusReadDone p v = s := by
  have hf : flagWordOf p = none := by unfold flagWordOf; rw [dif_neg h]
  rw [State.statusReadDone, hf]

/-- A read of anything but a flag word of the status record concerns the Report Unit in nothing (R14, R159). -/
theorem reportRead_noFlags {s : State} {a : Addr}
    (h : ∀ p : Pos, 2 ≤ p.val → p.val ≤ 8 → decompose s.lc.baseSelect a ≠ some (19, p)) (op : BusOp) (v : Word) :
    s.reportRead a op v = s := by
  unfold State.reportRead
  split
  · rename_i slot p hd
    split
    · rename_i h19
      refine statusReadDone_noFlags s (fun ⟨h2, h8⟩ => h p h2 h8 ?_) v
      rw [hd, show slot = 19 from Fin.ext h19]
    · rfl
  all_goals rfl

theorem exec_controller_read {s : State} {a : Addr} (hw : Awake s) (hp : s.mp = some ⟨.controller, a, .read⟩)
    (h : ∀ p : Pos, 2 ≤ p.val → p.val ≤ 8 → decompose s.lc.baseSelect a ≠ some (19, p)) :
    exec .memoryCycleComplete s = .next (s.cycleEnded (readWord s.mem a) s.mem).settleContested := by
  have hu : ∀ p : Pos, 2 ≤ p.val → p.val ≤ 8 →
      decompose (s.cycleEnded (readWord s.mem a) s.mem).lc.baseSelect a ≠ some (19, p) := h
  rw [exec_controller_ends hw hp]
  exact congrArg (fun u => Host.Outcome.next (State.settleContested u)) (reportRead_noFlags hu .read (readWord s.mem a))

/-- Settles O16: a write, and a read of no flag word. -/
theorem controllerCyclesComplete : Obligations.ControllerCyclesComplete := by
  unfold Obligations.ControllerCyclesComplete
  refine fun s a op hw hwf hp => ⟨fun v lanes ho => ?_, fun ho hn => ?_⟩
  · subst ho
    obtain ⟨hend, hblocks, hret, hmem⟩ := cycleEnded_over hw s.cp.readData (writeWord s.mem a v lanes)
    refine ⟨_, exec_controller_write hw hp, hend, hblocks, hret, fun k hu hl => ?_, ?_, ?_⟩
    · rw [hmem, memByte_writeWord hwf, if_neg hu, if_neg hl]
    · rw [hmem, memByte_writeWord hwf, if_pos rfl]
    · rw [hmem, memByte_writeWord hwf, if_neg (upperKey_ne_lowerKey a a).symm, if_pos rfl]
  · subst ho
    obtain ⟨hend, hblocks, hret, hmem⟩ := cycleEnded_over hw (readWord s.mem a) s.mem
    exact ⟨_, exec_controller_read hw hp hn, hend, hblocks, hret, fun k => by rw [hmem]⟩

/-! ### The record rows -/

/-- The answer to a record row is the answer to the controller's write of that word (R17, R22). -/
theorem answer_recordWrite (s : State) (k : Slot) (p : Pos) (v : Word) : answer s (s.recordWrite k p v) = writes s k p v :=
  rfl

/-- The answer to a command row is the answer to the controller's write of its word of the command record (R147). -/
theorem answer_commandWrite (s : State) (tag code a b : Word) (p : Pos) :
    answer s (s.commandWrite tag code a b p) = writes s 17 p (commandRecordOf tag code a b)[p] :=
  answer_recordWrite s 17 p _

/-- Settles O32: each record row by its slot, each command row by its code and arguments. -/
theorem recordRowsAreWrites : Obligations.RecordRowsAreWrites := by
  unfold Obligations.RecordRowsAreWrites
  exact fun s p v tag a b => ⟨fun k => answer_recordWrite s (tallySlotOf k) p v, answer_recordWrite s 0 p v,
    fun c => answer_recordWrite s (channelDescriptorSlot c) p v, fun r => answer_recordWrite s (runDescriptorSlot r) p v,
    answer_recordWrite s 17 p v, answer_commandWrite s tag 1 a 0 p, answer_commandWrite s tag 2 a 0 p,
    answer_commandWrite s tag 3 a 0 p, answer_commandWrite s tag 4 0 0 p, answer_commandWrite s tag 5 a 1 p,
    answer_commandWrite s tag 5 a 0 p, answer_commandWrite s tag 6 a b p, answer_commandWrite s tag 7 a 0 p,
    answer_commandWrite s tag 8 a 0 p, answer_commandWrite s tag 9 0 0 p⟩

end Sys2Proof.Machine
end

section
/-! PROOFS. The words of the Memory Agent's items (R18, R19, R23, R24, R26), and the ends of a commit, an event append and
a rewrite (R28 to R30, R42, R158, R165). -/

namespace Sys2Proof.Machine

open Sys2Proof.Safety

/-! ### A word before the last -/

/-- The item's word has ended, the port idle: the item goes on to its next word (R26). -/
def State.wordEnded (s : State) (x : Item) : State :=
  { s with mp := none, mem := (s.runCycle (agentWordCycle s x)).mem, ma := some (x.advance (readWord s.mem (wordAddr s x))) }

theorem exec_word_ends {s : State} {x : Item} (hw : Awake s) (hx : s.ma = some x) (hn : x.next < 15)
    (hp : s.mp = some (agentWordCycle s x)) : exec .memoryCycleComplete s = .next (s.wordEnded x).settle := by
  rw [agent_answer hw hp, runCycle_mem]
  simp only [State.agentWord, hx, hn, if_true]
  rfl

/-- An item that goes on competes with its next word (R24). -/
theorem wordEnded_granted {s : State} (x : Item) (hw : Awake s) : Granted s (s.wordEnded x).settle := by
  have hw' : Awake (s.wordEnded x) := hw
  rw [State.settle_awake hw', State.takeItem_busy rfl]
  exact State.arbitrate_granted rfl rfl rfl rfl

/-- While an item goes on the Report Unit is left alone. -/
theorem wordEnded_ru {s : State} (x : Item) (hw : Awake s) : (s.wordEnded x).settle.ru = s.ru := by
  have hw' : Awake (s.wordEnded x) := hw
  rw [State.settle_awake hw', State.takeItem_busy rfl, State.arbitrate_dirty]
  rfl

theorem wordCycle_advance (x : Item) (v : Word) (p : Nat) : wordCycle (x.advance v) p = wordCycle x p := by
  by_cases hl : x.kind = .loadingRead
  · simp [wordCycle, Item.advance, hl]
  · simp [wordCycle, Item.advance, writes_iff, hl]

/-- A read that R19 holds for an item competes with no next word of it. -/
theorem not_competes_held {s : State} {x : Item} {c : CpCycle} {v : Word} (h : HeldBy s x c = true) :
    ¬Competes s (some (x.advance v)) c := by
  rintro ⟨_, _, hheld⟩
  have hn : HeldBy s (x.advance v) c = false := hheld _ rfl (Nat.succ_pos _)
  have h' : HeldBy s (x.advance v) c = true := h
  rw [h'] at hn; cases hn

/-- Settles O17: the word's own effect, and the grant by R24 between the controller's cycle and the next word. -/
theorem agentWordsFollowInOrder : Obligations.AgentWordsFollowInOrder := by
  unfold Obligations.AgentWordsFollowInOrder
  intro s x hw hwf hx hn hp
  have hs := Settled.settle (s.wordEnded x)
  have hg := wordEnded_granted x hw
  have hlim : (s.wordEnded x).settle.starvationLimit = s.starvationLimit := by
    rw [State.starvationLimit, hs.lc]; rfl
  have hma : (s.wordEnded x).settle.ma = some (x.advance (readWord s.mem (wordAddr s x))) := State.settle_busy rfl
  rw [← hlim]
  refine ⟨_, _, exec_word_ends hw hx hn hp, same_after .settle rfl rfl rfl rfl rfl rfl rfl, wordEnded_ru x hw, hs.freeUsed,
    hma, rfl, rfl, rfl, ?_, word_written hwf hs.mem, fun c hc hwait hheld hlt => ?_, fun hother => ?_⟩
  · by_cases hl : x.kind = .loadingRead
    · simp [Item.advance, writes_iff, hl, wordAddr]
    · simp [Item.advance, writes_iff, hl]
  · refine hg.bothBelow c _ ⟨hc, hwait, fun y hy _ => ?_⟩ hma hlt
    rw [hma] at hy; cases hy; exact hheld
  · have hword : WordGranted (s.wordEnded x).settle (x.advance (readWord s.mem (wordAddr s x))) ∧
        (s.wordEnded x).settle.cp = s.cp := by
      by_cases hc : ∃ c, Competes s (s.wordEnded x).settle.ma c
      · obtain ⟨c, hc⟩ := hc
        rcases hother c hc.1 hc.2.1 with hheld | hle
        · rw [hma] at hc; exact absurd hc (not_competes_held hheld)
        · exact hg.bothAt c _ hc hma hle
      · exact hg.agentOnly _ hma fun c h => hc ⟨c, h⟩
    obtain ⟨⟨hmp, hpass⟩, hcp⟩ := hword
    rw [wordCycle_advance, hs.lc] at hmp
    exact ⟨hmp, hpass, hcp⟩

/-! ### The last word -/

/-- The item's last word has reached memory, the port and the Memory Agent idle: the item is handed over (section 2.4). -/
def State.lastEnded (s : State) (x : Item) : State :=
  { s with mp := none, mem := (s.runCycle (agentWordCycle s x)).mem, ma := none }

/-- What the end of an item leaves: u is what its hand-over makes of the state with the last word in memory. -/
structure ItemOver (s t : State) (x : Item) (u : State) : Prop where
  settled : Settled u t
  written : WordWritten s t x
  goesOn : GoesOn s t (fun k => u.ru.dirty[k] = true) u.ru.pendingShown.has

/-- An item's sixteenth word completes: the hand-over, the next item, the grant. -/
theorem item_over {s u : State} {k : ItemKind} {x : Item} (hw : Awake s) (hwf : MemoryWf s) (h : LastWord s k x)
    (hu : ∀ y : Item, y.kind = k → y.slot = x.slot → (s.lastEnded x).itemDone y = u)
    (hmem : u.mem = (s.lastEnded x).mem) :
    ∃ t, answer s (s.itemCycle k) = .next t ∧ exec .memoryCycleComplete s = .next t ∧ ItemOver s t x u := by
  obtain ⟨hexec, hrow⟩ := item_answer hw h
  obtain ⟨hk, hn, hx, _⟩ := h
  have hdone := hu (x.advance (readWord s.mem (wordAddr s x))) hk rfl
  have hexec : exec .memoryCycleComplete s = .next u.settle := by
    rw [hexec, runCycle_mem, ← hdone]; rfl
  obtain ⟨hcp, hmp, hpass, hma, hr, hb⟩ := itemDone_port (s.lastEnded x) (x.advance (readWord s.mem (wordAddr s x)))
  rw [hdone] at hcp hmp hpass hma hr hb
  have hs := Settled.settle u
  exact ⟨_, hrow.trans hexec, hexec, hs, word_written hwf (hs.mem.trans hmem),
    goesOn_settle (s := s) (hr.trans hw) hma hmp hcp hb hpass fun y hy => by rw [hx] at hy; cases hy; omega⟩

/-- The item going on, with the marks and the pending set said in other words. -/
theorem goesOn_congr {s t : State} {D D' : PartSlot → Prop} {p p' : Flag → Bool} (h : GoesOn s t D p)
    (hd : ∀ k, D' k ↔ D k) (hp : ∀ f, p' f = p f) : GoesOn s t D' p' where
  item := h.item
  rewrites := ⟨fun k => by rw [h.rewrites.marks, hd], fun f => by rw [h.rewrites.pendingShown, hp]⟩
  port := h.port

/-- With the last word written the slot holds the record, where it held the other words (R18). -/
theorem readSlot_of_lastWord {s t : State} {x : Item} {gb : BitVec 4} (hgb : gb = s.lc.baseSelect) (hwf : MemoryWf s)
    (hn : x.next = 15) (hk : x.kind ≠ .loadingRead) (ht : t.mem = (s.runCycle (agentWordCycle s x)).mem)
    (h : ∀ q : Pos, q.val < 15 → readWord s.mem (slotAddr gb x.slot q) = x.words[q]) :
    readSlot t.mem gb x.slot = x.words := by
  subst hgb
  have hmem : t.mem = writeWord s.mem (slotAddr s.lc.baseSelect x.slot 15) x.words[15] .both := by
    rw [ht]
    simp [State.runCycle, agentWordCycle, wordCycle, wordAddr, hk, hn]
  ext1 i hi
  rw [readSlot, Vector.getElem_ofFn, hmem, readWord_writeWord_both hwf]
  split
  · rename_i ha
    have hq : (⟨i, hi⟩ : Pos) = 15 := slotAddr_inj ha
    have hi : i = 15 := congrArg Fin.val hq
    subst hi; rfl
  · rename_i ha
    refine h ⟨i, hi⟩ (Nat.lt_of_le_of_ne (Nat.le_of_lt_succ hi) fun hv => ha ?_)
    have hv : i = 15 := hv
    subst hv; rfl

/-! ### Commits, event appends, rewrites -/

theorem itemDone_commit {y : Item} (h : y.kind = .commit) (s : State) : s.itemDone y = s.commitDone := by
  simp only [State.itemDone, h]

theorem itemDone_append {y : Item} (h : y.kind = .eventAppend) (s : State) : s.itemDone y = s.appendDone := by
  simp only [State.itemDone, h]

theorem itemDone_rewrite {y : Item} (h : y.kind = .rewrite) (s : State) : s.itemDone y = s.rewriteDone y.slot := by
  simp only [State.itemDone, h]

/-- Settles O19: the commit's hand-over, and the slot once its last word is written. -/
theorem commitsComplete : Obligations.CommitsComplete := by
  unfold Obligations.CommitsComplete
  intro s x hw hwf h
  obtain ⟨t, hrow, hexec, hs, hwritten, hgo⟩ :=
    item_over (u := (s.lastEnded x).commitDone) hw hwf h (fun y hy _ => itemDone_commit hy _) rfl
  obtain ⟨hk, hn, _⟩ := h
  refine ⟨t, hrow, hexec, hs.rv, hwritten, ?_, hs.ru, hs.uptime, hs.lc, hs.rt, hs.channels, hs.pending, hs.freeUsed, hgo⟩
  exact readSlot_of_lastWord rfl hwf hn (by rw [hk]; decide) hs.mem

/-- Settles O20: the append's hand-over. -/
theorem appendsComplete : Obligations.AppendsComplete := by
  unfold Obligations.AppendsComplete
  intro s x hw hwf h
  obtain ⟨t, hrow, hexec, hs, hwritten, hgo⟩ :=
    item_over (u := (s.lastEnded x).appendDone) hw hwf h (fun y hy _ => itemDone_append hy _) rfl
  refine ⟨t, hrow, hexec, ?_, ?_, hwritten, hs.rv, hs.uptime, hs.lc, hs.rt, hs.channels, hs.pending, hs.freeUsed,
    goesOn_congr hgo (fun k => ?_) fun f => rfl⟩
  · rw [hs.ringNext]; exact Fin.val_add s.ru.ringNext 1
  · rw [hs.ringNext]; exact hs.ru
  · rw [State.appendDone, State.mark_get, Bool.or_eq_true, decide_eq_true_eq]; rfl

theorem FlagWords.has_inter (a b : FlagWords) (f : Flag) : (a.inter b).has f = (a.has f && b.has f) := by
  have word (i : Fin 7) : (a.inter b)[i] = a[i] &&& b[i] := by fin_cases i <;> rfl
  rw [FlagWords.has, word]
  exact BitVec.getLsbD_and

theorem FlagWords.has_none (f : Flag) : FlagWords.none.has f = false := by simp [FlagWords.has, FlagWords.none]

/-- The shown set and the pending set replaced. -/
def State.withShown (s : State) (shown pending : FlagWords) : State :=
  { s with ru := { s.ru with shown := shown, pendingShown := pending } }

/-- A rewrite's hand-over concerns the two sets alone, and those for the status record alone (R30, R158). -/
theorem rewriteDone_withShown (s : State) (k : Slot) : ∃ a b, s.rewriteDone k = s.withShown a b ∧
    (∀ f, a.has f = if k = 19 then s.ru.pendingShown.has f && s.ru.latched.has f else s.ru.shown.has f) ∧
    ∀ f, b.has f = if k = 19 then false else s.ru.pendingShown.has f := by
  unfold State.rewriteDone
  by_cases h : k = 19
  · subst h
    exact ⟨_, _, rfl, FlagWords.has_inter _ _, FlagWords.has_none⟩
  · have hv : k.val ≠ 19 := fun e => h (Fin.ext e)
    exact ⟨s.ru.shown, s.ru.pendingShown, by rw [if_neg hv]; rfl, fun f => by rw [if_neg h], fun f => by rw [if_neg h]⟩

/-- Settles O21: the rewrite's hand-over, for the status record and for any other part record. -/
theorem rewritesComplete : Obligations.RewritesComplete := by
  unfold Obligations.RewritesComplete
  intro s x hw hwf h
  obtain ⟨a, b, hu, ha, hb⟩ := rewriteDone_withShown (s.lastEnded x) x.slot
  obtain ⟨t, hrow, hexec, hs, hwritten, hgo⟩ :=
    item_over (u := (s.lastEnded x).withShown a b) hw hwf h (fun y hy hk => by rw [itemDone_rewrite hy, hk, hu]) rfl
  refine ⟨t, hrow, hexec, hwritten, fun f => ?_, ?_, hs.rv, hs.uptime, hs.lc, hs.rt, hs.channels, hs.pending, hs.freeUsed,
    goesOn_congr hgo (fun k => Iff.rfl) fun f => (hb f).symm⟩
  · rw [hs.shown]; exact ha f
  · rw [hs.shown]; exact hs.ru

end Sys2Proof.Machine
end

section
/-! PROOFS. Load completion (R175): what it leaves, the Memory Agent and the port having gone on, and the entry to FALLBACK
with the capture header read before it (R51, R123). -/

namespace Sys2Proof.Machine

open Sys2Proof.Safety

/-! ### The last read is handed over -/

/-- What is left once the last loading read has been handed over, u being what load completion makes of the state. -/
structure LastHanded (s t u : State) : Prop where
  read : exec .loadingReadComplete s = .next t
  cycle : exec .memoryCycleComplete s = .next t
  item : ChosenFirst t
  port : Granted s t
  settled : Settled u t
  pending : t.pending = s.pending
  freeUsed : t.freeUsed = s.freeUsed
  memory : ∀ b, memByte t.mem b = memByte s.mem b
  reports : ∀ es fs ks, Effects s u es fs ks → Reports s t es fs ks

/-- The last loading read is handed over, its record used with the effect v, and the load completes (R31, R169, R175). -/
theorem load_last {s v : State} {x : Item} {w : Record} (hw : Awake s) (h : LastRead s x w)
    (hv : (readDone s).useRecord x.slot w = v)
    (hn : nextLoadSlot v.lc.cause.afterReset v.lc.station.isSome x.slot = none) :
    LastHanded s v.completeLoad.settle v.completeLoad := by
  obtain ⟨hcycle, hread⟩ := load_answer hw h
  obtain ⟨⟨_, hx15, hx, _⟩, _⟩ := h
  have hi : Inner (readDone s) v.completeLoad := .completeLoad (hv ▸ .useRecord x.slot w (.refl _))
  obtain ⟨hpend, hcp, hmp, hpass, hma, hmem, hfree, _, hr, hb, _⟩ := hi.port
  have hu : (readDone s).takeLoad x.slot w = v.completeLoad := by
    simp only [State.takeLoad, State.nextLoad, hv, hn]
  rw [hu] at hcycle hread
  have hs := Settled.settle v.completeLoad
  have hfirst : ∀ y, s.ma = some y → y.next ≠ 0 := fun y hy => by rw [hx] at hy; cases hy; omega
  have hgo := goesOn_settle (s := s) (hr.trans hw) hma hmp hcp hb hpass hfirst
  exact ⟨hread, hcycle, hgo.item, hgo.port, hs, hs.pending.trans hpend, hs.freeUsed.trans hfree,
    fun b => by rw [hs.mem, hmem]; rfl, fun es fs ks he => he.settle (.inr ⟨hma, hfirst⟩)⟩

/-! ### Load completion -/

/-- A change of the device state marks the status record. -/
theorem Effects.thenDevice {s t : State} {es : List EventRecord} {fs : List Flag} {ks : List PartSlot} (d : DeviceState)
    (h : Effects s t es fs ks) : Effects s (t.setDevice d) es fs (ks ++ [.status]) :=
  (h.thenSame (u := { t with lc := { t.lc with device := d } }) rfl rfl rfl).thenMark .status

/-- What load completion leaves in this device state, with these events, flags and channels (R174, R175). -/
structure LoadOver (v u : State) (d : DeviceState) (es : List EventRecord) (fs : List Flag) (cs : Vector Channel 4) :
    Prop where
  effects : Effects v u es fs (loadMarks v)
  loader : u.lc = loaderDone v d (loadedResult v)
  runTable : u.rt = v.settleScan.rt
  channels : u.channels = cs
  verifier : u.rv = v.rv
  uptime : u.uptime = v.uptime

/-- LOAD_DONE, as the scan has it (R175). -/
def loadDoneEvent (v : State) : EventRecord :=
  eventNow v .loadDone v.lc.cause.code v.lc.scan.bound v.lc.scan.valid

/-- The status record is among the records marked at load completion. -/
theorem status_mem_loadMarks (s : State) (k : PartSlot) : k ∈ loadMarks s ↔ k ∈ loadMarks s ++ [.status] := by
  have hs : PartSlot.status ∈ loadMarks s := by simp [loadMarks]
  rw [List.mem_append, List.mem_singleton]
  exact ⟨.inl, fun h => h.elim id fun e => e ▸ hs⟩

theorem completeLoad_running {v : State} {d : StationDescriptor} (h : v.lc.station = some d) :
    LoadOver v v.completeLoad .running [loadDoneEvent v] [] v.channels := by
  obtain ⟨u, hu, heff, hlc, hrt, hch, hrv, hup⟩ := loaded_eff (s := v) (t := v.settleScan) rfl rfl rfl
  have e : v.completeLoad = (u.setDevice .running).endLoad := by rw [State.completeLoad, h, hu]
  rw [e]
  refine ⟨?_, ?_, hrt, hch, hrv, hup⟩
  · exact (((heff.thenDevice .running).thenSame (u := (u.setDevice .running).endLoad) rfl rfl rfl)).as rfl
      (fun _ => Iff.rfl) fun k => .inl (status_mem_loadMarks v k)
  · simp [State.endLoad, loaderDone, hlc]

/-- FALLBACK_ENTERED, with the fallback reason and the station code (R175). -/
def fallbackEvent (v : State) : EventRecord :=
  eventNow v .fallbackEntered 0 v.lc.fallbackReason v.lc.stationCode.toNat

/-- The entry to FALLBACK (R123, R175). -/
theorem enterFallback_eff {s t : State} {es : List EventRecord} {fs : List Flag} {ks : List PartSlot}
    (h : Effects s t es fs ks) : Effects s t.enterFallback (es ++ [fallbackEvent t]) (fs ++ [.station .fallback])
      (ks ++ [.status]) := by
  have hl := (h.thenRaise .fallbackEntered 0 t.lc.fallbackReason t.lc.stationCode.toNat).thenLatch (.station .fallback)
  unfold State.enterFallback
  exact Effects.thenDevice .fallback (hl.thenSame rfl rfl rfl)

theorem completeLoad_fallback {v : State} (h : v.lc.station = none) :
    LoadOver v v.completeLoad .fallback [loadDoneEvent v, fallbackEvent v] [.station .fallback]
      (v.channels.map fun x => x.startBaseTimer v.uptime) := by
  obtain ⟨u, hu, heff, hlc, hrt, hch, hrv, hup⟩ := loaded_eff (s := v) (t := v.settleScan) rfl rfl rfl
  have e : v.completeLoad = u.enterFallback.endLoad := by rw [State.completeLoad, h, hu]
  have hev : fallbackEvent u = fallbackEvent v := by simp [fallbackEvent, eventNow, State.count, hlc, hup]
  rw [e]
  refine ⟨?_, ?_, ?_, ?_, ?_, ?_⟩
  · refine ((enterFallback_eff heff).thenSame (u := u.enterFallback.endLoad) rfl rfl rfl).as ?_
      (fun _ => Iff.rfl) fun k => .inl (status_mem_loadMarks v k)
    rw [hev]; rfl
  · simp [State.endLoad, State.enterFallback, loaderDone, hlc]
  · simp [State.endLoad, State.enterFallback, hrt]
  · simp [State.endLoad, State.enterFallback, hch, hup]; rfl
  · simp [State.endLoad, State.enterFallback, hrv]; rfl
  · simp [State.endLoad, State.enterFallback, hup]

/-! ### The capture header (R51) -/

/-- A record's w0 is that of its kind and index (R8). -/
theorem head_eq (w : Record) : w[0] = headWord (recordKind w) (recordIndex w) := by
  refine BitVec.eq_of_toNat_eq ?_
  simp only [headWord, recordKind, recordIndex, hiByte, loByte, BitVec.extractLsb'_toNat, Nat.shiftRight_eq_div_pow,
    BitVec.toNat_ofNat]
  omega

/-- The frame of slot 20, w0 and check word (log entry 18). -/
theorem frameValid_header (w : Record) : frameValid 20 w = true ↔ intact w = true ∧ w[0] = 0x6300 := by
  constructor
  · intro h
    obtain ⟨hk, hi⟩ := frameValid_head h
    exact ⟨frameValid_intact h, by rw [head_eq w, hk, hi]; rfl⟩
  · rintro ⟨hi, h0⟩
    obtain ⟨hk, hx⟩ := headWord_kind (n := 0x63) (i := 0) h0 (by decide) (by decide)
    rw [frameValid, hi, hk, hx]; rfl

theorem afterReset_iff (c : LoadCause) : c.afterReset = true ↔ c = .reset := by cases c <;> simp [LoadCause.afterReset]

/-- The capture is this one, and CAPTURE_OCCUPIED latches (R51). -/
def State.captureRestored (s : State) (x : Capture) : State :=
  ({ s with rv := { s.rv with capture := x } } : State).latch (.station .captureOccupied)

theorem loadCapture_restores {s : State} {w : Record} (h : HeaderRestores s w) :
    s.loadCapture w = s.captureRestored (captureOf w) := by
  obtain ⟨hc, hi, h0, hb⟩ := h
  have hx : readCaptureHeader w = some (captureOf w) := by rw [readCaptureHeader, if_pos hb]; rfl
  rw [State.loadCapture, if_pos ⟨(afterReset_iff _).mpr hc, (frameValid_header w).mpr ⟨hi, h0⟩⟩, hx]
  rfl

theorem loadCapture_keeps {s : State} {w : Record} (h : ¬HeaderRestores s w) : s.loadCapture w = s := by
  unfold State.loadCapture
  split
  · rename_i hf
    obtain ⟨hi, h0⟩ := (frameValid_header w).mp hf.2
    have hb : ¬w[1].getLsbD 0 = true := fun hb => h ⟨(afterReset_iff _).mp hf.1, hi, h0, hb⟩
    rw [readCaptureHeader, if_neg hb]
  · rfl

/-- What the header read from slot 20 leaves before the load completes: the capture and its flag alone (R51). -/
structure HeaderRead (s v : State) (c : Verifier) (fs : List Flag) : Prop where
  effects : Effects s v [] fs []
  loader : v.lc = s.lc
  runTable : v.rt = s.rt
  channels : v.channels = s.channels
  verifier : v.rv = c
  uptime : v.uptime = s.uptime

theorem headerRead_restores {s : State} {w : Record} (h : HeaderRestores s w) :
    HeaderRead s ((readDone s).loadCapture w) { s.rv with capture := captureOf w } [.station .captureOccupied] := by
  have hr : HeaderRestores (readDone s) w := h
  rw [loadCapture_restores hr]
  refine ⟨?_, ?_, ?_, ?_, ?_, ?_⟩
  · exact (Effects.same (s := s) (t := { readDone s with rv := { s.rv with capture := captureOf w } }) rfl rfl rfl).thenLatch _
  all_goals simp [State.captureRestored, readDone]

theorem headerRead_keeps {s : State} {w : Record} (h : ¬HeaderRestores s w) :
    HeaderRead s ((readDone s).loadCapture w) s.rv [] := by
  have hr : ¬HeaderRestores (readDone s) w := h
  rw [loadCapture_keeps hr]
  exact ⟨.same rfl rfl rfl, rfl, rfl, rfl, rfl, rfl⟩

/-! ### The entry to FALLBACK -/

theorem settleScan_run (v : State) (r : Run) : v.settleScan.run r = v.scannedRun r := by
  simp [State.run, State.settleScan]

theorem startBaseTimer_none {x : Channel} (h : x.descriptor = none) (now : Nat) : x.startBaseTimer now = x := by
  rw [Channel.startBaseTimer, h]

/-- A configured channel's base-period timer starts (R123). -/
theorem startBaseTimer_some {x : Channel} {d : ChannelDescriptor} (h : x.descriptor = some d) (now : Nat) :
    x.startBaseTimer now = { x with baseTimer := some ⟨d.basePeriod * 1000, now + d.basePeriod * 1000⟩ } := by
  rw [Channel.startBaseTimer, h]

/-- With nothing found in the scan, no run is bound and every tally slot is FREE (R174). -/
theorem settleScan_empty {v : State} (h : v.lc.scan = Scan.empty) :
    (∀ r, v.settleScan.run r = { v.run r with credit := 0 }) ∧ v.settleScan.rt.descriptors = v.rt.descriptors ∧
    ∀ k, v.settleScan.claim k = .free := by
  refine ⟨fun r => ?_, rfl, fun k => ?_⟩
  · have hb : Scan.empty.best[r] = none := by simp [Scan.empty]
    simp only [settleScan_run, State.scannedRun, h, hb]
  · simp [State.claim, State.settleScan, h, claims_empty]

/-- The header has been read, and the load completes into FALLBACK. -/
theorem fallback_over {s v : State} {c : Verifier} {fs : List Flag} (h : HeaderRead s v c fs) (hst : s.lc.station = none)
    (hz : s.lc.scan = Scan.empty) :
    Effects s v.completeLoad [eventNow s .loadDone s.lc.cause.code 0 0,
      eventNow s .fallbackEntered 0 s.lc.fallbackReason s.lc.stationCode.toNat] (fs ++ [.station .fallback]) (loadMarks s) ∧
    v.completeLoad.lc = loaderDone s .fallback (loadedResult s) := by
  have ho := completeLoad_fallback (v := v) (by rw [h.loader]; exact hst)
  have hcount : v.count = s.count := by rw [State.count, h.uptime]; rfl
  have hres : loadedResult v = loadedResult s := by simp only [loadedResult, h.loader, hcount]
  have hdone : loadDoneEvent v = eventNow s .loadDone s.lc.cause.code 0 0 := by
    have hb : Scan.empty.bound = 0 := by decide
    rw [loadDoneEvent, eventNow, hcount, h.loader, hz, hb]; rfl
  have hfall : fallbackEvent v = eventNow s .fallbackEntered 0 s.lc.fallbackReason s.lc.stationCode.toNat := by
    rw [fallbackEvent, eventNow, hcount, h.loader]; rfl
  have hmarks : loadMarks v = loadMarks s := by rw [loadMarks, h.loader]; rfl
  have heff := h.effects.trans ho.effects
  rw [hdone, hfall, hmarks] at heff
  exact ⟨heff, by rw [ho.loader, hres, loaderDone, h.loader]; rfl⟩

/-- Settles O27: the header is read, the load completes, and the Memory Agent and the port go on. -/
theorem fallbackIsEntered : Obligations.FallbackIsEntered := by
  unfold Obligations.FallbackIsEntered
  intro s x w c fs hw h h20 hst hz hcase
  obtain ⟨gs, hfs, hread⟩ : ∃ gs, fs = gs ++ [.station .fallback] ∧ HeaderRead s ((readDone s).loadCapture w) c gs := by
    rcases hcase with ⟨hr, rfl, rfl⟩ | ⟨hr, rfl, rfl⟩
    · exact ⟨[.station .captureOccupied], rfl, headerRead_restores hr⟩
    · exact ⟨[], rfl, headerRead_keeps hr⟩
  have huse : (readDone s).useRecord x.slot w = (readDone s).loadCapture w := by
    simp only [State.useRecord, h20]; rfl
  generalize (readDone s).loadCapture w = v at hread huse
  have hvst : v.lc.station = none := by rw [hread.loader]; exact hst
  have hlast := load_last hw h huse (by rw [hvst]; simp [nextLoadSlot, h20])
  have ho := completeLoad_fallback hvst
  obtain ⟨heff, hlc⟩ := fallback_over hread hst hz
  obtain ⟨hrun, hdesc, hclaim⟩ := settleScan_empty (v := v) (by rw [hread.loader]; exact hz)
  have hs := hlast.settled
  have hrt : v.completeLoad.settle.rt = v.settleScan.rt := hs.rt.trans ho.runTable
  refine ⟨_, hlast.read, hlast.cycle, hlast.item, hlast.port, hs.lc.trans hlc, ?_, ?_, hlast.pending, hlast.freeUsed,
    hlast.memory, fun k => ?_, fun r => ?_, ?_, fun k => ?_, ?_⟩
  · rw [hs.rv, ho.verifier, hread.verifier]
  · rw [hs.uptime, ho.uptime, hread.uptime]
  · have hch : v.completeLoad.settle.chan k = (s.chan k).startBaseTimer s.uptime := by
      simp [State.chan, hs.channels, ho.channels, hread.channels, hread.uptime]
    rw [hch]
    cases hd : (s.chan k).descriptor with
    | none => exact startBaseTimer_none hd _
    | some d => exact startBaseTimer_some hd _
  · have := hrun r
    simpa only [State.run, hrt, hread.runTable] using this
  · rw [hrt, hdesc, hread.runTable]
  · have := hclaim k
    simpa only [State.claim, hrt] using this
  · rw [hfs]; exact hlast.reports _ _ _ heff

end Sys2Proof.Machine
end

section
/-! PROOFS. Load completion into RUNNING (R174, R175): the last tally slot is weighed, and the slot map and the run entries
are set from what the scan found. -/

namespace Sys2Proof.Machine

open Sys2Proof.Safety

/-! ### A record joins the scan (R174) -/

/-- A record joins the scan and no other run's part of it changes. -/
theorem Scan.take_others (z : Scan) {r q : Run} (x : ScanBest) (h : q ≠ r) :
    (z.take r x).best[q] = z.best[q] ∧ (z.take r x).others[q] = z.others[q] := by
  have hv : r.val ≠ q.val := fun e => h (Fin.ext e.symm)
  unfold Scan.take
  split
  · exact ⟨Vector.getElem_set_ne r.isLt q.isLt hv, rfl⟩
  · split
    · exact ⟨Vector.getElem_set_ne r.isLt q.isLt hv, Vector.getElem_set_ne r.isLt q.isLt hv⟩
    · exact ⟨rfl, Vector.getElem_set_ne r.isLt q.isLt hv⟩

theorem Scan.take_valid (z : Scan) (r : Run) (x : ScanBest) : (z.take r x).valid = z.valid + 1 := by
  unfold Scan.take
  split
  · rfl
  · split <;> rfl

theorem Scan.take_first {z : Scan} {r : Run} (h : z.best[r] = none) (x : ScanBest) :
    (z.take r x).best[r] = some x ∧ (z.take r x).others[r] = z.others[r] := by
  simp only [Scan.take, h]
  exact ⟨Vector.getElem_set_self _, trivial⟩

theorem Scan.take_better {z : Scan} {r : Run} {b x : ScanBest} (h : z.best[r] = some b) (hb : b.beatenBy x = true) :
    (z.take r x).best[r] = some x ∧ (z.take r x).others[r] = z.others[r] ++ [b.slot] := by
  simp only [Scan.take, h, hb, if_true]
  exact ⟨Vector.getElem_set_self _, Vector.getElem_set_self _⟩

theorem Scan.take_worse {z : Scan} {r : Run} {b x : ScanBest} (h : z.best[r] = some b) (hb : b.beatenBy x = false) :
    (z.take r x).best[r] = some b ∧ (z.take r x).others[r] = z.others[r] ++ [x.slot] := by
  simp only [Scan.take, h, hb]
  exact ⟨h, Vector.getElem_set_self _⟩

theorem Scan.ext_runs {y z : Scan} (h : ∀ r : Run, y.best[r] = z.best[r] ∧ y.others[r] = z.others[r])
    (hv : y.valid = z.valid) : y = z := by
  obtain ⟨b, o, n⟩ := y
  obtain ⟨b', o', n'⟩ := z
  obtain rfl : b = b' := Vector.ext fun i hi => (h ⟨i, hi⟩).1
  obtain rfl : o = o' := Vector.ext fun i hi => (h ⟨i, hi⟩).2
  obtain rfl : n = n' := hv
  rfl

/-! ### The slots the scan has found -/

/-- The slots in which the scan has found run r's records. -/
def Scan.slotsOf (z : Scan) (r : Run) : List TallySlot := (z.best[r].map fun b => b.slot).toList ++ z.others[r]

theorem scannedSlots_eq (z : Scan) : scannedSlots z = (List.finRange 12).flatMap z.slotsOf := rfl

theorem mem_scannedSlots {z : Scan} {r : Run} {k : TallySlot} (h : k ∈ z.slotsOf r) : k ∈ scannedSlots z :=
  List.mem_flatMap.mpr ⟨r, List.mem_finRange r, h⟩

theorem mem_slotsOf_best {z : Scan} {r : Run} {b : ScanBest} (h : z.best[r] = some b) : b.slot ∈ z.slotsOf r := by
  simp [Scan.slotsOf, h]

/-- A record that joins the scan adds its slot to its run's. -/
theorem Scan.slotsOf_take (z : Scan) (r : Run) (x : ScanBest) : ((z.take r x).slotsOf r).Perm (x.slot :: z.slotsOf r) := by
  unfold Scan.slotsOf
  cases h : z.best[r] with
  | none =>
    obtain ⟨hb, ho⟩ := Scan.take_first h x
    rw [hb, ho]; exact .refl _
  | some b =>
    cases hbeat : b.beatenBy x with
    | true =>
      obtain ⟨hb, ho⟩ := Scan.take_better h hbeat
      rw [hb, ho]
      exact List.Perm.cons _ (List.perm_append_singleton b.slot z.others[r])
    | false =>
      obtain ⟨hb, ho⟩ := Scan.take_worse h hbeat
      rw [hb, ho]
      exact (List.Perm.cons _ (List.perm_append_singleton x.slot z.others[r])).trans (List.Perm.swap _ _ _)

/-- A list made of parts, one of which gains an element. -/
theorem flatMap_perm_cons {α β : Type} {l : List α} {f g : α → List β} {a : α} {b : β} (hl : l.Nodup) (ha : a ∈ l)
    (hf : (f a).Perm (b :: g a)) (he : ∀ x, x ≠ a → f x = g x) : (l.flatMap f).Perm (b :: l.flatMap g) := by
  obtain ⟨l₁, l₂, rfl⟩ := List.append_of_mem ha
  have hnot : a ∉ l₁ ∧ a ∉ l₂ := by
    have := List.nodup_middle.mp hl
    simpa using (List.nodup_cons.mp this).1
  have same (m : List α) (hm : a ∉ m) : m.flatMap f = m.flatMap g :=
    List.flatMap_congr fun x hx => he x fun e => hm (e ▸ hx)
  simp only [List.flatMap_append, List.flatMap_cons, same l₁ hnot.1, same l₂ hnot.2]
  exact ((hf.append_right _).append_left _).trans List.perm_middle

theorem scannedSlots_take (z : Scan) (r : Run) (x : ScanBest) :
    (scannedSlots (z.take r x)).Perm (x.slot :: scannedSlots z) :=
  flatMap_perm_cons (List.nodup_finRange 12) (List.mem_finRange r) (z.slotsOf_take r x) fun q hq => by
    obtain ⟨hb, ho⟩ := z.take_others x hq
    simp only [hb, ho]

/-- The slots found are all different: those of one run, and those of different runs. -/
theorem slotsOf_distinct {z : Scan} (h : (scannedSlots z).Nodup) :
    (∀ r, (z.slotsOf r).Nodup) ∧ ∀ r q k, k ∈ z.slotsOf r → k ∈ z.slotsOf q → r = q := by
  rw [scannedSlots_eq, List.nodup_flatMap] at h
  obtain ⟨hone, hpair⟩ := h
  refine ⟨fun r => hone r (List.mem_finRange r), fun r q k hr hq => ?_⟩
  by_contra hne
  have : Std.Symm (Function.onFun List.Disjoint z.slotsOf) := ⟨fun _ _ h => h.symm⟩
  exact hpair.forall (List.mem_finRange r) (List.mem_finRange q) hne hr hq

/-! ### The last slot is weighed -/

theorem enabled_iff {s : State} {r : Run} : s.enabled r = true ↔ ∃ d, s.runDescriptor r = some d ∧ d.enabled = true := by
  unfold State.enabled
  cases s.runDescriptor r <;> simp

theorem asRun_iff {n : Nat} {r : Run} : asRun n = some r ↔ n = r.val := by
  unfold asRun
  split
  · rw [Option.some.injEq, Fin.ext_iff]
  · rename_i h
    simp only [false_iff, reduceCtorEq]
    intro e; exact h (e ▸ r.isLt)

/-- A record valid for the scan joins it (R174). -/
theorem scanTally_valid {s : State} {k : TallySlot} {w : Record} {r : Run} (h : ScanValid s r w) :
    s.scanTally k w = { s with lc := { s.lc with scan := s.lc.scan.take r (scanRecord k (readTally w)) } } := by
  obtain ⟨hi, hk, hx, hd⟩ := h
  have hr : asRun (recordIndex w) = some r := asRun_iff.mpr hx
  rw [State.scanTally, hr]
  exact if_pos ⟨hi, hk, enabled_iff.mpr hd⟩

/-- Any other record leaves the scan as it was (R174). -/
theorem scanTally_other {s : State} {k : TallySlot} {w : Record} (h : ∀ r, ¬ScanValid s r w) : s.scanTally k w = s := by
  unfold State.scanTally
  split
  · rfl
  · rename_i r hr
    refine if_neg fun ⟨hi, hk, he⟩ => h r ⟨hi, hk, asRun_iff.mp hr, enabled_iff.mp he⟩

/-- Slots ascend, so that the scan's order is that of R174 but for the slots. -/
theorem replaces_iff {b : ScanBest} {k : TallySlot} {w : Record} (h : b.slot.val < k.val) :
    Replaces b k w ↔ b.beatenBy (scanRecord k (readTally w)) = true := by
  have hk : ¬k.val < b.slot.val := Nat.not_lt.mpr h.le
  rw [ScanBest.beatenBy, Bool.or_eq_true, Bool.and_eq_true, decide_eq_true_eq, decide_eq_true_eq, decide_eq_true_eq]
  simp [Replaces, scanRecord, readTally, hk]

/-- The scan with slot k weighed is the one R174 describes, the slots found so far lying before k. -/
theorem weighed_scan {s : State} {k : TallySlot} {w : Record} {z : Scan} {r : Run} (hz : Weighed s k w z)
    (hr : ScanValid s r w) (hbehind : ∀ j ∈ scannedSlots s.lc.scan, j.val < k.val) :
    z = s.lc.scan.take r (scanRecord k (readTally w)) := by
  refine Scan.ext_runs (fun q => ?_) ?_
  · by_cases hq : q = r
    · subst hq
      cases hb : s.lc.scan.best[q] with
      | none =>
        obtain ⟨h1, h2⟩ := hz.first q hr hb
        obtain ⟨h3, h4⟩ := Scan.take_first hb (scanRecord k (readTally w))
        exact ⟨h1.trans h3.symm, h2.trans h4.symm⟩
      | some b =>
        have hrep := replaces_iff (w := w) (hbehind b.slot (mem_scannedSlots (mem_slotsOf_best hb)))
        cases hbeat : b.beatenBy (scanRecord k (readTally w)) with
        | true =>
          obtain ⟨h1, h2⟩ := hz.better q b hr hb (hrep.mpr hbeat)
          obtain ⟨h3, h4⟩ := Scan.take_better hb hbeat
          exact ⟨h1.trans h3.symm, h2.trans h4.symm⟩
        | false =>
          obtain ⟨h1, h2⟩ := hz.worse q b hr hb fun h => by rw [hrep.mp h] at hbeat; cases hbeat
          obtain ⟨h3, h4⟩ := Scan.take_worse hb hbeat
          exact ⟨h1.trans h3.symm, h2.trans h4.symm⟩
    · obtain ⟨h1, h2⟩ := hz.others r q hr hq
      obtain ⟨h3, h4⟩ := s.lc.scan.take_others (scanRecord k (readTally w)) hq
      exact ⟨h1.trans h3.symm, h2.trans h4.symm⟩
  · rw [hz.counted r hr, Scan.take_valid]

/-- The state once the tally slot has been weighed, and its slots, which stay different from one another. -/
theorem scanTally_weighed {s : State} {k : TallySlot} {w : Record} {z : Scan} (hz : Weighed s k w z)
    (hbehind : ∀ j ∈ scannedSlots s.lc.scan, j.val < k.val) (hd : (scannedSlots s.lc.scan).Nodup) :
    s.scanTally k w = { s with lc := { s.lc with scan := z } } ∧ (scannedSlots z).Nodup := by
  by_cases h : ∃ r, ScanValid s r w
  · obtain ⟨r, hr⟩ := h
    obtain rfl := weighed_scan hz hr hbehind
    refine ⟨scanTally_valid hr, (scannedSlots_take _ r _).nodup_iff.mpr (List.nodup_cons.mpr ⟨fun hm => ?_, hd⟩)⟩
    exact absurd (hbehind _ hm) (Nat.lt_irrefl _)
  · have h : ∀ r, ¬ScanValid s r w := fun r hr => h ⟨r, hr⟩
    obtain rfl := hz.absent h
    exact ⟨scanTally_other h, hd⟩

/-! ### The slot map (R174) -/

/-- What run r makes of tally slot k: its best slot, one of its list, or nothing. -/
def Scan.claimOf (z : Scan) (n : Nat) (r : Run) (k : TallySlot) : Option Claim :=
  if z.best[r].map (fun b => b.slot) = some k then some (.current r)
  else if k ∈ z.others[r] then some (.history r n) else none

theorem foldl_set_get (l : List TallySlot) (y : Claim) (m : Vector Claim 384) (k : TallySlot) :
    (l.foldl (fun m (t : TallySlot) => m.set t.val y) m)[k] = if k ∈ l then y else m[k] := by
  induction l generalizing m with
  | nil => simp
  | cons t l ih =>
    rw [List.foldl_cons, ih]
    by_cases hl : k ∈ l
    · simp [hl]
    · by_cases ht : k = t
      · subst ht; simp
      · have hv : t.val ≠ k.val := fun e => ht (Fin.ext e.symm)
        simp [hl, ht, hv]

theorem claimRun_get (z : Scan) (n : Nat) (m : Vector Claim 384) (r : Run) (k : TallySlot) :
    (z.claimRun n m r)[k] = (z.claimOf n r k).getD m[k] := by
  have hl := foldl_set_get z.others[r] (.history r n) m k
  have hget : (if k ∈ z.others[r] then Claim.history r n else m[k]) =
      (if k ∈ z.others[r] then some (Claim.history r n) else none).getD m[k] := by split <;> rfl
  unfold Scan.claimRun Scan.claimOf
  cases hb : z.best[r] with
  | none =>
    have hn : ¬Option.map (fun b : ScanBest => b.slot) none = some k := nofun
    rw [if_neg hn]
    exact hl.trans hget
  | some b =>
    by_cases hk : b.slot = k
    · subst hk
      rw [Option.map_some, if_pos rfl]
      exact Vector.getElem_set_self b.slot.isLt
    · have hv : b.slot.val ≠ k.val := fun e => hk (Fin.ext e)
      rw [Option.map_some, if_neg fun e => hk (Option.some.inj e)]
      exact (Vector.getElem_set_ne b.slot.isLt k.isLt hv).trans (hl.trans hget)

/-- A slot that no run claims stays as it was. -/
theorem claims_none {z : Scan} {n : Nat} {k : TallySlot} (l : List Run) (h : ∀ r ∈ l, z.claimOf n r k = none)
    (m : Vector Claim 384) : (l.foldl (z.claimRun n) m)[k] = m[k] := by
  induction l generalizing m with
  | nil => rfl
  | cons r l ih =>
    rw [List.foldl_cons, ih fun q hq => h q (List.mem_cons_of_mem r hq), claimRun_get, h r List.mem_cons_self]
    rfl

/-- A slot that one run alone claims becomes what that run makes of it. -/
theorem claims_some {z : Scan} {n : Nat} {k : TallySlot} {r : Run} {y : Claim} (hy : z.claimOf n r k = some y)
    (ho : ∀ q, q ≠ r → z.claimOf n q k = none) (l : List Run) (hr : r ∈ l) (m : Vector Claim 384) :
    (l.foldl (z.claimRun n) m)[k] = y := by
  induction l generalizing m with
  | nil => cases hr
  | cons q l ih =>
    rw [List.foldl_cons]
    by_cases hl : r ∈ l
    · exact ih hl _
    · obtain rfl : r = q := (List.mem_cons.mp hr).resolve_right hl
      rw [claims_none l (fun p hp => ho p fun e => hl (e ▸ hp)), claimRun_get, hy]
      rfl

theorem claimOf_none_of_not_mem {z : Scan} {n : Nat} {r : Run} {k : TallySlot} (h : k ∉ z.slotsOf r) :
    z.claimOf n r k = none := by
  simp only [Scan.slotsOf, List.mem_append, Option.mem_toList, not_or] at h
  rw [Scan.claimOf, if_neg h.1, if_neg h.2]

theorem mem_slotsOf_of_claimOf {z : Scan} {n : Nat} {r : Run} {k : TallySlot} {y : Claim} (h : z.claimOf n r k = some y) :
    k ∈ z.slotsOf r := by
  by_contra hk
  rw [claimOf_none_of_not_mem hk] at h; cases h

/-- The slots being different, a slot is what the one run that claims it makes of it, and FREE where none does. -/
theorem claims_iff {z : Scan} (hd : (scannedSlots z).Nodup) (n : Nat) (k : TallySlot) (y : Claim) (hy : y ≠ .free) :
    (z.claims n)[k] = y ↔ ∃ r, z.claimOf n r k = some y := by
  obtain ⟨_, hone⟩ := slotsOf_distinct hd
  have value {r : Run} {x : Claim} (h : z.claimOf n r k = some x) : (z.claims n)[k] = x :=
    claims_some h (fun q hq => claimOf_none_of_not_mem fun hm =>
      hq (hone q r k hm (mem_slotsOf_of_claimOf h))) _ (List.mem_finRange r) _
  constructor
  · intro h
    by_cases hr : ∃ r x, z.claimOf n r k = some x
    · obtain ⟨r, x, hx⟩ := hr
      exact ⟨r, by rw [hx, ← value hx, h]⟩
    · have hnone : (z.claims n)[k] = .free := by
        refine (claims_none _ (fun r _ => ?_) _).trans (Vector.getElem_replicate k.isLt)
        cases hx : z.claimOf n r k with
        | none => rfl
        | some x => exact absurd ⟨r, x, hx⟩ hr
      exact absurd (h.symm.trans hnone) hy
  · rintro ⟨r, hr⟩; exact value hr

theorem claims_current {z : Scan} (hd : (scannedSlots z).Nodup) (n : Nat) (k : TallySlot) (r : Run) :
    (z.claims n)[k] = .current r ↔ ∃ b, z.best[r] = some b ∧ b.slot = k := by
  rw [claims_iff hd n k _ (by simp), ← Option.map_eq_some_iff]
  unfold Scan.claimOf
  constructor
  · rintro ⟨q, hq⟩
    split_ifs at hq with hb ho
    · cases hq; exact hb
    · cases hq
  · exact fun hb => ⟨r, if_pos hb⟩

theorem claims_history {z : Scan} (hd : (scannedSlots z).Nodup) (n : Nat) (k : TallySlot) (r : Run) (y : Nat) :
    (z.claims n)[k] = .history r y ↔ k ∈ z.others[r] ∧ y = n := by
  rw [claims_iff hd n k _ (by simp)]
  constructor
  · rintro ⟨q, hq⟩
    unfold Scan.claimOf at hq
    split_ifs at hq with hb ho
    · cases hq
    · cases hq; exact ⟨ho, rfl⟩
  · rintro ⟨hk, rfl⟩
    refine ⟨r, ?_⟩
    have hb : ¬z.best[r].map (fun b => b.slot) = some k := fun hb =>
      (List.nodup_append.mp ((slotsOf_distinct hd).1 r)).2.2 k (Option.mem_toList.mpr hb) k hk rfl
    rw [Scan.claimOf, if_neg hb, if_pos hk]

/-! ### The entry to RUNNING -/

/-- The state once the scan has become z with the last read. -/
def scanned (s : State) (z : Scan) : State := { readDone s with lc := { s.lc with scan := z } }

/-- A run with no record found keeps its condition, C being 0 (R174, R175). -/
theorem scanned_run_none {s : State} {z : Scan} {r : Run} (h : z.best[r] = none) :
    (scanned s z).settleScan.run r = { s.run r with credit := 0 } := by
  have hb : (scanned s z).lc.scan.best[r] = none := h
  rw [settleScan_run, State.scannedRun, hb]
  rfl

theorem startFreshness_eq (d : Option RunDescriptor) (now : Nat) :
    startFreshness d now = d.map fun q => ⟨now, q.staleness * 1000, q.horizon * 1000⟩ := by cases d <;> rfl

/-- A run with a best record is bound to its slot (R174). -/
theorem scanned_run_some {s : State} {z : Scan} {r : Run} {b : ScanBest} (h : z.best[r] = some b) :
    (scanned s z).settleScan.run r = { s.run r with
      condition := .live, awaitingBaseline := true, held := false, currentSlot := some b.slot
      shadowSequence := b.sequence, shadowTotal := b.total, shadowRate := b.rate, shadowTime := s.count
      ageStart := some s.uptime, estimated := 0, historyCount := (z.others[r]).length
      freshness := (s.runDescriptor r).map fun q => ⟨s.uptime, q.staleness * 1000, q.horizon * 1000⟩
      substitution := none } := by
  have hb : (scanned s z).lc.scan.best[r] = some b := h
  rw [← startFreshness_eq, settleScan_run, State.scannedRun, hb]
  rfl

/-- The runs the scan binds, counted run by run. -/
theorem bound_eq (z : Scan) : z.bound = ((List.finRange 12).filter fun r : Run => z.best[r].isSome).length := by
  have hl : z.best.toList = (List.finRange 12).map fun r : Run => z.best[r] := by
    refine List.ext_getElem (by simp) fun i _ _ => ?_
    simp
  rw [Scan.bound, hl, List.filter_map, List.length_map]
  rfl

/-- A tally slot's record is weighed (R169, R174). -/
theorem useRecord_tally (s : State) {slot : Slot} {k : TallySlot} (h : slot.val = 128 + k.val) (w : Record) :
    s.useRecord slot w = s.scanTally k w := by
  have h1 : asChannelSlot slot = none := dif_neg (by omega)
  have h2 : asRunSlot slot = none := dif_neg (by omega)
  have h3 : asChannelReport slot = none := dif_neg (by omega)
  have h4 : asRunReport slot = none := dif_neg (by omega)
  have h5 : asTally slot = some k := by
    rw [asTally, dif_pos (by omega)]
    exact congrArg some (Fin.ext (by dsimp only; omega))
  rw [State.useRecord, if_neg (by omega), if_neg (by omega), if_neg (by omega), h1, h2, h3, h4, h5]

/-- In the order of a load, the last slot's record is weighed: the slots found before it lie before it (R169, R174). -/
theorem lastSlot_weighed {s : State} {x : Item} {w : Record} {z : Scan} (hl : LoadWf s) (h : LastRead s x w)
    (hx : x.slot.val = 511) (hz : Weighed s 383 w z) :
    (readDone s).useRecord x.slot w = scanned s z ∧ (scannedSlots z).Nodup := by
  obtain ⟨⟨hk, _, hma, _⟩, _⟩ := h
  have hslot : s.lc.loadSlot = some x.slot := (hl.reading x hma hk).2
  have hbehind : ∀ j ∈ scannedSlots s.lc.scan, j.val < (383 : TallySlot).val := fun j hj => by
    have := hl.behind x.slot hslot j hj
    show j.val < 383
    omega
  have hz' : Weighed (readDone s) 383 w z := ⟨hz.absent, hz.counted, hz.others, hz.first, hz.better, hz.worse⟩
  rw [useRecord_tally (k := 383) _ hx]
  exact scanTally_weighed hz' hbehind hl.distinct

/-- Settles O26: the last slot is weighed, the load completes, and the Memory Agent and the port go on. -/
theorem loadsComplete : Obligations.LoadsComplete := by
  unfold Obligations.LoadsComplete
  intro s x w d z hw hl h hx hst hz
  obtain ⟨huse, hd⟩ := lastSlot_weighed hl h hx hz
  have hvst : (scanned s z).lc.station = some d := hst
  have hlast := load_last hw h huse (by rw [hvst]; simp [nextLoadSlot, hx])
  have ho := completeLoad_running hvst
  have hs := hlast.settled
  have hrt : (scanned s z).completeLoad.settle.rt = (scanned s z).settleScan.rt := hs.rt.trans ho.runTable
  have hrun (r : Run) : (scanned s z).completeLoad.settle.run r = (scanned s z).settleScan.run r := by
    rw [State.run, hrt]; rfl
  have hclaim (k : TallySlot) : (scanned s z).completeLoad.settle.claim k =
      (z.claims (s.uptime + d.historyHold * 60000))[k] := by
    have hhold : (scanned s z).historyHold = d.historyHold * 60000 := by rw [State.historyHold, hvst]
    rw [State.claim, hrt, ← hhold]; rfl
  have hdone : loadDoneEvent (scanned s z) = eventNow s .loadDone s.lc.cause.code
      ((List.finRange 12).filter fun r : Run => z.best[r].isSome).length z.valid := by rw [← bound_eq]; rfl
  have heff : Effects s (scanned s z).completeLoad [loadDoneEvent (scanned s z)] [] (loadMarks s) :=
    (Effects.same (s := s) (t := scanned s z) rfl rfl rfl).trans ho.effects
  refine ⟨_, hlast.read, hlast.cycle, hlast.item, hlast.port, hs.lc.trans ho.loader, hs.channels.trans ho.channels,
    hs.rv.trans ho.verifier, hs.uptime.trans ho.uptime, hlast.pending, hlast.freeUsed, hlast.memory,
    by rw [hrt]; rfl, fun r b hb => (hrun r).trans (scanned_run_some hb),
    fun r hb => (hrun r).trans (scanned_run_none hb), fun k r => ?_, fun k r y => ?_, ?_⟩
  · rw [hclaim]; exact claims_current hd _ k r
  · rw [hclaim]; exact claims_history hd _ k r y
  · rw [← hdone]; exact hlast.reports _ _ _ heff

end Sys2Proof.Machine
end

section
/-! PROOFS. The pool and the event queue stay within their bounds (R33, R164): one lemma for each kind of update that is
not the blocks' own, and every step keeps both. -/

namespace Sys2Proof.Machine

open Sys2Proof.Safety

/-- The pool's bounds are read off the Record Verifier alone. -/
theorem poolWf_congr {s t : State} (h : t.rv = s.rv) : PoolWf t ↔ PoolWf s := by rw [PoolWf, PoolWf, h]

/-- The event queue's bound is read off the queue alone. -/
theorem queueWf_congr {s t : State} (h : t.ru.events = s.ru.events) : QueueWf t ↔ QueueWf s := by
  rw [QueueWf, QueueWf, h]

/-- The end of a memory cycle concerns the port and memory alone (R23). -/
theorem runCycle_blocks (s : State) (m : MemCycle) : (s.runCycle m).rv = s.rv ∧ (s.runCycle m).ru = s.ru := by
  rw [runCycle_mem]; exact ⟨rfl, rfl⟩

/-- After the release of reset the pool is empty (R168). -/
theorem poolWf_afterRelease (s : State) (gb : BitVec 4) (sc : BitVec 6) : PoolWf (s.afterRelease gb sc) :=
  ⟨Nat.zero_le _, List.nodup_nil⟩

/-- After the release of reset no event is queued (R166, R168). -/
theorem queueWf_afterRelease (s : State) (gb : BitVec 4) (sc : BitVec 6) : QueueWf (s.afterRelease gb sc) :=
  Nat.zero_le _

/-- At most eight pool entries, and one assembly a slot, through every step (R33). -/
theorem step_poolWf {s t : State} (h : step s = .next t) (hs : PoolWf s) : PoolWf t := by
  refine step_keeps (P := PoolWf) ?settled ?outer ?port ?cycle ?assert ?release ?own h hs
  case settled => exact fun _ _ h => (poolWf_congr h.rv).mpr
  case outer => exact fun _ _ _ h => h.poolWf
  case port => exact fun _ _ h => h
  case cycle => exact fun s m => (poolWf_congr (runCycle_blocks s m).1).mpr
  case assert => exact fun _ h => h
  case release => exact fun s gb sc _ => poolWf_afterRelease s gb sc
  case own => exact fun _ _ _ _ h => h

/-- At most sixteen queued events through every step (R164). -/
theorem step_queueWf {s t : State} (h : step s = .next t) (hs : QueueWf s) : QueueWf t := by
  refine step_keeps (P := QueueWf) ?settled ?outer ?port ?cycle ?assert ?release ?own h hs
  case settled => exact fun _ _ h => (queueWf_congr h.events).mpr
  case outer => exact fun _ _ _ h => h.queueWf
  case port => exact fun _ _ h => h
  case cycle => exact fun s m => (queueWf_congr (congrArg _ (runCycle_blocks s m).2)).mpr
  case assert => exact fun _ h => h
  case release => exact fun s gb sc _ => queueWf_afterRelease s gb sc
  case own => exact fun _ _ _ _ h => h

/-- Settles O7: each kind of update a step can make keeps both bounds. -/
theorem queuesStayBounded : Obligations.QueuesStayBounded := by
  unfold Obligations.QueuesStayBounded
  exact fun s t hs => ⟨step_poolWf hs, step_queueWf hs⟩

end Sys2Proof.Machine
end

section
/-! PROOFS. The status record and the capture header read at a load (R51, R173). -/

namespace Sys2Proof.Machine

open Sys2Proof.Safety

/-- An intact record with the head of its slot has the frame its slot requires (R169). -/
theorem frameValid_of_head {k : Slot} {w : Record} (hi : intact w = true) (hk : expectedKind k < 256)
    (hx : expectedIndex k < 256) (h0 : w[0] = headWord (expectedKind k) (expectedIndex k)) : frameValid k w = true := by
  obtain ⟨h1, h2⟩ := headWord_kind h0 hk hx
  rw [frameValid, hi, h1, h2, decide_eq_true rfl, decide_eq_true rfl]; rfl

/-- The ring next position is this one. -/
def State.withRingNext (s : State) (p : Fin 64) : State := { s with ru := { s.ru with ringNext := p } }

/-- A valid status record gives the ring next position (R173). -/
theorem loadStatus_valid {s : State} {w : Record} (hi : intact w = true) (h0 : w[0] = 0x6200) (h9 : w[9].toNat < 64) :
    s.loadStatus w = s.withRingNext ⟨w[9].toNat, h9⟩ := by
  have hf : frameValid 19 w = true := frameValid_of_head hi (by decide) (by decide) h0
  rw [State.loadStatus, if_pos hf, readRingNext, dif_pos h9]
  rfl

theorem useRecord_status (s : State) (w : Record) : s.useRecord 19 w = s.loadStatus w := by
  rw [State.useRecord, if_neg (by decide), if_pos (by decide)]

theorem useRecord_capture (s : State) (w : Record) : s.useRecord 20 w = s.loadCapture w := by
  rw [State.useRecord, if_neg (by decide), if_neg (by decide), if_pos (by decide)]

/-- Settles O48: a valid status record, an occupied header at a load after reset, and a header at a reload. -/
theorem loadedStatusAndCaptureRestore : Obligations.LoadedStatusAndCaptureRestore := by
  unfold Obligations.LoadedStatusAndCaptureRestore
  refine fun s x w k hw h hn => ⟨fun hx hi h0 h9 => ?_, fun hx hh => ?_, fun hx hc => ?_⟩
  · have hv : (readDone s).withRingNext ⟨w[9].toNat, h9⟩ = (readDone s).useRecord x.slot w := by
      rw [hx, useRecord_status, loadStatus_valid hi h0 h9]
    obtain ⟨t, he, hm, hreq, hlc, hrt, hch, hrv, hru, _⟩ := load_next hw h hv h.2.1 rfl (next_of_after hn)
    refine ⟨t, he, hm, hreq, hlc, ?_, ?_, hrt, hch, hrv⟩
    · rw [hru]; rfl
    · rw [hru]; rfl
  · have hr := headerRead_restores hh
    have hv : (readDone s).loadCapture w = (readDone s).useRecord x.slot w := by rw [hx, useRecord_capture]
    generalize (readDone s).loadCapture w = v at hr hv
    obtain ⟨t, he, hm, hreq, hlc, hrt, hch, hrv, _, hrep⟩ :=
      load_next hw h hv (by rw [hr.loader]; exact h.2.1) hr.uptime (by rw [hr.loader]; exact next_of_after hn)
    exact ⟨t, he, hm, hreq, hr.loader ▸ hlc, hrv.trans hr.verifier, hrt.trans hr.runTable, hch.trans hr.channels,
      hrep _ _ _ hr.effects⟩
  · have hh : ¬HeaderRestores (readDone s) w := fun hh => hc hh.1
    have hv : readDone s = (readDone s).useRecord x.slot w := by rw [hx, useRecord_capture, loadCapture_keeps hh]
    obtain ⟨t, he, hm, hreq, hlc, hrt, hch, hrv, hru, _⟩ := load_next hw h hv h.2.1 rfl (next_of_after hn)
    exact ⟨t, he, hm, hreq, hlc, hrv, hrt, hch, hru⟩

end Sys2Proof.Machine
end

section
/-! PROOFS. The Record Verifier's shared operations: from what an operation does to the Record Verifier to the state after
the command, and the steps that both kinds of refusal take (R38, R46). -/

namespace Sys2Proof.Machine

open Sys2Proof.Safety

namespace VerifierOp
variable {s t : State} {v : Verifier} {x : RunTable} {es : List EventRecord} {fs : List Flag} {ks : List PartSlot}

theorem count (h : VerifierOp s t v x es fs ks) : t.count = s.count := by rw [State.count, h.uptime]; rfl

theorem guardCode (h : VerifierOp s t v x es fs ks) : t.guardCode = s.guardCode := by
  unfold State.guardCode; rw [h.lc]

theorem run (h : VerifierOp s t v x es fs ks) (r : Run) : t.run r = x.runs[r] := by rw [State.run, h.rt]

/-- The slot's ASSEMBLING entry is discarded (R38). -/
theorem discard (h : VerifierOp s t v x es fs ks) (k : Slot) :
    VerifierOp s (t.discardAssembly k) { v with assembling := v.assembling.filter fun e => decide (e.slot ≠ k) } x es fs
      ks where
  inner := .discardAssembly k h.inner
  uptime := h.uptime
  lc := h.lc
  rv := by rw [← h.rv]; rfl
  rt := h.rt
  channels := h.channels
  eff := h.eff.thenSame rfl rfl rfl

/-- After the Memory Agent and the port have gone on. -/
theorem settle (h : VerifierOp s t v x es fs ks) :
    Outside s t.settle ∧ t.settle.uptime = s.uptime ∧ t.settle.lc = s.lc ∧ t.settle.rt = x ∧
      t.settle.channels = s.channels ∧ t.settle.rv = v ∧ Reports s t.settle es fs ks := by
  have hs := Settled.settle t
  obtain ⟨_, _, _, _, hma, _⟩ := h.inner.port
  exact ⟨h.inner.outside, hs.uptime.trans h.uptime, hs.lc.trans h.lc, hs.rt.trans h.rt, hs.channels.trans h.channels,
    hs.rv.trans h.rv, h.eff.settle (.inl hma)⟩

/-- At a timer's deadline, after the command. -/
theorem timer {n : Nat} (h : VerifierOp (s.elapseTo n) t v x es fs ks) (hw : Awake s) :
    answer s (s.awake (some t)) = .next t.settle ∧ Elapsed s t.settle n ∧ t.settle.rt = x ∧
      t.settle.channels = s.channels ∧ t.settle.rv = v ∧ Reports (s.elapseTo n) t.settle es fs ks := by
  obtain ⟨_, hup, hlc, hrt, hch, hrv, hrep⟩ := h.settle
  have hi : Inner s t := (Inner.elapseTo n (.refl s)).trans h.inner
  exact ⟨by rw [awake_eq hw]; rfl, ⟨hi.outside, hup, hlc⟩, hrt, hch, hrv, hrep⟩

end VerifierOp

/-- The capture with one more refusal counted, where it is occupied (R46). -/
def captureCounted (s : State) : Capture := { s.rv.capture with since := sinceAfter s }

/-- The capture header is marked where the count since capture changes (R162). -/
def sinceMarks (s : State) : List PartSlot := if sinceAfter s = s.rv.capture.since then [] else [.captureHeader]

theorem sinceMarks_eq (s : State) : sinceMarks s =
    if s.rv.capture.occupied = true ∧ s.rv.capture.since < 65535 then [.captureHeader] else [] := by
  unfold sinceMarks sinceAfter
  by_cases h : s.rv.capture.occupied = true ∧ s.rv.capture.since < 65535
  · rw [if_pos h, if_pos h, if_neg (Nat.succ_ne_self _)]
  · rw [if_neg h, if_neg h, if_pos rfl]

/-- With no capture occupied the count since capture stays (R46). -/
theorem sinceMarks_unoccupied {s : State} (h : s.rv.capture.occupied = false) : sinceMarks s = [] := by
  rw [sinceMarks_eq, h]; rfl

/-- One refusal counted, the Record Verifier being as it was (R46, R162). -/
theorem countRefusal_first {s t : State} {es : List EventRecord} {fs : List Flag} {ks : List PartSlot}
    (h : VerifierOp s t s.rv s.rt es fs ks) :
    VerifierOp s t.countRefusal { s.rv with refusals := satAdd 65535 s.rv.refusals 1, capture := captureCounted s } s.rt
      es fs (ks ++ .status :: sinceMarks s) := by
  rw [sinceMarks_eq]; exact countRefusal_law h

end Sys2Proof.Machine
end

section
/-! PROOFS. Word-level refusals (R12, R21, R34, R46 to R48, R162): which write is refused, and what the refusal does. -/

namespace Sys2Proof.Machine

open Sys2Proof.Safety

/-! ### The refusal -/

/-- The event of a word-level refusal, where it differs from the last one or a word has been taken since (R48). -/
def wordRefusedEvents (s : State) (code : Nat) (slot : Slot) (p : Pos) : List EventRecord :=
  if s.rv.lastRefusal = some ⟨code, slot⟩ ∧ s.rv.takenSince = false then []
  else [eventNow s .wordRefused slot.val code p.val]

/-- The Record Verifier after a word-level refusal (R46, R48). -/
def wordRefusedVerifier (s : State) (code : Nat) (slot : Slot) : Verifier :=
  { s.rv with
    refusals := satAdd 65535 s.rv.refusals 1
    capture := captureCounted s
    lastRefusal := some ⟨code, slot⟩
    takenSince := false }

/-- A refusal is not new where it is the last one's and no word has been taken since (R48). -/
theorem newRefusal_eq_false_iff (v : Verifier) (code : Nat) (slot : Slot) :
    v.newRefusal code slot = false ↔ v.lastRefusal = some ⟨code, slot⟩ ∧ v.takenSince = false := by
  unfold Verifier.newRefusal
  cases v.lastRefusal with
  | none => simp
  | some x => cases x; simp [and_assoc]

/-- A word-level refusal's flag, counts, event and memory (R47). -/
theorem refuseWord_law (s : State) (code : Nat) (slot : Slot) (p : Pos) :
    VerifierOp s (s.refuseWord code slot p) (wordRefusedVerifier s code slot) s.rt (wordRefusedEvents s code slot p)
      [.station (wordRefusalFlag code)] (.status :: sinceMarks s) := by
  have hc := countRefusal_first ((VerifierOp.refl s).latch (.station (wordRefusalFlag code)))
  have remember {t : State} {es : List EventRecord} {fs : List Flag} {ks : List PartSlot}
      (h : VerifierOp s t { s.rv with refusals := satAdd 65535 s.rv.refusals 1, capture := captureCounted s } s.rt es fs
        ks) : VerifierOp s (t.rememberRefusal code slot) (wordRefusedVerifier s code slot) s.rt es fs ks := by
    have e : t.rememberRefusal code slot = { t with rv := wordRefusedVerifier s code slot } := by
      rw [State.rememberRefusal, h.rv]; rfl
    rw [e]; exact h.setRv _ rfl rfl
  unfold State.refuseWord wordRefusedEvents
  cases hn : s.rv.newRefusal code slot with
  | true =>
    have h : ¬(s.rv.lastRefusal = some ⟨code, slot⟩ ∧ s.rv.takenSince = false) := by
      rw [← newRefusal_eq_false_iff, hn]; decide
    rw [if_neg h]
    exact remember (hc.raise .wordRefused slot.val code p.val)
  | false =>
    rw [if_pos ((newRefusal_eq_false_iff _ _ _).mp hn)]
    exact remember hc

/-- A refusal at the port; PARTIAL_WORD discards the slot's assembly (R21, R38). -/
theorem refuseAtPort_law (s : State) (code : Nat) (slot : Slot) (p : Pos) :
    VerifierOp s (s.refuseAtPort code slot p)
      { wordRefusedVerifier s code slot with
        assembling := if code = 21 then s.rv.assembling.filter fun e => decide (e.slot ≠ slot) else s.rv.assembling }
      s.rt (wordRefusedEvents s code slot p) [.station (wordRefusalFlag code)] (.status :: sinceMarks s) := by
  unfold State.refuseAtPort
  split
  · exact (refuseWord_law s code slot p).discard slot
  · exact refuseWord_law s code slot p

/-! ### Which write is refused -/

/-- A two-lane write to a controller slot is handed to the Record Verifier (R12, R22). -/
theorem beginCycle_handed (s : State) {slot : Slot} (hc : slotClass slot = .controller) (p : Pos) (v : Word) :
    s.beginCycle (slotAddr s.lc.baseSelect slot p) (.write v .both) = s.handWord slot p v := by
  have ht : classifyWrite slot p v .both = .take slot p v := by simp only [classifyWrite, hc]
  rw [State.beginCycle, classify_inside (decompose_slotAddr _ slot p), ht]

/-- A write that the port refuses (R12). -/
theorem beginCycle_refusedAtPort (s : State) {slot : Slot} {p : Pos} {v : Word} {lanes : Lanes} {code : Nat}
    (h : classifyWrite slot p v lanes = .refuse code slot p) :
    s.beginCycle (slotAddr s.lc.baseSelect slot p) (.write v lanes) = s.refuseAtPort code slot p := by
  rw [State.beginCycle, classify_inside (decompose_slotAddr _ slot p), h]

/-- A device state that takes the word (R34). -/
theorem gateCode_zero {d : DeviceState} {slot : Slot}
    (h : d = .running ∨ d = .fallback ∧ (slot = 0 ∨ slot = 17)) : gateCode d slot = 0 := by
  rcases h with rfl | ⟨rfl, rfl | rfl⟩ <;> rfl

/-- A two-lane write that the Record Verifier refuses, the device state refusing it or no entry being FREE (R34, R35). -/
theorem handWord_refused {s : State} {slot : Slot} {code : Nat} (p : Pos) (v : Word)
    (h : (code = 22 ∧ (s.lc.device = .running ∨ s.lc.device = .fallback ∧ (slot = 0 ∨ slot = 17)) ∧
        s.rv.entry slot = none ∧ 8 ≤ s.rv.inUse) ∨
      (code = 23 ∧ (s.lc.device = .loading ∨ s.lc.device = .draining)) ∨
      (code = 24 ∧ s.lc.device = .fallback ∧ slot ≠ 0 ∧ slot ≠ 17)) :
    s.handWord slot p v = s.refuseAtPort code slot p := by
  have gated (hg : gateCode s.lc.device slot = code) (h0 : code ≠ 0) : s.handWord slot p v = s.refuseWord code slot p := by
    rw [State.handWord, hg, if_neg h0]
  rcases h with ⟨rfl, hd, he, hu⟩ | ⟨rfl, hd⟩ | ⟨rfl, hd, h0, h17⟩
  · rw [State.handWord, if_pos (gateCode_zero hd), State.placeWord, he]
    exact if_neg (Nat.not_lt.mpr hu)
  · exact gated (by rcases hd with hd | hd <;> rw [hd] <;> rfl) (by decide)
  · refine gated ?_ (by decide)
    rw [hd]
    exact if_neg fun h => h.elim (fun h => h0 (Fin.ext h)) fun h => h17 (Fin.ext h)

/-- Every write that is refused word by word is refused as at the port (R12, R34, R35). -/
theorem beginCycle_refused {s : State} {slot : Slot} {lanes : Lanes} {code : Nat} (p : Pos) (v : Word)
    (h : WordRefused s slot lanes code) :
    s.beginCycle (slotAddr s.lc.baseSelect slot p) (.write v lanes) = s.refuseAtPort code slot p := by
  rcases h with ⟨rfl, hk⟩ | ⟨rfl, hk, hl⟩ | ⟨hk, rfl, h⟩
  · refine beginCycle_refusedAtPort s ?_
    simp only [classifyWrite, slotClass_part hk]
  · refine beginCycle_refusedAtPort s ?_
    cases lanes with
    | both => exact absurd rfl hl
    | upper => simp only [classifyWrite, slotClass_controller hk]
    | lower => simp only [classifyWrite, slotClass_controller hk]
  · rw [beginCycle_handed s (slotClass_controller hk)]
    exact handWord_refused p v h

/-- The flag of each word-level code (R47). -/
theorem wordRefusalFlag_of_mem {code : Nat} {flag : StationFlag} (h : (code, flag) ∈
    [(20, .protectedWrite), (21, .partialWord), (22, .poolFull), (23, .notReady), (24, .notConfigured)]) :
    wordRefusalFlag code = flag := by
  simp only [List.mem_cons, Prod.mk.injEq, List.not_mem_nil, or_false] at h
  rcases h with ⟨rfl, rfl⟩ | ⟨rfl, rfl⟩ | ⟨rfl, rfl⟩ | ⟨rfl, rfl⟩ | ⟨rfl, rfl⟩ <;> rfl

/-- Settles O14: the write is refused, and the refusal's effects stand after the Memory Agent and the port have gone on. -/
theorem wordsAreRefused : Obligations.WordsAreRefused := by
  unfold Obligations.WordsAreRefused
  intro s slot p v lanes code flag hw hc h hf
  obtain ⟨hout, hup, hlc, hrt, hch, hrv, hrep⟩ := (refuseAtPort_law s code slot p).settle
  rw [wordRefusalFlag_of_mem hf] at hrep
  refine ⟨_, ?_, hout, hup, hlc, hrt, hch, hrv, hrep⟩
  rw [exec_controllerCycle_awake hc hw, beginCycle_refused p v h]

end Sys2Proof.Machine
end

section
/-! PROOFS. A word taken that does not complete its record (R34, R35, R52). -/

namespace Sys2Proof.Machine

open Sys2Proof.Safety

/-- A change of the Record Verifier alone, once the Memory Agent and the port have gone on: it marks no part record. -/
theorem pool_settle {s u : State} {v : Verifier} (h : u = { s with rv := v }) :
    Outside s u.settle ∧ u.settle.uptime = s.uptime ∧ u.settle.lc = s.lc ∧ u.settle.rt = s.rt ∧
      u.settle.channels = s.channels ∧ u.settle.rv = v ∧ Reports s u.settle [] [] [] := by
  subst h
  have hs := Settled.settle { s with rv := v }
  have ht : Taken s { s with rv := v } := .pool v (.inner (.refl s))
  have he : Effects s { s with rv := v } [] [] [] := .same rfl rfl rfl
  exact ⟨ht.outside, hs.uptime, hs.lc, hs.rt, hs.channels, hs.rv, he.settle (.inl rfl)⟩

/-- A word stored leaves an entry that lacks another word incomplete (R36). -/
theorem store_full_none {e : Assembly} {p q : Pos} (hq : q ≠ p) (h : e.words[q] = none) (v : Word) :
    (e.store p v).full = none := by
  have hv : p.val ≠ q.val := fun e => hq (Fin.ext e.symm)
  have hn : (e.store p v).words[q] = none := by
    rw [← h]; exact Vector.getElem_set_ne p.isLt q.isLt hv
  have hm : none ∈ (e.store p v).words.toList := by
    rw [← hn, Vector.mem_toList_iff]; exact Vector.getElem_mem q.isLt
  unfold Assembly.full
  exact if_neg fun hall => absurd (List.all_eq_true.mp hall none hm) (by decide)

/-- The Record Verifier with a word placed in the slot's assembly e (R35, step 1; R48). -/
def wordPlaced (s : State) (e : Assembly) (p : Pos) (v : Word) : Verifier :=
  { s.rv with
    assembling := s.rv.assembling.map fun x => if x.slot = e.slot then e.store p v else x
    takenSince := true }

/-- The Record Verifier with a word placed in an entry opened for it (R35, step 2; R48). -/
def wordOpened (s : State) (slot : Slot) (p : Pos) (v : Word) : Verifier :=
  { s.rv with
    assembling := s.rv.assembling ++ [(Assembly.opened slot s.uptime s.assemblyTimeout).store p v]
    takenSince := true }

theorem placeWord_placed {s : State} {slot : Slot} {e : Assembly} {p q : Pos} (he : s.rv.entry slot = some e)
    (hq : q ≠ p) (h : e.words[q] = none) (v : Word) :
    s.placeWord slot p v = { s with rv := wordPlaced s e p v } := by
  rw [State.placeWord, he]
  simp only [State.placeInEntry, store_full_none hq h]
  rfl

theorem placeWord_opened {s : State} {slot : Slot} (he : s.rv.entry slot = none) (hu : s.rv.inUse < 8) (p : Pos)
    (v : Word) : s.placeWord slot p v = { s with rv := wordOpened s slot p v } := by
  rw [State.placeWord, he]
  exact if_pos hu

/-- Settles O15: a word into the slot's assembly, and a word into a new one. -/
theorem wordsArePlaced : Obligations.WordsArePlaced := by
  unfold Obligations.WordsArePlaced
  refine fun s slot p v hw hf hc hg => ⟨fun e he h => ?_, fun he hu => ?_⟩
  · obtain ⟨q, hq, hn⟩ := h
    have hk : e.slot = slot := (Verifier.entry_slot he).1
    subst hk
    exact ⟨_, take_word hw hf hc hg, pool_settle (placeWord_placed he hq hn v)⟩
  · exact ⟨_, take_word hw hf hc hg, pool_settle (placeWord_opened he hu p v)⟩

end Sys2Proof.Machine
end

section
/-! PROOFS. The timers of the pool and of the Run Table's history (R37, R57). -/

namespace Sys2Proof.Machine

open Sys2Proof.Safety

/-- An ASSEMBLING entry expires (R37). -/
theorem expireEntry_law (s : State) (e : Assembly) :
    VerifierOp s (s.expireEntry e)
      { s.rv with assembling := s.rv.assembling.filter fun x => decide (x.slot ≠ e.slot) } s.rt
      [eventNow s .assemblyExpired e.slot.val e.present (e.openedAt % 2 ^ 32)] [.station .assemblyExpired] [.status] :=
  ((((VerifierOp.refl s).discard e.slot).latch (.station .assemblyExpired)).raise .assemblyExpired e.slot.val e.present
    (e.openedAt % 2 ^ 32)).as rfl rfl (fun _ => Iff.rfl) fun k => by simp [flagMarks]; tauto

/-- A HISTORY slot of run r becomes FREE (R57). -/
theorem freeHistory_law (s : State) (k : TallySlot) (r : Run) :
    TableOp s (s.freeHistory k r)
      ((s.rt.setClaim k .free).setRun r { s.run r with historyCount := (s.run r).historyCount - 1 }) s.channels [] []
      [.run r] :=
  ((((TableOp.refl s).setClaim k .free).putRun r { s.run r with historyCount := (s.run r).historyCount - 1 }).mark
    (.run r)).as rfl rfl (fun _ => Iff.rfl) fun j => .inl (by simp)

theorem exec_assemblyExpired {s : State} {slot : Slot} {e : Assembly} (he : s.rv.entry slot = some e) :
    exec (.assemblyExpired slot) s = answer s (s.awake (some ((s.elapseTo (e.openedAt + e.timeout)).expireEntry e))) := by
  show answer s (s.awake (s.assemblyExpiry slot)) = _
  rw [State.assemblyExpiry, he]

theorem exec_historyExpiry {s : State} {k : TallySlot} {r : Run} {x : Nat} (h : s.claim k = .history r x) :
    exec (.historyExpiry k) s = answer s (s.awake (some ((s.elapseTo x).freeHistory k r))) := by
  show answer s (s.awake (s.historyExpiry k)) = _
  rw [State.historyExpiry, h]

/-- Settles O51: each expiry is taken at its timer's deadline. -/
theorem assembliesAndHistoryExpire : Obligations.AssembliesAndHistoryExpire := by
  unfold Obligations.AssembliesAndHistoryExpire
  refine fun s hw => ⟨fun slot e he u hu => ?_, fun k r x hx u hu => ?_⟩
  · obtain rfl : e.slot = slot := (Verifier.entry_slot he).1
    subst hu
    obtain ⟨ha, hel, hrt, hch, hrv, hrep⟩ :=
      (expireEntry_law (s.elapseTo (e.openedAt + e.timeout)) e).timer hw
    exact ⟨_, (exec_assemblyExpired he).trans ha, hel, hrt, hch, hrv, hrep⟩
  · subst hu
    obtain ⟨ha, hel, hrv, hrt, hch, hrep⟩ := table_timer hw (freeHistory_law (s.elapseTo x) k r)
    obtain ⟨hr, hq, hd, hslots⟩ := run_of_table (s := s) hrt rfl rfl
    refine ⟨_, (exec_historyExpiry hx).trans ha, hel, hrv, hch, hd, hr, hq, ?_, fun j hj => ?_, hrep⟩
    · rw [State.claim, hslots]; exact RunTable.setClaim_get _ _ _
    · rw [State.claim, hslots]; exact RunTable.setClaim_ne _ _ hj

end Sys2Proof.Machine
end

section
/-! PROOFS. Refused records (R39, R43 to R46, R49, R162): the steps of a record-level refusal one after another, the hold it
may ask for, and the write that completes the record. -/

namespace Sys2Proof.Machine

open Sys2Proof.Safety

/-! ### The attributed run's flag and the capture (R44, R49) -/

/-- The REFUSED flag of the attributed run (R43, point 4). -/
def refusedFlags : Option Run → List Flag
  | none => []
  | some q => [.run .refused q]

/-- The capture filled with this refused record (R49). -/
def captureFilled (s : State) (slot : Slot) (w : Record) (reason : Nat) : Capture :=
  ⟨true, BitVec.ofNat 16 reason, BitVec.ofNat 16 slot.val, s.count, 0, BitVec.ofNat 16 s.guardCode, some w⟩

/-- A refused record fills the capture where it is unoccupied (R43, point 6). -/
def State.fillIfEmpty (reason : Nat) (slot : Slot) (w : Record) (s : State) : State :=
  if s.rv.capture.occupied then s else s.fillCapture reason slot w

section
variable {s t : State} {v : Verifier} {x : RunTable} {es : List EventRecord} {fs : List Flag} {ks : List PartSlot}

theorem latchRefused_law (h : VerifierOp s t v x es fs ks) (r : Option Run) :
    VerifierOp s (t.latchRefused r) v x es (fs ++ refusedFlags r) ks := by
  cases r with
  | none => exact h.as rfl rfl (by simp [refusedFlags]) fun _ => .inl Iff.rfl
  | some q => exact h.latch (.run .refused q)

theorem fillCapture_law (h : VerifierOp s t v x es fs ks) (reason : Nat) (slot : Slot) (w : Record) :
    VerifierOp s (t.fillCapture reason slot w) { v with capture := captureFilled s slot w reason } x es
      (fs ++ [.station .captureOccupied]) (ks ++ [.captureHeader, .captureBody]) := by
  have hf := ((((h.setRv { v with capture := captureFilled s slot w reason } rfl rfl).mark .captureHeader).mark
    .captureBody).latch (.station .captureOccupied))
  have e : t.fillCapture reason slot w = ((({ t with rv := { v with capture := captureFilled s slot w reason } } :
      State).mark .captureHeader).mark .captureBody).latch (.station .captureOccupied) := by
    rw [State.fillCapture, captureFilled, h.count, h.guardCode, h.rv]
  rw [e]
  exact hf.as rfl rfl (fun _ => Iff.rfl) fun k => .inl (by simp)

theorem fillIfEmpty_law (h : VerifierOp s t v x es fs ks) (reason : Nat) (slot : Slot) (w : Record) :
    VerifierOp s (t.fillIfEmpty reason slot w)
      { v with capture := if v.capture.occupied then v.capture else captureFilled s slot w reason } x es
      (fs ++ if v.capture.occupied then [] else [.station .captureOccupied])
      (ks ++ if v.capture.occupied then [] else [.captureHeader, .captureBody]) := by
  unfold State.fillIfEmpty
  rw [h.rv]
  cases v.capture.occupied with
  | true => exact h.as rfl rfl (by simp) fun k => .inl (by simp)
  | false => exact fillCapture_law h reason slot w

end

/-! ### The hold (R45, R71) -/

/-- The refusal holds run q, which was not held before. -/
def heldAnew (s : State) (slot : Slot) (w : Record) (reason : Nat) (q : Run) : Bool :=
  HeldByRefusal s slot w reason q && !(s.run q).held

/-- One entry for the run that the refusal holds, if it holds one. -/
def onHeld {α : Type} (s : State) (slot : Slot) (w : Record) (reason : Nat) (a : Run → α) : List α :=
  (List.finRange 12).flatMap fun q => if heldAnew s slot w reason q then [a q] else []

theorem heldByRefusal_iff {s : State} {slot : Slot} {w : Record} {reason : Nat} {q : Run} :
    HeldByRefusal s slot w reason q = true ↔ (s.guardCode = 1 ∧ holdsRun slot reason = true) ∧
      attributedTo s slot w reason = some q ∧ (s.run q).condition ≠ .retired := by
  simp only [HeldByRefusal, holdsRun, Bool.and_eq_true, decide_eq_true_eq, and_assoc]

theorem heldAnew_iff {s : State} {slot : Slot} {w : Record} {reason : Nat} {q : Run} :
    heldAnew s slot w reason q = true ↔ HeldByRefusal s slot w reason q = true ∧ (s.run q).held = false := by
  rw [heldAnew, Bool.and_eq_true, Bool.not_eq_true']

/-- A refusal is attributed to one run at most. -/
theorem heldByRefusal_other {s : State} {slot : Slot} {w : Record} {reason : Nat} {r q : Run}
    (h : HeldByRefusal s slot w reason r = true) (hq : q ≠ r) : HeldByRefusal s slot w reason q = false := by
  rw [Bool.eq_false_iff]
  intro hh
  obtain ⟨_, hr, _⟩ := heldByRefusal_iff.mp h
  obtain ⟨_, hq', _⟩ := heldByRefusal_iff.mp hh
  exact hq (Option.some.inj (hq'.symm.trans hr))

/-- The run entry after the refusal: held, where it was or the refusal holds it. -/
def heldEntry (s : State) (slot : Slot) (w : Record) (reason : Nat) (q : Run) : RunEntry :=
  { s.run q with held := (s.run q).held || HeldByRefusal s slot w reason q }

theorem heldEntry_same {s : State} {slot : Slot} {w : Record} {reason : Nat} {q : Run}
    (h : heldAnew s slot w reason q = false) : heldEntry s slot w reason q = s.run q := by
  have hh : ((s.run q).held || HeldByRefusal s slot w reason q) = (s.run q).held := by
    revert h
    unfold heldAnew
    cases (s.run q).held <;> cases HeldByRefusal s slot w reason q <;> decide
  rw [heldEntry, hh]

/-- A hold asked for that changes nothing: no run is held anew. -/
theorem holdAttributed_none {s t : State} {slot : Slot} {w : Record} {reason : Nat} (hg : t.guardCode = s.guardCode)
    (hr : ∀ q, t.run q = s.run q) (h : ∀ q, heldAnew s slot w reason q = false) :
    t.holdAttributed (attributedTo s slot w reason) reason slot = t := by
  unfold State.holdAttributed
  split
  · rfl
  · rename_i q hq
    split
    · rename_i hc
      unfold State.holdRun
      refine if_pos ?_
      by_contra hn
      rw [hr, not_or, Bool.not_eq_true] at hn
      have hh := heldAnew_iff.mpr ⟨heldByRefusal_iff.mpr ⟨hg ▸ hc, hq, hn.2⟩, hn.1⟩
      rw [h q] at hh
      cases hh
    · rfl

/-- A hold asked for that holds run r (R71). -/
theorem holdAttributed_holds {s t : State} {slot : Slot} {w : Record} {reason : Nat} {r : Run}
    (hg : t.guardCode = s.guardCode) (hr : t.run r = s.run r) (h : heldAnew s slot w reason r = true) :
    t.holdAttributed (attributedTo s slot w reason) reason slot =
      ((t.putRun r { s.run r with held := true }).raise .runHeld r.val reason slot.val).latch (.run .held r) := by
  obtain ⟨hh, hn⟩ := heldAnew_iff.mp h
  obtain ⟨hc, ha, hret⟩ := heldByRefusal_iff.mp hh
  rw [ha]
  simp only [State.holdAttributed]
  rw [if_pos (hg ▸ hc), State.holdRun, hr, if_neg]
  rintro (h | h)
  · rw [hn] at h; cases h
  · exact hret h

/-- The hold a refusal asks for: one run at most is held, with its event, flag and mark (R45, R71). -/
theorem holdAttributed_law {s t : State} {v : Verifier} {es : List EventRecord} {fs : List Flag} {ks : List PartSlot}
    (h : VerifierOp s t v s.rt es fs ks) (slot : Slot) (w : Record) (reason : Nat) :
    ∃ x, VerifierOp s (t.holdAttributed (attributedTo s slot w reason) reason slot) v x
        (es ++ onHeld s slot w reason fun q => eventNow s .runHeld q.val reason slot.val)
        (fs ++ onHeld s slot w reason fun q => .run .held q) (ks ++ onHeld s slot w reason fun q => .run q) ∧
      x.descriptors = s.rt.descriptors ∧ x.slots = s.rt.slots ∧ ∀ q, x.runs[q] = heldEntry s slot w reason q := by
  by_cases hex : ∃ r, heldAnew s slot w reason r = true
  · obtain ⟨r, hr⟩ := hex
    have hone (q : Run) (hq : q ≠ r) : heldAnew s slot w reason q = false := by
      rw [heldAnew, heldByRefusal_other (heldAnew_iff.mp hr).1 hq, Bool.false_and]
    have honly {α : Type} (a : Run → α) : onHeld s slot w reason a = [a r] := flatMap_only _ a r hr hone
    have hnew : sameRunReport (s.run r) { s.run r with held := true } = false := by
      simp [sameRunReport, (heldAnew_iff.mp hr).2]
    refine ⟨s.rt.setRun r { s.run r with held := true }, ?_, rfl, rfl, fun q => ?_⟩
    · rw [holdAttributed_holds h.guardCode (h.run r) hr, honly, honly, honly]
      have hp := ((h.putRun r { s.run r with held := true }).raise .runHeld r.val reason slot.val).latch (.run .held r)
      rw [show s.rt.runs[r] = s.run r from rfl, hnew] at hp
      exact hp
    · by_cases hq : q = r
      · subst hq
        rw [RunTable.setRun_get, heldEntry, (heldAnew_iff.mp hr).1, Bool.or_true]
      · rw [RunTable.setRun_ne _ _ hq, heldEntry_same (hone q hq)]; rfl
  · have hno (q : Run) : heldAnew s slot w reason q = false := by
      rw [Bool.eq_false_iff]; exact fun hq => hex ⟨q, hq⟩
    have hnone {α : Type} (a : Run → α) : onHeld s slot w reason a = [] := flatMap_none _ a hno
    refine ⟨s.rt, ?_, rfl, rfl, fun q => (heldEntry_same (hno q)).symm⟩
    rw [holdAttributed_none h.guardCode h.run hno, hnone, hnone, hnone, List.append_nil, List.append_nil, List.append_nil]
    exact h

/-! ### The refusal (R43) -/

/-- The Record Verifier after a record-level refusal: one refusal counted, the capture filled or its count grown. -/
def recordRefusedVerifier (s : State) (slot : Slot) (w : Record) (reason : Nat) : Verifier :=
  { s.rv with
    refusals := satAdd 65535 s.rv.refusals 1
    capture := if s.rv.capture.occupied then captureCounted s else captureFilled s slot w reason }

/-- RECORD_REFUSED, and RUN_HELD where a run is held (R43, R71). -/
def recordRefusedEvents (s : State) (slot : Slot) (w : Record) (reason : Nat) : List EventRecord :=
  eventNow s .recordRefused slot.val reason w[0].toNat ::
    onHeld s slot w reason fun q => eventNow s .runHeld q.val reason slot.val

/-- The flags a record-level refusal latches (R43). -/
def recordRefusedFlags (s : State) (slot : Slot) (w : Record) (reason : Nat) : List Flag :=
  .station .recordRefused :: (if s.rv.capture.occupied then [] else [.station .captureOccupied]) ++
    refusedFlags (attributedTo s slot w reason) ++ onHeld s slot w reason fun q => .run .held q

/-- The part records a record-level refusal marks (R43, R162). -/
def recordRefusedMarks (s : State) (slot : Slot) (w : Record) (reason : Nat) : List PartSlot :=
  .status :: (if s.rv.capture.occupied then sinceMarks s else [.captureHeader, .captureBody]) ++
    onHeld s slot w reason fun q => .run q

/-- A record-level refusal, step by step (R43). -/
theorem refuseRecord_law (s : State) (slot : Slot) (w : Record) (reason : Nat) :
    ∃ x, VerifierOp s (s.refuseRecord slot w reason) (recordRefusedVerifier s slot w reason) x
        (recordRefusedEvents s slot w reason) (recordRefusedFlags s slot w reason)
        (recordRefusedMarks s slot w reason) ∧
      x.descriptors = s.rt.descriptors ∧ x.slots = s.rt.slots ∧ ∀ q, x.runs[q] = heldEntry s slot w reason q := by
  have hflag := ((VerifierOp.refl s).raise .recordRefused slot.val reason w[0].toNat).latch (.station .recordRefused)
  have hcount := countRefusal_first (latchRefused_law hflag (attributedTo s slot w reason))
  obtain ⟨x, hx, htable⟩ := holdAttributed_law (fillIfEmpty_law hcount reason slot w) slot w reason
  have e : s.refuseRecord slot w reason =
      (((((s.raise .recordRefused slot.val reason w[0].toNat).latch (.station .recordRefused)).latchRefused
        (attributedTo s slot w reason)).countRefusal).fillIfEmpty reason slot w).holdAttributed
        (attributedTo s slot w reason) reason slot := by
    simp only [State.refuseRecord, attributed_eq]; rfl
  rw [e]
  refine ⟨x, hx.as rfl rfl (fun f => ?_) fun k => .inl ?_, htable⟩
  · simp only [recordRefusedFlags, captureCounted, List.mem_append, List.mem_cons, List.nil_append]
    tauto
  · cases ho : s.rv.capture.occupied with
    | true => simp [recordRefusedMarks, captureCounted, ho]
    | false => simp [recordRefusedMarks, captureCounted, ho, sinceMarks_unoccupied ho]

/-! ### The completing write -/

/-- A completing write whose record a check fails (R36, R39, R43). -/
theorem recordWrite_refused {s : State} {slot : Slot} {p : Pos} {v : Word} {w : Record} {reason : Nat}
    (h : Completes s slot p v w) (hc : slotClass slot = .controller) (hf : RefusedFor s slot w reason) :
    s.recordWrite slot p v = some ((s.beforeDecision slot).refuseRecord slot w reason) := by
  have hf' : RefusedFor (s.beforeDecision slot) slot w reason := hf
  obtain ⟨e, _, hk, hw⟩ := recordWrite_completes h hc
  rw [hw, State.completeRecord, hk, (decide_refused hc hf').1]

/-- What the Record Verifier's operation on the completed record leaves, the Memory Agent and the port having gone on. -/
theorem VerifierOp.settle_decided {s t : State} {slot : Slot} {v : Verifier} {x : RunTable} {es : List EventRecord}
    {fs : List Flag} {ks : List PartSlot} (h : VerifierOp (s.beforeDecision slot) t v x es fs ks) :
    Outside s t.settle ∧ t.settle.uptime = s.uptime ∧ t.settle.lc = s.lc ∧ t.settle.rt = x ∧
      t.settle.channels = s.channels ∧ t.settle.rv = v ∧ Reports s t.settle es fs ks := by
  obtain ⟨_, hup, hlc, hrt, hch, hrv, _⟩ := h.settle
  have ht : Taken s t := (Taken.beforeDecision s slot).more h.inner
  obtain ⟨_, _, _, _, hma, _⟩ := ht.port
  have he : Effects s t es fs ks := (Effects.same rfl rfl rfl : Effects s (s.beforeDecision slot) [] [] []).trans h.eff
  exact ⟨ht.outside, hup, hlc, hrt, hch, hrv, he.settle (.inl hma)⟩

/-- Settles O36: the write completes the record, its first failing check refuses it, and the refusal's effects stand after
the Memory Agent and the port have gone on. -/
theorem recordsAreRefused : Obligations.RecordsAreRefused := by
  unfold Obligations.RecordsAreRefused
  intro s slot p v w reason h hc hf
  obtain ⟨x, hx, hdesc, hslots, hruns⟩ := refuseRecord_law (s.beforeDecision slot) slot w reason
  obtain ⟨hout, hup, hlc, hrt, hch, hrv, hrep⟩ := hx.settle_decided
  have hexec : exec (.controllerCycle (slotAddr s.lc.baseSelect slot p) (.write v .both)) s =
      answer s (s.recordWrite slot p v) := rfl
  rw [recordWrite_refused h hc hf] at hexec
  refine ⟨_, hexec, hout, hup, hlc, hch, hrv, ?_, ?_, fun q => ?_, hrep⟩
  · rw [hrt, hdesc]; rfl
  · rw [hrt, hslots]; rfl
  · rw [State.run, hrt, hruns]; rfl

end Sys2Proof.Machine
end

section
/-! PROOFS. The commands that clear (R50, R72, R102): each one's own effect, and the command answered with it. -/

namespace Sys2Proof.Machine

open Sys2Proof.Safety

/-! ### CLEAR_RUN (R72) -/

/-- CLEAR_RUN releases the hold; the run's report is to be rewritten where there was one. -/
theorem clearRun_law (s : State) (r : Run) :
    s.clearRun r = ⟨.done, if (s.run r).held then 1 else 0, (s.clearRun r).state⟩ ∧
      TableOp s (s.clearRun r).state (s.rt.setRun r { s.run r with held := false }) s.channels [] []
        (if (s.run r).held then [.run r] else []) := by
  unfold State.clearRun
  cases hh : (s.run r).held with
  | true =>
    refine ⟨rfl, ?_⟩
    have h := ((TableOp.refl s).putRun r { s.run r with held := false }).mark (.run r)
    exact h.as rfl rfl (fun _ => Iff.rfl) fun k => .inl (by simp)
  | false =>
    have hsame : ({ s.run r with held := false } : RunEntry) = s.run r := by rw [← hh]
    refine ⟨rfl, ?_⟩
    rw [hsame, setRun_self]
    exact .refl s

/-- CLEAR_RUN reaches the run its argument names. -/
theorem clearRun_decided {s : State} {tag a : Word} {r : Run} (hd : s.lc.device = .running) (ha : a.toNat = r.val) :
    (s.beforeDecision 17).decideOutcome ⟨tag, 1, a, 0⟩ = (s.beforeDecision 17).clearRun r := by
  have hA : argumentA 1 a.toNat = true := by simp [argumentA, ha]
  have hown := own_run (x := ⟨tag, 1, a, 0⟩) hd ⟨by simp, by simp⟩ hA rfl
  have hrun : (s.beforeDecision 17).onRun a State.clearRun = (s.beforeDecision 17).clearRun r := by
    rw [State.onRun, asRun_val ha]
  exact hown.trans hrun

/-! ### CLEAR_DEFICIT (R102) -/

/-- CLEAR_DEFICIT sets the deficit to 0; the channel's report is to be rewritten in any case. -/
theorem clearDeficit_law (s : State) (c : Chan) :
    ChannelOp c s (s.clearDeficit c).state { s.chan c with deficit := 0 } [] [] [.channel c] :=
  ((ChannelOp.refl c s).setChan { s.chan c with deficit := 0 } (.other rfl rfl rfl)).mark (.channel c)

/-- CLEAR_DEFICIT reaches the channel its argument names. -/
theorem clearDeficit_decided {s : State} {tag a : Word} {c : Chan} (hd : s.lc.device = .running)
    (ha : a.toNat = c.val) :
    (s.beforeDecision 17).decideOutcome ⟨tag, 3, a, 0⟩ = (s.beforeDecision 17).clearDeficit c := by
  have hA : argumentA 3 a.toNat = true := by simp [argumentA, ha]
  have hown := own_run (x := ⟨tag, 3, a, 0⟩) hd ⟨by simp, by simp⟩ hA rfl
  have hchan : (s.beforeDecision 17).onChan a State.clearDeficit = (s.beforeDecision 17).clearDeficit c := by
    rw [State.onChan, asChan_val ha]
  exact hown.trans hchan

/-! ### The commands that FALLBACK executes also (R147, line 4) -/

/-- CLEAR_CAPTURE and RESTART have their own outcome in FALLBACK as in RUNNING. -/
theorem own_anywhere {s : State} {x : CommandFields} (hc : x.code = 4 ∨ x.code = 9) (ha : x.a = 0) (hb : x.b = 0) :
    s.decideOutcome x = s.ownOutcome x := by
  rcases hc with h | h <;> simp [State.decideOutcome, h, ha, hb, argumentA, argumentB]

/-- The header cleared and marked (R50). -/
theorem clearCaptureHeader_effects (s : State) : Effects s s.clearCaptureHeader [] [] [.captureHeader] := by
  unfold State.clearCaptureHeader
  refine Effects.thenMark (ks := []) .captureHeader ?_
  exact .same rfl rfl rfl

/-! ### The three commands -/

theorem clearRun_completes {s : State} {tag a : Word} {p : Pos} {r : Run} (h : CommandReady s p tag 1 a 0)
    (hd : s.lc.device = .running) (ha : a.toNat = r.val) :
    ∃ t, exec (.clearRun tag a p) s = .next t ∧ Outside s t ∧ t.uptime = s.uptime ∧ t.channels = s.channels ∧
      t.lc = loaderAfter s tag 1 .done (if (s.run r).held then 1 else 0) ∧
      t.rv = verifierAfter s 17 (commandRecordOf tag 1 a 0) ∧
      t.rt = s.rt.setRun r { s.run r with held := false } ∧
      Reports s t [commandTaken s tag 1 .done] [] (.result :: if (s.run r).held then [.run r] else []) := by
  obtain ⟨hout, hop⟩ := clearRun_law (s.beforeDecision 17) r
  exact command_table h ((clearRun_decided hd ha).trans hout) hop

theorem clearDeficit_completes {s : State} {tag a : Word} {p : Pos} {c : Chan} (h : CommandReady s p tag 3 a 0)
    (hd : s.lc.device = .running) (ha : a.toNat = c.val) :
    ∃ t, exec (.clearDeficit tag a p) s = .next t ∧ Outside s t ∧ t.uptime = s.uptime ∧ t.rt = s.rt ∧
      t.lc = loaderAfter s tag 3 .done (s.chan c).deficit ∧ t.rv = verifierAfter s 17 (commandRecordOf tag 3 a 0) ∧
      t.chan c = { s.chan c with deficit := 0 } ∧ (∀ k, k ≠ c → t.chan k = s.chan k) ∧
      Reports s t [commandTaken s tag 3 .done] [] [.result, .channel c] :=
  command_channel h (clearDeficit_decided hd ha) (clearDeficit_law (s.beforeDecision 17) c)

theorem clearCapture_completes {s : State} {tag : Word} {p : Pos} (h : CommandReady s p tag 4 0 0) :
    ∃ t, exec (.clearCapture tag p) s = .next t ∧ Outside s t ∧ t.uptime = s.uptime ∧ t.rt = s.rt ∧
      t.channels = s.channels ∧
      t.lc = loaderAfter s tag 4 .done (if s.rv.capture.occupied then s.rv.capture.reason.toNat else 0) ∧
      t.rv = { verifierAfter s 17 (commandRecordOf tag 4 0 0) with
        capture := ⟨false, 0, 0, 0, 0, 0, s.rv.capture.body⟩ } ∧
      Reports s t [commandTaken s tag 4 .done] [] [.result, .captureHeader] := by
  have hdecide : (s.beforeDecision 17).decideOutcome ⟨tag, 4, 0, 0⟩ = (s.beforeDecision 17).clearCapture :=
    own_anywhere (.inl rfl) rfl rfl
  obtain ⟨t, hexec, hout, hrep, hlc, hrt, hch, hup, hrv⟩ :=
    command_answer h hdecide (.clearCaptureHeader (.refl _)) rfl (clearCaptureHeader_effects _)
  exact ⟨t, hexec, hout, hup, hrt, hch, hlc, hrv, hrep⟩

/-- Settles O41, a command at a time. -/
theorem clearRunClearDeficitAndClearCaptureComplete : Obligations.ClearRunClearDeficitAndClearCaptureComplete := by
  unfold Obligations.ClearRunClearDeficitAndClearCaptureComplete
  refine fun s tag a p => ⟨fun r h hd ha => ?_, fun c h hd ha => clearDeficit_completes h hd ha,
    clearCapture_completes⟩
  obtain ⟨t, hexec, hout, hup, hch, hlc, hrv, hrt, hrep⟩ := clearRun_completes h hd ha
  obtain ⟨hself, hother, hdesc, hslots⟩ := run_of_setRun hrt
  exact ⟨t, hexec, hout, hup, hch, hlc, hrv, hself, hother, hslots, hdesc, hrep⟩

end Sys2Proof.Machine
end

section
/-! PROOFS. RESTART (R38, R123, R153, R177): the start of the drain, and the command answered with it. -/

namespace Sys2Proof.Machine

open Sys2Proof.Safety

/-- The drain begins with the status record alone to be rewritten. -/
theorem startDrain_effects (s : State) (cause : LoadCause) : Effects s (s.startDrain cause) [] [] [.status] := by
  unfold State.startDrain
  refine Effects.thenDevice (ks := []) .draining ?_
  exact .same rfl rfl rfl

/-- The base-period timers stop; nothing else of a channel changes (R123). -/
theorem startDrain_chan (s : State) (cause : LoadCause) (c : Chan) :
    (s.startDrain cause).chan c = { s.chan c with baseTimer := none } := by
  change (s.channels.map fun x => { x with baseTimer := none })[c] = _
  simp [State.chan]

/-- Settles O49: RESTART has its own outcome in both device states that take the record, and its effect is the start of
the drain. -/
theorem restartCompletes : Obligations.RestartCompletes := by
  unfold Obligations.RestartCompletes
  intro s tag p h
  have hdecide : (s.beforeDecision 17).decideOutcome ⟨tag, 9, 0, 0⟩ = (s.beforeDecision 17).restart tag :=
    own_anywhere (.inr rfl) rfl rfl
  obtain ⟨t, hexec, hout, hrep, hlc, hrt, hch, hup, hrv⟩ :=
    command_answer h hdecide (.startDrain _ (.refl _)) rfl (startDrain_effects _ _)
  refine ⟨t, hexec, hout, hup, hrt, hlc, hrv, fun c => ?_, hrep⟩
  rw [State.chan, hch]
  exact startDrain_chan (s.beforeDecision 17) (.restart tag) c

end Sys2Proof.Machine
end

section
/-! PROOFS. What the release of reset leaves (R53, R55, R92, R108, R110, R118, R126, R157, R164, R168). -/

namespace Sys2Proof.Machine

open Sys2Proof.Safety

/-- Every run entry of the Run Table after reset is the reset entry (R53). -/
theorem reset_run (r : Run) : State.reset.run r = RunEntry.reset := Vector.getElem_replicate _

/-- No run descriptor is in force after reset. -/
theorem reset_runDescriptor (r : Run) : State.reset.runDescriptor r = none := Vector.getElem_replicate _

/-- Every tally slot is FREE after reset (R55). -/
theorem reset_claim (k : TallySlot) : State.reset.claim k = .free := Vector.getElem_replicate _

/-- Every Channel Unit is at its reset values after reset. -/
theorem reset_chan (c : Chan) : State.reset.chan c = Channel.reset := Vector.getElem_replicate _

/-- The empty set has no flag (R157). -/
theorem FlagWords.none_has (f : Flag) : FlagWords.none.has f = false := by
  have hword : FlagWords.none[f.word] = 0 := Vector.getElem_replicate _
  rw [FlagWords.has, hword]
  exact BitVec.getLsbD_zero

/-- Settles O4, field by field: the tables are replicated reset values, the rest is read off `State.reset`. -/
theorem resetState : Obligations.ResetState := by
  unfold Obligations.ResetState
  have hruns : ∀ r : Run, (State.reset.run r).condition = .retired ∧ (State.reset.run r).estimated = 0 ∧
      (State.reset.run r).credit = 0 ∧ (State.reset.run r).unrouted = 0 ∧ (State.reset.run r).historyCount = 0 ∧
      (State.reset.run r).currentSlot = none ∧ State.reset.runDescriptor r = none := fun r => by
    rw [reset_run]
    exact ⟨rfl, rfl, rfl, rfl, rfl, rfl, reset_runDescriptor r⟩
  have hdirty : ∀ k : PartSlot, State.reset.ru.dirty[k] = false := fun _ => Vector.getElem_replicate _
  refine ⟨rfl, rfl, rfl, ⟨_, rfl, rfl, rfl⟩, rfl, rfl, rfl, rfl, rfl, rfl, rfl, rfl, rfl, hruns, reset_claim, reset_chan,
    rfl, rfl, rfl, rfl, rfl, rfl, rfl, rfl, rfl, rfl, rfl, rfl, rfl, FlagWords.none_has, FlagWords.none_has, hdirty,
    rfl, rfl, rfl, rfl⟩

end Sys2Proof.Machine
end

section
/-! PROOFS. UNBIND_RUN and RELEASE_HISTORY (R56, R73, R74, R152): what each does to the Run Table, and the command answered
with it. -/

namespace Sys2Proof.Machine

open Sys2Proof.Safety

/-! ### UNBIND_RUN (R73) -/

/-- UNBIND_RUN reaches the run its argument names. -/
theorem unbindRun_decided {s : State} {tag a : Word} {r : Run} (hd : s.lc.device = .running) (ha : a.toNat = r.val) :
    (s.beforeDecision 17).decideOutcome ⟨tag, 7, a, 0⟩ = (s.beforeDecision 17).unbindRun r := by
  have hA : argumentA 7 a.toNat = true := by simp [argumentA, ha]
  have hown := own_run (x := ⟨tag, 7, a, 0⟩) hd ⟨by simp, by simp⟩ hA rfl
  have hrun : (s.beforeDecision 17).onRun a State.unbindRun = (s.beforeDecision 17).unbindRun r := by
    rw [State.onRun, asRun_val ha]
  exact hown.trans hrun

theorem unbindRun_bound {s : State} {r : Run} {k : TallySlot} (hb : (s.run r).condition.bound = true)
    (hk : (s.run r).currentSlot = some k) : s.unbindRun r = ⟨.done, k.val, s.unbind r .unbound 1⟩ := by
  rw [State.unbindRun, if_pos hb, RunEntry.slotNumber, hk]

theorem unbindRun_notBound {s : State} {r : Run} (hb : (s.run r).condition.bound = false) :
    s.unbindRun r = ⟨.wrongState, (s.run r).condition.code, s⟩ := by
  rw [State.unbindRun, if_neg (by simp [hb])]

theorem unbindRun_completes {s : State} {tag a : Word} {p : Pos} {r : Run} {k : TallySlot}
    (h : CommandReady s p tag 7 a 0) (hd : s.lc.device = .running) (ha : a.toNat = r.val)
    (hb : (s.run r).condition.bound = true) (hk : (s.run r).currentSlot = some k) :
    ∃ t, exec (.unbindRun tag a p) s = .next t ∧ Outside s t ∧ t.uptime = s.uptime ∧ t.channels = s.channels ∧
      t.lc = loaderAfter s tag 7 .done k.val ∧ t.rv = verifierAfter s 17 (commandRecordOf tag 7 a 0) ∧
      t.rt = (s.rt.setClaim k (.history r (s.uptime + s.historyHold))).setRun r
        (unboundRun { s.run r with historyCount := (s.run r).historyCount + 1 } .unbound) ∧
      Reports s t [eventNow s .runUnbound r.val 1 k.val, commandTaken s tag 7 .done] [] [.result, .run r] := by
  have hout := unbindRun_bound (s := s.beforeDecision 17) hb hk
  exact command_table h ((unbindRun_decided hd ha).trans hout) (unbind_law (s := s.beforeDecision 17) hk .unbound 1)

/-! ### RELEASE_HISTORY (R74) -/

/-- RELEASE_HISTORY reaches the run its argument names. -/
theorem releaseHistory_decided {s : State} {tag a : Word} {r : Run} (hd : s.lc.device = .running)
    (ha : a.toNat = r.val) :
    (s.beforeDecision 17).decideOutcome ⟨tag, 8, a, 0⟩ = (s.beforeDecision 17).releaseHistoryOf r := by
  have hA : argumentA 8 a.toNat = true := by simp [argumentA, ha]
  have hown := own_run (x := ⟨tag, 8, a, 0⟩) hd ⟨by simp, by simp⟩ hA rfl
  have hrun : (s.beforeDecision 17).onRun a State.releaseHistoryOf = (s.beforeDecision 17).releaseHistoryOf r := by
    rw [State.onRun, asRun_val ha]
  exact hown.trans hrun

/-- The table with every HISTORY slot of run r FREE. -/
def RunTable.release (x : RunTable) (r : Run) : RunTable := { x with slots := x.slots.map (Claim.releasedFor r) }

theorem RunTable.release_get (x : RunTable) (r : Run) (k : TallySlot) :
    (x.release r).slots[k] = x.slots[k].releasedFor r := Vector.getElem_map _ _

theorem Claim.releasedFor_history (r : Run) (n : Nat) : (Claim.history r n).releasedFor r = .free := if_pos rfl

theorem Claim.releasedFor_other {r : Run} {x : Claim} (h : ∀ n, x ≠ .history r n) : x.releasedFor r = x := by
  cases x with
  | free => rfl
  | current q => rfl
  | history q n => exact if_neg fun (hq : q = r) => h n (hq ▸ rfl)

/-- The release empties the run's history and marks its report. -/
theorem releaseHistory_law (s : State) (r : Run) :
    TableOp s (s.releaseHistory r) ((s.rt.release r).setRun r { s.run r with historyCount := 0 }) s.channels [] []
      [.run r] := by
  have hmap : TableOp s { s with rt := s.rt.release r } (s.rt.release r) s.channels [] [] [] :=
    ⟨.runs _ (.refl s), rfl, rfl, rfl, rfl, rfl, .same rfl rfl rfl⟩
  exact ((hmap.putRun r { s.run r with historyCount := 0 }).mark (.run r)).as rfl rfl (by simp) (by simp)

/-- The count the command answers with is the number of the run's HISTORY slots. -/
theorem historySlots_eq (s : State) (r : Run) : s.historySlots r = historySlotsOf s r := by
  have hl : s.rt.slots.toList = (List.finRange 384).map fun k : TallySlot => s.claim k := by
    refine List.ext_getElem (by simp) fun i _ _ => ?_
    simp [State.claim]
  rw [State.historySlots, hl, List.filter_map, List.length_map, historySlotsOf]
  congr 1
  refine List.filter_congr fun k _ => ?_
  dsimp only [Function.comp]
  cases s.claim k <;> rfl

theorem releaseHistory_completes {s : State} {tag a : Word} {p : Pos} {r : Run} (h : CommandReady s p tag 8 a 0)
    (hd : s.lc.device = .running) (ha : a.toNat = r.val) :
    ∃ t, exec (.releaseHistory tag a p) s = .next t ∧ Outside s t ∧ t.uptime = s.uptime ∧ t.channels = s.channels ∧
      t.lc = loaderAfter s tag 8 .done (historySlotsOf s r) ∧ t.rv = verifierAfter s 17 (commandRecordOf tag 8 a 0) ∧
      t.rt = (s.rt.release r).setRun r { s.run r with historyCount := 0 } ∧
      Reports s t [commandTaken s tag 8 .done] [] [.result, .run r] := by
  have hout : (s.beforeDecision 17).releaseHistoryOf r =
      ⟨.done, historySlotsOf s r, (s.beforeDecision 17).releaseHistory r⟩ := by
    rw [State.releaseHistoryOf, historySlots_eq]
    rfl
  exact command_table h ((releaseHistory_decided hd ha).trans hout) (releaseHistory_law (s.beforeDecision 17) r)

/-! ### The two commands -/

/-- Settles O47, a command at a time; UNBIND_RUN by whether the run is bound. -/
theorem unbindRunAndReleaseHistoryComplete : Obligations.UnbindRunAndReleaseHistoryComplete := by
  unfold Obligations.UnbindRunAndReleaseHistoryComplete
  refine fun s tag a p r hd ha => ⟨fun h => ⟨fun k hb hk => ?bound, fun hb => ?notBound⟩, fun h => ?release⟩
  case bound =>
    obtain ⟨t, hexec, hout, hup, hch, hlc, hrv, hrt, hrep⟩ := unbindRun_completes h hd ha hb hk
    obtain ⟨hself, hother, hdesc, hslots⟩ := run_of_table (s := s) hrt rfl rfl
    refine ⟨t, hexec, hout, hup, hch, hlc, hrv, hself, hother, hdesc, ?_, fun j hj => ?_, hrep⟩
    · rw [State.claim, hslots, RunTable.setClaim_get]
    · rw [State.claim, hslots, RunTable.setClaim_ne _ _ hj]; rfl
  case notBound =>
    have hout := unbindRun_notBound (s := s.beforeDecision 17) hb
    obtain ⟨t, hexec, hout, hup, hrt, hch, hlc, hrv, hrep⟩ := command_nothing h ((unbindRun_decided hd ha).trans hout)
    exact ⟨t, hexec, hout, hup, hch, hrt, hlc, hrv, hrep⟩
  case release =>
    obtain ⟨t, hexec, hout, hup, hch, hlc, hrv, hrt, hrep⟩ := releaseHistory_completes h hd ha
    obtain ⟨hself, hother, hdesc, hslots⟩ := run_of_table (s := s) hrt rfl rfl
    have hclaim (k : TallySlot) : t.claim k = (s.claim k).releasedFor r := by
      rw [State.claim, hslots, RunTable.release_get]; rfl
    refine ⟨t, hexec, hout, hup, hch, hlc, hrv, hself, hother, hdesc, fun k n hk => ?_, fun k hk => ?_, hrep⟩
    · rw [hclaim, hk, Claim.releasedFor_history]
    · rw [hclaim, Claim.releasedFor_other hk]

end Sys2Proof.Machine
end

section
/-! PROOFS. RUN_DESCRIPTOR accepted (R75, R136, R146). -/

namespace Sys2Proof.Machine

open Sys2Proof.Safety

/-- The table with run r's descriptor in force. -/
def RunTable.setDescriptor (x : RunTable) (r : Run) (d : RunDescriptor) : RunTable :=
  { x with descriptors := x.descriptors.set r.val (some d) }

theorem RunTable.setDescriptor_get (x : RunTable) (r : Run) (d : RunDescriptor) :
    (x.setDescriptor r d).descriptors[r] = some d := Vector.getElem_set_self _

theorem RunTable.setDescriptor_ne (x : RunTable) {r q : Run} (d : RunDescriptor) (h : q ≠ r) :
    (x.setDescriptor r d).descriptors[q] = x.descriptors[q] := by
  have hv : r.val ≠ q.val := fun e => h (Fin.ext e.symm)
  simp [RunTable.setDescriptor, hv]

/-- The acceptance of a run descriptor: the enabled field's effect, then the descriptor in force and
DESCRIPTOR_APPLIED. -/
theorem acceptRun_law {s : State} {r : Run} {d : RunDescriptor} {x : RunTable} {es : List EventRecord} {fs ks}
    (h : TableOp s (s.applyEnabled r d) x s.channels es fs ks) (w : Record) :
    TableOp s (s.acceptRun r d w) (x.setDescriptor r d) s.channels
      (es ++ [eventNow s .descriptorApplied (5 + r.val) (runChanges (s.runDescriptor r) d) w[15].toNat]) fs ks :=
  (putRunDescriptor_op h r d).raise .descriptorApplied (5 + r.val) (runChanges (s.runDescriptor r) d) w[15].toNat

/-- A run descriptor within its ranges is accepted (R145). -/
theorem decideRun_accept {s : State} {r : Run} {w : Record} {d : RunDescriptor} (h : readRun w = some d) :
    s.decideRun r w = .accept (s.acceptRun r d w) := by
  rw [State.decideRun, h]

/-- Settles O40: the record's decision is the acceptance, whose effect on the run is that of the enabled field. -/
theorem runDescriptorsAreAccepted : Obligations.RunDescriptorsAreAccepted := by
  unfold Obligations.RunDescriptorsAreAccepted
  intro s r p v w d hcomp hint hhead hread
  obtain ⟨x, hop, hdesc, hother, hon, hretired, hunbound, hbound⟩ :=
    applyEnabled_law (s.beforeDecision (runDescriptorSlot r)) r d
  have hdecide := (decideRecord_run (s := s.beforeDecision (runDescriptorSlot r)) hint hhead).trans (decideRun_accept hread)
  obtain ⟨t, hexec, hout, hup, hlc, hrv, hrt, hch, hrep⟩ :=
    record_table hcomp (runSlot_class r) hdecide (acceptRun_law hop w)
  have hrun (q : Run) : t.run q = x.runs[q] := by rw [State.run, hrt]; rfl
  have hslots : t.rt.slots = x.slots := by rw [hrt]; rfl
  have hself : t.runDescriptor r = some d := by
    rw [State.runDescriptor, hrt]
    exact RunTable.setDescriptor_get _ _ _
  have hrest (q : Run) (hq : q ≠ r) : t.runDescriptor q = s.runDescriptor q := by
    rw [State.runDescriptor, hrt, RunTable.setDescriptor_ne _ _ hq, hdesc]
    rfl
  simp only [← hrun, ← hslots] at hother hon hretired hunbound hbound
  exact ⟨t, hexec, hout, hup, hlc, hch, hrv, hself, fun q hq => ⟨hrest q hq, hother q hq⟩, hon, hretired, hunbound,
    hbound, hrep⟩

end Sys2Proof.Machine
end

section
/-! PROOFS. The Run Table's operations on an accepted tally (R56, R65 to R70): where the record is placed, and what each
kind of acceptance makes of the table. -/

namespace Sys2Proof.Machine

open Sys2Proof.Safety

/-! ### Marks of one run report -/

/-- The marks are of run r's report alone. -/
def OfRun (r : Run) (ks : List PartSlot) : Prop := ∀ k ∈ ks, k = .run r

theorem OfRun.nil (r : Run) : OfRun r [] := fun _ h => nomatch h

theorem OfRun.ite (r : Run) (p : Prop) [Decidable p] : OfRun r (if p then [] else [.run r]) := by
  split <;> simp [OfRun]

theorem OfRun.append {r : Run} {ks ks' : List PartSlot} (h : OfRun r ks) (h' : OfRun r ks') : OfRun r (ks ++ ks') :=
  fun k hk => (List.mem_append.mp hk).elim (h k) (h' k)

theorem OfRun.one (r : Run) : OfRun r [.run r] := by simp [OfRun]

/-- Marks of run r's report, the report's own mark among them. -/
theorem OfRun.mem_append_self {r : Run} {ks : List PartSlot} (h : OfRun r ks) (k : PartSlot) :
    k ∈ [PartSlot.run r] ↔ k ∈ ks ++ [.run r] := by
  rw [List.mem_append]
  exact ⟨.inr, fun hk => hk.elim (fun hk => List.mem_singleton.mpr (h k hk)) id⟩

/-! ### Placement (R65, R69) -/

/-- The Run Table once the record of run r, whose current slot is `old`, has its place in slot k: in the run's own slot it
stays; else the slot left is HISTORY with the hold in force. -/
def State.placed (s : State) (r : Run) (k old : TallySlot) : RunTable :=
  if k = old then s.rt
  else ((s.rt.setClaim old (.history r (s.uptime + s.historyHold))).setClaim k (.current r)).setRun r
    { s.run r with historyCount := (s.run r).historyCount + 1, currentSlot := some k }

/-- The slot of a bound run's record: its own, or, migrating, a FREE one (R65). -/
def PlacedIn (s : State) (r : Run) (k old : TallySlot) : Prop :=
  s.claim k = .current r ∧ k = old ∨ s.claim k = .free ∧ k ≠ old

/-- RUN_MIGRATED, where the record migrates (R69). -/
def migrated (s : State) (r : Run) (k old : TallySlot) : List EventRecord :=
  if k = old then [] else [eventNow s .runMigrated r.val k.val old.val]

theorem placed_run {s : State} {r : Run} {k old : TallySlot} (h : (s.run r).currentSlot = some old) :
    (s.placed r k old).runs[r] = { s.run r with
      currentSlot := some k, historyCount := (s.run r).historyCount + (if k = old then 0 else 1) } := by
  unfold State.placed
  split
  · next hk => subst hk; rw [← h]; rfl
  · exact RunTable.setRun_get _ _ _

theorem placed_run_ne {s : State} {r q : Run} (k old : TallySlot) (h : q ≠ r) :
    (s.placed r k old).runs[q] = s.run q := by
  unfold State.placed
  split
  · rfl
  · exact RunTable.setRun_ne _ _ h

theorem placed_descriptors (s : State) (r : Run) (k old : TallySlot) :
    (s.placed r k old).descriptors = s.rt.descriptors := by
  unfold State.placed
  split <;> rfl

theorem placed_claim {s : State} {r : Run} {k old : TallySlot} (h : PlacedIn s r k old) :
    (s.placed r k old).slots[k] = .current r := by
  unfold State.placed
  split
  · next hk => exact h.elim And.left fun hf => absurd hk hf.2
  · exact RunTable.setClaim_get _ _ _

theorem placed_claim_left {s : State} (r : Run) {k old : TallySlot} (h : k ≠ old) :
    (s.placed r k old).slots[old] = .history r (s.uptime + s.historyHold) := by
  rw [State.placed, if_neg h]
  exact (RunTable.setClaim_ne _ _ (Ne.symm h)).trans (RunTable.setClaim_get _ _ _)

theorem placed_claim_ne {s : State} (r : Run) {k old j : TallySlot} (h : j ≠ k) (h' : j ≠ old) :
    (s.placed r k old).slots[j] = s.claim j := by
  unfold State.placed
  split
  · rfl
  · exact (RunTable.setClaim_ne _ _ h).trans (RunTable.setClaim_ne _ _ h')

/-- The slot becomes the run's CURRENT slot. -/
theorem TableOp.makeCurrent {s t : State} {x : RunTable} {y : Vector Channel 4} {es : List EventRecord} {fs : List Flag}
    {ks : List PartSlot} (h : TableOp s t x y es fs ks) (r : Run) (k : TallySlot) :
    ∃ m, OfRun r m ∧ TableOp s (t.makeCurrent r k)
      ((x.setClaim k (.current r)).setRun r { x.runs[r] with currentSlot := some k }) y es fs (ks ++ m) := by
  have hput := (h.setClaim k (.current r)).putRun r { x.runs[r] with currentSlot := some k }
  have he : t.makeCurrent r k = (t.setClaim k (.current r)).putRun r { x.runs[r] with currentSlot := some k } := by
    rw [State.makeCurrent, h.run]
  rw [he]
  refine ⟨_, ?_, hput⟩
  exact .ite r _

/-- A bound run's record takes its place. -/
theorem placeBound_law {s : State} {r : Run} {k old : TallySlot} (h : (s.run r).currentSlot = some old)
    (hk : PlacedIn s r k old) :
    ∃ m, OfRun r m ∧ TableOp s (s.placeBound r k) (s.placed r k old) s.channels (migrated s r k old) [] m := by
  rcases hk with ⟨hc, rfl⟩ | ⟨hf, hne⟩
  · refine ⟨[], .nil r, ?_⟩
    have he : s.placeBound r k = s := by rw [State.placeBound, hc]
    rw [he, State.placed, migrated, if_pos rfl, if_pos rfl]
    exact .refl s
  · obtain ⟨m, hm, hcur⟩ := (leaveSlot_law h).makeCurrent r k
    have hn : (s.run r).slotNumber = old.val := by rw [RunEntry.slotNumber, h]
    have he : s.placeBound r k = ((s.leaveSlot r).makeCurrent r k).raise .runMigrated r.val k.val old.val := by
      rw [State.placeBound, hf, ← hn]; rfl
    refine ⟨_, (OfRun.one r).append hm, ?_⟩
    rw [he, State.placed, migrated, if_neg hne, if_neg hne]
    refine (hcur.raise .runMigrated r.val k.val old.val).as ?_ rfl (by simp) (by simp)
    rw [RunTable.setRun_get]
    simp [RunTable.setRun, RunTable.setClaim]

/-- What the table holds once run r's entry of a placed table is replaced. -/
theorem run_of_placed {s t : State} {r : Run} {k old : TallySlot} {e : RunEntry} (hk : PlacedIn s r k old)
    (h : t.rt = (s.placed r k old).setRun r e) :
    t.run r = e ∧ (∀ q, q ≠ r → t.run q = s.run q) ∧ t.rt.descriptors = s.rt.descriptors ∧ t.claim k = .current r ∧
      (k ≠ old → t.claim old = .history r (s.uptime + s.historyHold)) ∧
      ∀ j, j ≠ k → j ≠ old → t.claim j = s.claim j := by
  have hclaim (j : TallySlot) : t.claim j = (s.placed r k old).slots[j] := by rw [State.claim, h]; rfl
  refine ⟨?_, fun q hq => ?_, ?_, ?_, fun hne => ?_, fun j hj hj' => ?_⟩
  · rw [State.run, h, RunTable.setRun_get]
  · rw [State.run, h, RunTable.setRun_ne _ _ hq, placed_run_ne k old hq]
  · rw [h]; exact placed_descriptors s r k old
  · rw [hclaim, placed_claim hk]
  · rw [hclaim, placed_claim_left r hne]
  · rw [hclaim, placed_claim_ne r hj hj']

/-! ### The tally checks (R59 to R64) -/

/-- The slot admits the run's record: FREE, or the run's own (R61). -/
theorem admits_of_placedIn {s : State} {r : Run} {k old : TallySlot} (h : PlacedIn s r k old) :
    (s.claim k).admits r = true := by
  rcases h with ⟨hc, _⟩ | ⟨hf, _⟩
  · rw [hc]; exact decide_eq_true rfl
  · rw [hf]; rfl

/-- No tally check fails: the run is not held, the slot admits its record, and what is compared with the shadow is in
order (R60 to R64). -/
theorem tallyRunReason_zero {s : State} {r : Run} {k : TallySlot} {x : TallyFields} (hheld : (s.run r).held = false)
    (hadmits : (s.claim k).admits r = true)
    (hseq : (s.run r).comparable = true → x.sequence = (s.run r).shadowSequence + 1)
    (htotal : (s.run r).condition.bound = true → (s.run r).shadowTotal ≤ x.total)
    (hplausible : (s.run r).comparable = true →
      plausible (s.runDescriptor r) (s.age r) (s.run r).shadowTotal x = true) :
    s.tallyRunReason r k x = 0 := by
  have h8 : ((s.run r).comparable && decide (x.sequence ≠ (s.run r).shadowSequence + 1)) = false := by
    simpa using hseq
  have h9 : ((s.run r).condition.bound && decide (x.total < (s.run r).shadowTotal)) = false := by
    simpa using htotal
  have h10 : ((s.run r).comparable && !plausible (s.runDescriptor r) (s.age r) (s.run r).shadowTotal x) = false := by
    simpa using hplausible
  simp only [State.tallyRunReason, hheld, hadmits, h8, h9, h10, Bool.not_true, Bool.false_eq_true, if_false]

theorem not_retired_of_bound {v : RunCondition} (h : v.bound = true) : v ≠ .retired := by
  rintro rfl
  exact absurd h (by decide)

/-- A tally that no check fails, from the operation of its acceptance to the answer (R65, R70): the table ends with run
r's entry shadowing the record. -/
theorem tally_accepted {s u : State} {k : TallySlot} {p : Pos} {v : Word} {w : Record} {r : Run} {x : RunTable}
    {y : Vector Channel 4} {e : RunEntry} {es : List EventRecord} {fs : List Flag} {ks ks' : List PartSlot}
    (hcomp : Completes s (tallySlotOf k) p v w) (hint : intact w = true) (hhead : w[0] = headWord 0x55 r.val)
    (hcond : (s.run r).condition ≠ .retired) (hzero : s.tallyRunReason r k (readTally w) = 0)
    (hu : (s.beforeDecision (tallySlotOf k)).acceptTally r k (readTally w) = u.acceptCommon r (readTally w))
    (hop : TableOp (s.beforeDecision (tallySlotOf k)) u (x.setRun r e) y es fs ks) (hx : x.descriptors = s.rt.descriptors)
    (hks : ∀ j, j ∈ ks' ↔ j ∈ ks ++ [.run r]) :
    ∃ t, exec (.tallyRecord k p v) s = .next t ∧ Outside s t ∧ t.uptime = s.uptime ∧ t.lc = s.lc ∧
      t.rv = verifierAfter s (tallySlotOf k) w ∧
      t.rt = x.setRun r (shadowed e w s.count s.uptime (s.runDescriptor r)) ∧ t.channels = y ∧
      Reports s t es fs ks' := by
  have hdecide := (decideRecord_tally (s := s.beforeDecision (tallySlotOf k)) (k := k) hint hhead).trans
    (decideTally_accept hhead hcond hzero)
  obtain ⟨t, hexec, hout, hup, hlc, hrv, hrt, hch, hrep⟩ :=
    record_table hcomp (tallySlot_class k) (hdecide.trans (congrArg _ hu))
      ((acceptCommon_law hop r w).as rfl rfl (fun _ => Iff.rfl) fun j => .inl (hks j))
  refine ⟨t, hexec, hout, hup, hlc, hrv, ?_, hch, hrep⟩
  rw [hrt, RunTable.setRun_setRun, RunTable.setRun_get, show (x.setRun r e).descriptors[r] = s.runDescriptor r by
    change x.descriptors[r] = _
    rw [hx]; rfl]
  rfl

end Sys2Proof.Machine
end

section
/-! PROOFS. The two baselines of a tally record (R65 to R67, R69, R70): neither doses. -/

namespace Sys2Proof.Machine

open Sys2Proof.Safety

/-! ### The binding baseline (R66) -/

theorem acceptTally_unbound {s : State} {r : Run} (k : TallySlot) (x : TallyFields)
    (h : (s.run r).condition.bound = false) : s.acceptTally r k x = (s.bindRun r k x).acceptCommon r x := by
  simp only [State.acceptTally, h, Bool.not_false, if_true]

/-- The slot becomes CURRENT, with RUN_BOUND and RUN_BASELINE of value 0. -/
theorem bindRun_law (s : State) (r : Run) (k : TallySlot) (x : TallyFields) :
    ∃ m, OfRun r m ∧ TableOp s (s.bindRun r k x)
      ((s.rt.setClaim k (.current r)).setRun r { s.run r with currentSlot := some k }) s.channels
      [eventNow s .runBound r.val k.val x.total, eventNow s .runBaseline r.val k.val 0] [] m := by
  obtain ⟨m, hm, hcur⟩ := (TableOp.refl s).makeCurrent r k
  exact ⟨m, hm, (hcur.raise .runBound r.val k.val x.total).raise .runBaseline r.val k.val 0⟩

theorem bindingBaseline_completes {s : State} {k : TallySlot} {p : Pos} {v : Word} {w : Record} {r : Run}
    (hcomp : Completes s (tallySlotOf k) p v w) (hint : intact w = true) (hhead : w[0] = headWord 0x55 r.val)
    (hheld : (s.run r).held = false) (hcond : (s.run r).condition = .unbound) (hfree : s.claim k = .free) :
    ∃ t, exec (.tallyRecord k p v) s = .next t ∧ Outside s t ∧ t.uptime = s.uptime ∧ t.lc = s.lc ∧
      t.rv = verifierAfter s (tallySlotOf k) w ∧
      t.rt = (s.rt.setClaim k (.current r)).setRun r
        (shadowed { s.run r with currentSlot := some k } w s.count s.uptime (s.runDescriptor r)) ∧
      t.channels = s.channels ∧
      Reports s t [eventNow s .runBound r.val k.val (num3 w[2] w[3] w[4]), eventNow s .runBaseline r.val k.val 0] []
        [.run r] := by
  have hbound : (s.run r).condition.bound = false := by rw [hcond]; rfl
  have hcomparable : (s.run r).comparable = false := by rw [RunEntry.comparable, hbound]; rfl
  have hzero : s.tallyRunReason r k (readTally w) = 0 :=
    tallyRunReason_zero hheld (by rw [hfree]; rfl) (by simp [hcomparable]) (by simp [hbound]) (by simp [hcomparable])
  obtain ⟨m, hm, hop⟩ := bindRun_law (s.beforeDecision (tallySlotOf k)) r k (readTally w)
  exact tally_accepted hcomp hint hhead (by rw [hcond]; decide) hzero (acceptTally_unbound k _ hbound)
    hop rfl hm.mem_append_self

/-! ### The load baseline (R67) -/

theorem acceptTally_awaiting {s : State} {r : Run} (k : TallySlot) (x : TallyFields)
    (hb : (s.run r).condition.bound = true) (ha : (s.run r).awaitingBaseline = true) :
    s.acceptTally r k x = (s.loadBaseline r k x).acceptCommon r x := by
  simp only [State.acceptTally, hb, ha, Bool.not_true, Bool.false_eq_true, if_false, if_true]

/-- The run entry after a load baseline in slot k: E is 0, C stays, no baseline is awaited. -/
def baselined (e : RunEntry) (k old : TallySlot) : RunEntry :=
  { e with
    currentSlot := some k, historyCount := e.historyCount + (if k = old then 0 else 1), estimated := 0
    awaitingBaseline := false }

/-- The record takes its place; RUN_BASELINE carries the increment, and a spell ends with RUN_LIVE (R67, R88). -/
theorem loadBaseline_law {s : State} {r : Run} {k old : TallySlot} (h : (s.run r).currentSlot = some old)
    (hk : PlacedIn s r k old) (x : TallyFields) :
    ∃ m, OfRun r m ∧ TableOp s (s.loadBaseline r k x) ((s.placed r k old).setRun r (baselined (s.run r) k old)) s.channels
      (migrated s r k old ++ eventNow s .runBaseline r.val k.val (x.total - (s.run r).shadowTotal) :: spellEnd s r k)
      [] m := by
  obtain ⟨m, hm, hplace⟩ := placeBound_law h hk
  have hrun : (s.placeBound r k).run r = _ := (hplace.run r).trans (placed_run h)
  have hlive := raiseRunLive_law (hplace.raise .runBaseline r.val k.val (x.total - (s.run r).shadowTotal)) r k (s.run r)
  have hput := hlive.putRun r (baselined (s.run r) k old)
  have he : s.loadBaseline r k x = (((s.placeBound r k).raise .runBaseline r.val k.val
      (x.total - (s.run r).shadowTotal)).raiseRunLive r k (s.run r)).putRun r (baselined (s.run r) k old) := by
    rw [State.loadBaseline, hrun]; rfl
  rw [he]
  refine ⟨_, hm.append ?_, hput.as rfl ?_ (fun _ => Iff.rfl) fun _ => .inl Iff.rfl⟩
  · exact .ite r _
  · simp [spellEnd]

theorem loadBaseline_completes {s : State} {k old : TallySlot} {p : Pos} {v : Word} {w : Record} {r : Run}
    (hcomp : Completes s (tallySlotOf k) p v w) (hint : intact w = true) (hhead : w[0] = headWord 0x55 r.val)
    (hheld : (s.run r).held = false) (hbound : (s.run r).condition.bound = true)
    (hawaits : (s.run r).awaitingBaseline = true) (hold : (s.run r).currentSlot = some old) (hk : PlacedIn s r k old)
    (htotal : (s.run r).shadowTotal ≤ num3 w[2] w[3] w[4]) :
    ∃ t, exec (.tallyRecord k p v) s = .next t ∧ Outside s t ∧ t.uptime = s.uptime ∧ t.lc = s.lc ∧
      t.rv = verifierAfter s (tallySlotOf k) w ∧
      t.rt = (s.placed r k old).setRun r
        (shadowed (baselined (s.run r) k old) w s.count s.uptime (s.runDescriptor r)) ∧
      t.channels = s.channels ∧
      Reports s t (migrated s r k old ++
        eventNow s .runBaseline r.val k.val (num3 w[2] w[3] w[4] - (s.run r).shadowTotal) :: spellEnd s r k) []
        [.run r] := by
  have hcomparable : (s.run r).comparable = false := by rw [RunEntry.comparable, hawaits]; simp
  have hzero : s.tallyRunReason r k (readTally w) = 0 :=
    tallyRunReason_zero hheld (admits_of_placedIn hk) (by simp [hcomparable]) (fun _ => htotal) (by simp [hcomparable])
  obtain ⟨m, hm, hop⟩ := loadBaseline_law (s := s.beforeDecision (tallySlotOf k)) hold hk (readTally w)
  exact tally_accepted hcomp hint hhead (not_retired_of_bound hbound) hzero (acceptTally_awaiting k _ hbound hawaits)
    hop (placed_descriptors s r k old) hm.mem_append_self

/-- Settles O33: the binding baseline, then the load baseline. -/
theorem baselinesDoseNothing : Obligations.BaselinesDoseNothing := by
  unfold Obligations.BaselinesDoseNothing
  refine fun s k p v w r hcomp hint hhead hheld => ⟨fun hcond hfree => ?binding, fun old hb ha ho hk hn => ?load⟩
  case binding =>
    obtain ⟨t, hexec, hout, hup, hlc, hrv, hrt, hch, hrep⟩ :=
      bindingBaseline_completes hcomp hint hhead hheld hcond hfree
    obtain ⟨hself, hother, hdesc, hslots⟩ := run_of_table (s := s) hrt rfl rfl
    refine ⟨t, hexec, hout, hup, hlc, hch, hrv, hself, hother, hdesc, ?_, fun j hj => ?_, hrep⟩
    · rw [State.claim, hslots, RunTable.setClaim_get]
    · rw [State.claim, hslots, RunTable.setClaim_ne _ _ hj]; rfl
  case load =>
    obtain ⟨t, hexec, hout, hup, hlc, hrv, hrt, hch, hrep⟩ :=
      loadBaseline_completes hcomp hint hhead hheld hb ha ho hk hn
    obtain ⟨hself, hother, hdesc, hnew, hleft, hrest⟩ := run_of_placed hk hrt
    exact ⟨t, hexec, hout, hup, hlc, hch, hrv, hself, hother, hdesc, hnew, hleft, hrest, hrep⟩

end Sys2Proof.Machine
end

section
/-! PROOFS. The ordinary acceptance of a tally record (R62 to R65, R68 to R70, R87, R88, R93 to R95): the increment is
reconciled and what is left of it is routed. -/

namespace Sys2Proof.Machine

open Sys2Proof.Safety

/-! ### Routing seen from a state with the same channels and clock -/

theorem chan_same {s u : State} (hc : u.channels = s.channels) : u.chan = s.chan := by
  funext c
  rw [State.chan, hc]
  rfl

theorem receiverOf_same {s u : State} (hc : u.channels = s.channels) (d : RunDescriptor) :
    receiverOf u d = receiverOf s d := by
  unfold receiverOf
  rw [chan_same hc]

theorem demandEvents_same {s u : State} (hc : u.channels = s.channels) (ht : u.uptime = s.uptime) (t : State) (c : Chan)
    (cause : Nat) : demandEvents u t c cause = demandEvents s t c cause := by
  unfold demandEvents eventNow State.count
  rw [chan_same hc, ht]

theorem demandFlags_same {s u : State} (hc : u.channels = s.channels) (t : State) (c : Chan) :
    demandFlags u t c = demandFlags s t c := by
  unfold demandFlags
  rw [chan_same hc]

theorem volumeRouted_same {s u t v : State} (hc : u.channels = s.channels) (ht : u.uptime = s.uptime)
    (hv : v.channels = t.channels) {d : RunDescriptor} {n : Nat} (h : VolumeRouted u t d n) : VolumeRouted s v d n := by
  unfold VolumeRouted at h ⊢
  rwa [receiverOf_same hc, chan_same hc, ht, ← chan_same hv] at h

theorem unroutedAfter_same {s u : State} {r : Run} (hc : u.channels = s.channels)
    (hr : (u.run r).unrouted = (s.run r).unrouted) (d : RunDescriptor) (n : Nat) :
    unroutedAfter u r d n = unroutedAfter s r d n := by
  unfold unroutedAfter
  rw [receiverOf_same hc, chan_same hc, hr]

/-! ### Reconciliation (R87) -/

/-- The run entry after an ordinary acceptance in slot k, the volume left unrouted being `u`. -/
def netted (e : RunEntry) (k old : TallySlot) (increment u : Nat) : RunEntry :=
  { e with
    currentSlot := some k
    historyCount := e.historyCount + (if k = old then 0 else 1)
    estimated := 0
    credit := if e.estimated ≤ increment then e.credit - min e.credit (increment - e.estimated)
      else satAdd Config.max48 e.credit (e.estimated - increment)
    unrouted := u }

theorem reconciled_eq (e : RunEntry) (n : Nat) : e.reconciled n = { e with
    estimated := 0
    credit := if e.estimated ≤ n then e.credit - min e.credit (n - e.estimated)
      else satAdd Config.max48 e.credit (e.estimated - n) } := by
  unfold RunEntry.reconciled
  split <;> rfl

/-- The volume dosed is what E and C leave of the increment (R87). -/
theorem dosed_eq (e : RunEntry) (n : Nat) : e.dosed n = n - e.estimated - min e.credit (n - e.estimated) := by
  unfold RunEntry.dosed
  split
  · rfl
  · next h => omega

/-! ### The acceptance (R68) -/

theorem acceptTally_ordinary {s : State} {r : Run} (k : TallySlot) (x : TallyFields)
    (hb : (s.run r).condition.bound = true) (ha : (s.run r).awaitingBaseline = false) :
    s.acceptTally r k x = (s.ordinaryAcceptance r k x).acceptCommon r x := by
  simp only [State.acceptTally, hb, ha, Bool.not_true, Bool.false_eq_true, if_false]

/-- The state in which an ordinary acceptance routes its volume: the record placed, the increment netted, RUN_LIVE
raised. -/
def State.reconciledAt (r : Run) (k : TallySlot) (x : TallyFields) (s : State) : State :=
  ((s.placeBound r k).putRun r (((s.placeBound r k).run r).reconciled (x.total - (s.run r).shadowTotal))).raiseRunLive r k
    (s.run r)

theorem ordinaryAcceptance_eq (s : State) (r : Run) (k : TallySlot) (x : TallyFields) :
    s.ordinaryAcceptance r k x =
      (s.reconciledAt r k x).route r ((s.run r).dosed (x.total - (s.run r).shadowTotal)) := rfl

theorem reconciledAt_law {s : State} {r : Run} {k old : TallySlot} (h : (s.run r).currentSlot = some old)
    (hk : PlacedIn s r k old) (x : TallyFields) :
    ∃ m, OfRun r m ∧ TableOp s (s.reconciledAt r k x)
      ((s.placed r k old).setRun r
        (netted (s.run r) k old (x.total - (s.run r).shadowTotal) (s.run r).unrouted)) s.channels
      (migrated s r k old ++ spellEnd s r k) [] m := by
  obtain ⟨m, hm, hplace⟩ := placeBound_law h hk
  have hrun : (s.placeBound r k).run r = _ := (hplace.run r).trans (placed_run h)
  have hentry : ((s.placeBound r k).run r).reconciled (x.total - (s.run r).shadowTotal) =
      netted (s.run r) k old (x.total - (s.run r).shadowTotal) (s.run r).unrouted := by
    rw [hrun, reconciled_eq]; rfl
  rw [State.reconciledAt, hentry]
  refine ⟨_, hm.append ?_, raiseRunLive_law (hplace.putRun r _) r k (s.run r)⟩
  exact .ite r _

/-- The volume dosed is routed from there (R68, R87). -/
theorem ordinaryAcceptance_law {s u : State} {r : Run} {k old : TallySlot} {d : RunDescriptor} {x : TallyFields}
    {n dose : Nat} (h : (s.run r).currentSlot = some old) (hk : PlacedIn s r k old) (hd : s.runDescriptor r = some d)
    (hn : n = x.total - (s.run r).shadowTotal) (hdose : dose = (s.run r).dosed n) (hu : u = s.ordinaryAcceptance r k x) :
    ∃ m y, OfRun r m ∧
      TableOp s u ((s.placed r k old).setRun r (netted (s.run r) k old n (unroutedAfter s r d dose))) y
        (migrated s r k old ++ spellEnd s r k ++ demandEvents s u (receiverOf s d) r.val)
        (demandFlags s u (receiverOf s d))
        (m ++ if sameReport (s.chan (receiverOf s d)) (u.chan (receiverOf s d)) then [] else [.channel (receiverOf s d)]) ∧
      VolumeRouted s u d dose := by
  obtain ⟨m, hm, hlive⟩ := reconciledAt_law h hk x
  rw [ordinaryAcceptance_eq, ← hn, ← hdose] at hu
  rw [← hn] at hlive
  generalize s.reconciledAt r k x = q at hlive hu
  subst hu
  have hqrun : q.run r = netted (s.run r) k old n (s.run r).unrouted := (hlive.run r).trans (RunTable.setRun_get _ _ _)
  have hqd : q.runDescriptor r = some d := by
    rw [State.runDescriptor, hlive.rt, ← hd, State.runDescriptor, ← placed_descriptors s r k old]; rfl
  have hqchan : q.chan = s.chan := chan_same hlive.channels
  have hun : unroutedAfter q r d dose = unroutedAfter s r d dose :=
    unroutedAfter_same hlive.channels (by rw [hqrun]; rfl) d dose
  obtain ⟨y, hroute, hvol⟩ := route_law hqd dose
  have hop := hlive.trans hroute
  rw [receiverOf_same hlive.channels, demandEvents_same hlive.channels hlive.uptime, demandFlags_same hlive.channels,
    hqrun, hqchan, hun, hlive.rt, RunTable.setRun_setRun, ← List.append_assoc m] at hop
  refine ⟨_, y, hm.append ?_, hop, volumeRouted_same hlive.channels hlive.uptime rfl hvol⟩
  exact .ite r _

theorem ordinaryAcceptance_completes {s : State} {k old : TallySlot} {p : Pos} {v : Word} {w : Record} {r : Run}
    {d : RunDescriptor} {n : Nat} (hcomp : Completes s (tallySlotOf k) p v w) (hint : intact w = true)
    (hhead : w[0] = headWord 0x55 r.val) (hbound : (s.run r).condition.bound = true)
    (hawaits : (s.run r).awaitingBaseline = false) (hold : (s.run r).currentSlot = some old) (hk : PlacedIn s r k old)
    (hzero : s.tallyRunReason r k (readTally w) = 0) (hd : s.runDescriptor r = some d)
    (hn : n = num3 w[2] w[3] w[4] - (s.run r).shadowTotal) :
    ∃ t, exec (.tallyRecord k p v) s = .next t ∧ Outside s t ∧ t.uptime = s.uptime ∧ t.lc = s.lc ∧
      t.rv = verifierAfter s (tallySlotOf k) w ∧
      t.rt = (s.placed r k old).setRun r
        (shadowed (netted (s.run r) k old n (unroutedAfter s r d (dosedBy s r w))) w s.count s.uptime (some d)) ∧
      VolumeRouted s t d (dosedBy s r w) ∧
      Reports s t (migrated s r k old ++ spellEnd s r k ++ demandEvents s t (receiverOf s d) r.val)
        (demandFlags s t (receiverOf s d))
        (.run r :: if sameReport (s.chan (receiverOf s d)) (t.chan (receiverOf s d)) then []
          else [.channel (receiverOf s d)]) := by
  have hdose : dosedBy s r w = (s.run r).dosed n := by rw [dosed_eq, hn]; rfl
  have hu := acceptTally_ordinary (s := s.beforeDecision (tallySlotOf k)) k (readTally w) hbound hawaits
  generalize hq : (s.beforeDecision (tallySlotOf k)).ordinaryAcceptance r k (readTally w) = q at hu
  obtain ⟨m, y, hm, hop, hvol⟩ :=
    ordinaryAcceptance_law (s := s.beforeDecision (tallySlotOf k)) hold hk hd hn hdose hq.symm
  obtain ⟨t, hexec, hout, hup, hlc, hrv, hrt, hch, hrep⟩ :=
    tally_accepted (ks' := .run r :: if sameReport (s.chan (receiverOf s d)) (q.chan (receiverOf s d)) then []
      else [.channel (receiverOf s d)]) hcomp hint hhead (not_retired_of_bound hbound) hzero hu hop
      (placed_descriptors s r k old) fun j => by
        have hj := hm.mem_append_self j
        simp only [List.mem_append, List.mem_cons, List.not_mem_nil, or_false] at hj ⊢
        tauto
  have hqt : t.channels = q.channels := hch.trans hop.channels.symm
  have hchan : t.chan = q.chan := chan_same hqt
  rw [hd] at hrt
  refine ⟨t, hexec, hout, hup, hlc, hrv, hrt, volumeRouted_same rfl rfl hqt hvol, ?_⟩
  rw [demandEvents_chan (congrFun hchan _), demandFlags_chan (congrFun hchan _), hchan]
  exact hrep

/-- Settles O35: the statement's conditions are the checks of R60 to R64, so the record is accepted. -/
theorem talliesReconcile : Obligations.TalliesReconcile := by
  unfold Obligations.TalliesReconcile
  intro s k old p v w r d hcomp hint hhead hbound hheld hawaits hold hk hseq htotal hd hrate hslack
  have hplausible : plausible (s.runDescriptor r) (s.age r) (s.run r).shadowTotal (readTally w) = true := by
    rw [hd]
    exact Bool.and_eq_true_iff.mpr ⟨decide_eq_true hrate, decide_eq_true hslack⟩
  have hzero : s.tallyRunReason r k (readTally w) = 0 :=
    tallyRunReason_zero hheld (admits_of_placedIn hk) (fun _ => hseq) (fun _ => htotal) fun _ => hplausible
  obtain ⟨t, hexec, hout, hup, hlc, hrv, hrt, hvol, hrep⟩ :=
    ordinaryAcceptance_completes hcomp hint hhead hbound hawaits hold hk hzero hd rfl
  obtain ⟨hself, hother, hdesc, hnew, hleft, hrest⟩ := run_of_placed hk hrt
  exact ⟨t, hexec, hout, hup, hlc, hrv, hself, hother, hdesc, hnew, hleft, hrest, hvol, hrep⟩

end Sys2Proof.Machine
end

section
/-! PROOFS. The Run Table and its slot map, one run at a time (R53 to R57, R82, R85): what each kind of change to the table
keeps of their agreement. -/

namespace Sys2Proof.Machine

open Sys2Proof.Safety

/-! ### The agreement of one run with a slot map -/

/-- The run a claim names. -/
def Claim.owner : Claim → Option Run
  | .free => none
  | .current r => some r
  | .history r _ => some r

/-- The claim is HISTORY of run r. -/
def Claim.historyOf (r : Run) : Claim → Bool
  | .free => false
  | .current _ => false
  | .history q _ => decide (q = r)

theorem Claim.historyOf_iff {r : Run} {x : Claim} : x.historyOf r = true ↔ ∃ n, x = .history r n := by
  cases x <;> simp [Claim.historyOf]

/-- Run r's HISTORY slots in a slot map. -/
def historyIn (m : Vector Claim 384) (r : Run) : Finset TallySlot := Finset.univ.filter fun k => m[k].historyOf r = true

theorem mem_historyIn {m : Vector Claim 384} {r : Run} {k : TallySlot} :
    k ∈ historyIn m r ↔ ∃ n, m[k] = .history r n := by
  rw [historyIn, Finset.mem_filter, Claim.historyOf_iff]
  exact and_iff_right (Finset.mem_univ k)

/-- Outside a STALE or LOST spell E is 0 and no substitution timer runs (R82, R85). -/
def Quiet (e : RunEntry) : Prop :=
  e.condition ≠ .stale → e.condition ≠ .lost → e.estimated = 0 ∧ e.substitution = none

/-- A run's entry agrees with the slot map. -/
structure TiedRun (m : Vector Claim 384) (r : Run) (e : RunEntry) : Prop where
  bound : e.condition.bound = e.currentSlot.isSome
  current : ∀ k : TallySlot, e.currentSlot = some k ↔ m[k] = .current r
  history : e.historyCount = (historyIn m r).card
  quiet : Quiet e

/-- Every run's entry agrees with the slot map. -/
def Tied (x : RunTable) : Prop := ∀ r : Run, TiedRun x.slots r x.runs[r]

theorem historySlotsOf_eq_card (s : State) (r : Run) : historySlotsOf s r = (historyIn s.rt.slots r).card := by
  have hset : historyIn s.rt.slots r = ((List.finRange 384).filter fun k => (s.claim k).historyOf r).toFinset := by
    ext k
    simp [historyIn, State.claim]
  have hnodup := (List.nodup_finRange 384).filter fun k => (s.claim k).historyOf r
  rw [hset, List.toFinset_card_of_nodup hnodup, historySlotsOf]
  congr 1
  refine List.filter_congr fun k _ => ?_
  cases s.claim k <;> rfl

theorem runTableWf_iff (s : State) : RunTableWf s ↔ Tied s.rt := by
  constructor
  · exact fun h r => ⟨h.bound r, h.current r, (h.history r).trans (historySlotsOf_eq_card s r), h.estimate r⟩
  · exact fun h => ⟨fun r => (h r).bound, fun r => (h r).current,
      fun r => (h r).history.trans (historySlotsOf_eq_card s r).symm, fun r => (h r).quiet⟩

namespace TiedRun
variable {m m' : Vector Claim 384} {r : Run} {e f : RunEntry} {k : TallySlot}

/-- A map with the same slots of the run. -/
theorem map (h : TiedRun m r e) (hc : ∀ k : TallySlot, m'[k] = .current r ↔ m[k] = .current r)
    (hh : ∀ (k : TallySlot) n, m'[k] = .history r n ↔ m[k] = .history r n) : TiedRun m' r e where
  bound := h.bound
  current k := (h.current k).trans (hc k).symm
  history := by
    have hset : historyIn m' r = historyIn m r := by ext k; simp only [mem_historyIn, hh]
    rw [hset, h.history]
  quiet := h.quiet

/-- A change of a slot that was not the run's and does not become it. -/
theorem setOther (h : TiedRun m r e) {c : Claim} (hold : m[k].owner ≠ some r) (hnew : c.owner ≠ some r) :
    TiedRun (m.set k.val c) r e := by
  have hget (j : TallySlot) (x : Claim) (hx : x.owner = some r) : (m.set k.val c)[j] = x ↔ m[j] = x := by
    by_cases hj : j = k
    · subst hj
      rw [show (m.set j.val c)[j] = c from Vector.getElem_set_self _]
      exact ⟨fun hc => absurd (hc ▸ hx) hnew, fun hm => absurd (hm ▸ hx) hold⟩
    · rw [show (m.set k.val c)[j] = m[j] from Vector.getElem_set_ne _ j.isLt fun hv => hj (Fin.ext hv.symm)]
  exact h.map (fun j => hget j _ rfl) fun j n => hget j _ rfl

/-- An entry with the same binding and history. -/
theorem entry (h : TiedRun m r e) (hb : f.condition.bound = e.condition.bound) (hc : f.currentSlot = e.currentSlot)
    (hh : f.historyCount = e.historyCount) (hq : Quiet f) : TiedRun m r f where
  bound := by rw [hb, hc, h.bound]
  current k := hc ▸ h.current k
  history := hh.trans h.history
  quiet := hq

end TiedRun

namespace Tied
variable {x : RunTable} {r : Run} {e : RunEntry} {k : TallySlot}

/-- One run's entry is replaced, and the slot map changes in slots of that run alone. -/
theorem replace {y : RunTable} (hr : TiedRun y.slots r e) (hq : ∀ q, q ≠ r → TiedRun y.slots q y.runs[q]) :
    Tied (y.setRun r e) := by
  intro q
  by_cases h : q = r
  · subst h; rw [RunTable.setRun_get]; exact hr
  · rw [RunTable.setRun_ne _ _ h]; exact hq q h

/-- A run's entry changes in nothing of its binding. -/
theorem setRun (h : Tied x) (hb : e.condition.bound = x.runs[r].condition.bound)
    (hc : e.currentSlot = x.runs[r].currentSlot) (hh : e.historyCount = x.runs[r].historyCount) (hq : Quiet e) :
    Tied (x.setRun r e) :=
  replace ((h r).entry hb hc hh hq) fun q _ => h q

/-- A run with no current slot takes a FREE one (R66). -/
theorem bind (h : Tied x) (hfree : x.slots[k] = .free) (hnone : x.runs[r].currentSlot = none)
    (hb : e.condition.bound = true) (hc : e.currentSlot = some k) (hh : e.historyCount = x.runs[r].historyCount)
    (hq : Quiet e) : Tied ((x.setClaim k (.current r)).setRun r e) := by
  have hother (j : TallySlot) (hj : j ≠ k) : (x.setClaim k (.current r)).slots[j] = x.slots[j] :=
    RunTable.setClaim_ne _ _ hj
  have hself : (x.setClaim k (.current r)).slots[k] = .current r := RunTable.setClaim_get _ _ _
  refine replace ⟨by rw [hb, hc]; rfl, fun j => ?_, ?_, hq⟩ fun q hqr => ?_
  · by_cases hj : j = k
    · subst hj; exact ⟨fun _ => hself, fun _ => hc⟩
    · rw [hother j hj, ← (h r).current, hc, hnone]
      simp [Ne.symm hj]
  · rw [hh, (h r).history]
    congr 1
    ext j
    rw [mem_historyIn, mem_historyIn]
    by_cases hj : j = k
    · subst hj; rw [hself, hfree]; simp
    · rw [hother j hj]
  · exact (h q).setOther (by rw [hfree]; simp [Claim.owner]) (by simp [Claim.owner, Ne.symm hqr])

/-- A run leaves its current slot, which enters HISTORY (R56). -/
theorem leave (h : Tied x) (n : Nat) (hcur : x.runs[r].currentSlot = some k) (hb : e.condition.bound = false)
    (hc : e.currentSlot = none) (hh : e.historyCount = x.runs[r].historyCount + 1) (hq : Quiet e) :
    Tied ((x.setClaim k (.history r n)).setRun r e) := by
  have hclaim : x.slots[k] = .current r := ((h r).current k).mp hcur
  have hother (j : TallySlot) (hj : j ≠ k) : (x.setClaim k (.history r n)).slots[j] = x.slots[j] :=
    RunTable.setClaim_ne _ _ hj
  have hself : (x.setClaim k (.history r n)).slots[k] = .history r n := RunTable.setClaim_get _ _ _
  refine replace ⟨by rw [hb, hc]; rfl, fun j => ?_, ?_, hq⟩ fun q hqr => ?_
  · by_cases hj : j = k
    · subst hj; rw [hself, hc]; simp
    · rw [hother j hj, ← (h r).current, hc, hcur]
      simp [Ne.symm hj]
  · have hset : historyIn (x.setClaim k (.history r n)).slots r = insert k (historyIn x.slots r) := by
      ext j
      rw [Finset.mem_insert, mem_historyIn, mem_historyIn]
      by_cases hj : j = k
      · subst hj; rw [hself]; simp
      · rw [hother j hj]; simp [hj]
    have hnew : k ∉ historyIn x.slots r := by rw [mem_historyIn, hclaim]; simp
    rw [hset, Finset.card_insert_of_notMem hnew, hh, (h r).history]
  · exact (h q).setOther (by rw [hclaim]; simp [Claim.owner, Ne.symm hqr]) (by simp [Claim.owner, Ne.symm hqr])

/-- A HISTORY slot of a run becomes FREE (R57). -/
theorem freeHistory (h : Tied x) {n : Nat} (hclaim : x.slots[k] = .history r n)
    (hb : e.condition.bound = x.runs[r].condition.bound) (hc : e.currentSlot = x.runs[r].currentSlot)
    (hh : e.historyCount = x.runs[r].historyCount - 1) (hq : Quiet e) : Tied ((x.setClaim k .free).setRun r e) := by
  have hother (j : TallySlot) (hj : j ≠ k) : (x.setClaim k .free).slots[j] = x.slots[j] := RunTable.setClaim_ne _ _ hj
  have hself : (x.setClaim k .free).slots[k] = .free := RunTable.setClaim_get _ _ _
  refine replace ⟨by rw [hb, hc, (h r).bound], fun j => ?_, ?_, hq⟩ fun q hqr => ?_
  · rw [hc, (h r).current]
    by_cases hj : j = k
    · subst hj; rw [hself, hclaim]; simp
    · rw [hother j hj]
  · have hset : historyIn (x.setClaim k .free).slots r = (historyIn x.slots r).erase k := by
      ext j
      rw [Finset.mem_erase, mem_historyIn, mem_historyIn]
      by_cases hj : j = k
      · subst hj; rw [hself]; simp
      · rw [hother j hj]; simp [hj]
    have hold : k ∈ historyIn x.slots r := mem_historyIn.mpr ⟨n, hclaim⟩
    rw [hset, Finset.card_erase_of_mem hold, hh, (h r).history]
  · exact (h q).setOther (by rw [hclaim]; simp [Claim.owner, Ne.symm hqr]) (by simp [Claim.owner])

/-- Every HISTORY slot of a run becomes FREE (R74). -/
theorem release (h : Tied x) (hb : e.condition.bound = x.runs[r].condition.bound)
    (hc : e.currentSlot = x.runs[r].currentSlot) (hh : e.historyCount = 0) (hq : Quiet e) :
    Tied ((x.release r).setRun r e) := by
  have hkept (j : TallySlot) (c : Claim) (hcf : c ≠ .free) (hch : ∀ n, c ≠ .history r n) :
      (x.release r).slots[j] = c ↔ x.slots[j] = c := by
    rw [RunTable.release_get]
    by_cases hj : ∃ n, x.slots[j] = .history r n
    · obtain ⟨n, hn⟩ := hj
      rw [hn, Claim.releasedFor_history]
      exact ⟨fun hf => absurd hf.symm hcf, fun hf => absurd hf.symm (hch n)⟩
    · rw [Claim.releasedFor_other fun n hn => hj ⟨n, hn⟩]
  refine replace ⟨by rw [hb, hc, (h r).bound], fun j => ?_, ?_, hq⟩ fun q hqr => ?_
  · rw [hc, (h r).current, hkept j _ (by simp) (by simp)]
  · have hset : historyIn (x.release r).slots r = ∅ := by
      refine Finset.eq_empty_of_forall_notMem fun j hj => ?_
      obtain ⟨n, hn⟩ := mem_historyIn.mp hj
      rw [RunTable.release_get] at hn
      cases hx : x.slots[j] with
      | free => rw [hx] at hn; cases hn
      | current q => rw [hx] at hn; cases hn
      | history q y =>
        rw [hx, Claim.releasedFor] at hn
        by_cases hqr : q = r
        · rw [if_pos hqr] at hn; cases hn
        · rw [if_neg hqr] at hn; cases hn; exact hqr rfl
    rw [hset, hh]
    rfl
  · exact (h q).map (fun j => hkept j _ (by simp) (by simp))
      fun j n => hkept j _ (by simp) (by simp [hqr])

theorem reset : Tied RunTable.reset := by
  intro r
  have hfree (k : TallySlot) : RunTable.reset.slots[k] = .free := Vector.getElem_replicate _
  rw [show RunTable.reset.runs[r] = RunEntry.reset from Vector.getElem_replicate _]
  refine ⟨rfl, fun k => by rw [hfree]; simp [RunEntry.reset], ?_, fun _ _ => ⟨rfl, rfl⟩⟩
  have hset : historyIn RunTable.reset.slots r = ∅ :=
    Finset.eq_empty_of_forall_notMem fun k hk => by
      obtain ⟨n, hn⟩ := mem_historyIn.mp hk
      rw [hfree] at hn; cases hn
  rw [hset]
  rfl

end Tied

/-! ### What the agreement says of a run that is not bound -/

theorem Tied.slot_of_bound {x : RunTable} {r : Run} (h : Tied x) (hb : x.runs[r].condition.bound = true) :
    ∃ k, x.runs[r].currentSlot = some k := Option.isSome_iff_exists.mp ((h r).bound.symm.trans hb)

theorem Tied.noSlot {x : RunTable} {r : Run} (h : Tied x) (hb : x.runs[r].condition.bound = false) :
    x.runs[r].currentSlot = none := by
  have hsome := (h r).bound.symm.trans hb
  simpa using hsome

end Sys2Proof.Machine
end

section
/-! PROOFS. The Run Table's operations keep it in agreement with its slot map (R53 to R57, R65 to R75, R80 to R87). -/

namespace Sys2Proof.Machine

open Sys2Proof.Safety

/-! ### Entries outside a spell -/

theorem quiet_unboundRun (e : RunEntry) (v : RunCondition) : Quiet (unboundRun e v) := fun _ _ => ⟨rfl, rfl⟩

theorem quiet_shadowed {e : RunEntry} {w : Record} {n : Count} {now : Nat} {d : Option RunDescriptor}
    (h : e.estimated = 0) : Quiet (shadowed e w n now d) := fun _ _ => ⟨h, rfl⟩

/-- Two entries with the same condition, E and substitution timer. -/
theorem Quiet.congr {e f : RunEntry} (h : Quiet e) (hc : f.condition = e.condition) (he : f.estimated = e.estimated)
    (hs : f.substitution = e.substitution) : Quiet f := by
  rw [Quiet, hc, he, hs]
  exact h

/-- A run that is not bound is in no spell. -/
theorem Quiet.estimated_zero {e : RunEntry} (h : Quiet e) (hb : e.condition.bound = false) :
    e.estimated = 0 ∧ e.substitution = none :=
  h (fun hs => by rw [hs] at hb; cases hb) fun hs => by rw [hs] at hb; cases hb

/-- A run whose substitution timer runs is STALE or LOST (R82). -/
theorem Quiet.spell {e : RunEntry} {u : Substitution} (h : Quiet e) (hu : e.substitution = some u) :
    e.condition = .stale ∨ e.condition = .lost := by
  by_contra hc
  rw [not_or] at hc
  rw [(h hc.1 hc.2).2] at hu
  cases hu

theorem quiet_of_spell {e : RunEntry} (h : e.condition = .stale ∨ e.condition = .lost) : Quiet e :=
  fun hs hl => absurd h (not_or.mpr ⟨hs, hl⟩)

/-! ### Unbinding, retirement and release (R73 to R75) -/

/-- A bound run that leaves its slot, unbound or retired. -/
theorem unbind_tied {s : State} {r : Run} {v : RunCondition} (h : Tied s.rt) (hb : (s.run r).condition.bound = true)
    (hv : v.bound = false) (cause : Nat) :
    ∃ x es fs ks, TableOp s (s.unbind r v cause) x s.channels es fs ks ∧ Tied x := by
  obtain ⟨k, hk⟩ := h.slot_of_bound hb
  exact ⟨_, _, _, _, unbind_law hk v cause, h.leave _ hk hv rfl rfl (quiet_unboundRun _ v)⟩

theorem applyEnabled_tied {s : State} (h : Tied s.rt) (r : Run) (d : RunDescriptor) :
    ∃ x es fs ks, TableOp s (s.applyEnabled r d) x s.channels es fs ks ∧ Tied x := by
  unfold State.applyEnabled
  split
  · split
    · next hc =>
      have hb : (s.run r).condition.bound = false := by rw [hc]; rfl
      refine ⟨_, _, _, _, ((TableOp.refl s).putRun r { s.run r with condition := .unbound }).mark (.run r), ?_⟩
      exact h.setRun hb.symm rfl rfl fun _ _ => (h r).quiet.estimated_zero hb
    · exact ⟨_, _, _, _, .refl s, h⟩
  · split
    · exact ⟨_, _, _, _, .refl s, h⟩
    · unfold State.retire
      split
      · next hb => exact unbind_tied h hb rfl 2
      · next hb =>
        have hb : (s.run r).condition.bound = false := Bool.eq_false_iff.mpr hb
        refine ⟨_, _, _, _, ((TableOp.refl s).putRun r (unboundRun (s.run r) .retired)).mark (.run r), ?_⟩
        exact h.setRun hb.symm (h.noSlot hb).symm rfl (quiet_unboundRun _ _)

theorem releaseHistory_tied {s : State} (h : Tied s.rt) (r : Run) :
    Tied ((s.rt.release r).setRun r { s.run r with historyCount := 0 }) :=
  h.release rfl rfl rfl ((h r).quiet.congr rfl rfl rfl)

/-! ### Holds (R45, R71) -/

/-- A refused record changes no more of a run than its hold. -/
theorem refuseRecord_tied {s : State} {x : RunTable} {f : Run → Bool} (h : Tied s.rt) (hslots : x.slots = s.rt.slots)
    (hruns : ∀ q : Run, x.runs[q] = { s.run q with held := f q }) : Tied x := by
  intro q
  rw [hslots, hruns]
  exact (h q).entry rfl rfl rfl ((h q).quiet.congr rfl rfl rfl)

/-! ### Freshness and substitution (R80 to R84) -/

theorem becomeStale_law (s : State) (r : Run) (base : Nat) :
    ∃ es fs ks, TableOp s (s.becomeStale r base)
      (s.rt.setRun r { s.run r with condition := .stale, substitution := some ⟨base, 0⟩ }) s.channels es fs ks :=
  ⟨_, _, _, ((((TableOp.refl s).putRun r _).raise .runStale r.val _ _).mark (.run r)).latch (.run .stale r)⟩

theorem becomeLost_law (s : State) (r : Run) :
    ∃ es fs ks, TableOp s (s.becomeLost r) (s.rt.setRun r { s.run r with condition := .lost }) s.channels es fs ks :=
  ⟨_, _, _, ((((TableOp.refl s).putRun r _).raise .runLost r.val _ _).mark (.run r)).latch (.run .lost r)⟩

/-- Routing changes no more of the Run Table than the run's unrouted volume. -/
theorem route_table (s : State) (r : Run) (volume : Nat) :
    ∃ u y es fs ks, TableOp s (s.route r volume) (s.rt.setRun r { s.run r with unrouted := u }) y es fs ks := by
  cases hd : s.runDescriptor r with
  | some d =>
    obtain ⟨y, hop, _⟩ := route_law hd volume
    exact ⟨_, y, _, _, _, hop⟩
  | none =>
    have he : s.route r volume = s := by
      rw [State.route, hd]
      split <;> rfl
    rw [he]
    exact ⟨(s.run r).unrouted, _, _, _, _, (TableOp.refl s).as (setRun_self s r) rfl (fun _ => Iff.rfl)
      fun _ => .inl Iff.rfl⟩

/-- A substituted volume joins E and is routed (R84). -/
theorem substitute_law (s : State) (r : Run) (volume : Nat) :
    ∃ u y es fs ks, TableOp s (s.substitute r volume)
      (s.rt.setRun r { s.run r with
        estimated := (s.run r).estimated + (s.run r).substituted volume, unrouted := u }) y es fs ks := by
  have hput := (TableOp.refl s).putRun r { s.run r with estimated := (s.run r).estimated + (s.run r).substituted volume }
  unfold State.substitute
  dsimp only
  generalize s.putRun r { s.run r with estimated := (s.run r).estimated + (s.run r).substituted volume } = q at hput ⊢
  obtain ⟨u, y, _, _, _, hroute⟩ := route_table q r ((s.run r).substituted volume)
  have hop := hput.trans hroute
  rw [hput.run r, RunTable.setRun_get, hput.rt, RunTable.setRun_setRun] at hop
  exact ⟨u, y, _, _, _, hop⟩

/-- A substitution step, carried out or passed over, changes E, the unrouted volume and the timer's count (R82, R84). -/
theorem takeStep_law (s : State) (r : Run) (f : Freshness) (u : Substitution) :
    ∃ e y es fs ks, TableOp s (s.takeStep r f u) (s.rt.setRun r e) y es fs ks ∧ e.condition = (s.run r).condition ∧
      e.currentSlot = (s.run r).currentSlot ∧ e.historyCount = (s.run r).historyCount := by
  have hcount : TableOp s (s.countStep r u) _ _ _ _ _ := (TableOp.refl s).setRun r _
  unfold State.takeStep
  split
  · exact ⟨_, _, _, _, _, hcount, rfl, rfl, rfl⟩
  · obtain ⟨v, y, _, _, _, hop⟩ :=
      substitute_law (s.countStep r u) r (stepVolume f (s.runDescriptor r) (s.run r).shadowRate (u.steps + 1))
    have hboth := hcount.trans hop
    rw [hcount.run r, RunTable.setRun_get, hcount.rt, RunTable.setRun_setRun] at hboth
    exact ⟨_, y, _, _, _, hboth, rfl, rfl, rfl⟩

theorem takeStep_tied {s : State} {r : Run} {u : Substitution} (h : Tied s.rt) (hu : (s.run r).substitution = some u)
    (f : Freshness) : ∃ x y es fs ks, TableOp s (s.takeStep r f u) x y es fs ks ∧ Tied x := by
  obtain ⟨e, y, es, fs, ks, hop, hcond, hcur, hhist⟩ := takeStep_law s r f u
  have hspell := (h r).quiet.spell hu
  exact ⟨_, y, es, fs, ks, hop, h.setRun (by rw [hcond]; rfl) hcur hhist (quiet_of_spell (by rw [hcond]; exact hspell))⟩

/-! ### The acceptance of a tally (R65 to R70) -/

/-- The table with run r's record placed and its entry in order. -/
theorem placed_tied {s : State} {r : Run} {k old : TallySlot} {e : RunEntry} (h : Tied s.rt)
    (hold : (s.run r).currentSlot = some old) (hk : PlacedIn s r k old) (hb : e.condition.bound = true)
    (hc : e.currentSlot = some k) (hh : e.historyCount = (s.run r).historyCount + if k = old then 0 else 1)
    (hq : Quiet e) : Tied ((s.placed r k old).setRun r e) := by
  rcases hk with ⟨_, rfl⟩ | ⟨hfree, hne⟩
  · rw [State.placed, if_pos rfl]
    rw [if_pos rfl] at hh
    have hbound : (s.run r).condition.bound = true := (h r).bound.trans (Option.isSome_iff_exists.mpr ⟨k, hold⟩)
    exact h.setRun (hb.trans hbound.symm) (hc.trans hold.symm) hh hq
  · rw [if_neg hne] at hh
    have hleft := h.leave (e := unboundRun { s.run r with historyCount := (s.run r).historyCount + 1 } .unbound)
      (s.uptime + s.historyHold) hold rfl rfl rfl (quiet_unboundRun _ _)
    have hslot := (RunTable.setClaim_ne s.rt (.history r (s.uptime + s.historyHold)) hne).trans hfree
    have hentry := RunTable.setRun_get (s.rt.setClaim old (.history r (s.uptime + s.historyHold))) r
      (unboundRun { s.run r with historyCount := (s.run r).historyCount + 1 } .unbound)
    have hbound := hleft.bind (k := k) (e := e) hslot (by rw [hentry]; rfl) hb hc (by rw [hentry]; exact hh) hq
    have he : (s.placed r k old).setRun r e = (((s.rt.setClaim old (.history r (s.uptime + s.historyHold))).setRun r
        (unboundRun { s.run r with historyCount := (s.run r).historyCount + 1 } .unbound)).setClaim k
        (.current r)).setRun r e := by
      rw [State.placed, if_neg hne, RunTable.setRun_setRun]
      simp [RunTable.setRun, RunTable.setClaim]
    rw [he]
    exact hbound

/-- A record that passes the tally checks is in a slot that admits the run (R61). -/
theorem admits_of_tallyRunReason {s : State} {r : Run} {k : TallySlot} {x : TallyFields}
    (h : s.tallyRunReason r k x = 0) : s.claim k = .free ∨ s.claim k = .current r := by
  have hadmits : (s.claim k).admits r = true := by
    by_contra hc
    rw [Bool.not_eq_true] at hc
    unfold State.tallyRunReason at h
    simp only [hc, Bool.not_false, if_true] at h
    split at h <;> cases h
  cases hclaim : s.claim k with
  | free => exact .inl rfl
  | current q => rw [hclaim] at hadmits; exact .inr (congrArg _ (of_decide_eq_true hadmits))
  | history q n => rw [hclaim] at hadmits; cases hadmits

/-- A slot that admits a bound run is its own or a FREE one. -/
theorem placedIn_of_admits {s : State} {r : Run} {k old : TallySlot} (h : Tied s.rt)
    (hold : (s.run r).currentSlot = some old) (hk : s.claim k = .free ∨ s.claim k = .current r) :
    PlacedIn s r k old := by
  rcases hk with hf | hc
  · refine .inr ⟨hf, ?_⟩
    rintro rfl
    have hcur : s.claim k = .current r := ((h r).current k).mp hold
    rw [hf] at hcur; cases hcur
  · have hcur : (s.run r).currentSlot = some k := ((h r).current k).mpr hc
    exact .inl ⟨hc, Option.some.inj (hcur.symm.trans hold)⟩

/-- The acceptance of a tally that passes the checks, by its three kinds (R65). -/
theorem acceptTally_tied {s : State} {r : Run} {k : TallySlot} (w : Record) (h : Tied s.rt)
    (hzero : s.tallyRunReason r k (readTally w) = 0) :
    ∃ x y es fs ks, TableOp s (s.acceptTally r k (readTally w)) x y es fs ks ∧ Tied x := by
  have hadmits := admits_of_tallyRunReason hzero
  by_cases hb : (s.run r).condition.bound = true
  · obtain ⟨old, hold⟩ := h.slot_of_bound hb
    have hk := placedIn_of_admits h hold hadmits
    by_cases ha : (s.run r).awaitingBaseline = true
    · obtain ⟨m, _, hop⟩ := loadBaseline_law hold hk (readTally w)
      have hcommon := acceptCommon_law hop r w
      rw [RunTable.setRun_setRun, RunTable.setRun_get] at hcommon
      rw [acceptTally_awaiting k _ hb ha]
      exact ⟨_, _, _, _, _, hcommon, placed_tied h hold hk rfl rfl rfl (quiet_shadowed rfl)⟩
    · rw [acceptTally_ordinary k _ hb (Bool.eq_false_iff.mpr ha), ordinaryAcceptance_eq]
      obtain ⟨m, _, hop⟩ := reconciledAt_law hold hk (readTally w)
      generalize s.reconciledAt r k (readTally w) = q at hop
      obtain ⟨u, y, es, fs, ks, hroute⟩ :=
        route_table q r ((s.run r).dosed ((readTally w).total - (s.run r).shadowTotal))
      have hcommon := acceptCommon_law (hop.trans hroute) r w
      rw [hop.run r, hop.rt, RunTable.setRun_get, RunTable.setRun_setRun, RunTable.setRun_setRun,
        RunTable.setRun_get] at hcommon
      exact ⟨_, _, _, _, _, hcommon, placed_tied h hold hk rfl rfl rfl (quiet_shadowed rfl)⟩
  · have hb : (s.run r).condition.bound = false := Bool.eq_false_iff.mpr hb
    have hnone := h.noSlot hb
    have hfree : s.claim k = .free := hadmits.elim id fun hc => by
      have hcur : (s.run r).currentSlot = some k := ((h r).current k).mpr hc
      exact absurd (hnone.symm.trans hcur) (by simp)
    obtain ⟨m, _, hop⟩ := bindRun_law s r k (readTally w)
    have hcommon := acceptCommon_law hop r w
    rw [RunTable.setRun_setRun, RunTable.setRun_get] at hcommon
    rw [acceptTally_unbound k _ hb]
    exact ⟨_, _, _, _, _, hcommon, h.bind hfree hnone rfl rfl rfl
      (quiet_shadowed ((h r).quiet.estimated_zero hb).1)⟩

/-! ### The end of the scan (R174) -/

/-- With every slot FREE no run has a current slot. -/
theorem noSlot_of_free {s : State} (h : Tied s.rt) (hfree : ∀ k, s.claim k = .free) (r : Run) :
    (s.run r).currentSlot = none := by
  refine Option.eq_none_iff_forall_ne_some.mpr fun k hk => ?_
  have hcur : s.claim k = .current r := ((h r).current k).mp hk
  rw [hfree] at hcur; cases hcur

/-- With every slot FREE no run has history. -/
theorem historyCount_of_free {s : State} (h : Tied s.rt) (hfree : ∀ k, s.claim k = .free) (r : Run) :
    (s.run r).historyCount = 0 := by
  refine (h r).history.trans (Finset.card_eq_zero.mpr (Finset.eq_empty_of_forall_notMem fun k hk => ?_))
  obtain ⟨n, hn⟩ := mem_historyIn.mp hk
  have hclaim : s.claim k = .history r n := hn
  rw [hfree] at hclaim; cases hclaim

/-- The table the scan gives: a run with a best record is bound to that record's slot, its other slots are HISTORY. -/
theorem settleScan_tied {s : State} (h : Tied s.rt) (hfree : ∀ k, s.claim k = .free)
    (hd : (scannedSlots s.lc.scan).Nodup)
    (hranked : ∀ r : Run, s.lc.scan.best[r] = none → s.lc.scan.others[r] = []) : Tied s.settleScan.rt := by
  intro r
  have hrun : s.settleScan.rt.runs[r] = s.scannedRun r := settleScan_run s r
  have hslots : s.settleScan.rt.slots = s.lc.scan.claims (s.uptime + s.historyHold) := rfl
  have hhistory : historyIn s.settleScan.rt.slots r = (s.lc.scan.others[r]).toFinset := by
    ext k
    rw [mem_historyIn, hslots, List.mem_toFinset]
    simp only [claims_history hd]
    exact ⟨fun ⟨_, hk, _⟩ => hk, fun hk => ⟨_, hk, rfl⟩⟩
  have hnodup : (s.lc.scan.others[r]).Nodup :=
    ((slotsOf_distinct hd).1 r).sublist (List.sublist_append_right _ _)
  have hcard : (historyIn s.settleScan.rt.slots r).card = (s.lc.scan.others[r]).length := by
    rw [hhistory, List.toFinset_card_of_nodup hnodup]
  rw [hrun, State.scannedRun]
  cases hbest : s.lc.scan.best[r] with
  | none =>
    refine ⟨(h r).bound, fun k => ?_, ?_, (h r).quiet.congr rfl rfl rfl⟩
    · have hnone : (s.run r).currentSlot = none := noSlot_of_free h hfree r
      rw [hslots, claims_current hd, hbest]
      simp [hnone]
    · rw [hcard, hranked r hbest]
      exact historyCount_of_free h hfree r
  | some b =>
    refine ⟨rfl, fun k => ?_, hcard.symm, fun _ _ => ⟨rfl, rfl⟩⟩
    rw [hslots, claims_current hd, hbest]
    simp

end Sys2Proof.Machine
end

section
/-! PROOFS. What the Run Table's and the load's invariants look at (R53 to R57, R169, R174, R178), and the operations that
leave it as it is: one lemma an operation. -/

namespace Sys2Proof.Machine

open Sys2Proof.Safety

/-- From s to t nothing changes that `RunTableWf` and `LoadWf` look at: the Run Table, the load's device state, slot, scan
and cause, the kind and slot of the Memory Agent's item, which may end, and, in LOADING, the channel descriptors. -/
structure Alike (s t : State) : Prop where
  rt : t.rt = s.rt
  device : t.lc.device = s.lc.device
  loadSlot : t.lc.loadSlot = s.lc.loadSlot
  scan : t.lc.scan = s.lc.scan
  cause : t.lc.cause = s.lc.cause
  item : ∀ x, t.ma = some x → ∃ y, s.ma = some y ∧ y.kind = x.kind ∧ y.slot = x.slot
  descriptor : s.lc.device = .loading → ∀ c, (t.chan c).descriptor = (s.chan c).descriptor

namespace Alike
variable {s t u : State}

theorem refl (s : State) : Alike s s :=
  ⟨rfl, rfl, rfl, rfl, rfl, fun x hx => ⟨x, hx, rfl, rfl⟩, fun _ _ => rfl⟩

theorem trans (h : Alike s t) (k : Alike t u) : Alike s u where
  rt := k.rt.trans h.rt
  device := k.device.trans h.device
  loadSlot := k.loadSlot.trans h.loadSlot
  scan := k.scan.trans h.scan
  cause := k.cause.trans h.cause
  item x hx := by
    obtain ⟨y, hy, hyk, hys⟩ := k.item x hx
    obtain ⟨z, hz, hzk, hzs⟩ := h.item y hy
    exact ⟨z, hz, hzk.trans hyk, hzs.trans hys⟩
  descriptor hd c := (k.descriptor (h.device.trans hd) c).trans (h.descriptor hd c)

/-- An update of the other parts. -/
theorem same (h : Alike s t) (hrt : u.rt = t.rt) (hlc : u.lc = t.lc) (hma : u.ma = t.ma) (hch : u.channels = t.channels) :
    Alike s u :=
  h.trans ⟨hrt, by rw [hlc], by rw [hlc], by rw [hlc], by rw [hlc], fun x hx => ⟨x, hma ▸ hx, rfl, rfl⟩,
    fun _ c => by rw [State.chan, hch]; rfl⟩

/-- An update of the loader's other fields, and of the other parts. -/
theorem loader (h : Alike s t) (hrt : u.rt = t.rt) (hd : u.lc.device = t.lc.device)
    (hslot : u.lc.loadSlot = t.lc.loadSlot) (hscan : u.lc.scan = t.lc.scan) (hcause : u.lc.cause = t.lc.cause)
    (hma : u.ma = t.ma) (hch : u.channels = t.channels) : Alike s u :=
  h.trans ⟨hrt, hd, hslot, hscan, hcause, fun x hx => ⟨x, hma ▸ hx, rfl, rfl⟩, fun _ c => by rw [State.chan, hch]; rfl⟩

/-! ### The Report Unit, the clock and the pool -/

theorem mark (k : PartSlot) (h : Alike s t) : Alike s (t.mark k) := h.same rfl rfl rfl rfl

theorem latch (f : Flag) (h : Alike s t) : Alike s (t.latch f) := h.same (by simp) (by simp) (by simp) (by simp)

theorem raise (e : EventCode) (a d v : Nat) (h : Alike s t) : Alike s (t.raise e a d v) :=
  h.same (by simp) (by simp) (by simp) (by simp)

theorem elapseTo (n : Nat) (h : Alike s t) : Alike s (t.elapseTo n) := h.same rfl rfl rfl rfl

theorem markCleared (w : Fin 7) (v : Word) (h : Alike s t) : Alike s (t.markCleared w v) := by
  rw [State.markCleared_eq]
  exact h.same rfl rfl rfl rfl

theorem statusReadDone (p : Pos) (v : Word) (h : Alike s t) : Alike s (t.statusReadDone p v) := by
  unfold State.statusReadDone
  split
  · exact h
  · dsimp only
    split
    · exact h.same rfl rfl rfl rfl
    · next w _ _ =>
      have hcleared : Alike s ((t.dropFlags w (t.clearedBy w v)).markCleared w (t.clearedBy w v)) :=
        markCleared w _ (h.same rfl rfl rfl rfl)
      exact (hcleared.mark .status).same rfl rfl rfl rfl

theorem discardAssembly (k : Slot) (h : Alike s t) : Alike s (t.discardAssembly k) := h.same rfl rfl rfl rfl

/-- An operation of the Record Verifier that leaves the Run Table as it is. -/
theorem verifier {v : Verifier} {es : List EventRecord} {fs : List Flag} {ks : List PartSlot}
    (h : VerifierOp s t v s.rt es fs ks) : Alike s t :=
  (refl s).same h.rt h.lc h.inner.port.2.2.2.2.1 h.channels

/-! ### One channel -/

theorem setChan (c : Chan) (x : Channel) (h : Alike s t) (hx : x.descriptor = (t.chan c).descriptor) :
    Alike s (t.setChan c x) := by
  refine h.trans ⟨rfl, rfl, rfl, rfl, rfl, fun y hy => ⟨y, hy, rfl, rfl⟩, fun _ k => ?_⟩
  by_cases hk : k = c
  · subst hk; rw [State.setChan_chan, hx]
  · rw [State.setChan_chan_ne _ _ hk]

theorem putChan (c : Chan) (x : Channel) (h : Alike s t) (hx : x.descriptor = (t.chan c).descriptor) :
    Alike s (t.putChan c x) := by
  unfold State.putChan
  split
  · exact h.setChan c x hx
  · exact (h.setChan c x hx).mark _

theorem evalRestrict (c : Chan) (h : Alike s t) : Alike s (t.evalRestrict c) := by
  unfold State.evalRestrict
  split
  · exact h
  · split
    · split
      · exact h
      · exact ((h.setChan c _ (by rfl)).raise _ _ _ _).latch _
    · split
      · split
        · exact (h.setChan c _ (by rfl)).raise _ _ _ _
        · exact h
      · exact h

theorem tryBegin (c : Chan) (h : Alike s t) : Alike s (t.tryBegin c) := by
  unfold State.tryBegin
  split
  · exact h.putChan c _ (by rfl)
  · exact h

theorem distribute (c : Chan) (n cause : Nat) (h : Alike s t) : Alike s (t.distribute c n cause) := by
  unfold State.distribute State.deficitStart
  split
  · exact ((h.putChan c ((t.chan c).takeCrossings n) rfl).raise _ _ _ _).latch _
  · exact h.putChan c ((t.chan c).takeCrossings n) rfl

theorem countCrossings (c : Chan) (cause : Nat) (h : Alike s t) : Alike s (t.countCrossings c cause) := by
  unfold State.countCrossings
  dsimp only
  split
  · exact h
  · exact (h.putChan c (t.chan c).reduceResidue rfl).distribute c _ cause

theorem owedChanged (c : Chan) (h : Alike s t) : Alike s (t.owedChanged c) := (h.evalRestrict c).tryBegin c

theorem countAndSettle (c : Chan) (cause : Nat) (h : Alike s t) : Alike s (t.countAndSettle c cause) := by
  unfold State.countAndSettle
  split
  · exact h
  · exact (h.countCrossings c cause).owedChanged c

theorem demandStroke (c : Chan) (h : Alike s t) : Alike s (t.demandStroke c) := (h.distribute c 1 13).owedChanged c

theorem endCalibration (c : Chan) (o : CalOutcome) (m : Nat) (v : ServiceState) (h : Alike s t) :
    Alike s (t.endCalibration c o m v) := by
  unfold State.endCalibration
  exact (((h.putChan c _ (by rfl)).mark _).latch _).raise _ _ _ _

theorem failChannel (c : Chan) (d : ChannelDescriptor) (h : Alike s t) : Alike s (t.failChannel c d) := by
  unfold State.failChannel
  exact ((h.putChan c _ (by rfl)).raise _ _ _ _).latch _

theorem clearWindow (c : Chan) (h : Alike s t) : Alike s (t.clearWindow c) := by
  unfold State.clearWindow
  exact h.putChan c _ (by rfl)

theorem windowFull (c : Chan) (d : ChannelDescriptor) (h : Alike s t) : Alike s (t.windowFull c d) := by
  unfold State.windowFull
  split
  · exact h.failChannel c d
  · exact (h.endCalibration c _ _ _).failChannel c d
  all_goals exact h.clearWindow c

theorem testWindow (c : Chan) (h : Alike s t) : Alike s (t.testWindow c) := by
  unfold State.testWindow
  split
  · exact h
  · split
    · exact h.windowFull c _
    · split
      · exact h.clearWindow c
      · exact h

theorem afterOutcome (c : Chan) (h : Alike s t) : Alike s (t.afterOutcome c) := by
  unfold State.afterOutcome
  split
  · exact h
  · exact h.putChan c _ (by rfl)

theorem reportMiss (c : Chan) (stuck : Bool) (h : Alike s t) : Alike s (t.reportMiss c stuck) := by
  unfold State.reportMiss
  exact ((h.latch _).raise _ _ _ _).putChan c _ (by rfl)

theorem calibrationMissed (c : Chan) (own : Bool) (h : Alike s t) : Alike s (t.calibrationMissed c own) := by
  unfold State.calibrationMissed
  split
  · exact h.endCalibration c _ _ _
  · exact h

theorem missStroke (c : Chan) (stuck : Bool) (h : Alike s t) : Alike s (t.missStroke c stuck) := by
  unfold State.missStroke
  exact ((((h.putChan c _ (by rfl)).reportMiss c stuck).calibrationMissed c _).testWindow c).afterOutcome c

theorem afterProof (c : Chan) (h : Alike s t) : Alike s (t.afterProof c) := by
  unfold State.afterProof
  split
  · exact h.putChan c _ (by rfl)
  · exact h.afterOutcome c
  all_goals exact h

theorem deliverStroke (c : Chan) (kind : Option StrokeKind) (h : Alike s t) : Alike s (t.deliverStroke c kind) := by
  have hput := h.putChan c ((t.chan c).deliver kind) (deliver_same _ kind).1
  unfold State.deliverStroke
  dsimp only
  split
  · exact hput
  · exact hput.evalRestrict c

theorem proveStroke (c : Chan) (h : Alike s t) : Alike s (t.proveStroke c) := by
  unfold State.proveStroke
  dsimp only
  refine ((deliverStroke c _ (((h.putChan c _ (by rfl)).testWindow c).setChan c _ (by rfl))).setChan c _ ?_).afterProof c
  unfold Channel.countProven
  split <;> rfl

theorem reloadChannel (c : Chan) (h : Alike s t) : Alike s (t.reloadChannel c) := by
  unfold State.reloadChannel
  split
  · exact ((h.endCalibration c _ _ _).putChan c _ (by rfl)).tryBegin c
  all_goals exact h

theorem completeCalibration (c : Chan) (h : Alike s t) : Alike s (t.completeCalibration c) := by
  unfold State.completeCalibration
  split
  · exact h
  · dsimp only
    have hend := h.endCalibration c
    unfold State.applyMeasured
    split
    · exact ((hend _ _ _).putChan c _ (by rfl)).countAndSettle c 12
    all_goals exact hend _ _ _

theorem startDrive (c : Chan) (h : Alike s t) : Alike s (t.startDrive c) := by
  unfold State.startDrive
  refine h.putChan c _ ?_
  unfold Channel.openWindow
  split <;> rfl

theorem endDrive (c : Chan) (h : Alike s t) : Alike s (t.endDrive c) := by
  unfold State.endDrive
  split
  · exact h.afterOutcome c
  · split
    · exact h.putChan c _ (by rfl)
    · exact h.missStroke c false

theorem endRest (c : Chan) (h : Alike s t) : Alike s (t.endRest c) := by
  have hidle := h.putChan c { t.chan c with seq := Sequencer.idle } rfl
  unfold State.endRest
  dsimp only
  split
  · exact (hidle.completeCalibration c).tryBegin c
  · exact hidle.tryBegin c

theorem goOutOfService (c : Chan) (former : ServiceState) (h : Alike s t) : Alike s (t.goOutOfService c former) := by
  unfold State.goOutOfService
  exact ((h.putChan c _ (by rfl)).raise _ _ _ _).latch _

theorem goInService (c : Chan) (former : ServiceState) (h : Alike s t) : Alike s (t.goInService c former) := by
  unfold State.goInService
  exact ((h.putChan c _ (by rfl)).raise _ _ _ _).tryBegin c

/-! ### The timers of the pool and of the channels, and the field inputs -/

theorem assemblyExpiry {k : Slot} (h : s.assemblyExpiry k = some u) : Alike s u := by
  unfold State.assemblyExpiry at h
  split at h
  · cases h
  · obtain rfl := Option.some.inj h
    exact (((((refl s).elapseTo _).discardAssembly _).latch _).raise _ _ _ _)

theorem basePeriodExpiry {c : Chan} (h : s.basePeriodExpiry c = some u) : Alike s u := by
  unfold State.basePeriodExpiry at h
  split at h
  · obtain rfl := Option.some.inj h
    exact demandStroke c (((refl s).elapseTo _).setChan c _ (by rfl))
  · cases h

theorem precheckExpiry {c : Chan} {closed : Bool} (h : s.precheckExpiry c closed = some u) : Alike s u := by
  unfold State.precheckExpiry at h
  split at h
  · dsimp only at h
    obtain rfl := Option.some.inj h
    split
    · exact ((refl s).elapseTo _).missStroke c true
    · exact ((refl s).elapseTo _).startDrive c
  all_goals cases h

theorem driveExpiry {c : Chan} (h : s.driveExpiry c = some u) : Alike s u := by
  unfold State.driveExpiry at h
  split at h
  · obtain rfl := Option.some.inj h
    exact ((refl s).elapseTo _).endDrive c
  all_goals cases h

theorem proofWindowExpiry {c : Chan} (h : s.proofWindowExpiry c = some u) : Alike s u := by
  unfold State.proofWindowExpiry at h
  split at h
  · obtain rfl := Option.some.inj h
    exact ((refl s).elapseTo _).missStroke c false
  all_goals cases h

theorem restExpiry {c : Chan} (h : s.restExpiry c = some u) : Alike s u := by
  unfold State.restExpiry at h
  split at h
  · obtain rfl := Option.some.inj h
    exact ((refl s).elapseTo _).endRest c
  all_goals cases h

theorem proofClosure {c : Chan} (h : s.proofClosure c = some u) : Alike s u := by
  unfold State.proofClosure at h
  split at h
  · obtain rfl := Option.some.inj h
    exact (refl s).proveStroke c
  · cases h

theorem meterPulse {c : Chan} (h : s.meterPulse c = some u) : Alike s u := by
  unfold State.meterPulse at h
  split at h
  · cases h
  · cases h
  · obtain rfl := Option.some.inj h
    exact (refl s).putChan c _ (by rfl)

/-! ### The Memory Agent and the two edges of RESET_n -/

/-- The Memory Agent's item ends. -/
theorem itemEnds (h : Alike s t) : Alike s { t with ma := none } :=
  h.trans ⟨rfl, rfl, rfl, rfl, rfl, fun _ hx => (by cases hx), fun _ _ => rfl⟩

theorem runCycle (m : MemCycle) (h : Alike s t) : Alike s (t.runCycle m) := by
  rw [runCycle_mem]
  exact h.same rfl rfl rfl rfl

/-- The item goes on to its next word. -/
theorem advance {x : Item} (v : Word) (hx : t.ma = some x) (h : Alike s t) :
    Alike s { t with ma := some (x.advance v) } :=
  h.trans ⟨rfl, rfl, rfl, rfl, rfl, fun y hy => ⟨x, hx, by cases hy; rfl, by cases hy; rfl⟩, fun _ _ => rfl⟩

theorem reportRead (a : Addr) (op : BusOp) (v : Word) (h : Alike s t) : Alike s (t.reportRead a op v) := by
  unfold State.reportRead
  split
  · split
    · exact h.statusReadDone _ v
    · exact h
  all_goals exact h

theorem endCycle (op : BusOp) (v : Word) (h : Alike s t) : Alike s (t.endCycle op v) := by
  unfold State.endCycle
  split <;> exact h.same rfl rfl rfl rfl

theorem assertReset (h : Alike s t) : Alike s t.assertReset :=
  h.trans ⟨rfl, rfl, rfl, rfl, rfl, fun _ hx => (by cases hx), fun _ c => by
    simp [State.chan, State.assertReset, Channel.atReset]⟩

/-- What the Memory Agent and the Port Arbiter leave, the Memory Agent keeping its item. -/
theorem settled (h : Settled s t) (hma : t.ma = s.ma) : Alike s t := (refl s).same h.rt h.lc hma h.channels

end Alike

end Sys2Proof.Machine
end

section
/-! PROOFS. The Run Table and the load stay consistent through a controller cycle (R34, R36, R40, R43, R147): outside LOADING
a record or command may change the runs; in LOADING every word is refused. -/

namespace Sys2Proof.Machine

open Sys2Proof.Safety

/-- The Run Table agrees with its slot map, and a load keeps its order. -/
def Consistent (s : State) : Prop := RunTableWf s ∧ LoadWf s

theorem Consistent.tied {s : State} (h : Consistent s) : Tied s.rt := (runTableWf_iff s).mp h.1

theorem consistent_of_tied {s : State} (h : Tied s.rt) (hl : LoadWf s) : Consistent s := ⟨(runTableWf_iff s).mpr h, hl⟩

/-! ### What neither invariant looks at -/

theorem loadWf_alike {s t : State} (h : LoadWf s) (k : Alike s t) : LoadWf t where
  reading x hx hkind := by
    obtain ⟨y, hy, hyk, hys⟩ := k.item x hx
    obtain ⟨hd, hslot⟩ := h.reading y hy (hyk.trans hkind)
    exact ⟨k.device.trans hd, by rw [k.loadSlot, hslot, hys]⟩
  empty hd := by
    obtain ⟨hfree, hcond⟩ := h.empty (k.device.symm.trans hd)
    exact ⟨fun j => by rw [State.claim, k.rt]; exact hfree j, fun r => by rw [State.run, k.rt]; exact hcond r⟩
  distinct := k.scan ▸ h.distinct
  behind j hj := by rw [k.scan]; exact h.behind j (k.loadSlot.symm.trans hj)
  ranked := k.scan ▸ h.ranked
  draining hd := k.cause ▸ h.draining (k.device.symm.trans hd)
  channels hd j hj hle := by
    have hds := k.device.symm.trans hd
    obtain ⟨hcause, hnone⟩ := h.channels hds j (k.loadSlot.symm.trans hj) hle
    rw [k.cause]
    exact ⟨hcause, fun hr c hc => (k.descriptor hds c).trans (hnone hr c hc)⟩

theorem Consistent.alike {s t : State} (h : Consistent s) (k : Alike s t) : Consistent t :=
  consistent_of_tied (k.rt ▸ h.tied) (loadWf_alike h.2 k)

/-! ### Outside LOADING -/

/-- Away from LOADING a load has no order to keep but that of its scan and the cause of a drain. -/
theorem loadWf_away {s t : State} (h : LoadWf s) (hs : s.lc.device ≠ .loading) (ht : t.lc.device ≠ .loading)
    (hma : t.ma = s.ma) (hslot : t.lc.loadSlot = s.lc.loadSlot) (hscan : t.lc.scan = s.lc.scan)
    (hdrain : t.lc.device = .draining → t.lc.cause ≠ .reset) : LoadWf t where
  reading x hx hkind := absurd (h.reading x (hma ▸ hx) hkind).1 hs
  empty hd := absurd hd ht
  distinct := hscan ▸ h.distinct
  behind k hk := by rw [hscan]; exact h.behind k (hslot ▸ hk)
  ranked := hscan ▸ h.ranked
  draining := hdrain
  channels hd := absurd hd ht

/-- An operation of the Run Table outside LOADING. -/
theorem Consistent.table {s t : State} {x : RunTable} {y : Vector Channel 4} {es : List EventRecord} {fs : List Flag}
    {ks : List PartSlot} (h : Consistent s) (hd : s.lc.device ≠ .loading) (op : TableOp s t x y es fs ks) (hx : Tied x) :
    Consistent t :=
  consistent_of_tied (op.rt ▸ hx) (loadWf_away h.2 hd (op.lc ▸ hd) op.inner.port.2.2.2.2.1 (by rw [op.lc]) (by rw [op.lc])
    (op.lc ▸ h.2.draining))

/-- The start of a drain, never for a reset (R177). -/
theorem Consistent.startDrain {s : State} (h : Consistent s) (hd : s.lc.device ≠ .loading) {cause : LoadCause}
    (hc : cause ≠ .reset) : Consistent (s.startDrain cause) := by
  have hlc : (s.startDrain cause).lc = { s.lc with cause := cause, device := .draining } := rfl
  exact consistent_of_tied h.tied (loadWf_away h.2 hd (by rw [hlc]; exact nofun) rfl rfl rfl fun _ => hc)

theorem Alike.putDescriptor {s t : State} (c : Chan) (d : ChannelDescriptor) (hd : s.lc.device ≠ .loading)
    (h : Alike s t) : Alike s (t.putDescriptor c d) := by
  unfold State.putDescriptor
  exact h.trans ⟨by simp, by simp, by simp, by simp, by simp, fun x hx => ⟨x, by simpa using hx, rfl, rfl⟩,
    fun hl => absurd (h.device.symm.trans hl) hd⟩

theorem Alike.takeNominal {s t : State} (c : Chan) (d : ChannelDescriptor) (h : Alike s t) :
    Alike s (t.takeNominal c d) := by
  unfold State.takeNominal
  exact (h.putChan c _ (by rfl)).countCrossings c 12

theorem Alike.reconfigure {s t : State} (c : Chan) (o d : ChannelDescriptor) (hd : s.lc.device ≠ .loading)
    (h : Alike s t) : Alike s (t.reconfigure c o d) := by
  have hput := h.putDescriptor c d hd
  have hnominal : Alike s (if o.nominal = d.nominal then t.putDescriptor c d else (t.putDescriptor c d).takeNominal c d) := by
    split
    · exact hput
    · exact hput.takeNominal c d
  unfold State.reconfigure
  dsimp only
  generalize (if o.nominal = d.nominal then t.putDescriptor c d else (t.putDescriptor c d).takeNominal c d) = u at hnominal
  have hwindow : Alike s (if o.missWindow = d.missWindow ∧ o.missLimit = d.missLimit then u else u.clearWindow c) := by
    split
    · exact hnominal
    · exact hnominal.clearWindow c
  generalize (if o.missWindow = d.missWindow ∧ o.missLimit = d.missLimit then u else u.clearWindow c) = q at hwindow
  split
  · exact hwindow
  · exact hwindow.owedChanged c

theorem Alike.acceptChannel {s t : State} (c : Chan) (d : ChannelDescriptor) (w : Record) (hd : s.lc.device ≠ .loading)
    (h : Alike s t) : Alike s (t.acceptChannel c d w) := by
  unfold State.acceptChannel
  split
  · unfold State.configure
    exact ((((((h.putDescriptor c d hd).takeNominal c d).clearWindow c).raise _ _ _ _).goOutOfService c _).evalRestrict c)
  · exact (h.reconfigure c _ d hd).raise _ _ _ _

theorem Consistent.acceptStation {s : State} (h : Consistent s) (hd : s.lc.device ≠ .loading) (d : StationDescriptor)
    (w : Record) : Consistent (s.acceptStation d w) := by
  have hput : Alike s ((s.putStation (some d)).raise .descriptorApplied 0 (stationChanges s.lc.station d) w[15].toNat) :=
    Alike.raise _ _ _ _ ((Alike.refl s).loader rfl rfl rfl rfl rfl rfl rfl)
  unfold State.acceptStation
  dsimp only
  split
  · exact (h.alike hput).startDrain (hput.device ▸ hd) nofun
  · exact h.alike hput

/-! ### Commands (R147) -/

section Commands
variable {s : State}

theorem Consistent.clearRun (h : Consistent s) (hd : s.lc.device ≠ .loading) (r : Run) :
    Consistent (s.clearRun r).state :=
  h.table hd (clearRun_law s r).2 (h.tied.setRun rfl rfl rfl ((h.tied r).quiet.congr rfl rfl rfl))

theorem Consistent.unbindRun (h : Consistent s) (hd : s.lc.device ≠ .loading) (r : Run) :
    Consistent (s.unbindRun r).state := by
  unfold State.unbindRun
  split
  · next hb =>
    obtain ⟨_, _, _, _, op, hx⟩ := unbind_tied h.tied hb (v := .unbound) rfl 1
    exact h.table hd op hx
  · exact h

theorem Consistent.releaseHistory (h : Consistent s) (hd : s.lc.device ≠ .loading) (r : Run) :
    Consistent (s.releaseHistoryOf r).state := h.table hd (releaseHistory_law s r) (releaseHistory_tied h.tied r)

theorem Alike.clearChannel (c : Chan) : Alike s (s.clearChannel c).state := by
  unfold State.clearChannel
  split
  · exact ((Alike.refl s).clearWindow c).goInService c _
  all_goals exact .refl s

theorem Alike.clearDeficit (c : Chan) : Alike s (s.clearDeficit c).state :=
  ((Alike.refl s).setChan c { s.chan c with deficit := 0 } rfl).mark _

theorem Alike.setServiceIn (c : Chan) : Alike s (s.setServiceIn c).state := by
  unfold State.setServiceIn
  split
  · exact (Alike.refl s).goInService c _
  all_goals exact .refl s

theorem Alike.setServiceOut (c : Chan) : Alike s (s.setServiceOut c).state := by
  unfold State.setServiceOut
  split
  · exact .refl s
  · exact .refl s
  · exact (Alike.refl s).goOutOfService c _
  · exact ((Alike.refl s).endCalibration c _ _ _).goOutOfService c _
  · exact ((Alike.refl s).clearWindow c).goOutOfService c _

theorem Alike.calibrate (c : Chan) (k : Nat) : Alike s (s.calibrate c k).state := by
  unfold State.calibrate
  split
  · exact .refl s
  · exact ((Alike.refl s).putChan c ((s.chan c).startCalibration (2 ^ k)) rfl).tryBegin c
  all_goals exact .refl s

theorem Consistent.onRun (h : Consistent s) (a : Word) {f : Run → State → CommandResult}
    (hf : ∀ r, Consistent (f r s).state) : Consistent (s.onRun a f).state := by
  unfold State.onRun
  split
  · exact h
  · exact hf _

theorem Consistent.onChan (h : Consistent s) (a : Word) {f : Chan → State → CommandResult}
    (hf : ∀ c, Alike s (f c s).state) : Consistent (s.onChan a f).state := by
  unfold State.onChan
  split
  · exact h
  · exact h.alike (hf _)

theorem Consistent.ownOutcome (h : Consistent s) (hd : s.lc.device ≠ .loading) (x : CommandFields) :
    Consistent (s.ownOutcome x).state := by
  unfold State.ownOutcome
  split
  · exact h.onRun _ (h.clearRun hd)
  · exact h.onChan _ Alike.clearChannel
  · exact h.onChan _ Alike.clearDeficit
  · exact h.alike ((Alike.refl s).same rfl rfl rfl rfl)
  · split
    · exact h.onChan _ Alike.setServiceOut
    · exact h.onChan _ Alike.setServiceIn
  · exact h.onChan _ fun c => Alike.calibrate c _
  · exact h.onRun _ (h.unbindRun hd)
  · exact h.onRun _ (h.releaseHistory hd)
  · exact h.startDrain hd nofun
  · exact h

theorem Consistent.executeCommand (h : Consistent s) (hd : s.lc.device ≠ .loading) (x : CommandFields) :
    Consistent (s.executeCommand x) := by
  have hdecided : Consistent (s.decideOutcome x).state := by
    unfold State.decideOutcome
    split_ifs
    · exact h
    · exact h
    · exact h
    · exact h.ownOutcome hd x
    · exact h
  exact hdecided.alike (Alike.raise _ _ _ _ ((Alike.refl _).loader rfl rfl rfl rfl rfl rfl rfl))

end Commands

/-! ### Records (R40, R43) -/

section Records
variable {s u : State} {slot : Slot} {w : Record}

theorem Consistent.decideTally {k : TallySlot} (h : Consistent s) (hd : s.lc.device ≠ .loading)
    (hu : s.decideTally k w = .accept u) : Consistent u := by
  unfold State.decideTally at hu
  cases hr : asRun (recordIndex w) with
  | none => rw [hr] at hu; cases hu
  | some r =>
    rw [hr] at hu
    dsimp only at hu
    split at hu
    · next hreason =>
      obtain rfl := Decision.accept.inj hu
      have hzero : s.tallyRunReason r k (readTally w) = 0 := by
        rw [State.tallyReason, hr] at hreason
        dsimp only at hreason
        split at hreason
        · cases hreason
        · exact hreason
      obtain ⟨_, _, _, _, _, op, hx⟩ := acceptTally_tied w h.tied hzero
      exact h.table hd op hx
    · cases hu

theorem Consistent.decideRun {r : Run} (h : Consistent s) (hd : s.lc.device ≠ .loading)
    (hu : s.decideRun r w = .accept u) : Consistent u := by
  unfold State.decideRun at hu
  split at hu
  · cases hu
  · next d _ =>
    obtain rfl := Decision.accept.inj hu
    obtain ⟨x, es, fs, ks, op, hx⟩ := applyEnabled_tied h.tied r d
    exact h.table hd (acceptRun_law op w) hx

/-- A record accepted by its owner (R40). -/
theorem Consistent.decideRecord (h : Consistent s) (hd : s.lc.device ≠ .loading)
    (hu : s.decideRecord slot w = .accept u) : Consistent u := by
  unfold State.decideRecord at hu
  split at hu
  · unfold State.handOff at hu
    split at hu
    · exact h.decideTally hd hu
    · exact h.decideRun hd hu
    · unfold State.decideChannel at hu
      split at hu
      · cases hu
      · split at hu
        · cases hu
        · obtain rfl := Decision.accept.inj hu
          exact h.alike ((Alike.refl s).acceptChannel _ _ w hd)
    · split at hu
      · unfold State.decideStation at hu
        split at hu
        · cases hu
        · split at hu
          · obtain rfl := Decision.accept.inj hu
            exact h.acceptStation hd _ w
          · cases hu
      · unfold State.decideCommand at hu
        split at hu
        · cases hu
        · obtain rfl := Decision.accept.inj hu
          exact h.executeCommand hd _
  · cases hu

/-- A record refused (R43): a run may be held. -/
theorem Consistent.refuseRecord (h : Consistent s) (hd : s.lc.device ≠ .loading) (slot : Slot) (w : Record)
    (reason : Nat) : Consistent (s.refuseRecord slot w reason) := by
  obtain ⟨x, op, _, hslots, hruns⟩ := refuseRecord_law s slot w reason
  have hx : Tied x := refuseRecord_tied h.tied hslots hruns
  exact consistent_of_tied (op.rt ▸ hx) (loadWf_away h.2 hd (op.lc ▸ hd) op.inner.port.2.2.2.2.1 (by rw [op.lc])
    (by rw [op.lc]) (op.lc ▸ h.2.draining))

theorem Consistent.completeRecord (h : Consistent s) (hd : s.lc.device ≠ .loading) (e : Assembly) (w : Record) :
    Consistent (s.completeRecord e w) := by
  unfold State.completeRecord
  split
  · exact h.refuseRecord hd _ w _
  · next u hu => exact (h.decideRecord hd hu).alike ((Alike.refl u).same rfl rfl rfl rfl)

end Records

/-! ### A controller cycle (R17) -/

theorem Alike.refuseWord (s : State) (code : Nat) (slot : Slot) (p : Pos) : Alike s (s.refuseWord code slot p) :=
  .verifier (refuseWord_law s code slot p)

theorem not_loading_of_gateCode {d : DeviceState} {slot : Slot} (h : gateCode d slot = 0) : d ≠ .loading := by
  rintro rfl
  cases h

theorem Consistent.placeWord {s : State} (h : Consistent s) (hd : s.lc.device ≠ .loading) (slot : Slot) (p : Pos)
    (v : Word) : Consistent (s.placeWord slot p v) := by
  unfold State.placeWord
  split
  · next e he =>
    unfold State.placeInEntry
    split
    · exact h.alike ((Alike.refl s).same rfl rfl rfl rfl)
    · next w _ =>
      have hbefore : Alike s (s.noteTaken.discardAssembly (e.store p v).slot) :=
        (Alike.refl s).same rfl rfl rfl rfl
      exact (h.alike hbefore).completeRecord hd _ w
  · split
    · exact h.alike ((Alike.refl s).same rfl rfl rfl rfl)
    · exact h.alike (Alike.refuseWord s 22 slot p)

theorem Consistent.handWord {s : State} (h : Consistent s) (slot : Slot) (p : Pos) (v : Word) :
    Consistent (s.handWord slot p v) := by
  unfold State.handWord
  split
  · next hgate => exact h.placeWord (not_loading_of_gateCode hgate) slot p v
  · exact h.alike (Alike.refuseWord s _ slot p)

theorem Consistent.beginCycle {s : State} (h : Consistent s) (a : Addr) (op : BusOp) : Consistent (s.beginCycle a op) := by
  unfold State.beginCycle
  split
  · exact h.alike ((Alike.refl s).same rfl rfl rfl rfl)
  · exact h.handWord _ _ _
  · exact h.alike (.verifier (refuseAtPort_law s _ _ _))

theorem Consistent.controllerCycle {s u : State} {a : Addr} {op : BusOp} (h : Consistent s)
    (hu : s.controllerCycle a op = some u) : Consistent u := by
  unfold State.controllerCycle at hu
  split at hu
  · cases hu
  · obtain rfl := Option.some.inj hu
    split
    · exact h.alike ((Alike.refl s).same rfl rfl rfl rfl)
    · exact h.beginCycle a op

end Sys2Proof.Machine
end

section
/-! PROOFS. The Run Table and the load stay consistent through a load (R169 to R175) and through the start of a reload and the
release of reset, which begin one (R168, R178). -/

namespace Sys2Proof.Machine

open Sys2Proof.Safety

/-! ### A load between two reads -/

/-- In LOADING, with no item, at slot k of the order: the slots before n have been read. Every tally slot is FREE and no
run bound; what the scan has found lies before n; and the channel descriptors still to be read, at n or after, are none. -/
structure LoadAt (k : Slot) (n : Nat) (s : State) : Prop where
  tied : Tied s.rt
  device : s.lc.device = .loading
  item : s.ma = none
  free : ∀ j, s.claim j = .free
  unbound : ∀ r, (s.run r).condition = .retired ∨ (s.run r).condition = .unbound
  distinct : (scannedSlots s.lc.scan).Nodup
  behind : ∀ j ∈ scannedSlots s.lc.scan, j.val + 128 < n
  ranked : ∀ r : Run, s.lc.scan.best[r] = none → s.lc.scan.others[r] = []
  order : k.val ≤ 4 → s.lc.cause = .reset ∨ k.val = 0
  unread : k.val ≤ 4 → s.lc.cause = .reset → ∀ c : Chan, n ≤ 1 + c.val → (s.chan c).descriptor = none

namespace LoadAt
variable {s t : State} {k : Slot} {n m : Nat}

theorem mono (h : LoadAt k n s) (hnm : n ≤ m) : LoadAt k m s :=
  { h with
    behind := fun j hj => (h.behind j hj).trans_le hnm
    unread := fun hk hc c hm => h.unread hk hc c (hnm.trans hm) }

theorem alike (h : LoadAt k n s) (a : Alike s t) : LoadAt k n t where
  tied := a.rt ▸ h.tied
  device := a.device.trans h.device
  item := Option.eq_none_iff_forall_ne_some.mpr fun x hx => by
    obtain ⟨y, hy, _⟩ := a.item x hx
    rw [h.item] at hy; cases hy
  free j := by rw [State.claim, a.rt]; exact h.free j
  unbound r := by rw [State.run, a.rt]; exact h.unbound r
  distinct := a.scan ▸ h.distinct
  behind := a.scan ▸ h.behind
  ranked := a.scan ▸ h.ranked
  order := a.cause ▸ h.order
  unread hk hc c hn := (a.descriptor h.device c).trans (h.unread hk (a.cause ▸ hc) c hn)

theorem not_bound (h : LoadAt k n s) (r : Run) : (s.run r).condition.bound = false := by
  rcases h.unbound r with hc | hc <;> rw [hc] <;> rfl

/-- A change of the Run Table that binds no run and takes no slot. -/
theorem table {x : RunTable} {es : List EventRecord} {fs : List Flag} {ks : List PartSlot} (h : LoadAt k n s)
    (op : TableOp s t x s.channels es fs ks) (hx : Tied x) (hslots : x.slots = s.rt.slots)
    (hcond : ∀ r : Run, x.runs[r].condition = .retired ∨ x.runs[r].condition = .unbound) : LoadAt k n t where
  tied := op.rt ▸ hx
  device := op.lc ▸ h.device
  item := op.inner.port.2.2.2.2.1.trans h.item
  free j := by rw [State.claim, op.rt, hslots]; exact h.free j
  unbound r := by rw [op.run]; exact hcond r
  distinct := op.lc ▸ h.distinct
  behind := op.lc ▸ h.behind
  ranked := op.lc ▸ h.ranked
  order := op.lc ▸ h.order
  unread hk hc c hn := by rw [op.chan]; exact h.unread hk (op.lc ▸ hc) c hn

/-- At its requested slot a load keeps its order. -/
theorem consistent (h : LoadAt k k.val s) (hslot : s.lc.loadSlot = some k) : Consistent s := by
  refine consistent_of_tied h.tied ⟨fun x hx => ?_, fun _ => ⟨h.free, h.unbound⟩, h.distinct, fun j hj => ?_, h.ranked,
    fun hd => ?_, fun _ j hj hle => ?_⟩
  · rw [h.item] at hx; cases hx
  · obtain rfl := Option.some.inj (hslot.symm.trans hj)
    exact h.behind
  · rw [h.device] at hd; cases hd
  · obtain rfl := Option.some.inj (hslot.symm.trans hj)
    exact ⟨h.order hle, h.unread hle⟩

end LoadAt

/-- A loading read ends: its slot is the one requested (R31). -/
theorem loadAt_of_item {s : State} {x : Item} (h : Consistent s) (hx : s.ma = some x) (hk : x.kind = .loadingRead) :
    LoadAt x.slot x.slot.val { s with ma := none } := by
  obtain ⟨hd, hslot⟩ := h.2.reading x hx hk
  obtain ⟨hfree, hunbound⟩ := h.2.empty hd
  exact ⟨h.tied, hd, rfl, hfree, hunbound, h.2.distinct, h.2.behind _ hslot, h.2.ranked,
    fun hle => (h.2.channels hd _ hslot hle).1, fun hle => (h.2.channels hd _ hslot hle).2⟩

/-! ### The record read is used (R170 to R174) -/

theorem asChannelSlot_val {k : Slot} {c : Chan} (h : asChannelSlot k = some c) : k.val = 1 + c.val := by
  unfold asChannelSlot at h
  split at h
  · obtain rfl := Option.some.inj h
    dsimp only
    omega
  · cases h

theorem asTally_val {k : Slot} {t : TallySlot} (h : asTally k = some t) : k.val = 128 + t.val := by
  unfold asTally at h
  split at h
  · obtain rfl := Option.some.inj h
    dsimp only
    omega
  · cases h

namespace Alike
variable {s : State}

theorem loadStation (w : Record) : Alike s (s.loadStation w) := (refl s).loader rfl rfl rfl rfl rfl rfl rfl

theorem loadStatus (w : Record) : Alike s (s.loadStatus w) := by
  unfold State.loadStatus
  split
  · split
    · exact .refl s
    · exact (refl s).same rfl rfl rfl rfl
  · exact .refl s

theorem loadCapture (w : Record) : Alike s (s.loadCapture w) := by
  unfold State.loadCapture
  split
  · split
    · exact .refl s
    · exact Alike.latch _ ((refl s).same rfl rfl rfl rfl)
  · exact .refl s

theorem latchOutOfService (c : Chan) : Alike s (s.latchOutOfService c) := by
  unfold State.latchOutOfService
  split
  · exact (refl s).latch _
  all_goals exact .refl s

theorem restoreChannel (c : Chan) (d : ChannelDescriptor) (x : ChannelRestore) : Alike s (s.restoreChannel c d x) := by
  have hline := (((refl s).putChan c ((s.chan c).restored d x) rfl).countCrossings c 12).evalRestrict c
  unfold State.restoreChannel State.latchDeficit
  split
  · exact (hline.latch _).tryBegin c
  · exact hline.tryBegin c

theorem loadChannelReport (c : Chan) (slot : Slot) (w : Record) : Alike s (s.loadChannelReport c slot w) := by
  unfold State.loadChannelReport
  split
  · exact .refl s
  · split
    · split
      · exact .refl s
      · exact .restoreChannel c _ _
    · exact .refl s

end Alike

/-- A run has other slots only beside a best one, after one more record too (R174). -/
theorem take_ranked {z : Scan} (h : ∀ r : Run, z.best[r] = none → z.others[r] = []) (r : Run) (x : ScanBest) (q : Run)
    (hq : (z.take r x).best[q] = none) : (z.take r x).others[q] = [] := by
  by_cases hqr : q = r
  · subst hqr
    cases hb : z.best[q] with
    | none => rw [(Scan.take_first hb x).1] at hq; cases hq
    | some b =>
      cases hx : b.beatenBy x with
      | true => rw [(Scan.take_better hb hx).1] at hq; cases hq
      | false => rw [(Scan.take_worse hb hx).1] at hq; cases hq
  · obtain ⟨hbest, hothers⟩ := z.take_others x hqr
    rw [hothers]
    exact h q (hbest ▸ hq)

namespace LoadAt
variable {s : State} {k : Slot} {n : Nat}

/-- A channel descriptor is put in force (R171): it is no longer unread. -/
theorem loadChannel (h : LoadAt k k.val s) {c : Chan} (hk : k.val = 1 + c.val) (w : Record) :
    LoadAt k (k.val + 1) (s.loadChannel c w) := by
  have hnext := h.mono (Nat.le_succ k.val)
  unfold State.loadChannel
  split
  · split
    · exact hnext
    · refine alike (s := s.putChan c _) ?_ (.latchOutOfService c)
      refine ⟨by simpa using h.tied, by simpa using h.device, by simpa using h.item, fun j => by simpa using h.free j,
        fun r => by simpa using h.unbound r, by simpa using h.distinct, by simpa using hnext.behind,
        by simpa using h.ranked, by simpa using h.order, fun hle hc q hq => ?_⟩
      have hqc : q ≠ c := by rintro rfl; omega
      rw [State.putChan_chan_ne _ _ hqc]
      exact hnext.unread hle (by simpa using hc) q hq
  · exact hnext

/-- A run's entry is replaced by one that is not bound either. -/
theorem setRun (h : LoadAt k n s) {t : State} {x : RunTable} {r : Run} {e : RunEntry} {es : List EventRecord}
    {fs : List Flag} {ks : List PartSlot} (op : TableOp s t (x.setRun r e) s.channels es fs ks)
    (hruns : x.runs = s.rt.runs) (hslots : x.slots = s.rt.slots)
    (hcond : e.condition = .retired ∨ e.condition = .unbound) (hcur : e.currentSlot = (s.run r).currentSlot)
    (hhist : e.historyCount = (s.run r).historyCount) (hest : e.estimated = (s.run r).estimated)
    (hsub : e.substitution = (s.run r).substitution) : LoadAt k n t := by
  have hrun (q : Run) : x.runs[q] = s.run q := by rw [hruns]; rfl
  have htied : Tied x := fun q => by rw [hslots, hrun]; exact h.tied q
  have hbound : e.condition.bound = false := by rcases hcond with hc | hc <;> rw [hc] <;> rfl
  have hquiet : Quiet e := fun _ _ => by
    rw [hest, hsub]
    exact (h.tied r).quiet.estimated_zero (h.not_bound r)
  refine h.table op (htied.setRun ?_ (by rw [hrun, hcur]) (by rw [hrun, hhist]) hquiet) hslots fun q => ?_
  · rw [hrun, hbound, h.not_bound r]
  · by_cases hq : q = r
    · subst hq; rw [RunTable.setRun_get]; exact hcond
    · rw [RunTable.setRun_ne _ _ hq, hrun]; exact h.unbound q

theorem loadRun (h : LoadAt k n s) (r : Run) (w : Record) : LoadAt k n (s.loadRun r w) := by
  unfold State.loadRun
  split
  · split
    · exact h
    · next d _ =>
      refine h.setRun ((putRunDescriptor_op (.refl s) r d).putRun r { s.run r with condition := d.loadedCondition }) rfl rfl
        ?_ rfl rfl rfl rfl
      show d.loadedCondition = _ ∨ d.loadedCondition = _
      unfold RunDescriptor.loadedCondition
      split
      · exact .inr rfl
      · exact .inl rfl
  · exact h

theorem loadRunReport (h : LoadAt k n s) (r : Run) (slot : Slot) (w : Record) : LoadAt k n (s.loadRunReport r slot w) := by
  unfold State.loadRunReport
  split
  · split
    · exact h
    · exact h.setRun ((TableOp.refl s).putRun r _) rfl rfl (h.unbound r) rfl rfl rfl rfl
  · exact h

/-- A tally slot is weighed (R174): it joins the slots found. -/
theorem scanTally (h : LoadAt k k.val s) {t : TallySlot} (hk : k.val = 128 + t.val) (w : Record) :
    LoadAt k (k.val + 1) (s.scanTally t w) := by
  have hnext := h.mono (Nat.le_succ k.val)
  unfold State.scanTally
  split
  · exact hnext
  · next r _ =>
    split
    · have hperm := scannedSlots_take s.lc.scan r (scanRecord t (readTally w))
      have hnew : t ∉ scannedSlots s.lc.scan := fun ht => by
        have hlt := h.behind t ht
        omega
      exact { hnext with
        tied := h.tied
        free := h.free
        unbound := h.unbound
        unread := hnext.unread
        distinct := hperm.nodup_iff.mpr (List.nodup_cons.mpr ⟨hnew, h.distinct⟩)
        behind := fun j hj => by
          rcases List.mem_cons.mp (hperm.mem_iff.mp hj) with rfl | hj
          · show j.val + 128 < k.val + 1
            omega
          · exact hnext.behind j hj
        ranked := take_ranked h.ranked r _ }
    · exact hnext

end LoadAt

/-- The record read from slot k is used, whatever the slot (R169). -/
theorem LoadAt.useRecord {s : State} {k : Slot} (h : LoadAt k k.val s) (w : Record) :
    LoadAt k (k.val + 1) (s.useRecord k w) := by
  have hnext := h.mono (Nat.le_succ k.val)
  unfold State.useRecord
  split
  · exact hnext.alike (.loadStation w)
  · split
    · exact hnext.alike (.loadStatus w)
    · split
      · exact hnext.alike (.loadCapture w)
      · split
        · next hc => exact h.loadChannel (asChannelSlot_val hc) w
        · exact hnext.loadRun _ w
        · split
          · exact hnext.alike (.loadChannelReport _ k w)
          · exact hnext.loadRunReport _ k w
          · split
            · next ht => exact h.scanTally (asTally_val ht) w
            · exact hnext

/-! ### The next read (R169) -/

/-- A slot up to 4 is read after the slot before it, slot 1 at a load after reset alone. -/
theorem nextLoadSlot_early {a b : Bool} {k j : Slot} (h : nextLoadSlot a b k = some j) (hj : j.val ≤ 4) :
    j.val = k.val + 1 ∧ (k.val = 0 → a = true) ∧ k.val ≤ 4 := by
  unfold nextLoadSlot at h
  split_ifs at h
  all_goals
    have hv := congrArg Fin.val (Option.some.inj h)
    dsimp at hv
  next h0 ha => exact ⟨by omega, fun _ => ha, by omega⟩
  all_goals omega

/-- In the tally band the next slot is read. -/
theorem nextLoadSlot_tally {a b : Bool} {k j : Slot} (h : nextLoadSlot a b k = some j) (hk : 128 ≤ k.val) :
    j.val = k.val + 1 := by
  unfold nextLoadSlot at h
  split_ifs at h
  all_goals
    have hv := congrArg Fin.val (Option.some.inj h)
    dsimp at hv
    omega

theorem LoadAt.request {s : State} {k j : Slot} (h : LoadAt k (k.val + 1) s)
    (hj : nextLoadSlot s.lc.cause.afterReset s.lc.station.isSome k = some j) :
    LoadAt j j.val { s with lc := { s.lc with loadSlot := some j } } where
  tied := h.tied
  device := h.device
  item := h.item
  free := h.free
  unbound := h.unbound
  distinct := h.distinct
  behind i hi := by
    have hlt : i.val + 128 < k.val + 1 := h.behind i hi
    rw [nextLoadSlot_tally hj (by omega)]
    exact hlt
  ranked := h.ranked
  order hle := by
    obtain ⟨_, hreset, hk⟩ := nextLoadSlot_early hj hle
    exact .inl ((h.order hk).elim id fun h0 => (afterReset_iff _).mp (hreset h0))
  unread hle hc c hn := by
    obtain ⟨hnext, _, hk⟩ := nextLoadSlot_early hj hle
    exact h.unread hk hc c (hnext ▸ hn)

/-! ### Load completion (R175) -/

theorem scannedSlots_empty : scannedSlots Scan.empty = [] := by
  refine List.flatMap_eq_nil_iff.mpr fun r _ => ?_
  rw [show Scan.empty.best[r] = none from Vector.getElem_replicate _,
    show Scan.empty.others[r] = [] from Vector.getElem_replicate _]
  rfl

/-- The part once a load is over (R175): nothing of the load is left. -/
theorem consistent_of_loadOver {v u : State} {d : DeviceState} {es : List EventRecord} {fs : List Flag}
    {cs : Vector Channel 4} (h : LoadOver v u d es fs cs) (hma : u.ma = none) (hx : Tied v.settleScan.rt)
    (hd : d = .running ∨ d = .fallback) : Consistent u := by
  have hlc := h.loader
  have hdevice : u.lc.device = d := by rw [hlc]; rfl
  have hscan : u.lc.scan = Scan.empty := by rw [hlc]; rfl
  have hloading : d ≠ .loading := by rcases hd with rfl | rfl <;> exact nofun
  have hdraining : d ≠ .draining := by rcases hd with rfl | rfl <;> exact nofun
  refine consistent_of_tied (h.runTable ▸ hx) ⟨fun x hx => ?_, fun hl => absurd (hdevice.symm.trans hl) hloading, ?_,
    fun k hk => ?_, fun r _ => ?_, fun hl => absurd (hdevice.symm.trans hl) hdraining,
    fun hl => absurd (hdevice.symm.trans hl) hloading⟩
  · rw [hma] at hx; cases hx
  · rw [hscan, scannedSlots_empty]; exact List.nodup_nil
  · rw [hlc] at hk; cases hk
  · rw [hscan]; exact Vector.getElem_replicate _

theorem LoadAt.completeLoad {s : State} {k : Slot} {n : Nat} (h : LoadAt k n s) : Consistent s.completeLoad := by
  have hx := settleScan_tied h.tied h.free h.distinct h.ranked
  have hma : s.completeLoad.ma = none := (Inner.completeLoad (.refl s)).port.2.2.2.2.1.trans h.item
  cases hst : s.lc.station with
  | some d => exact consistent_of_loadOver (completeLoad_running hst) hma hx (.inl rfl)
  | none => exact consistent_of_loadOver (completeLoad_fallback hst) hma hx (.inr rfl)

/-- A loading read is handed over: the next is requested, or the load is over (R31, R169). -/
theorem LoadAt.takeLoad {s : State} {k : Slot} (h : LoadAt k k.val s) (w : Record) : Consistent (s.takeLoad k w) := by
  have hused := h.useRecord w
  unfold State.takeLoad State.nextLoad
  split
  · exact hused.completeLoad
  · next j hj => exact (hused.request hj).consistent rfl

/-! ### The start of a load -/

/-- Slot 0 is requested, nothing having been read, with the Run Table at its reset values. -/
theorem loadAt_start {s : State} (hrt : s.rt = RunTable.reset) (hd : s.lc.device = .loading) (hma : s.ma = none)
    (hscan : s.lc.scan = Scan.empty) (hnone : s.lc.cause = .reset → ∀ c, (s.chan c).descriptor = none) :
    LoadAt 0 0 s where
  tied := hrt ▸ .reset
  device := hd
  item := hma
  free j := by rw [State.claim, hrt]; exact Vector.getElem_replicate _
  unbound r := by
    rw [State.run, hrt, show RunTable.reset.runs[r] = RunEntry.reset from Vector.getElem_replicate _]
    exact .inl rfl
  distinct := by rw [hscan, scannedSlots_empty]; exact List.nodup_nil
  behind j hj := by rw [hscan, scannedSlots_empty] at hj; cases hj
  ranked r _ := by rw [hscan]; exact Vector.getElem_replicate _
  order _ := .inr rfl
  unread _ hc c _ := hnone hc c

theorem Alike.reloadChannels {s t : State} (l : List Chan) (h : Alike s t) : Alike s (l.foldl State.reloadChannel t) := by
  induction l generalizing t with
  | nil => exact h
  | cons c l ih => exact ih (h.reloadChannel c)

/-- The part at the start of a reload, its calibrations not yet aborted (R178). -/
def State.reloadBegun (s : State) : State :=
  ({ s with
    rt := RunTable.reset
    lc := { s.lc with loadSlot := some 0, scan := Scan.empty, fallbackReason := 0 } } : State).setDevice .loading

theorem startReload_eq (s : State) : s.startReload = (List.finRange 4).foldl State.reloadChannel s.reloadBegun := rfl

theorem drainReady_iff (s : State) :
    s.drainReady = true ↔ (s.lc.device = .draining ∧ s.ma = none) ∧ s.drained = true := by
  simp [State.drainReady]

/-- A reload begins: slot 0 is requested, for a cause that is not a reset (R178). -/
theorem Consistent.startReload {s : State} (h : Consistent s) (hr : s.drainReady = true) : Consistent s.startReload := by
  obtain ⟨⟨hd, hma⟩, _⟩ := (drainReady_iff s).mp hr
  have hbegun : LoadAt 0 0 s.reloadBegun := loadAt_start rfl rfl hma rfl fun hc => absurd hc (h.2.draining hd)
  have hfold := Alike.reloadChannels (List.finRange 4) (.refl s.reloadBegun)
  rw [startReload_eq]
  exact (hbegun.alike hfold).consistent hfold.loadSlot

/-- The release of reset begins a load (R168). -/
theorem consistent_afterRelease (s : State) (gb : BitVec 4) (sc : BitVec 6) : Consistent (s.afterRelease gb sc) := by
  have hnone (c : Chan) : ((s.afterRelease gb sc).chan c).descriptor = none := by
    rw [show (s.afterRelease gb sc).chan c = Channel.reset from Vector.getElem_replicate _]
    rfl
  exact (loadAt_start rfl rfl rfl rfl fun _ => hnone).consistent rfl

end Sys2Proof.Machine
end

section
/-! PROOFS. The Run Table and the load stay consistent through every step (R53 to R57, R82, R85, R169, R174, R178). -/

namespace Sys2Proof.Machine

open Sys2Proof.Safety

/-! ### The Memory Agent and the port -/

/-- What the Memory Agent takes up is a loading read only in LOADING, of the slot requested (R32). -/
theorem Consistent.taken {s t : State} (h : Consistent s) (hs : Settled s t)
    (hma : t.ma = s.ma ∨ ∀ x, t.ma = some x → FirstInOrder t x) : Consistent t := by
  rcases hma with hma | hfirst
  · exact h.alike (.settled hs hma)
  · have hnone : Consistent { t with ma := none } := h.alike ((Alike.refl s).itemEnds.same hs.rt hs.lc rfl hs.channels)
    refine consistent_of_tied hnone.tied { hnone.2 with reading := fun x hx hk => ?_ }
    rcases hfirst x hx with ⟨_, _, _, rfl⟩ | ⟨_, hd, k, hslot, rfl⟩ | ⟨_, _, _, _, _, _, rfl⟩ | ⟨_, _, _, _, rfl, _⟩
    · cases hk
    · exact ⟨hd, hslot⟩
    · cases hk
    · cases hk

theorem Consistent.takeItem {s : State} (h : Consistent s) : Consistent s.takeItem :=
  h.taken (.takeItem s) <| match hm : s.ma with
    | some x => .inl (by rw [State.takeItem_busy hm, hm])
    | none => .inr (State.takeItem_chosen hm).first.1

theorem Consistent.settle {s : State} (h : Consistent s) : Consistent s.settle := by
  unfold State.settle
  split
  · exact h
  · exact h.takeItem.alike (.settled (.arbitrate _) (State.arbitrate_ma _))

theorem Consistent.after {s t : State} (h : Consistent s) (ha : After s t) : Consistent t := by
  have hfree : Consistent { s with freeUsed := s.freeUsed + 1 } := h.alike ((Alike.refl s).same rfl rfl rfl rfl)
  cases ha with
  | settle => exact h.settle
  | decided _ => exact hfree.settle
  | opened _ => exact hfree.takeItem

/-- The Memory Agent's word completes; the sixteenth word of a loading read is handed over (R26, R31). -/
theorem Consistent.agentWord {s : State} (h : Consistent s) (v : Word) : Consistent (s.agentWord v) := by
  unfold State.agentWord
  split
  · exact h
  · next x hx =>
    split
    · exact h.alike ((Alike.refl s).advance v hx)
    · have hends := (Alike.refl s).itemEnds
      unfold State.itemDone
      split
      · exact h.alike (hends.same rfl rfl rfl rfl)
      · exact h.alike (hends.same rfl rfl rfl rfl)
      · unfold State.rewriteDone
        split
        · exact h.alike (hends.same rfl rfl rfl rfl)
        · exact h.alike hends
      · next hk => exact (loadAt_of_item h hx hk).takeLoad _

theorem Consistent.finishCycle {s : State} (h : Consistent s) (m : MemCycle) : Consistent (s.finishCycle m) := by
  have hrun := (Alike.refl s).runCycle m
  unfold State.finishCycle
  dsimp only
  split
  · exact h.alike hrun
  · split
    · exact (h.alike hrun).agentWord _
    · exact h.alike ((hrun.endCycle _ _).reportRead _ _ _)

theorem Consistent.memoryCycle {s u : State} (h : Consistent s) (hu : s.memoryCycle = some u) : Consistent u := by
  unfold State.memoryCycle at hu
  split at hu
  · cases hu
  · obtain rfl := Option.some.inj hu
    exact h.finishCycle _

theorem Consistent.itemCycle {s u : State} {k : ItemKind} (h : Consistent s) (hu : s.itemCycle k = some u) :
    Consistent u := by
  unfold State.itemCycle at hu
  split at hu
  · exact h.memoryCycle hu
  · cases hu

/-! ### RESET_n (R168) -/

theorem Consistent.resetAssert {s u : State} (h : Consistent s) (hu : s.resetAssert = some u) : Consistent u := by
  unfold State.resetAssert at hu
  split at hu
  · cases hu
  · obtain rfl := Option.some.inj hu
    exact h.alike (Alike.refl s).assertReset

/-- The release begins a load, and the cycle held through reset is taken afresh. -/
theorem consistent_resetRelease (s : State) (gb : BitVec 4) (sc : BitVec 6) : Consistent (s.resetRelease gb sc) := by
  have hstart := consistent_afterRelease s.underReset gb sc
  unfold State.resetRelease State.retake
  split
  · exact hstart
  · have hfree := hstart.alike ((Alike.refl _).same (u := { s.underReset.afterRelease gb sc with
      freeUsed := (s.underReset.afterRelease gb sc).freeUsed + 1 }) rfl rfl rfl rfl)
    dsimp only
    split
    · exact hfree.beginCycle _ _
    · exact hfree.settle.beginCycle _ _

/-! ### The timers of the runs (R57, R80 to R84) -/

section Timers
variable {s u : State}

/-- In LOADING no run is bound. -/
theorem Consistent.not_loading {r : Run} (h : Consistent s) (hb : (s.run r).condition.bound = true) :
    s.lc.device ≠ .loading := fun hd => by
  rcases (h.2.empty hd).2 r with hc | hc <;> rw [hc] at hb <;> cases hb

theorem Consistent.historyExpiry {k : TallySlot} (h : Consistent s) (hu : s.historyExpiry k = some u) :
    Consistent u := by
  unfold State.historyExpiry at hu
  split at hu
  · next r n hclaim =>
    obtain rfl := Option.some.inj hu
    have hd : s.lc.device ≠ .loading := fun hd => by
      rw [(h.2.empty hd).1 k] at hclaim; cases hclaim
    exact (h.alike ((Alike.refl s).elapseTo n)).table hd (freeHistory_law _ k r)
      (h.tied.freeHistory hclaim rfl rfl rfl ((h.tied r).quiet.congr rfl rfl rfl))
  · cases hu
  · cases hu

theorem Consistent.stalenessExpiry {r : Run} (h : Consistent s) (hu : s.stalenessExpiry r = some u) :
    Consistent u := by
  unfold State.stalenessExpiry at hu
  split at hu
  · next f hlive _ =>
    obtain rfl := Option.some.inj hu
    have hb : (s.run r).condition.bound = true := by rw [hlive]; rfl
    obtain ⟨_, _, _, op⟩ := becomeStale_law (s.elapseTo (f.start + f.staleness)) r (f.start + f.staleness)
    exact (h.alike ((Alike.refl s).elapseTo _)).table (h.not_loading hb) op
      (h.tied.setRun hb.symm rfl rfl (quiet_of_spell (.inl rfl)))
  · cases hu

theorem Consistent.horizonExpiry {r : Run} (h : Consistent s) (hu : s.horizonExpiry r = some u) : Consistent u := by
  unfold State.horizonExpiry at hu
  split at hu
  · next f hstale _ =>
    obtain rfl := Option.some.inj hu
    have hb : (s.run r).condition.bound = true := by rw [hstale]; rfl
    obtain ⟨_, _, _, op⟩ := becomeLost_law (s.elapseTo (f.start + f.horizon)) r
    exact (h.alike ((Alike.refl s).elapseTo _)).table (h.not_loading hb) op
      (h.tied.setRun hb.symm rfl rfl (quiet_of_spell (.inr rfl)))
  · cases hu

theorem Consistent.substitutionStep {r : Run} (h : Consistent s) (hu : s.substitutionStep r = some u) :
    Consistent u := by
  unfold State.substitutionStep at hu
  split at hu
  · next v f hsub _ =>
    obtain rfl := Option.some.inj hu
    have hb : (s.run r).condition.bound = true := by
      rcases (h.tied r).quiet.spell hsub with hc | hc
      · exact congrArg RunCondition.bound hc
      · exact congrArg RunCondition.bound hc
    obtain ⟨_, _, _, _, _, op, hx⟩ := takeStep_tied (s := s.elapseTo v.due) h.tied hsub f
    exact (h.alike ((Alike.refl s).elapseTo _)).table (h.not_loading hb) op hx
  · cases hu

end Timers

/-! ### Every step -/

theorem Consistent.drainComplete {s u : State} (h : Consistent s) (hu : s.drainComplete = some u) : Consistent u := by
  unfold State.drainComplete at hu
  split at hu
  · next hr =>
    obtain rfl := Option.some.inj hu
    exact h.startReload hr
  · cases hu

/-- Every command's answer (log entry 1): the state unchanged, or its event's, the Memory Agent and the Port Arbiter having
gone on. -/
theorem Consistent.exec {i : Instr} {s t : State} (h : Consistent s) (ht : exec i s = .next t) : Consistent t := by
  have ofEvent {e : Option State} (he : answer s e = .next t) (hi : ∀ u, e = some u → Consistent u) : Consistent t := by
    rcases answer_next he with rfl | ⟨u, hu, rfl⟩
    · exact h
    · exact (hi u hu).settle
  have ofAwake {e : Option State} (he : answer s (s.awake e) = .next t) (hi : ∀ u, e = some u → Consistent u) :
      Consistent t := ofEvent he fun u hu => hi u (awake_some hu).1
  have ofAlike {e : Option State} (he : answer s (s.awake e) = .next t) (hi : ∀ u, e = some u → Alike s u) :
      Consistent t := ofAwake he fun u hu => h.alike (hi u hu)
  have ofCycle {e : Option State} (he : answerCycle s e = .next t) (hi : ∀ u, e = some u → Consistent u) :
      Consistent t := by
    rcases answerCycle_next he with rfl | ⟨u, hu, ha⟩
    · exact h
    · exact (hi u hu).after ha
  cases i
  case memoryCycleComplete => exact ofCycle ht fun _ => h.memoryCycle
  case statusRead w =>
    refine ofCycle ht fun u hu => ?_
    unfold State.statusReadCycle at hu
    split at hu
    · exact h.memoryCycle hu
    · cases hu
  case commitComplete => exact ofEvent ht fun _ => h.itemCycle
  case eventAppendComplete => exact ofEvent ht fun _ => h.itemCycle
  case rewriteComplete => exact ofEvent ht fun _ => h.itemCycle
  case loadingReadComplete => exact ofEvent ht fun _ => h.itemCycle
  case resetAssert => exact ofEvent ht fun _ => h.resetAssert
  case resetRelease gb sc =>
    exact ofEvent (e := some (s.resetRelease gb sc)) ht fun u hu => Option.some.inj hu ▸ consistent_resetRelease s gb sc
  case drainComplete => exact ofAwake ht fun _ => h.drainComplete
  case historyExpiry => exact ofAwake ht fun _ => h.historyExpiry
  case stalenessExpiry => exact ofAwake ht fun _ => h.stalenessExpiry
  case horizonExpiry => exact ofAwake ht fun _ => h.horizonExpiry
  case substitutionStep => exact ofAwake ht fun _ => h.substitutionStep
  case assemblyExpired => exact ofAlike ht fun _ => Alike.assemblyExpiry
  case basePeriodExpiry => exact ofAlike ht fun _ => Alike.basePeriodExpiry
  case precheckExpiry => exact ofAlike ht fun _ => Alike.precheckExpiry
  case driveExpiry => exact ofAlike ht fun _ => Alike.driveExpiry
  case proofWindowExpiry => exact ofAlike ht fun _ => Alike.proofWindowExpiry
  case restEnd => exact ofAlike ht fun _ => Alike.restExpiry
  case proofClosure => exact ofAlike ht fun _ => Alike.proofClosure
  case meterPulse => exact ofAlike ht fun _ => Alike.meterPulse
  all_goals exact ofEvent ht fun _ => h.controllerCycle

/-- A step on an empty queue: a decision left open is taken, an event comes up, or time passes. -/
theorem Consistent.idleStep {s : State} (h : Consistent s) : Consistent s.idleStep := by
  unfold State.idleStep
  split
  · exact h
  · split
    · exact h.settle
    · unfold State.awakeStep
      split
      · exact h.alike ((Alike.refl s).same rfl rfl rfl rfl)
      · split <;> exact h.alike ((Alike.refl s).same rfl rfl rfl rfl)

theorem Consistent.step {s t : State} (h : Consistent s) (ht : step s = .next t) : Consistent t := by
  unfold Machine.step at ht
  split at ht
  · cases ht
    exact h.idleStep
  · next i rest _ =>
    have hrest : Consistent { s with pending := rest } := h.alike ((Alike.refl s).same rfl rfl rfl rfl)
    exact hrest.exec ht

/-- Settles O34: both invariants together are kept by every step. -/
theorem runTableStaysConsistent : Obligations.RunTableStaysConsistent := by
  unfold Obligations.RunTableStaysConsistent
  exact fun s t hstep hrt hl => Consistent.step ⟨hrt, hl⟩ hstep

end Sys2Proof.Machine
end

section
/-! PROOFS. The timers of a bound run (R80 to R84, R95): the staleness and the horizon expiry, and the substitution step
that E takes up and the Dose Router routes. -/

namespace Sys2Proof.Machine

open Sys2Proof.Safety

/-! ### Freshness (R80, R81) -/

/-- A mark set in any case: whether a changed field had set it before makes no difference. -/
theorem mem_ite_append_self {p : Prop} [Decidable p] {a k : PartSlot} :
    k ∈ [a] ↔ k ∈ [] ++ (if p then [] else [a]) ++ [a] := by
  split <;> simp

/-- The substitution timer counts from `base`, the staleness expiry's own moment (R80, R82). -/
theorem becomeStale_reports (s : State) (r : Run) (base : Nat) :
    TableOp s (s.becomeStale r base)
      (s.rt.setRun r { s.run r with condition := .stale, substitution := some ⟨base, 0⟩ }) s.channels
      [eventNow s .runStale r.val (s.run r).slotNumber (s.run r).shadowRate] [.run .stale r] [.run r] :=
  (((((TableOp.refl s).putRun r _).raise .runStale r.val (s.run r).slotNumber (s.run r).shadowRate).mark
    (.run r)).latch (.run .stale r)).as rfl rfl (fun _ => Iff.rfl) fun _ => .inl mem_ite_append_self

theorem fallbackFlow_of_descriptor {s : State} {r : Run} {d : RunDescriptor} (hd : s.runDescriptor r = some d) :
    s.fallbackFlow r = d.fallbackFlow := by
  rw [State.fallbackFlow, hd]

theorem becomeLost_reports {s : State} {r : Run} {d : RunDescriptor} (hd : s.runDescriptor r = some d) :
    TableOp s (s.becomeLost r) (s.rt.setRun r { s.run r with condition := .lost }) s.channels
      [eventNow s .runLost r.val (s.run r).slotNumber d.fallbackFlow] [.run .lost r] [.run r] := by
  rw [State.becomeLost, fallbackFlow_of_descriptor hd]
  exact (((((TableOp.refl s).putRun r _).raise .runLost r.val (s.run r).slotNumber d.fallbackFlow).mark
    (.run r)).latch (.run .lost r)).as rfl rfl (fun _ => Iff.rfl) fun _ => .inl mem_ite_append_self

theorem exec_stalenessExpiry {s : State} {r : Run} {f : Freshness} (hc : (s.run r).condition = .live)
    (hf : (s.run r).freshness = some f) : exec (.stalenessExpiry r) s =
      answer s (s.awake (some ((s.elapseTo (f.start + f.staleness)).becomeStale r (f.start + f.staleness)))) := by
  show answer s (s.awake (s.stalenessExpiry r)) = _
  rw [State.stalenessExpiry, hc, hf]

theorem exec_horizonExpiry {s : State} {r : Run} {f : Freshness} (hc : (s.run r).condition = .stale)
    (hf : (s.run r).freshness = some f) : exec (.horizonExpiry r) s =
      answer s (s.awake (some ((s.elapseTo (f.start + f.horizon)).becomeLost r))) := by
  show answer s (s.awake (s.horizonExpiry r)) = _
  rw [State.horizonExpiry, hc, hf]

/-- Settles O52: each expiry is one operation on the Run Table at its timer's deadline. -/
theorem stalenessAndHorizonExpire : Obligations.StalenessAndHorizonExpire := by
  unfold Obligations.StalenessAndHorizonExpire
  refine fun s r f d hw hf hd => ⟨fun hc u hu => ?_, fun hc u hu => ?_⟩
  · subst hu
    obtain ⟨hanswer, hel, hrv, hrt, hch, hrep⟩ :=
      table_timer hw (becomeStale_reports (s.elapseTo (f.start + f.staleness)) r (f.start + f.staleness))
    obtain ⟨hr, hq, hdesc, hslots⟩ := run_of_setRun (s := s) hrt
    exact ⟨_, (exec_stalenessExpiry hc hf).trans hanswer, hel, hrv, hch, hdesc, hslots, hr, hq, hrep⟩
  · subst hu
    obtain ⟨hanswer, hel, hrv, hrt, hch, hrep⟩ :=
      table_timer hw (becomeLost_reports (s := s.elapseTo (f.start + f.horizon)) hd)
    obtain ⟨hr, hq, hdesc, hslots⟩ := run_of_setRun (s := s) hrt
    exact ⟨_, (exec_horizonExpiry hc hf).trans hanswer, hel, hrv, hch, hdesc, hslots, hr, hq, hrep⟩

/-! ### Substitution (R82 to R84) -/

/-- E is published: a run's report changes with it, and with nothing else of a substitution. -/
theorem sameRunReport_estimated (e : RunEntry) (n : Nat) :
    sameRunReport e { e with estimated := e.estimated + n } = decide (n = 0) := by
  simp [sameRunReport]

/-- The run's report is marked where E grew; where it did not, nothing was routed that would mark it (R77, R84). -/
theorem mem_marks_of_growth {s : State} {r : Run} {d : RunDescriptor} {n : Nat} {l : List PartSlot} (k : PartSlot) :
    k ∈ (if n = 0 then [] else [PartSlot.run r]) ++ l ↔
      k ∈ (if n = 0 then [] else [PartSlot.run r]) ++
        ((if unroutedAfter s r d n = (s.run r).unrouted then [] else [.run r]) ++ l) := by
  by_cases hn : n = 0
  · have hun : unroutedAfter s r d n = (s.run r).unrouted := by
      rw [unroutedAfter, if_neg fun h => h.1 hn]
    rw [if_pos hun, List.nil_append]
  · rw [if_neg hn]
    split <;> simp

theorem takeStep_draining {s : State} (hd : s.lc.device = .draining) (r : Run) (f : Freshness) (x : Substitution) :
    s.takeStep r f x = s.countStep r x := by
  rw [State.takeStep, if_pos hd]

/-- The schedule moves on and nothing is reported of it: a report shows no substitution timer. -/
theorem countStep_law (s : State) (r : Run) (x : Substitution) :
    TableOp s (s.countStep r x) (s.rt.setRun r { s.run r with substitution := some ⟨x.base, x.steps + 1⟩ }) s.channels
      [] [] [] :=
  (TableOp.refl s).setRun r _

/-- The state in which a step routes its volume: the schedule moved on, E grown by n. -/
def State.grownAt (r : Run) (x : Substitution) (n : Nat) (s : State) : State :=
  (s.countStep r x).putRun r
    { (s.countStep r x).run r with estimated := ((s.countStep r x).run r).estimated + n }

theorem countStep_run (s : State) (r : Run) (x : Substitution) :
    (s.countStep r x).run r = { s.run r with substitution := some ⟨x.base, x.steps + 1⟩ } :=
  State.setRun_run s r _

/-- Outside DRAINING what E grew by is routed (R83, R84). -/
theorem takeStep_taken {s : State} {r : Run} {f : Freshness} {x : Substitution} {d : RunDescriptor} {grown : Nat}
    (hdev : s.lc.device ≠ .draining) (hd : s.runDescriptor r = some d)
    (hg : grown = (s.run r).substituted (stepVolume f (some d) (s.run r).shadowRate (x.steps + 1))) :
    s.takeStep r f x = (s.grownAt r x grown).route r grown := by
  have hsub : ((s.countStep r x).run r).substituted (stepVolume f (some d) (s.run r).shadowRate (x.steps + 1)) =
      grown := by rw [hg, countStep_run]; rfl
  rw [State.takeStep, if_neg hdev, hd, State.substitute, hsub, State.grownAt]

theorem grownAt_law (s : State) (r : Run) (x : Substitution) (n : Nat) :
    TableOp s (s.grownAt r x n)
      (s.rt.setRun r { s.run r with
        substitution := some ⟨x.base, x.steps + 1⟩, estimated := (s.run r).estimated + n }) s.channels [] []
      (if n = 0 then [] else [.run r]) := by
  have hput := (countStep_law s r x).putRun r
    { (s.countStep r x).run r with estimated := ((s.countStep r x).run r).estimated + n }
  rw [RunTable.setRun_setRun, RunTable.setRun_get, countStep_run, sameRunReport_estimated] at hput
  simpa only [State.grownAt, countStep_run, List.nil_append, decide_eq_true_eq] using hput

/-- A step outside DRAINING: the schedule moves on, E grows, and the run is the cause of what is routed (R82 to R84,
R95). -/
theorem takeStep_routes {s t : State} {r : Run} {f : Freshness} {x : Substitution} {d : RunDescriptor} {grown : Nat}
    (hdev : s.lc.device ≠ .draining) (hd : s.runDescriptor r = some d)
    (hg : grown = (s.run r).substituted (stepVolume f (some d) (s.run r).shadowRate (x.steps + 1)))
    (ht : t = s.takeStep r f x) :
    ∃ y, TableOp s t
        (s.rt.setRun r { s.run r with
          substitution := some ⟨x.base, x.steps + 1⟩
          estimated := (s.run r).estimated + grown
          unrouted := unroutedAfter s r d grown }) y
        (demandEvents s t (receiverOf s d) r.val) (demandFlags s t (receiverOf s d))
        ((if grown = 0 then [] else [.run r]) ++
          if sameReport (s.chan (receiverOf s d)) (t.chan (receiverOf s d)) then [] else [.channel (receiverOf s d)]) ∧
      VolumeRouted s t d grown := by
  have hgrow := grownAt_law s r x grown
  rw [takeStep_taken hdev hd hg] at ht
  generalize s.grownAt r x grown = q at hgrow ht
  subst ht
  have hrun := (hgrow.run r).trans (RunTable.setRun_get _ _ _)
  have hun : unroutedAfter q r d grown = unroutedAfter s r d grown :=
    unroutedAfter_same hgrow.channels (by rw [hrun]) d grown
  obtain ⟨y, hroute, hvol⟩ := route_law (s := q) ((hgrow.descriptor r).trans hd) grown
  have hop := hgrow.trans hroute
  rw [receiverOf_same hgrow.channels, demandEvents_same hgrow.channels hgrow.uptime,
    demandFlags_same hgrow.channels, chan_same hgrow.channels, hgrow.rt, RunTable.setRun_setRun] at hop
  exact ⟨y, hop.as (by rw [hun, hrun]) rfl (fun _ => Iff.rfl) fun k => .inl (mem_marks_of_growth k),
    volumeRouted_same hgrow.channels hgrow.uptime rfl hvol⟩

theorem exec_substitutionStep {s : State} {r : Run} {x : Substitution} {f : Freshness}
    (hx : (s.run r).substitution = some x) (hf : (s.run r).freshness = some f) :
    exec (.substitutionStep r) s = answer s (s.awake (some ((s.elapseTo x.due).takeStep r f x))) := by
  show answer s (s.awake (s.substitutionStep r)) = _
  rw [State.substitutionStep, hx, hf]

/-- Settles O53: in DRAINING the step moves the schedule on alone, in every other device state it is taken. -/
theorem substitutionStepsAreTaken : Obligations.SubstitutionStepsAreTaken := by
  unfold Obligations.SubstitutionStepsAreTaken
  intro s u r f x d due volume grown hw hx hf hd hdue hu hvolume hgrown
  obtain rfl : due = x.due := hdue
  subst hu
  have hexec := exec_substitutionStep hx hf
  by_cases hdev : s.lc.device = .draining
  · rw [takeStep_draining (s := s.elapseTo x.due) hdev] at hexec
    obtain ⟨hanswer, hel, hrv, hrt, hch, hrep⟩ := table_timer hw (countStep_law (s.elapseTo x.due) r x)
    obtain ⟨hr, hq, hdesc, hslots⟩ := run_of_setRun (s := s) hrt
    exact ⟨_, hexec.trans hanswer, hel, hrv, hdesc, hslots, hq, fun _ => ⟨hch, hr, hrep⟩, fun h => absurd hdev h⟩
  · have hg : grown = (s.run r).substituted (stepVolume f (some d) (s.run r).shadowRate (x.steps + 1)) := by
      rw [hgrown, hvolume]; rfl
    generalize hv : (s.elapseTo x.due).takeStep r f x = v at hexec
    obtain ⟨y, hop, hvol⟩ := takeStep_routes (s := s.elapseTo x.due) hdev hd hg hv.symm
    obtain ⟨hanswer, hel, hrv, hrt, hch, hrep⟩ := table_timer hw hop
    obtain ⟨hr, hq, hdesc, hslots⟩ := run_of_setRun (s := s) hrt
    have hsettled : v.settle.channels = v.channels := hch.trans hop.channels.symm
    have hchan : v.settle.chan = v.chan := chan_same hsettled
    refine ⟨_, hexec.trans hanswer, hel, hrv, hdesc, hslots, hq, fun h => absurd h hdev, fun _ =>
      ⟨hr, volumeRouted_same rfl rfl hsettled hvol, ?_⟩⟩
    rw [demandEvents_chan (congrFun hchan _), demandFlags_chan (congrFun hchan _), hchan]
    exact hrep

end Sys2Proof.Machine
end

section
/-! PROOFS. The base-period expiry of a channel in FALLBACK (R99, R105, R111, R123): one crossing, and what it
leads to. -/

namespace Sys2Proof.Machine

open Sys2Proof.Safety

/-- What a change of demand reports is read off the channel's deficit and line before it. -/
theorem demandEvents_from {s q : State} {c : Chan} (hdeficit : (q.chan c).deficit = (s.chan c).deficit)
    (hline : (q.chan c).restrict = (s.chan c).restrict) (htime : q.uptime = s.uptime) (t : State) (cause : Nat) :
    demandEvents q t c cause = demandEvents s t c cause := by
  simp only [demandEvents, hdeficit, hline, eventNow, State.count, htime]

theorem demandFlags_from {s q : State} {c : Chan} (hdeficit : (q.chan c).deficit = (s.chan c).deficit)
    (hline : (q.chan c).restrict = (s.chan c).restrict) (t : State) : demandFlags q t c = demandFlags s t c := by
  simp only [demandFlags, hdeficit, hline]

/-- The timer runs on and one crossing is distributed with cause 13 (R99, R123). -/
theorem baseStroke_law {s t : State} {c : Chan} {d : ChannelDescriptor} (b : BaseTimer)
    (hd : (s.chan c).descriptor = some d) (ht : t = (s.nextBase c b).demandStroke c) :
    ChannelOp c s t (t.chan c) (demandEvents s t c 13) (demandFlags s t c)
        (if sameReport (s.chan c) (t.chan c) then [] else [.channel c]) ∧
      Distributed { s.chan c with baseTimer := some ⟨b.period, b.next + b.period⟩ } (t.chan c) 1 (s.chan c).residue ∧
      Follows d s.uptime 1 (s.chan c) (t.chan c) := by
  have hnext := (ChannelOp.refl c s).setChan { s.chan c with baseTimer := some ⟨b.period, b.next + b.period⟩ }
    (.other rfl rfl rfl)
  have hchan : (s.nextBase c b).chan c = { s.chan c with baseTimer := some ⟨b.period, b.next + b.period⟩ } :=
    hnext.on.chan
  obtain ⟨y, hon, hdis, hline, hbegin, heff⟩ :=
    demand_law (s := s.nextBase c b) (c := c) (by rw [hchan]; exact hd) 1 13 Nat.one_ne_zero
  have hop := hnext.trans ⟨hon, heff⟩
  have hevents := demandEvents_from (s := s) (q := s.nextBase c b) (c := c) (by rw [hchan]) (by rw [hchan]) rfl
  have hflags := demandFlags_from (s := s) (q := s.nextBase c b) (c := c) (by rw [hchan]) (by rw [hchan])
  have heq : ((s.nextBase c b).distribute c 1 13).owedChanged c = t := ht.symm
  rw [hevents, hflags, heq] at hop
  rw [heq] at hon
  rw [hchan] at hop hdis hline hbegin
  obtain rfl : t.chan c = y := hon.chan
  exact ⟨hop, hdis, hline, hbegin⟩

theorem exec_basePeriodExpiry {s : State} {c : Chan} {b : BaseTimer} (hf : s.lc.device = .fallback)
    (hb : (s.chan c).baseTimer = some b) : exec (.basePeriodExpiry c) s =
      answer s (s.awake (some (((s.elapseTo b.next).nextBase c b).demandStroke c))) := by
  show answer s (s.awake (s.basePeriodExpiry c)) = _
  rw [State.basePeriodExpiry, hf, hb]

/-- Settles O54: one crossing on the channel whose timer has run on, at the timer's deadline. -/
theorem basePeriodsDemandStrokes : Obligations.BasePeriodsDemandStrokes := by
  unfold Obligations.BasePeriodsDemandStrokes
  rintro s u c b d hw hf hb hd rfl
  obtain ⟨hop, hdis, hfollow⟩ := baseStroke_law (s := s.elapseTo b.next) b hd rfl
  obtain ⟨hanswer, hel, hrv, hrt, hother, hchan, hrep⟩ := timer_answer hw hop
  refine ⟨_, (exec_basePeriodExpiry hf hb).trans hanswer, hel, hrv, hrt, hother, ?_, ?_, ?_⟩
  · rw [hchan]; exact hdis
  · rw [hchan]; exact hfollow
  · rw [demandEvents_chan hchan, demandFlags_chan hchan, hchan]
    exact hrep

end Sys2Proof.Machine
end

section
/-! PROOFS. The end of a stroke's rest (R98, R103, R111, R116, R130, R131, R134): the sequencer IDLE, a calibration's
completion after its last stroke, and the next stroke. -/

namespace Sys2Proof.Machine

open Sys2Proof.Safety

/-! ### The measurement put to use (R103, R131) -/

/-- The channel, a completed calibration's measurement in its working displacement where it is applied. -/
def Channel.measuredAs (x : Channel) (o : CalOutcome) (m : Nat) : Channel :=
  { x with working := if o = .okApplied then m else x.working }

/-- The crossings a completed calibration counts: none where its measurement is not applied. -/
def Channel.crossingsAt (x : Channel) (o : CalOutcome) (m : Nat) : Nat :=
  if o = .okApplied then x.residue / (m * 1000) else 0

theorem applyMeasured_unapplied {o : CalOutcome} (ho : o ≠ .okApplied) (s : State) (c : Chan) (m : Nat) :
    s.applyMeasured c o m = s := by
  cases o with
  | okApplied => exact absurd rfl ho
  | _ => rfl

/-- An applied measurement's crossings are distributed; another leaves the channel as it is. -/
theorem applyMeasured_law {s t : State} {c : Chan} {d : ChannelDescriptor} (hd : (s.chan c).descriptor = some d)
    (o : CalOutcome) (m : Nat) (ht : t = s.applyMeasured c o m) :
    ∃ ks, OfChannel c ks ∧ ChannelOp c s t (t.chan c) (demandEvents s t c 12) (demandFlags s t c) ks ∧
      Distributed ((s.chan c).measuredAs o m) (t.chan c) ((s.chan c).crossingsAt o m)
        (if o = .okApplied then (s.chan c).residue % (m * 1000) else (s.chan c).residue) ∧
      Follows d s.uptime ((s.chan c).crossingsAt o m) (s.chan c) (t.chan c) := by
  by_cases ho : o = .okApplied
  · subst ho
    have hput := (ChannelOp.refl c s).putChan { s.chan c with working := m } (.other rfl rfl rfl)
    have hevents := demandEvents_from (s := s) (q := s.putChan c { s.chan c with working := m }) (c := c)
      (by rw [hput.on.chan]) (by rw [hput.on.chan]) hput.on.uptime
    have hflags := demandFlags_from (s := s) (q := s.putChan c { s.chan c with working := m }) (c := c)
      (by rw [hput.on.chan]) (by rw [hput.on.chan])
    have heq : t = (s.putChan c { s.chan c with working := m }).countAndSettle c 12 := ht
    generalize s.putChan c { s.chan c with working := m } = q at hput hevents hflags heq
    obtain ⟨y, hon, hdis, hfollow, heff⟩ := countAndSettle_law (hput.descriptor hd) 12
    have hop := hput.trans ⟨hon, heff⟩
    rw [hevents, hflags, ← heq] at hop
    rw [← heq] at hon
    rw [hput.on.chan] at hop hdis hfollow
    rw [hput.on.uptime] at hfollow
    obtain rfl : t.chan c = y := hon.chan
    exact ⟨_, ((OfChannel.nil c).append (.ite c _)).append (.ite c _), hop, hdis, hfollow⟩
  · rw [applyMeasured_unapplied ho] at ht
    subst ht
    obtain ⟨hevents, hflags⟩ := demand_unchanged (s := t) (c := c) rfl 12
    rw [hevents, hflags, Channel.measuredAs, Channel.crossingsAt, if_neg ho, if_neg ho, if_neg ho]
    exact ⟨_, .nil c, .refl c t, by simp [Distributed], by simp [Follows]⟩

/-! ### The completion of a calibration (R130, R131, R134) -/

/-- The channel once its calibration has completed (R131, R134). -/
def Channel.completedAs (x : Channel) (o : CalOutcome) (m : Nat) : Channel :=
  { x with
    service := .inService
    working := if o = .okApplied then m else x.working
    cal := ⟨false, 0, 0, false, x.cal.pulses, o, m⟩ }

theorem completionOutcome_measures (m : Nat) (d : ChannelDescriptor) :
    completionOutcome m d = .okApplied ∨ completionOutcome m d = .okNotApplied ∨
      completionOutcome m d = .outOfTolerance := by
  unfold completionOutcome
  split_ifs <;> simp

/-- A completed calibration keeps the count of its window pulses. -/
theorem ended_of_measurement {o : CalOutcome} (ho : o = .okApplied ∨ o = .okNotApplied ∨ o = .outOfTolerance)
    (x : Calibration) (m : Nat) : x.ended o m = ⟨false, 0, 0, false, x.pulses, o, m⟩ := by
  rcases ho with rfl | rfl | rfl <;> rfl

theorem flag_of_measurement {o : CalOutcome} (ho : o = .okApplied ∨ o = .okNotApplied ∨ o = .outOfTolerance) :
    o.flag = if o = .outOfTolerance then .calFail else .calDone := by
  rcases ho with rfl | rfl | rfl <;> rfl

theorem completeCalibration_law {s t : State} {c : Chan} {d : ChannelDescriptor} {m : Nat} {o : CalOutcome}
    (hd : (s.chan c).descriptor = some d) (hm : m = (s.chan c).measured d) (ho : o = completionOutcome m d)
    (ht : t = s.completeCalibration c) :
    ∃ ks, OfChannel c ks ∧
      ChannelOp c s t (t.chan c) (eventNow s .calibrationEnd c.val o.code m :: demandEvents s t c 12)
        (.channel c (if o = .outOfTolerance then .calFail else .calDone) :: demandFlags s t c) ks ∧
      Distributed ((s.chan c).completedAs o m) (t.chan c) ((s.chan c).crossingsAt o m)
        (if o = .okApplied then (s.chan c).residue % (m * 1000) else (s.chan c).residue) ∧
      Follows d s.uptime ((s.chan c).crossingsAt o m) (s.chan c) (t.chan c) := by
  have hmeasures : o = .okApplied ∨ o = .okNotApplied ∨ o = .outOfTolerance := ho ▸ completionOutcome_measures m d
  have hend := endCalibration_law s c o m .inService
  rw [ended_of_measurement hmeasures, flag_of_measurement hmeasures] at hend
  have hevents := demandEvents_from (s := s) (q := s.endCalibration c o m .inService) (c := c)
    (by rw [hend.on.chan]) (by rw [hend.on.chan]) hend.on.uptime
  have hflags := demandFlags_from (s := s) (q := s.endCalibration c o m .inService) (c := c)
    (by rw [hend.on.chan]) (by rw [hend.on.chan])
  have heq : t = (s.endCalibration c o m .inService).applyMeasured c o m := by
    rw [ht, State.completeCalibration, hd, ho, hm]
  generalize s.endCalibration c o m .inService = q at hend hevents hflags heq
  obtain ⟨ks, hks, hop, hdis, hfollow⟩ := applyMeasured_law (hend.descriptor hd) o m heq
  rw [hevents, hflags] at hop
  rw [hend.on.chan] at hdis hfollow
  rw [hend.on.uptime] at hfollow
  exact ⟨_, (OfChannel.one c).append hks, hend.trans hop, hdis, hfollow⟩

/-! ### The rest ends (R111, R116) -/

/-- The report shows a phase that has left REST. -/
theorem sameReport_leavesRest {x y : Channel} (hx : x.seq.phase = .rest) (hy : y.seq.phase ≠ .rest) :
    sameReport x y = false := by
  simp only [sameReport, decide_eq_false_iff_not]
  rintro ⟨_, hp, _⟩
  exact hy (hp.symm.trans hx)

theorem toIdle_law {s : State} {c : Chan} (hp : (s.chan c).seq.phase = .rest) :
    ChannelOp c s (s.putChan c { s.chan c with seq := Sequencer.idle }) { s.chan c with seq := Sequencer.idle } [] []
      [.channel c] := by
  have hput := (ChannelOp.refl c s).putChan { s.chan c with seq := Sequencer.idle }
    (.seq (fun _ => by simp [OutputsFollow, Sequencer.idle]) rfl rfl)
  rw [sameReport_leavesRest hp (by simp [Sequencer.idle])] at hput
  exact hput

theorem endRest_ordinary {s : State} {c : Chan} (h : (s.chan c).lastCalibrationStroke = false) :
    s.endRest c = (s.putChan c { s.chan c with seq := Sequencer.idle }).tryBegin c := by
  rw [State.endRest, h]
  rfl

theorem endRest_last {s : State} {c : Chan} (h : (s.chan c).lastCalibrationStroke = true) :
    s.endRest c =
      ((s.putChan c { s.chan c with seq := Sequencer.idle }).completeCalibration c).tryBegin c := by
  rw [State.endRest, h]
  rfl

theorem lastCalibrationStroke_iff (x : Channel) : x.lastCalibrationStroke = true ↔
    x.cal.active = true ∧ x.seq.kind = some .calibration ∧ x.cal.required ≤ x.cal.proven := by
  simp [Channel.lastCalibrationStroke, and_assoc]

/-- The rest of a stroke that is no calibration's last one. -/
theorem endRest_ordinary_law {s : State} {c : Chan} {d : ChannelDescriptor} (hp : (s.chan c).seq.phase = .rest)
    (hd : (s.chan c).descriptor = some d) (hlast : (s.chan c).lastCalibrationStroke = false) :
    ChannelOp c s (s.endRest c) ({ s.chan c with seq := Sequencer.idle }.begun d s.uptime) [] [] [.channel c] := by
  have hidle := toIdle_law hp
  rw [endRest_ordinary hlast]
  generalize s.putChan c { s.chan c with seq := Sequencer.idle } = q at hidle
  obtain ⟨hon, heff⟩ := tryBegin_law (hidle.descriptor hd)
  rw [hidle.on.chan, hidle.on.uptime] at hon heff
  exact (hidle.trans ⟨hon, heff⟩).as rfl rfl (fun _ => Iff.rfl) fun k =>
    .inl (((OfChannel.one c).append (.ite c _)).is (by simp) k)

/-- The sequencer's test once the calibration is over: it begins the stroke due, or the distribution's own
test has begun it. -/
theorem begins_of_follows {d : ChannelDescriptor} {now n : Nat} {x y : Channel} (hidle : x.seq.phase = .idle)
    (h : Follows d now n x y) : Begins d now x (y.begun d now) := by
  unfold Follows at h
  split at h
  · obtain ⟨_, hseq⟩ := h
    have hy : y.seq.phase = .idle := by rw [hseq, hidle]
    show (if y.seq.phase = .idle then _ else _) = if x.seq.phase = .idle then _ else _
    rw [if_pos hy, if_pos hidle, ← hseq]
    rfl
  · obtain ⟨_, hbegins⟩ := h
    rw [begins_again hbegins]
    exact hbegins

/-- The rest of a calibration's last stroke. -/
theorem endRest_last_law {s t : State} {c : Chan} {d : ChannelDescriptor} {m : Nat} {o : CalOutcome} {x : Channel}
    (hp : (s.chan c).seq.phase = .rest) (hd : (s.chan c).descriptor = some d)
    (hlast : (s.chan c).lastCalibrationStroke = true) (hm : m = (s.chan c).measured d) (ho : o = completionOutcome m d)
    (hx : x = { s.chan c with seq := Sequencer.idle }.completedAs o m) (ht : t = s.endRest c) :
    ChannelOp c s t (t.chan c) (eventNow s .calibrationEnd c.val o.code m :: demandEvents s t c 12)
        (.channel c (if o = .outOfTolerance then .calFail else .calDone) :: demandFlags s t c) [.channel c] ∧
      Distributed x (t.chan c) ((s.chan c).crossingsAt o m)
        (if o = .okApplied then (s.chan c).residue % (m * 1000) else (s.chan c).residue) ∧
      (if (s.chan c).crossingsAt o m = 0 then (t.chan c).restrict = (s.chan c).restrict
        else LineFollows d (s.chan c).restrict (t.chan c)) ∧
      Begins d s.uptime x (t.chan c) := by
  have hidle := toIdle_law hp
  rw [endRest_last hlast] at ht
  have hevents := demandEvents_from (s := s) (q := s.putChan c { s.chan c with seq := Sequencer.idle }) (c := c)
    (by rw [hidle.on.chan]) (by rw [hidle.on.chan]) hidle.on.uptime
  have hflags := demandFlags_from (s := s) (q := s.putChan c { s.chan c with seq := Sequencer.idle }) (c := c)
    (by rw [hidle.on.chan]) (by rw [hidle.on.chan])
  generalize s.putChan c { s.chan c with seq := Sequencer.idle } = q at hidle hevents hflags ht
  obtain ⟨ks, hks, hcomplete, hdis, hfollow⟩ := completeCalibration_law (m := m) (hidle.descriptor hd)
    (by rw [hm, hidle.on.chan]; rfl) ho rfl
  have hop := hidle.trans hcomplete
  rw [hevents, hflags, hidle.on.eventNow] at hop
  rw [hidle.on.chan] at hdis hfollow
  rw [hidle.on.uptime] at hfollow
  generalize q.completeCalibration c = v at hcomplete hop hdis hfollow ht
  have hdv : (v.chan c).descriptor = some d := by rw [hdis]; exact hd
  obtain ⟨hon, heff⟩ := tryBegin_law hdv
  rw [← ht] at hon heff
  have hall := hop.trans ⟨hon, heff⟩
  rw [hop.on.uptime] at hon hall
  have hchan : t.chan c = (v.chan c).begun d s.uptime := hon.chan
  have htevents : demandEvents s t c 12 = demandEvents s v c 12 := by simp only [demandEvents, hchan, Channel.begun]
  have htflags : demandFlags s t c = demandFlags s v c := by simp only [demandFlags, hchan, Channel.begun]
  rw [htevents, htflags, hchan]
  refine ⟨hall.as rfl (by simp) (by simp) fun k =>
    .inl ((((OfChannel.one c).append hks).append (.ite c _)).is (by simp) k), ?_, ?_, ?_⟩
  · subst hx
    simp only [Distributed] at hdis ⊢
    rw [hdis]
    rfl
  · have hfollow' := hfollow
    unfold Follows at hfollow'
    split at hfollow'
    · next hn => exact (if_pos hn).symm ▸ hfollow'.1
    · next hn => exact (if_neg hn).symm ▸ hfollow'.1
  · subst hx
    exact begins_of_follows rfl hfollow

theorem exec_restEnd {s : State} {c : Chan} (hp : (s.chan c).seq.phase = .rest) : exec (.restEnd c) s =
    answer s (s.awake (some ((s.elapseTo ((s.chan c).seq.restRef + (s.chan c).seq.times.period)).endRest c))) := by
  show answer s (s.awake (s.restExpiry c)) = _
  rw [State.restExpiry, hp]
  rfl

/-- Settles O58: an ordinary rest and that of a calibration's last stroke, at the rest's end. -/
theorem restsEnd : Obligations.RestsEnd := by
  unfold Obligations.RestsEnd
  rintro s u c d hw hp hd rfl
  cases hlast : (s.chan c).lastCalibrationStroke with
  | false =>
    obtain ⟨hanswer, hel, hrv, hrt, hother, hchan, hrep⟩ := timer_answer hw
      (endRest_ordinary_law (s := s.elapseTo ((s.chan c).seq.restRef + (s.chan c).seq.times.period)) hp hd hlast)
    refine ⟨_, (exec_restEnd hp).trans hanswer, hel, hrv, hrt, hother, fun _ => ⟨?_, ?_, hrep⟩,
      fun m o x hactive hkind hproven => ?_⟩
    · rw [hchan]; rfl
    · rw [hchan]; rfl
    · rw [(lastCalibrationStroke_iff _).mpr ⟨hactive, hkind, hproven⟩] at hlast
      cases hlast
  | true =>
    obtain ⟨hop, -⟩ := endRest_last_law (s := s.elapseTo ((s.chan c).seq.restRef + (s.chan c).seq.times.period))
      hp hd hlast rfl rfl rfl rfl
    obtain ⟨hanswer, hel, hrv, hrt, hother, hchan, hrep⟩ := timer_answer hw hop
    refine ⟨_, (exec_restEnd hp).trans hanswer, hel, hrv, hrt, hother,
      fun hnot => absurd ((lastCalibrationStroke_iff _).mp hlast) hnot, ?_⟩
    intro m o x _ _ _ hm ho hx n hn
    have hout := completionOutcome_eq ho
    obtain ⟨-, hdis, hline, hbegin⟩ := endRest_last_law
      (s := s.elapseTo ((s.chan c).seq.restRef + (s.chan c).seq.times.period)) hp hd hlast hm hout.symm hx rfl
    subst hn
    rw [demandEvents_chan hchan, demandFlags_chan hchan, hchan]
    refine ⟨hdis, hline, hbegin, ?_⟩
    subst hm hout
    exact hrep

end Sys2Proof.Machine
end

section
/-! PROOFS. CHANNEL_DESCRIPTOR accepted by an UNCONFIGURED channel (R103, R109, R144). -/

namespace Sys2Proof.Machine

open Sys2Proof.Safety

/-- The channel with its first descriptor in force, out of service, the residue not yet counted (R144). -/
def Channel.configured (x : Channel) (d : ChannelDescriptor) : Channel :=
  { x with service := .outOfService, descriptor := some d, working := d.nominal, attempts := 0, misses := 0 }

theorem takeNominal_eq (s : State) (c : Chan) (d : ChannelDescriptor) :
    (s.putDescriptor c d).takeNominal c d =
      ((s.putChan c { s.chan c with descriptor := some d }).putChan c
        { s.chan c with descriptor := some d, working := d.nominal }).countCrossings c 12 := by
  rw [State.takeNominal, State.putDescriptor, State.putChan_chan]

/-- The first descriptor is in force and the residue counted against its quantum (R103, R144). -/
theorem takeNominal_law (s : State) (c : Chan) (d : ChannelDescriptor) :
    ∃ y ks, OfChannel c ks ∧ ChannelOp c s ((s.putDescriptor c d).takeNominal c d) y
        (if (s.chan c).deficit = 0 ∧ 0 < y.deficit then [eventNow s .deficitStarted c.val 12 y.deficit] else [])
        (if (s.chan c).deficit = 0 ∧ 0 < y.deficit then [.channel c .deficit] else []) ks ∧
      Distributed { s.chan c with descriptor := some d, working := d.nominal } y
        ((s.chan c).residue / (d.nominal * 1000)) ((s.chan c).residue % (d.nominal * 1000)) ∧
      y.restrict = (s.chan c).restrict ∧ y.seq = (s.chan c).seq := by
  have hput := ((ChannelOp.refl c s).putChan { s.chan c with descriptor := some d } (.other rfl rfl rfl)).putChan
    { s.chan c with descriptor := some d, working := d.nominal } (.other rfl rfl rfl)
  rw [takeNominal_eq]
  generalize (s.putChan c { s.chan c with descriptor := some d }).putChan c
    { s.chan c with descriptor := some d, working := d.nominal } = q at hput
  obtain ⟨y, hop, hdis, hline, hseq⟩ := countCrossings_law q c 12
  have hall := hput.trans hop
  rw [hput.on.eventNow] at hall
  rw [hput.on.chan] at hall hdis hline hseq
  exact ⟨y, _, (((OfChannel.nil c).append (.ite c _)).append (.ite c _)).append (.ite c _), hall, hdis, hline, hseq⟩

/-- The configuration of a channel, its line not yet evaluated (R109, R144). -/
def State.configuredAt (c : Chan) (d : ChannelDescriptor) (w : Record) (s : State) : State :=
  ((((s.putDescriptor c d).takeNominal c d).clearWindow c).raise .descriptorApplied (channelDescriptorSlot c).val
    (channelChanges none d) w[15].toNat).goOutOfService c .unconfigured

theorem configure_eq (s : State) (c : Chan) (d : ChannelDescriptor) (w : Record) :
    s.configure c d w = (s.configuredAt c d w).evalRestrict c := rfl

theorem configuredAt_law (s : State) (c : Chan) (d : ChannelDescriptor) (w : Record) :
    ∃ y, ChannelOp c s (s.configuredAt c d w) y
        ((if (s.chan c).deficit = 0 ∧ 0 < y.deficit then [eventNow s .deficitStarted c.val 12 y.deficit] else []) ++
          [eventNow s .descriptorApplied (1 + c.val) 15 w[15].toNat, eventNow s .channelService c.val 1 0])
        (.channel c .outOfService :: if (s.chan c).deficit = 0 ∧ 0 < y.deficit then [.channel c .deficit] else [])
        [.channel c] ∧
      Distributed ((s.chan c).configured d) y ((s.chan c).residue / (d.nominal * 1000))
        ((s.chan c).residue % (d.nominal * 1000)) ∧
      y.restrict = (s.chan c).restrict ∧ y.seq = leftService (s.chan c).seq := by
  obtain ⟨y, ks, hks, hnominal, hdis, hline, hseq⟩ := takeNominal_law s c d
  rw [State.configuredAt]
  generalize (s.putDescriptor c d).takeNominal c d = q at hnominal
  have hclear := hnominal.trans (clearWindow_law q c)
  rw [hnominal.on.chan] at hclear
  have hraise := hclear.raise .descriptorApplied (channelDescriptorSlot c).val (channelChanges none d) w[15].toNat
  generalize (q.clearWindow c).raise .descriptorApplied (channelDescriptorSlot c).val (channelChanges none d)
    w[15].toNat = v at hraise
  have hall := hraise.trans (goOutOfService_law v c .unconfigured)
  rw [hraise.on.chan, hraise.on.eventNow] at hall
  refine ⟨_, hall.as rfl ?_ ?_ fun k => .inl (OfChannel.is ?_ (by simp) k), ?_, hline, by rw [hseq]⟩
  · simp [channelDescriptorSlot, channelChanges, ServiceState.code]
  · intro f; simp [or_comm]
  · exact ((hks.append ((OfChannel.nil c).append (.ite c _)))).append (.one c)
  · simp only [Distributed] at hdis ⊢
    rw [hdis]
    rfl

/-- The configuration of a channel (R103, R105, R109, R144), in the statements' words. -/
theorem configure_law {s t : State} {c : Chan} {d : ChannelDescriptor} {w : Record} (ht : t = s.configure c d w) :
    ChannelOp c s t (t.chan c)
        ((if (s.chan c).deficit = 0 ∧ 0 < (t.chan c).deficit
            then [eventNow s .deficitStarted c.val 12 (t.chan c).deficit] else []) ++
          [eventNow s .descriptorApplied (1 + c.val) 15 w[15].toNat, eventNow s .channelService c.val 1 0] ++
          lineEvents s c d (s.chan c) (t.chan c))
        (.channel c .outOfService :: demandFlags s t c) [.channel c] ∧
      Distributed ((s.chan c).configured d) (t.chan c) ((s.chan c).residue / (d.nominal * 1000))
        ((s.chan c).residue % (d.nominal * 1000)) ∧
      LineFollows d (s.chan c).restrict (t.chan c) ∧ (t.chan c).seq = leftService (s.chan c).seq := by
  obtain ⟨y, hop, hdis, hline, hseq⟩ := configuredAt_law s c d w
  rw [configure_eq] at ht
  generalize s.configuredAt c d w = q at hop ht
  obtain ⟨hon, heff⟩ := evalRestrict_law (hop.descriptor (d := d) (by rw [hdis]; rfl))
  rw [← ht] at hon heff
  have hall := hop.trans ⟨hon, heff⟩
  rw [hop.on.chan, hop.on.eventNow, hop.on.eventNow, hline] at hall
  have hchan : t.chan c = y.lineSet d := by rw [hon.chan, hop.on.chan]
  have hdeficit : (y.lineSet d).deficit = y.deficit := rfl
  have howed : (y.lineSet d).owed = y.owed := rfl
  refine ⟨?_, ?_, ?_, ?_⟩
  · rw [hchan]
    refine hall.as rfl ?_ ?_ (by simp)
    · rw [hdeficit, lineEvents, howed]
    · intro f
      simp [demandFlags, hchan, hdeficit]
  · rw [hchan]
    simp only [Distributed] at hdis ⊢
    rw [hdis]
    rfl
  · rw [hchan, ← hline]; rfl
  · rw [hchan, ← hseq]; rfl

/-- No descriptor in force, none is changed: CONFIG_STATE passes (R142). -/
theorem decideChannel_first {s : State} {c : Chan} {w : Record} {d : ChannelDescriptor} (hw : readChannel w = some d)
    (hd : (s.chan c).descriptor = none) : s.decideChannel c w = .accept (s.configure c d w) := by
  have hstate : (s.chan c).configState d = false := by rw [Channel.configState, hd]
  rw [State.decideChannel, hw]
  dsimp only
  rw [hstate, State.acceptChannel, hd]
  rfl

/-- Settles O38: the configuration, as the completed record's owner makes it. -/
theorem channelDescriptorsConfigure : Obligations.ChannelDescriptorsConfigure := by
  unfold Obligations.ChannelDescriptorsConfigure
  rintro s c p v w d x hc hi hw hr hs hn rfl
  obtain ⟨hop, hdis, hline, hseq⟩ :=
    configure_law (s := s.beforeDecision (channelDescriptorSlot c)) (c := c) (d := d) (w := w) rfl
  obtain ⟨t, hanswer, hout, htime, hlc, hrt, hrv, hchan, hother, hrep⟩ :=
    record_channel hc (channelSlot_class c) ((decideRecord_channel hi hw).trans (decideChannel_first hr hn)) hop
  refine ⟨t, hanswer, hout, htime, hlc, hrt, hrv, hother, ?_, ?_, ?_, ?_⟩
  · rw [hchan]; exact hdis
  · rw [hchan]; exact hline
  · rw [hchan]; exact hseq
  · rw [demandFlags_from (q := s.beforeDecision (channelDescriptorSlot c)) (s := s) rfl rfl,
      demandFlags_chan hchan.symm, ← hchan] at hrep
    exact hrep

end Sys2Proof.Machine
end

section
/-! PROOFS. One channel's demand and line within their bounds (R98, R105, R106, R108, R141): which changes of a channel
keep them, and what a distribution makes of them. -/

namespace Sys2Proof.Machine

open Sys2Proof.Safety

/-- The channel's demand state agrees with its descriptor, and its line with the marks. -/
def InBounds (x : Channel) : Prop := ChannelWf x ∧ LineWf x

/-- A channel with descriptor d in force, its residue and its line apart. -/
structure Rated (d : ChannelDescriptor) (x : Channel) : Prop where
  descriptor : x.descriptor = some d
  service : x.service ≠ .unconfigured
  ranges : d.inRange = true
  working : 0 < x.working

/-- The line agrees with the marks of d. -/
def LineAgrees (d : ChannelDescriptor) (x : Channel) : Prop :=
  (d.highMark ≤ x.owed → x.restrict = true) ∧ (x.owed ≤ d.lowMark → x.restrict = false)

theorem inRange_nominal {d : ChannelDescriptor} (h : d.inRange = true) : 0 < d.nominal := by
  simp only [ChannelDescriptor.inRange, Bool.and_eq_true, decide_eq_true_eq] at h
  omega

theorem inRange_marks {d : ChannelDescriptor} (h : d.inRange = true) : d.lowMark < d.highMark ∧ 1 ≤ d.highMark := by
  simp only [ChannelDescriptor.inRange, Bool.and_eq_true, decide_eq_true_eq] at h
  omega

/-- A load restores a working displacement above 0 (R171). -/
theorem restoredWorking_pos {d : ChannelDescriptor} (x : ChannelRestore) (hd : d.inRange = true) :
    0 < restoredWorking d x := by
  unfold restoredWorking
  split
  · omega
  · exact inRange_nominal hd

theorem inRange_of_readChannel {w : Record} {d : ChannelDescriptor} (h : readChannel w = some d) :
    d.inRange = true := by
  unfold readChannel at h
  split at h
  · next hr => exact Option.some.inj h ▸ hr.2
  · cases h

theorem Rated.wf {d : ChannelDescriptor} {x : Channel} (h : Rated d x) (hres : x.residue < x.working * 1000) :
    ChannelWf x where
  configured := iff_of_false h.service (by rw [h.descriptor]; exact nofun)
  unconfigured hn := by rw [h.descriptor] at hn; cases hn
  configuredIn e he := by
    obtain rfl := Option.some.inj (h.descriptor.symm.trans he)
    exact ⟨h.ranges, hres⟩

theorem Rated.inBounds {d : ChannelDescriptor} {x : Channel} (h : Rated d x) (hres : x.residue < x.working * 1000)
    (hline : LineAgrees d x) : InBounds x :=
  ⟨h.wf hres, fun e he => by
    obtain rfl := Option.some.inj (h.descriptor.symm.trans he)
    exact hline⟩

namespace InBounds
variable {x y : Channel} {d : ChannelDescriptor}

theorem rated (h : InBounds x) (hd : x.descriptor = some d) : Rated d x := by
  obtain ⟨hranges, hres⟩ := h.1.configuredIn d hd
  refine ⟨hd, fun hs => ?_, hranges, by omega⟩
  rw [h.1.configured.mp hs] at hd
  cases hd

theorem residue (h : InBounds x) (hd : x.descriptor = some d) : x.residue < x.working * 1000 :=
  (h.1.configuredIn d hd).2

theorem line (h : InBounds x) (hd : x.descriptor = some d) : LineAgrees d x := h.2 d hd

/-- A calibration in progress is a configured channel's. -/
theorem not_unconfigured_of_active (h : InBounds x) (ha : x.cal.active = true) :
    x.service ≠ .unconfigured := fun hs => by
  obtain ⟨_, _, _, hactive, _⟩ := h.1.unconfigured (h.1.configured.mp hs)
  rw [hactive] at ha; cases ha

/-- A base-period timer that runs is a configured channel's. -/
theorem not_unconfigured_of_timer {b : BaseTimer} (h : InBounds x) (hb : x.baseTimer = some b) :
    x.service ≠ .unconfigured := fun hs => by
  obtain ⟨_, _, _, _, htimer⟩ := h.1.unconfigured (h.1.configured.mp hs)
  rw [htimer] at hb; cases hb

end InBounds

/-! ### Changes that keep what the bounds look at -/

/-- From x to y nothing changes that the bounds look at, but what an UNCONFIGURED channel alone must not have. -/
structure Keeps (x y : Channel) : Prop where
  descriptor : y.descriptor = x.descriptor
  service : y.service = .unconfigured ↔ x.service = .unconfigured
  working : y.working = x.working
  residue : y.residue = x.residue
  owed : y.owed = x.owed
  restrict : y.restrict = x.restrict
  active : x.service = .unconfigured → x.cal.active = false → y.cal.active = false
  timer : x.service = .unconfigured → x.baseTimer = none → y.baseTimer = none

theorem InBounds.keeps {x y : Channel} (h : InBounds x) (k : Keeps x y) : InBounds y := by
  obtain ⟨⟨hconf, hun, hin⟩, hline⟩ := h
  refine ⟨⟨?_, ?_, ?_⟩, ?_⟩
  · rw [k.service, k.descriptor, hconf]
  · rw [k.descriptor, k.residue, k.owed, k.restrict]
    intro hn
    obtain ⟨hres, howed, hrestrict, hactive, htimer⟩ := hun hn
    exact ⟨hres, howed, hrestrict, k.active (hconf.mpr hn) hactive, k.timer (hconf.mpr hn) htimer⟩
  · rw [k.descriptor, k.residue, k.working]; exact hin
  · rw [LineWf, k.descriptor, k.owed, k.restrict]; exact hline

/-- What the bounds look at in a configured channel, beside its service state. -/
def Channel.demandView (x : Channel) := (x.descriptor, x.working, x.residue, x.owed, x.restrict)

/-- What the bounds look at. -/
def Channel.boundView (x : Channel) := (x.demandView, x.service, x.cal.active, x.baseTimer)

theorem keeps_of_view {x y : Channel} (h : y.boundView = x.boundView) : Keeps x y := by
  simp only [Channel.boundView, Channel.demandView, Prod.mk.injEq] at h
  obtain ⟨⟨hd, hw, hr, ho, hl⟩, hs, ha, ht⟩ := h
  exact ⟨hd, by rw [hs], hw, hr, ho, hl, fun _ => ha.trans, fun _ => ht.trans⟩

/-- A configured channel goes from one service state to another. -/
theorem keeps_of_service {x y : Channel} (hx : x.service ≠ .unconfigured) (hy : y.service ≠ .unconfigured)
    (h : y.demandView = x.demandView) : Keeps x y := by
  simp only [Channel.demandView, Prod.mk.injEq] at h
  obtain ⟨hd, hw, hr, ho, hl⟩ := h
  exact ⟨hd, iff_of_false hy hx, hw, hr, ho, hl, fun hs => absurd hs hx, fun hs => absurd hs hx⟩

theorem keeps_openWindow (x : Channel) (q : Sequencer) : Keeps x { x.openWindow with seq := q } := by
  unfold Channel.openWindow
  split <;> exact keeps_of_view rfl

theorem keeps_countProven (x : Channel) (own : Bool) : Keeps x (x.countProven own) := by
  unfold Channel.countProven
  split <;> exact keeps_of_view rfl

theorem keeps_pulse (x : Channel) (volume : Nat) : Keeps x (x.pulse volume) := by
  unfold Channel.pulse Calibration.pulse
  split <;> exact keeps_of_view rfl

/-- A delivery that leaves the owed count as it is. -/
theorem keeps_deliver {x : Channel} {k : Option StrokeKind} (h : (x.deliver k).owed = x.owed) :
    Keeps x (x.deliver k) := by
  unfold Channel.deliver at h ⊢
  cases k with
  | none => exact keeps_of_view rfl
  | some k =>
    cases k with
    | ordinary => exact ⟨rfl, Iff.rfl, rfl, rfl, h, rfl, fun _ => id, fun _ => id⟩
    | calibration =>
      dsimp only at h ⊢
      split at h
      · next h0 => rw [if_pos h0]; exact ⟨rfl, Iff.rfl, rfl, rfl, h, rfl, fun _ => id, fun _ => id⟩
      · next h0 => rw [if_neg h0]; split <;> exact keeps_of_view rfl

/-- No stroke is delivered below an owed count of 0. -/
theorem deliver_owed_zero {x : Channel} (h : x.owed = 0) (k : Option StrokeKind) : (x.deliver k).owed = 0 := by
  cases k with
  | none => exact h
  | some k =>
    cases k with
    | ordinary =>
      show x.owed - 1 = 0
      omega
    | calibration =>
      rw [Channel.deliver, if_neg (by omega)]
      split <;> exact h

/-- A delivery changes the owed count and the credit alone. -/
theorem deliver_rated {x : Channel} {d : ChannelDescriptor} (h : Rated d x) (k : Option StrokeKind) :
    Rated d (x.deliver k) ∧ (x.deliver k).residue = x.residue ∧ (x.deliver k).working = x.working := by
  obtain ⟨hd, hs, hranges, hworking⟩ := h
  unfold Channel.deliver
  repeat' split
  all_goals exact ⟨⟨hd, hs, hranges, hworking⟩, rfl, rfl⟩

/-! ### The line and the demand -/

theorem agrees_of_lineFollows {d : ChannelDescriptor} {b : Bool} {y : Channel} (hd : d.inRange = true)
    (h : LineFollows d b y) : LineAgrees d y := by
  obtain ⟨hmarks, _⟩ := inRange_marks hd
  refine ⟨fun hhigh => h.trans (if_pos hhigh), fun hlow => ?_⟩
  rw [h, if_neg (by omega), if_pos hlow]

/-- The evaluated line brings a channel with a reduced residue within its bounds. -/
theorem Rated.lineSet {d : ChannelDescriptor} {x : Channel} (h : Rated d x) (hres : x.residue < x.working * 1000) :
    InBounds (x.lineSet d) :=
  Rated.inBounds ⟨h.descriptor, h.service, h.ranges, h.working⟩ hres
    (agrees_of_lineFollows (b := x.restrict) h.ranges rfl)

/-- A distribution changes none of what rates the channel. -/
theorem Rated.distributed {d : ChannelDescriptor} {x y : Channel} {n residue : Nat} (h : Rated d x)
    (hdis : Distributed x y n residue) : Rated d y := by
  rw [hdis]
  exact ⟨h.descriptor, h.service, h.ranges, h.working⟩

theorem residue_lt_of_distributed {x y : Channel} {n residue : Nat} (hdis : Distributed x y n residue)
    (h : residue < x.working * 1000) : y.residue < y.working * 1000 := by
  rw [hdis]; exact h

/-- With no crossing the owed count stays. -/
theorem owed_of_no_crossing {x y : Channel} {residue : Nat} (hdis : Distributed x y 0 residue) : y.owed = x.owed := by
  rw [hdis]; simp

/-- Crossings distributed, with what follows, leave the channel within its bounds (R98, R99, R105). -/
theorem Rated.follows {d : ChannelDescriptor} {x y : Channel} {n residue now : Nat} (h : Rated d x)
    (hline : LineAgrees d x) (hres : residue < x.working * 1000) (hdis : Distributed x y n residue)
    (hfollow : Follows d now n x y) : InBounds y := by
  refine (h.distributed hdis).inBounds (residue_lt_of_distributed hdis hres) ?_
  unfold Follows at hfollow
  split at hfollow
  · next hn =>
    subst hn
    rw [LineAgrees, owed_of_no_crossing hdis, hfollow.1]
    exact hline
  · exact agrees_of_lineFollows h.ranges hfollow.1

theorem Rated.quantum {d : ChannelDescriptor} {x : Channel} (h : Rated d x) : 0 < x.quantum :=
  Nat.mul_pos h.working (by decide)

/-- A base-period timer starts for a configured channel alone (R123). -/
theorem InBounds.startBaseTimer {x : Channel} (h : InBounds x) (now : Nat) : InBounds (x.startBaseTimer now) := by
  unfold Channel.startBaseTimer
  split
  · exact h
  · next d hd =>
    obtain ⟨_, hs, hranges, hworking⟩ := h.rated hd
    exact Rated.inBounds ⟨hd, hs, hranges, hworking⟩ (h.residue hd) (h.line hd)

theorem keeps_stopBaseTimer (x : Channel) : Keeps x { x with baseTimer := none } :=
  ⟨rfl, Iff.rfl, rfl, rfl, rfl, rfl, fun _ => id, fun _ _ => rfl⟩

/-- A channel's first descriptor, read at a load (R171). -/
theorem InBounds.loaded {x : Channel} {d : ChannelDescriptor} (h : InBounds x) (hn : x.descriptor = none)
    (hd : d.inRange = true) :
    InBounds { x with descriptor := some d, working := d.nominal, service := d.loadedService } := by
  obtain ⟨hres, howed, hrestrict, _, _⟩ := h.1.unconfigured hn
  have hnominal := inRange_nominal hd
  obtain ⟨_, hhigh⟩ := inRange_marks hd
  have hservice : d.loadedService ≠ .unconfigured := by
    unfold ChannelDescriptor.loadedService
    split <;> exact nofun
  refine Rated.inBounds ⟨rfl, hservice, hd, hnominal⟩ ?_ ⟨fun hle => ?_, fun _ => hrestrict⟩
  · show x.residue < d.nominal * 1000
    omega
  · exact absurd (show d.highMark ≤ x.owed from hle) (by omega)

/-- A channel after the release of reset (R92, R108). -/
theorem inBounds_reset : InBounds Channel.reset :=
  ⟨⟨iff_of_true rfl rfl, fun _ => ⟨rfl, rfl, rfl, rfl, rfl⟩, fun _ hd => nomatch hd⟩, fun _ hd => nomatch hd⟩

theorem channelWf_atReset {x : Channel} (h : ChannelWf x) : ChannelWf x.atReset where
  configured := h.configured
  unconfigured hn := by
    obtain ⟨hres, howed, _, _, htimer⟩ := h.unconfigured hn
    exact ⟨hres, howed, rfl, rfl, htimer⟩
  configuredIn := h.configuredIn

end Sys2Proof.Machine
end

section
/-! PROOFS. The channels' operations keep every channel's demand and line within their bounds (R98, R99, R105, R109,
R111 to R120, R131 to R134, R143, R144, R171): one lemma an operation. -/

namespace Sys2Proof.Machine

open Sys2Proof.Safety

/-- Every channel's demand and line are within their bounds. -/
def ChannelsBounded (s : State) : Prop := ∀ c, InBounds (s.chan c)

/-- A measurement that is applied is itself a working displacement (R131). -/
theorem completionOutcome_applied {m : Nat} {d : ChannelDescriptor} (h : completionOutcome m d = .okApplied) :
    0 < m := by
  unfold completionOutcome at h
  split_ifs at h with hw
  simp only [withinTolerance, Bool.and_eq_true, decide_eq_true_eq] at hw
  omega

/-- The channel of a completed calibration, with the residue that its new quantum leaves (R103, R131). -/
theorem completedAs_rated {x : Channel} {d : ChannelDescriptor} (h : Rated d x) (hres : x.residue < x.working * 1000)
    (m : Nat) :
    Rated d (x.completedAs (completionOutcome m d) m) ∧
      (if completionOutcome m d = .okApplied then x.residue % (m * 1000) else x.residue) <
        (x.completedAs (completionOutcome m d) m).working * 1000 := by
  unfold Channel.completedAs
  by_cases ho : completionOutcome m d = .okApplied
  · have hm := completionOutcome_applied ho
    simp only [ho, if_true]
    exact ⟨⟨h.descriptor, nofun, h.ranges, hm⟩, Nat.mod_lt _ (by omega)⟩
  · simp only [ho, if_false]
    exact ⟨⟨h.descriptor, nofun, h.ranges, h.working⟩, hres⟩

namespace ChannelsBounded
variable {s t : State}

/-- An update of the other parts. -/
theorem same (h : ChannelsBounded s) (hch : t.channels = s.channels) : ChannelsBounded t := fun c => by
  rw [State.chan, hch]; exact h c

/-- An operation on one channel that leaves it within its bounds. -/
theorem on {c : Chan} {y : Channel} (h : ChannelsBounded s) (op : OnChannel c s t y) (hy : InBounds y) :
    ChannelsBounded t := fun k => by
  by_cases hk : k = c
  · subst hk; rw [op.chan]; exact hy
  · rw [op.others k hk]; exact h k

theorem mark (k : PartSlot) (h : ChannelsBounded s) : ChannelsBounded (s.mark k) := h.same rfl

theorem latch (f : Flag) (h : ChannelsBounded s) : ChannelsBounded (s.latch f) := h.same (by simp)

theorem raise (e : EventCode) (a d v : Nat) (h : ChannelsBounded s) : ChannelsBounded (s.raise e a d v) :=
  h.same (by simp)

theorem elapseTo (n : Nat) (h : ChannelsBounded s) : ChannelsBounded (s.elapseTo n) := h.same rfl

theorem setBounded (c : Chan) {x : Channel} (h : ChannelsBounded s) (hx : InBounds x) :
    ChannelsBounded (s.setChan c x) := by
  intro k
  by_cases hk : k = c
  · subst hk; rw [State.setChan_chan]; exact hx
  · rw [State.setChan_chan_ne _ _ hk]; exact h k

theorem setChan (c : Chan) {x : Channel} (h : ChannelsBounded s) (hx : Keeps (s.chan c) x) :
    ChannelsBounded (s.setChan c x) := h.setBounded c ((h c).keeps hx)

theorem putBounded (c : Chan) {x : Channel} (h : ChannelsBounded s) (hx : InBounds x) :
    ChannelsBounded (s.putChan c x) :=
  (h.setBounded c hx).same (by simp)

theorem putChan (c : Chan) {x : Channel} (h : ChannelsBounded s) (hx : Keeps (s.chan c) x) :
    ChannelsBounded (s.putChan c x) := h.putBounded c ((h c).keeps hx)

/-- A change of what the bounds do not look at. -/
theorem putView (c : Chan) {x : Channel} (h : ChannelsBounded s) (hx : x.boundView = (s.chan c).boundView) :
    ChannelsBounded (s.putChan c x) := h.putChan c (keeps_of_view hx)

/-- A change of service state. -/
theorem putService (c : Chan) {x : Channel} (h : ChannelsBounded s) (hc : (s.chan c).service ≠ .unconfigured)
    (hs : x.service ≠ .unconfigured) (hx : x.demandView = (s.chan c).demandView) : ChannelsBounded (s.putChan c x) :=
  h.putChan c (keeps_of_service hc hs hx)

/-! ### Demand (R98, R99, R105, R111) -/

theorem tryBegin (c : Chan) (h : ChannelsBounded s) : ChannelsBounded (s.tryBegin c) := by
  unfold State.tryBegin
  split
  · exact h.putView c (by rfl)
  · exact h

theorem addDemand (c : Chan) (volume cause : Nat) (h : ChannelsBounded s) :
    ChannelsBounded (s.addDemand c volume cause) := by
  cases hd : (s.chan c).descriptor with
  | none => rw [State.addDemand, hd]; exact h
  | some d =>
    obtain ⟨y, n, _, hon, hdis, hfollow, _⟩ := addDemand_law hd volume cause
    have hrated := (h c).rated hd
    exact h.on hon (hrated.follows ((h c).line hd) (Nat.mod_lt _ hrated.quantum) hdis hfollow)

theorem route (r : Run) (volume : Nat) (h : ChannelsBounded s) : ChannelsBounded (s.route r volume) := by
  unfold State.route
  split
  · exact h
  · split
    · exact h
    · split
      · exact h.same (by simp [State.addUnrouted])
      · exact h.addDemand _ volume r.val

/-- A base period's stroke (R123). -/
theorem basePeriodExpiry {u : State} {c : Chan} (h : ChannelsBounded s) (hu : s.basePeriodExpiry c = some u) :
    ChannelsBounded u := by
  unfold State.basePeriodExpiry at hu
  split at hu
  · next b _ hb =>
    obtain rfl := Option.some.inj hu
    cases hd : (s.chan c).descriptor with
    | none => exact absurd ((h c).1.configured.mpr hd) ((h c).not_unconfigured_of_timer hb)
    | some d =>
      obtain ⟨hop, hdis, hfollow⟩ := baseStroke_law (s := s.elapseTo b.next) b hd rfl
      have hrated := (h c).rated hd
      have hnext : Rated d { s.chan c with baseTimer := some ⟨b.period, b.next + b.period⟩ } :=
        ⟨hd, hrated.service, hrated.ranges, hrated.working⟩
      exact (h.elapseTo b.next).on hop.on (hnext.follows ((h c).line hd) ((h c).residue hd) hdis hfollow)
  · cases hu

/-! ### The ends of a calibration and the miss window (R118, R132, R134) -/

theorem endCalibration (c : Chan) (o : CalOutcome) (m : Nat) {v : ServiceState} (h : ChannelsBounded s)
    (hc : (s.chan c).service ≠ .unconfigured) (hv : v ≠ .unconfigured) :
    ChannelsBounded (s.endCalibration c o m v) := by
  unfold State.endCalibration
  exact (((h.putService c hc (by exact hv) (by rfl)).mark _).latch _).raise _ _ _ _

theorem failChannel (c : Chan) (d : ChannelDescriptor) (h : ChannelsBounded s)
    (hc : (s.chan c).service ≠ .unconfigured) : ChannelsBounded (s.failChannel c d) := by
  unfold State.failChannel
  exact ((h.putService c hc (by nofun) (by rfl)).raise _ _ _ _).latch _

theorem clearWindow (c : Chan) (h : ChannelsBounded s) : ChannelsBounded (s.clearWindow c) := by
  unfold State.clearWindow
  exact h.putView c (by rfl)

theorem windowFull (c : Chan) (d : ChannelDescriptor) (h : ChannelsBounded s) : ChannelsBounded (s.windowFull c d) := by
  unfold State.windowFull
  split
  · next hs => exact h.failChannel c d (by rw [hs]; exact nofun)
  · next hs =>
    have hend := h.endCalibration c .missed 0 (v := .inService) (by rw [hs]; exact nofun) nofun
    exact hend.failChannel c d (by rw [(endCalibration_law s c .missed 0 .inService).on.chan]; exact nofun)
  all_goals exact h.clearWindow c

theorem testWindow (c : Chan) (h : ChannelsBounded s) : ChannelsBounded (s.testWindow c) := by
  unfold State.testWindow
  split
  · exact h
  · split
    · exact h.windowFull c _
    · split
      · exact h.clearWindow c
      · exact h

/-! ### Strokes (R112 to R116, R120, R129) -/

theorem afterOutcome (c : Chan) (h : ChannelsBounded s) : ChannelsBounded (s.afterOutcome c) := by
  unfold State.afterOutcome
  split
  · exact h
  · exact h.putView c (by rfl)

theorem calibrationMissed (c : Chan) {own : Bool} (h : ChannelsBounded s)
    (hown : own = true → (s.chan c).service ≠ .unconfigured) : ChannelsBounded (s.calibrationMissed c own) := by
  unfold State.calibrationMissed
  split
  · next ho => exact h.endCalibration c .missed 0 (hown (Bool.and_eq_true_iff.mp ho).1) nofun
  · exact h

/-- A stroke of a calibration in progress is a configured channel's. -/
theorem own_configured {c : Chan} (h : ChannelsBounded s) (ho : (s.chan c).ownStroke = true) :
    (s.chan c).service ≠ .unconfigured := by
  simp only [Channel.ownStroke, Bool.and_eq_true] at ho
  exact (h c).not_unconfigured_of_active ho.1.1

theorem missStroke (c : Chan) (stuck : Bool) (h : ChannelsBounded s) : ChannelsBounded (s.missStroke c stuck) := by
  have hop := (reportMiss_law s c stuck).on
  have hreported := h.on hop ((h c).keeps (keeps_of_view rfl))
  unfold State.missStroke
  refine ((hreported.calibrationMissed c fun ho => ?_).testWindow c).afterOutcome c
  rw [hop.chan]
  exact h.own_configured ho

theorem afterProof (c : Chan) (h : ChannelsBounded s) : ChannelsBounded (s.afterProof c) := by
  unfold State.afterProof
  split
  · exact h.putView c (by rfl)
  · exact h.afterOutcome c
  all_goals exact h

/-- A delivery, with the line evaluated where the owed count changed (R105, R115). -/
theorem deliverStroke (c : Chan) (k : Option StrokeKind) (h : ChannelsBounded s) :
    ChannelsBounded (s.deliverStroke c k) := by
  by_cases ho : ((s.chan c).deliver k).owed = (s.chan c).owed
  · have heq : s.deliverStroke c k = s.putChan c ((s.chan c).deliver k) := by
      simp only [State.deliverStroke, State.putChan_chan, ho, if_true]
    rw [heq]
    exact h.putChan c (keeps_deliver ho)
  · cases hd : (s.chan c).descriptor with
    | none =>
      obtain ⟨_, howed, _⟩ := (h c).1.unconfigured hd
      exact absurd ((deliver_owed_zero howed k).trans howed.symm) ho
    | some d =>
      obtain ⟨_, _, hop⟩ := deliverStroke_law hd k
      obtain ⟨hrated, hres, hworking⟩ := deliver_rated ((h c).rated hd) k
      refine h.on hop.on ?_
      rw [Channel.delivered', if_neg ho]
      exact hrated.lineSet (by rw [hres, hworking]; exact (h c).residue hd)

theorem proveStroke (c : Chan) (h : ChannelsBounded s) : ChannelsBounded (s.proveStroke c) := by
  have htested := testWindow c (h.putChan c (x := (s.chan c).countAttempt false) (keeps_of_view rfl))
  unfold State.proveStroke
  dsimp only
  refine ChannelsBounded.afterProof c (ChannelsBounded.setChan c ?_ (keeps_countProven _ _))
  exact deliverStroke c _ (htested.setChan c (by exact keeps_of_view rfl))

theorem startDrive (c : Chan) (h : ChannelsBounded s) : ChannelsBounded (s.startDrive c) := by
  unfold State.startDrive
  exact h.putChan c (keeps_openWindow _ _)

theorem endDrive (c : Chan) (h : ChannelsBounded s) : ChannelsBounded (s.endDrive c) := by
  unfold State.endDrive
  split
  · exact h.afterOutcome c
  · split
    · exact h.putView c (by rfl)
    · exact h.missStroke c false

theorem completeCalibration (c : Chan) (h : ChannelsBounded s) : ChannelsBounded (s.completeCalibration c) := by
  cases hd : (s.chan c).descriptor with
  | none => rw [State.completeCalibration, hd]; exact h
  | some d =>
    obtain ⟨_, _, hop, hdis, hfollow⟩ := completeCalibration_law hd rfl rfl rfl
    obtain ⟨hrated, hres⟩ := completedAs_rated ((h c).rated hd) ((h c).residue hd) ((s.chan c).measured d)
    exact h.on hop.on (hrated.follows ((h c).line hd) hres hdis hfollow)

theorem endRest (c : Chan) (h : ChannelsBounded s) : ChannelsBounded (s.endRest c) := by
  have hidle := h.putChan c (x := { s.chan c with seq := Sequencer.idle }) (keeps_of_view rfl)
  unfold State.endRest
  dsimp only
  split
  · exact (hidle.completeCalibration c).tryBegin c
  · exact hidle.tryBegin c

/-! ### Service (R109, R119, R133) -/

theorem goOutOfService (c : Chan) (former : ServiceState) (h : ChannelsBounded s)
    (hc : (s.chan c).service ≠ .unconfigured) : ChannelsBounded (s.goOutOfService c former) := by
  unfold State.goOutOfService
  exact ((h.putService c hc (by nofun) (by rfl)).raise _ _ _ _).latch _

theorem goInService (c : Chan) (former : ServiceState) (h : ChannelsBounded s)
    (hc : (s.chan c).service ≠ .unconfigured) : ChannelsBounded (s.goInService c former) := by
  unfold State.goInService
  exact ((h.putService c hc (by nofun) (by rfl)).raise _ _ _ _).tryBegin c

theorem reloadChannel (c : Chan) (h : ChannelsBounded s) : ChannelsBounded (s.reloadChannel c) := by
  unfold State.reloadChannel
  split
  · next hs =>
    have hend := h.endCalibration c .aborted 0 (v := .inService) (by rw [hs]; exact nofun) nofun
    exact (hend.putView c (by rfl)).tryBegin c
  all_goals exact h

/-! ### Descriptors (R143, R144) -/

theorem configure (c : Chan) {d : ChannelDescriptor} (w : Record) (h : ChannelsBounded s) (hd : d.inRange = true) :
    ChannelsBounded (s.configure c d w) := by
  obtain ⟨hop, hdis, hline, _⟩ := configure_law (s := s) (c := c) (d := d) (w := w) rfl
  have hrated : Rated d ((s.chan c).configured d) := ⟨rfl, nofun, hd, inRange_nominal hd⟩
  exact h.on hop.on ((hrated.distributed hdis).inBounds
    (residue_lt_of_distributed hdis (Nat.mod_lt _ hrated.quantum)) (agrees_of_lineFollows hd hline))

end ChannelsBounded

/-- The new descriptor in force, its nominal taken where that changed (R103, R143). -/
def State.renominated (c : Chan) (o d : ChannelDescriptor) (s : State) : State :=
  if o.nominal = d.nominal then s.putDescriptor c d else (s.putDescriptor c d).takeNominal c d

/-- The same with the window cleared where its size or its limit changed (R143). -/
def State.reconfigured (c : Chan) (o d : ChannelDescriptor) (s : State) : State :=
  if o.missWindow = d.missWindow ∧ o.missLimit = d.missLimit then s.renominated c o d
  else (s.renominated c o d).clearWindow c

theorem reconfigure_eq (s : State) (c : Chan) (o d : ChannelDescriptor) : s.reconfigure c o d =
    if ((s.reconfigured c o d).chan c).owed = (s.chan c).owed ∧ o.highMark = d.highMark ∧ o.lowMark = d.lowMark
    then s.reconfigured c o d else (s.reconfigured c o d).owedChanged c := rfl

/-- Before its line is evaluated a reconfigured channel has its descriptor in force and a reduced residue. -/
theorem renominated_law {s : State} {c : Chan} {o d : ChannelDescriptor} (h : InBounds (s.chan c))
    (ho : (s.chan c).descriptor = some o) (hd : d.inRange = true) :
    ∃ y, OnChannel c s (s.renominated c o d) y ∧ Rated d y ∧ y.residue < y.working * 1000 ∧
      y.restrict = (s.chan c).restrict := by
  obtain ⟨_, hs, _, hworking⟩ := h.rated ho
  unfold State.renominated
  split
  · exact ⟨_, (OnChannel.refl c s).putChan { s.chan c with descriptor := some d } (.other rfl rfl rfl),
      ⟨rfl, hs, hd, hworking⟩, h.residue ho, rfl⟩
  · obtain ⟨y, _, _, hop, hdis, hline, _⟩ := takeNominal_law s c d
    have hrated : Rated d { s.chan c with descriptor := some d, working := d.nominal } :=
      ⟨rfl, hs, hd, inRange_nominal hd⟩
    exact ⟨y, hop.on, hrated.distributed hdis, residue_lt_of_distributed hdis (Nat.mod_lt _ hrated.quantum), hline⟩

theorem reconfigured_law {s : State} {c : Chan} {o d : ChannelDescriptor} (h : InBounds (s.chan c))
    (ho : (s.chan c).descriptor = some o) (hd : d.inRange = true) :
    ∃ y, OnChannel c s (s.reconfigured c o d) y ∧ Rated d y ∧ y.residue < y.working * 1000 ∧
      y.restrict = (s.chan c).restrict := by
  obtain ⟨y, hop, hrated, hres, hline⟩ := renominated_law h ho hd
  unfold State.reconfigured
  split
  · exact ⟨y, hop, hrated, hres, hline⟩
  · have hclear := (clearWindow_law (s.renominated c o d) c).on
    rw [hop.chan] at hclear
    exact ⟨_, hop.trans hclear, ⟨hrated.descriptor, hrated.service, hrated.ranges, hrated.working⟩, hres, hline⟩

namespace ChannelsBounded
variable {s : State}

theorem reconfigure {c : Chan} {o d : ChannelDescriptor} (h : ChannelsBounded s) (ho : (s.chan c).descriptor = some o)
    (hd : d.inRange = true) : ChannelsBounded (s.reconfigure c o d) := by
  obtain ⟨y, hop, hrated, hres, hline⟩ := reconfigured_law (h c) ho hd
  rw [reconfigure_eq]
  split
  · next hsame =>
    obtain ⟨howed, hhigh, hlow⟩ := hsame
    rw [hop.chan] at howed
    refine h.on hop (hrated.inBounds hres ?_)
    rw [LineAgrees, howed, hline, ← hhigh, ← hlow]
    exact (h c).line ho
  · obtain ⟨hon, _⟩ := owedChanged_law (s := s.reconfigured c o d) (c := c) (by rw [hop.chan]; exact hrated.descriptor)
    rw [hop.chan] at hon
    exact h.on (hop.trans hon) ((hrated.lineSet hres).keeps (keeps_of_view rfl))

theorem acceptChannel (c : Chan) {d : ChannelDescriptor} (w : Record) (h : ChannelsBounded s) (hd : d.inRange = true) :
    ChannelsBounded (s.acceptChannel c d w) := by
  unfold State.acceptChannel
  split
  · exact h.configure c w hd
  · next o ho => exact (h.reconfigure ho hd).raise _ _ _ _

/-! ### A load (R171) -/

theorem latchOutOfService (c : Chan) (h : ChannelsBounded s) : ChannelsBounded (s.latchOutOfService c) := by
  unfold State.latchOutOfService
  split
  · exact h.latch _
  all_goals exact h

/-- A channel descriptor is read for a channel that has none yet. -/
theorem loadChannel {c : Chan} (w : Record) (h : ChannelsBounded s) (hn : (s.chan c).descriptor = none) :
    ChannelsBounded (s.loadChannel c w) := by
  unfold State.loadChannel
  split
  · split
    · exact h
    · next d hd => exact (h.putBounded c ((h c).loaded hn (inRange_of_readChannel hd))).latchOutOfService c
  · exact h

theorem latchDeficit (c : Chan) (h : ChannelsBounded s) : ChannelsBounded (s.latchDeficit c) := by
  unfold State.latchDeficit
  split
  · exact h.latch _
  · exact h

/-- A channel report's demand is counted against the quantum it restores, and the line evaluated on it. -/
theorem restoreChannel {c : Chan} {d : ChannelDescriptor} {w : Record} {x : ChannelRestore} (h : ChannelsBounded s)
    (hd : (s.chan c).descriptor = some d) (hx : readChannelReport w = some x) :
    ChannelsBounded (s.restoreChannel c d x) := by
  have hin := (h c).rated hd
  have hrestored : Rated d ((s.chan c).restored d x) :=
    ⟨hd, hin.service, hin.ranges, restoredWorking_pos x hin.ranges⟩
  have hput := (ChannelOp.refl c s).putChan ((s.chan c).restored d x)
    ⟨id, fun _ => readChannelReport_bounds hx⟩
  unfold State.restoreChannel
  generalize s.putChan c ((s.chan c).restored d x) = q at hput
  obtain ⟨y, hop, hdis, _⟩ := countCrossings_law q c 12
  rw [hput.on.chan] at hdis
  have hcounted := hrestored.distributed hdis
  have hall := hput.trans hop
  obtain ⟨hon, _⟩ := evalRestrict_law (hall.descriptor hcounted.descriptor)
  rw [hall.on.chan] at hon
  have hline : ChannelsBounded ((q.countCrossings c 12).evalRestrict c) := h.on (hall.on.trans hon)
    (hcounted.lineSet (residue_lt_of_distributed hdis (Nat.mod_lt _ hrestored.quantum)))
  exact (hline.latchDeficit c).tryBegin c

theorem loadChannelReport (c : Chan) (slot : Slot) (w : Record) (h : ChannelsBounded s) :
    ChannelsBounded (s.loadChannelReport c slot w) := by
  unfold State.loadChannelReport
  split
  · exact h
  · next d hd =>
    split
    · split
      · exact h
      · next hx => exact h.restoreChannel hd hx
    · exact h

end ChannelsBounded

end Sys2Proof.Machine
end

section
/-! PROOFS. The events of the Run Table, of the Record Verifier and of the controller keep every channel's demand and
line within their bounds (R34, R36, R40, R43, R65 to R75, R147). -/

namespace Sys2Proof.Machine

open Sys2Proof.Safety

/-! ### The Run Table's operations leave the channels, but for what they route -/

section Channels
variable (s : State) (r : Run) (k : TallySlot)

theorem leaveSlot_channels : (s.leaveSlot r).channels = s.channels := by
  unfold State.leaveSlot
  split
  · rfl
  · simp [State.enterHistory]

theorem makeCurrent_channels : (s.makeCurrent r k).channels = s.channels := by simp [State.makeCurrent]

theorem placeBound_channels : (s.placeBound r k).channels = s.channels := by
  unfold State.placeBound
  split
  · rw [State.migrate, State.raise_channels, makeCurrent_channels, leaveSlot_channels]
  all_goals rfl

theorem raiseRunLive_channels (e : RunEntry) : (s.raiseRunLive r k e).channels = s.channels := by
  unfold State.raiseRunLive
  split
  · exact State.raise_channels _ _ _ _ _
  · exact State.raise_channels _ _ _ _ _
  all_goals rfl

theorem bindRun_channels (x : TallyFields) : (s.bindRun r k x).channels = s.channels := by
  rw [State.bindRun, State.raise_channels, State.raise_channels, makeCurrent_channels]

theorem loadBaseline_channels (x : TallyFields) : (s.loadBaseline r k x).channels = s.channels := by
  rw [State.loadBaseline, State.putRun_channels, raiseRunLive_channels, State.raise_channels, placeBound_channels]

theorem unbind_channels (v : RunCondition) (cause : Nat) : (s.unbind r v cause).channels = s.channels := by
  rw [State.unbind, State.mark_channels, State.raise_channels, State.putRun_channels, leaveSlot_channels]

end Channels

namespace ChannelsBounded
variable {s u : State}

/-- An operation of the Run Table that routes nothing. -/
theorem table {x : RunTable} {es : List EventRecord} {fs : List Flag} {ks : List PartSlot} (h : ChannelsBounded s)
    (op : TableOp s u x s.channels es fs ks) : ChannelsBounded u := h.same op.channels

theorem acceptTally (r : Run) (k : TallySlot) (x : TallyFields) (h : ChannelsBounded s) :
    ChannelsBounded (s.acceptTally r k x) := by
  unfold State.acceptTally State.acceptCommon
  dsimp only
  refine ChannelsBounded.mark _ (ChannelsBounded.same ?_ (State.putRun_channels _ _ _))
  split
  · exact h.same (bindRun_channels s r k x)
  · split
    · exact h.same (loadBaseline_channels s r k x)
    · unfold State.ordinaryAcceptance
      exact route _ _ (h.same (by rw [raiseRunLive_channels, State.putRun_channels, placeBound_channels]))

/-! ### The runs' timers (R57, R80 to R84) -/

theorem historyExpiry {k : TallySlot} (h : ChannelsBounded s) (hu : s.historyExpiry k = some u) :
    ChannelsBounded u := by
  unfold State.historyExpiry at hu
  split at hu
  · next r n _ =>
    obtain rfl := Option.some.inj hu
    exact (h.elapseTo n).table (freeHistory_law _ k r)
  all_goals cases hu

theorem stalenessExpiry {r : Run} (h : ChannelsBounded s) (hu : s.stalenessExpiry r = some u) : ChannelsBounded u := by
  unfold State.stalenessExpiry at hu
  split at hu
  · next f _ _ =>
    obtain rfl := Option.some.inj hu
    exact (h.elapseTo _).table (becomeStale_reports _ r _)
  · cases hu

theorem horizonExpiry {r : Run} (h : ChannelsBounded s) (hu : s.horizonExpiry r = some u) : ChannelsBounded u := by
  unfold State.horizonExpiry at hu
  split at hu
  · next f _ _ =>
    obtain rfl := Option.some.inj hu
    obtain ⟨_, _, _, op⟩ := becomeLost_law (s.elapseTo (f.start + f.horizon)) r
    exact (h.elapseTo _).table op
  · cases hu

theorem substitutionStep {r : Run} (h : ChannelsBounded s) (hu : s.substitutionStep r = some u) :
    ChannelsBounded u := by
  unfold State.substitutionStep at hu
  split at hu
  · next v f _ _ =>
    obtain rfl := Option.some.inj hu
    have hcount : ChannelsBounded ((s.elapseTo v.due).countStep r v) := h.same rfl
    unfold State.takeStep
    split
    · exact hcount
    · exact route _ _ (hcount.same (State.putRun_channels _ _ _))
  · cases hu

/-! ### The timers of a stroke, and the field inputs (R37, R112 to R116, R124) -/

theorem assemblyExpiry {k : Slot} (h : ChannelsBounded s) (hu : s.assemblyExpiry k = some u) : ChannelsBounded u := by
  unfold State.assemblyExpiry at hu
  split at hu
  · cases hu
  · next e _ =>
    obtain rfl := Option.some.inj hu
    have hgone : ChannelsBounded ((s.elapseTo (e.openedAt + e.timeout)).discardAssembly e.slot) := h.same rfl
    exact (hgone.latch _).raise _ _ _ _

theorem precheckExpiry {c : Chan} {closed : Bool} (h : ChannelsBounded s) (hu : s.precheckExpiry c closed = some u) :
    ChannelsBounded u := by
  unfold State.precheckExpiry at hu
  split at hu
  · dsimp only at hu
    obtain rfl := Option.some.inj hu
    split
    · exact (h.elapseTo _).missStroke c true
    · exact (h.elapseTo _).startDrive c
  all_goals cases hu

theorem driveExpiry {c : Chan} (h : ChannelsBounded s) (hu : s.driveExpiry c = some u) : ChannelsBounded u := by
  unfold State.driveExpiry at hu
  split at hu
  · obtain rfl := Option.some.inj hu
    exact (h.elapseTo _).endDrive c
  all_goals cases hu

theorem proofWindowExpiry {c : Chan} (h : ChannelsBounded s) (hu : s.proofWindowExpiry c = some u) :
    ChannelsBounded u := by
  unfold State.proofWindowExpiry at hu
  split at hu
  · obtain rfl := Option.some.inj hu
    exact (h.elapseTo _).missStroke c false
  all_goals cases hu

theorem restExpiry {c : Chan} (h : ChannelsBounded s) (hu : s.restExpiry c = some u) : ChannelsBounded u := by
  unfold State.restExpiry at hu
  split at hu
  · obtain rfl := Option.some.inj hu
    exact (h.elapseTo _).endRest c
  all_goals cases hu

theorem proofClosure {c : Chan} (h : ChannelsBounded s) (hu : s.proofClosure c = some u) : ChannelsBounded u := by
  unfold State.proofClosure at hu
  split at hu
  · obtain rfl := Option.some.inj hu
    exact h.proveStroke c
  · cases hu

theorem meterPulse {c : Chan} (h : ChannelsBounded s) (hu : s.meterPulse c = some u) : ChannelsBounded u := by
  unfold State.meterPulse at hu
  split at hu
  · cases hu
  · cases hu
  · obtain rfl := Option.some.inj hu
    exact h.putChan c (keeps_pulse _ _)

/-! ### Commands (R147) -/

theorem startDrain (cause : LoadCause) (h : ChannelsBounded s) : ChannelsBounded (s.startDrain cause) := fun c => by
  have hc : (s.startDrain cause).chan c = { s.chan c with baseTimer := none } := by
    simp [State.startDrain, State.setDevice, State.stopBaseTimers, State.discardAll, State.chan]
  rw [hc]
  exact (h c).keeps (keeps_stopBaseTimer _)

theorem clearRun (r : Run) (h : ChannelsBounded s) : ChannelsBounded (s.clearRun r).state :=
  h.table (clearRun_law s r).2

theorem unbindRun (r : Run) (h : ChannelsBounded s) : ChannelsBounded (s.unbindRun r).state := by
  unfold State.unbindRun
  split
  · exact h.same (unbind_channels s r _ _)
  · exact h

theorem releaseHistory (r : Run) (h : ChannelsBounded s) : ChannelsBounded (s.releaseHistoryOf r).state :=
  h.table (releaseHistory_law s r)

theorem clearChannel (c : Chan) (h : ChannelsBounded s) : ChannelsBounded (s.clearChannel c).state := by
  unfold State.clearChannel
  split
  · next hs =>
    refine (h.clearWindow c).goInService c _ ?_
    rw [(clearWindow_law s c).on.chan]
    show (s.chan c).service ≠ _
    rw [hs]
    exact nofun
  all_goals exact h

theorem clearDeficit (c : Chan) (h : ChannelsBounded s) : ChannelsBounded (s.clearDeficit c).state :=
  (h.setChan c (x := { s.chan c with deficit := 0 }) (keeps_of_view rfl)).mark _

theorem setServiceIn (c : Chan) (h : ChannelsBounded s) : ChannelsBounded (s.setServiceIn c).state := by
  unfold State.setServiceIn
  split
  · next hs => exact h.goInService c _ (by rw [hs]; exact nofun)
  all_goals exact h

theorem setServiceOut (c : Chan) (h : ChannelsBounded s) : ChannelsBounded (s.setServiceOut c).state := by
  unfold State.setServiceOut
  split
  · exact h
  · exact h
  · next hs => exact h.goOutOfService c _ (by rw [hs]; exact nofun)
  · next hs =>
    have hend := h.endCalibration c .aborted 0 (v := .outOfService) (by rw [hs]; exact nofun) nofun
    exact hend.goOutOfService c _ (by rw [(endCalibration_law s c .aborted 0 .outOfService).on.chan]; exact nofun)
  · next hs =>
    refine (h.clearWindow c).goOutOfService c _ ?_
    rw [(clearWindow_law s c).on.chan]
    show (s.chan c).service ≠ _
    rw [hs]
    exact nofun

theorem calibrate (c : Chan) (k : Nat) (h : ChannelsBounded s) : ChannelsBounded (s.calibrate c k).state := by
  unfold State.calibrate
  split
  · exact h
  · next hs =>
    exact (h.putService c (x := (s.chan c).startCalibration (2 ^ k)) (by rw [hs]; exact nofun) nofun rfl).tryBegin c
  all_goals exact h

theorem onRun (a : Word) {f : Run → State → CommandResult} (h : ChannelsBounded s)
    (hf : ∀ r, ChannelsBounded (f r s).state) : ChannelsBounded (s.onRun a f).state := by
  unfold State.onRun
  split
  · exact h
  · exact hf _

theorem onChan (a : Word) {f : Chan → State → CommandResult} (h : ChannelsBounded s)
    (hf : ∀ c, ChannelsBounded (f c s).state) : ChannelsBounded (s.onChan a f).state := by
  unfold State.onChan
  split
  · exact h
  · exact hf _

theorem ownOutcome (x : CommandFields) (h : ChannelsBounded s) : ChannelsBounded (s.ownOutcome x).state := by
  unfold State.ownOutcome
  split
  · exact h.onRun _ fun r => h.clearRun r
  · exact h.onChan _ fun c => h.clearChannel c
  · exact h.onChan _ fun c => h.clearDeficit c
  · exact h.same rfl
  · split
    · exact h.onChan _ fun c => h.setServiceOut c
    · exact h.onChan _ fun c => h.setServiceIn c
  · exact h.onChan _ fun c => h.calibrate c _
  · exact h.onRun _ fun r => h.unbindRun r
  · exact h.onRun _ fun r => h.releaseHistory r
  · exact h.startDrain _
  · exact h

theorem executeCommand (x : CommandFields) (h : ChannelsBounded s) : ChannelsBounded (s.executeCommand x) := by
  have hdecided : ChannelsBounded (s.decideOutcome x).state := by
    unfold State.decideOutcome
    split_ifs
    · exact h
    · exact h
    · exact h
    · exact h.ownOutcome x
    · exact h
  exact raise _ _ _ _ (hdecided.same rfl)

/-! ### Records (R40, R43) -/

theorem acceptStation (d : StationDescriptor) (w : Record) (h : ChannelsBounded s) :
    ChannelsBounded (s.acceptStation d w) := by
  have hput : ChannelsBounded ((s.putStation (some d)).raise .descriptorApplied 0 (stationChanges s.lc.station d)
      w[15].toNat) := raise _ _ _ _ (h.same rfl)
  unfold State.acceptStation
  dsimp only
  split
  · exact hput.startDrain _
  · exact hput

theorem decideTally {k : TallySlot} {w : Record} (h : ChannelsBounded s) (hu : s.decideTally k w = .accept u) :
    ChannelsBounded u := by
  unfold State.decideTally at hu
  split at hu
  · cases hu
  · split at hu
    · exact Decision.accept.inj hu ▸ h.acceptTally _ _ _
    · cases hu

theorem decideRun {r : Run} {w : Record} (h : ChannelsBounded s) (hu : s.decideRun r w = .accept u) :
    ChannelsBounded u := by
  unfold State.decideRun at hu
  split at hu
  · cases hu
  · next d _ =>
    obtain ⟨_, op, _⟩ := applyEnabled_law s r d
    exact Decision.accept.inj hu ▸ h.table (acceptRun_law op w)

theorem decideChannel {c : Chan} {w : Record} (h : ChannelsBounded s) (hu : s.decideChannel c w = .accept u) :
    ChannelsBounded u := by
  unfold State.decideChannel at hu
  split at hu
  · cases hu
  · next d hd =>
    split at hu
    · cases hu
    · exact Decision.accept.inj hu ▸ h.acceptChannel c w (inRange_of_readChannel hd)

theorem decideStation {w : Record} (h : ChannelsBounded s) (hu : s.decideStation w = .accept u) :
    ChannelsBounded u := by
  unfold State.decideStation at hu
  split at hu
  · cases hu
  · split at hu
    · exact Decision.accept.inj hu ▸ h.acceptStation _ w
    · cases hu

theorem decideCommand {w : Record} (h : ChannelsBounded s) (hu : s.decideCommand w = .accept u) :
    ChannelsBounded u := by
  unfold State.decideCommand at hu
  split at hu
  · cases hu
  · exact Decision.accept.inj hu ▸ h.executeCommand _

/-- A record accepted by its owner (R40). -/
theorem decideRecord {slot : Slot} {w : Record} (h : ChannelsBounded s) (hu : s.decideRecord slot w = .accept u) :
    ChannelsBounded u := by
  unfold State.decideRecord State.handOff at hu
  split at hu
  · split at hu
    · exact h.decideTally hu
    · exact h.decideRun hu
    · exact h.decideChannel hu
    · split at hu
      · exact h.decideStation hu
      · exact h.decideCommand hu
  · cases hu

theorem completeRecord (e : Assembly) (w : Record) (h : ChannelsBounded s) :
    ChannelsBounded (s.completeRecord e w) := by
  unfold State.completeRecord
  split
  · next reason _ =>
    obtain ⟨_, op, _⟩ := refuseRecord_law s e.slot w reason
    exact h.same op.channels
  · next u hu => exact (h.decideRecord hu).same rfl

/-! ### A controller cycle (R17) -/

theorem refuseWord (code : Nat) (slot : Slot) (p : Pos) (h : ChannelsBounded s) :
    ChannelsBounded (s.refuseWord code slot p) := h.same (refuseWord_law s code slot p).channels

theorem placeWord (slot : Slot) (p : Pos) (v : Word) (h : ChannelsBounded s) :
    ChannelsBounded (s.placeWord slot p v) := by
  unfold State.placeWord
  split
  · next e _ =>
    unfold State.placeInEntry
    split
    · exact h.same rfl
    · exact completeRecord _ _ (h.same rfl)
  · split
    · exact h.same rfl
    · exact h.refuseWord 22 slot p

theorem handWord (slot : Slot) (p : Pos) (v : Word) (h : ChannelsBounded s) :
    ChannelsBounded (s.handWord slot p v) := by
  unfold State.handWord
  split
  · exact h.placeWord slot p v
  · exact h.refuseWord _ slot p

theorem beginCycle (a : Addr) (op : BusOp) (h : ChannelsBounded s) : ChannelsBounded (s.beginCycle a op) := by
  unfold State.beginCycle
  split
  · exact h.same rfl
  · exact h.handWord _ _ _
  · exact h.same (refuseAtPort_law s _ _ _).channels

theorem controllerCycle {a : Addr} {op : BusOp} (h : ChannelsBounded s) (hu : s.controllerCycle a op = some u) :
    ChannelsBounded u := by
  unfold State.controllerCycle at hu
  split at hu
  · cases hu
  · obtain rfl := Option.some.inj hu
    split
    · exact h.same rfl
    · exact h.beginCycle a op

end ChannelsBounded

end Sys2Proof.Machine
end

section
/-! PROOFS. Every step keeps the channels within their bounds (R92, R98, R105, R106, R108, R117, R141): the load, the
edges of RESET_n, and the step. -/

namespace Sys2Proof.Machine

open Sys2Proof.Safety

/-! ### A load (R169 to R175) and the start of a reload (R178) -/

/-- A channel whose descriptor is being read has none yet (R171). -/
theorem unread_of_item {s : State} {x : Item} (hl : LoadWf s) (hx : s.ma = some x) (hk :
    x.kind = .loadingRead) (c : Chan)
    (hc : x.slot.val = 1 + c.val) : (s.chan c).descriptor = none := by
  obtain ⟨hd, hslot⟩ := hl.reading x hx hk
  obtain ⟨hcause, hnone⟩ := hl.channels hd x.slot hslot (by omega)
  exact hnone (hcause.resolve_right (by omega)) c hc.le

namespace ChannelsBounded
variable {s u : State}

theorem loadRun (r : Run) (w : Record) (h : ChannelsBounded s) : ChannelsBounded (s.loadRun r w) := by
  unfold State.loadRun
  split
  · split
    · exact h
    · exact h.same (State.putRun_channels _ _ _)
  · exact h

theorem loadRunReport (r : Run) (slot : Slot) (w : Record) (h : ChannelsBounded s) :
    ChannelsBounded (s.loadRunReport r slot w) := by
  unfold State.loadRunReport
  split
  · split
    · exact h
    · exact h.same (State.putRun_channels _ _ _)
  · exact h

theorem loadStatus (w : Record) (h : ChannelsBounded s) : ChannelsBounded (s.loadStatus w) := by
  unfold State.loadStatus
  split
  · split
    · exact h
    · exact h.same rfl
  · exact h

theorem loadCapture (w : Record) (h : ChannelsBounded s) : ChannelsBounded (s.loadCapture w) := by
  unfold State.loadCapture
  split
  · split
    · exact h
    · exact ChannelsBounded.latch _ (h.same rfl)
  · exact h

theorem scanTally (k : TallySlot) (w : Record) (h : ChannelsBounded s) : ChannelsBounded (s.scanTally k w) := by
  unfold State.scanTally
  split
  · exact h
  · split
    · exact h.same rfl
    · exact h

/-- The record read is used; a channel descriptor is read for a channel that has none yet (R171). -/
theorem useRecord {k : Slot} (w : Record) (h : ChannelsBounded s)
    (hn : ∀ c : Chan, k.val = 1 + c.val → (s.chan c).descriptor = none) : ChannelsBounded (s.useRecord k w) := by
  unfold State.useRecord
  split
  · exact h.same rfl
  · split
    · exact h.loadStatus w
    · split
      · exact h.loadCapture w
      · split
        · next hc => exact h.loadChannel w (hn _ (asChannelSlot_val hc))
        · exact h.loadRun _ w
        · split
          · exact h.loadChannelReport _ k w
          · exact h.loadRunReport _ k w
          · split
            · exact h.scanTally _ w
            · exact h

theorem completeLoad (h : ChannelsBounded s) : ChannelsBounded s.completeLoad := by
  cases hst : s.lc.station with
  | some d => exact h.same (completeLoad_running hst).channels
  | none =>
    intro c
    have hc : s.completeLoad.chan c = (s.chan c).startBaseTimer s.uptime := by
      simp [State.chan, (completeLoad_fallback hst).channels]
    rw [hc]
    exact (h c).startBaseTimer _

theorem takeLoad {k : Slot} (w : Record) (h : ChannelsBounded s)
    (hn : ∀ c : Chan, k.val = 1 + c.val → (s.chan c).descriptor = none) : ChannelsBounded (s.takeLoad k w) := by
  have hused := h.useRecord w hn
  unfold State.takeLoad State.nextLoad
  split
  · exact hused.completeLoad
  · exact hused.same rfl

theorem reloadChannels (l : List Chan) (h : ChannelsBounded s) : ChannelsBounded (l.foldl State.reloadChannel s) := by
  induction l generalizing s with
  | nil => exact h
  | cons c l ih => exact ih (h.reloadChannel c)

theorem drainComplete (h : ChannelsBounded s) (hu : s.drainComplete = some u) : ChannelsBounded u := by
  unfold State.drainComplete at hu
  split at hu
  · obtain rfl := Option.some.inj hu
    have hbegun : ChannelsBounded s.reloadBegun := h.same rfl
    exact hbegun.reloadChannels _
  · cases hu

/-! ### A memory cycle completes (R23) -/

theorem agentWord (v : Word) (h : ChannelsBounded s) (hl : LoadWf s) : ChannelsBounded (s.agentWord v) := by
  unfold State.agentWord
  split
  · exact h
  · next x hx =>
    split
    · exact h.same rfl
    · have hends : ChannelsBounded { s with ma := none } := h.same rfl
      unfold State.itemDone
      split
      · exact hends.same rfl
      · exact hends.same rfl
      · unfold State.rewriteDone
        split
        · exact hends.same rfl
        · exact hends
      · next hk => exact hends.takeLoad _ fun c hc => unread_of_item (x := x) hl hx hk c hc

theorem statusReadDone (p : Pos) (v : Word) (h : ChannelsBounded s) : ChannelsBounded (s.statusReadDone p v) := by
  unfold State.statusReadDone
  split
  · exact h
  · dsimp only
    split
    · exact h.same rfl
    · exact h.same (by rw [State.markCleared_eq]; rfl)

theorem reportRead (a : Addr) (op : BusOp) (v : Word) (h : ChannelsBounded s) :
    ChannelsBounded (s.reportRead a op v) := by
  unfold State.reportRead
  split
  · split
    · exact h.statusReadDone _ v
    · exact h
  all_goals exact h

theorem endCycle (op : BusOp) (v : Word) (h : ChannelsBounded s) : ChannelsBounded (s.endCycle op v) := by
  unfold State.endCycle
  split <;> exact h.same rfl

theorem runCycle (m : MemCycle) (h : ChannelsBounded s) : ChannelsBounded (s.runCycle m) := by
  rw [runCycle_mem]
  exact h.same rfl

theorem memoryCycle (h : ChannelsBounded s) (hl : LoadWf s) (hu : s.memoryCycle = some u) : ChannelsBounded u := by
  unfold State.memoryCycle at hu
  split at hu
  · cases hu
  · next m _ =>
    obtain rfl := Option.some.inj hu
    have hrun := h.runCycle m
    unfold State.finishCycle
    dsimp only
    split
    · exact hrun
    · split
      · exact hrun.agentWord _ (loadWf_alike hl ((Alike.refl s).runCycle m))
      · exact (hrun.endCycle _ _).reportRead _ _ _

theorem itemCycle {k : ItemKind} (h : ChannelsBounded s) (hl : LoadWf s) (hu : s.itemCycle k = some u) :
    ChannelsBounded u := by
  unfold State.itemCycle at hu
  split at hu
  · exact h.memoryCycle hl hu
  · cases hu

theorem statusReadCycle {w : Pos} (h : ChannelsBounded s) (hl : LoadWf s) (hu : s.statusReadCycle w = some u) :
    ChannelsBounded u := by
  unfold State.statusReadCycle at hu
  split at hu
  · exact h.memoryCycle hl hu
  · cases hu

theorem settle (h : ChannelsBounded s) : ChannelsBounded s.settle := h.same (Settled.settle s).channels

theorem after {t : State} (h : ChannelsBounded s) (ha : After s t) : ChannelsBounded t := by
  obtain ⟨n, hn⟩ := ha.settled
  exact h.same hn.channels

end ChannelsBounded

/-! ### RESET_n (R117, R168) -/

/-- Every channel is within its bounds at the release, whatever the cycle held through reset asks. -/
theorem channelsBounded_resetRelease (s : State) (gb : BitVec 4) (sc : BitVec 6) :
    ChannelsBounded (s.resetRelease gb sc) := by
  have hstart : ChannelsBounded (s.underReset.afterRelease gb sc) := fun c => by
    rw [show (s.underReset.afterRelease gb sc).chan c = Channel.reset from Vector.getElem_replicate _]
    exact inBounds_reset
  unfold State.resetRelease State.retake
  split
  · exact hstart
  · dsimp only
    split
    · exact ChannelsBounded.beginCycle _ _ (hstart.same rfl)
    · exact ChannelsBounded.beginCycle _ _ (ChannelsBounded.settle (hstart.same rfl))

/-- RESET_n deasserted or not, the demand states are kept apart from the lines (R105). -/
theorem ChannelsBounded.channelsWf {s : State} (h : ChannelsBounded s) :
    ChannelsWf s := ⟨fun c => (h c).1, fun _ c => (h c).2⟩

theorem channelsBounded_of_awake {s : State} (h : ChannelsWf s) (hr : Awake s) : ChannelsBounded s :=
  fun c => ⟨h.1 c, h.2 hr c⟩

/-- Where the channels and the reset line stay. -/
theorem channelsWf_same {s t : State} (h : ChannelsWf s) (hch : t.channels = s.channels)
    (hr : t.lc.resetAsserted = s.lc.resetAsserted) : ChannelsWf t := by
  have hc (c : Chan) : t.chan c = s.chan c := by rw [State.chan, hch]; rfl
  refine ⟨fun c => hc c ▸ h.1 c, fun hawake c => hc c ▸ h.2 ?_ c⟩
  rw [Awake, ← hr]; exact hawake

theorem channelsWf_after {s t : State} (h : ChannelsWf s) (ha : After s t) : ChannelsWf t := by
  obtain ⟨n, hn⟩ := ha.settled
  exact channelsWf_same h hn.channels (by rw [hn.lc])

/-- The lines are deasserted at the assertion of reset, and not evaluated while it lasts. -/
theorem channelsWf_assertReset {s : State} (h : ChannelsWf s) : ChannelsWf s.assertReset := by
  refine ⟨fun c => ?_, fun hr => nomatch (show true = false from hr)⟩
  have hc : s.assertReset.chan c = (s.chan c).atReset := by simp [State.chan, State.assertReset]
  rw [hc]
  exact channelWf_atReset (h.1 c)

/-- While RESET_n is asserted a command ends the memory cycle under way, holds a cycle of the controller's, or releases
the part. -/
theorem channelsWf_exec_asleep {i : Instr} {s t : State} (h : ChannelsWf s) (hr : s.lc.resetAsserted = true)
    (ht : exec i s = .next t) : ChannelsWf t := by
  rcases exec_cases ht with rfl | ⟨u, hu, ha⟩
  · exact h
  · refine channelsWf_after ?_ ha
    cases hu with
    | outer hawake _ => rw [hr] at hawake; cases hawake
    | stopped c => exact channelsWf_same h rfl rfl
    | cycle m _ hawake _ => rw [hr] at hawake; cases hawake
    | carried m _ => rw [runCycle_mem]; exact channelsWf_same h rfl rfl
    | assert => exact channelsWf_assertReset h
    | release gb sc => exact (channelsBounded_resetRelease s gb sc).channelsWf

/-! ### Every step -/

/-- Every command's answer, RESET_n not asserted. -/
theorem channelsWf_exec_awake {i : Instr} {s t : State} (h : ChannelsBounded s) (hl :
    LoadWf s) (ht : exec i s = .next t) :
    ChannelsWf t := by
  have ofEvent {e : Option State} (he : answer s e = .next t) (hi : ∀ u, e = some u → ChannelsWf u) : ChannelsWf t := by
    rcases answer_next he with rfl | ⟨u, hu, rfl⟩
    · exact h.channelsWf
    · exact channelsWf_after (hi u hu) .settle
  have ofBlocks {e : Option State} (he : answer s e = .next t) (hi : ∀ u, e = some u → ChannelsBounded u) :
      ChannelsWf t := ofEvent he fun u hu => (hi u hu).channelsWf
  have ofAwake {e : Option State} (he : answer s (s.awake e) = .next t) (hi : ∀ u, e = some u → ChannelsBounded u) :
      ChannelsWf t := ofBlocks he fun u hu => hi u (awake_some hu).1
  have ofCycle {e : Option State} (he : answerCycle s e = .next t) (hi : ∀ u, e = some u → ChannelsBounded u) :
      ChannelsWf t := by
    rcases answerCycle_next he with rfl | ⟨u, hu, ha⟩
    · exact h.channelsWf
    · exact ((hi u hu).after ha).channelsWf
  cases i
  case memoryCycleComplete => exact ofCycle ht fun _ => h.memoryCycle hl
  case statusRead => exact ofCycle ht fun _ => h.statusReadCycle hl
  case commitComplete => exact ofBlocks ht fun _ => h.itemCycle hl
  case eventAppendComplete => exact ofBlocks ht fun _ => h.itemCycle hl
  case rewriteComplete => exact ofBlocks ht fun _ => h.itemCycle hl
  case loadingReadComplete => exact ofBlocks ht fun _ => h.itemCycle hl
  case resetAssert =>
    refine ofEvent ht fun u hu => ?_
    unfold State.resetAssert at hu
    split at hu
    · cases hu
    · exact Option.some.inj hu ▸ channelsWf_assertReset h.channelsWf
  case resetRelease gb sc =>
    exact ofBlocks (e := some (s.resetRelease gb sc)) ht fun u hu =>
      Option.some.inj hu ▸ channelsBounded_resetRelease s gb sc
  case drainComplete => exact ofAwake ht fun _ => h.drainComplete
  case assemblyExpired => exact ofAwake ht fun _ => h.assemblyExpiry
  case historyExpiry => exact ofAwake ht fun _ => h.historyExpiry
  case stalenessExpiry => exact ofAwake ht fun _ => h.stalenessExpiry
  case horizonExpiry => exact ofAwake ht fun _ => h.horizonExpiry
  case substitutionStep => exact ofAwake ht fun _ => h.substitutionStep
  case basePeriodExpiry => exact ofAwake ht fun _ => h.basePeriodExpiry
  case precheckExpiry => exact ofAwake ht fun _ => h.precheckExpiry
  case driveExpiry => exact ofAwake ht fun _ => h.driveExpiry
  case proofWindowExpiry => exact ofAwake ht fun _ => h.proofWindowExpiry
  case restEnd => exact ofAwake ht fun _ => h.restExpiry
  case proofClosure => exact ofAwake ht fun _ => h.proofClosure
  case meterPulse => exact ofAwake ht fun _ => h.meterPulse
  all_goals exact ofBlocks ht fun _ => h.controllerCycle

/-- A step on an empty queue touches no channel. -/
theorem idleStep_channels (s : State) :
    s.idleStep.channels = s.channels ∧ s.idleStep.lc.resetAsserted = s.lc.resetAsserted := by
  unfold State.idleStep
  split
  · exact ⟨rfl, rfl⟩
  · split
    · exact ⟨(Settled.settle s).channels, by rw [(Settled.settle s).lc]⟩
    · unfold State.awakeStep
      split
      · exact ⟨rfl, rfl⟩
      · split <;> exact ⟨rfl, rfl⟩

theorem step_channelsWf {s t : State} (ht : step s = .next t) (h : ChannelsWf s) (hl : LoadWf s) : ChannelsWf t := by
  unfold Machine.step at ht
  split at ht
  · cases ht
    exact channelsWf_same h (idleStep_channels s).1 (idleStep_channels s).2
  · next i rest _ =>
    have hrest : ChannelsWf { s with pending := rest } := channelsWf_same h rfl rfl
    have hlrest : LoadWf { s with pending := rest } := loadWf_alike hl ((Alike.refl s).same rfl rfl rfl rfl)
    cases hr : s.lc.resetAsserted with
    | true => exact channelsWf_exec_asleep hrest hr ht
    | false => exact channelsWf_exec_awake (channelsBounded_of_awake hrest hr) hlrest ht

/-! ### Outputs and counts (R92, R117) -/

/-- A property of one channel that its own updates keep, the assertion and the release of reset among them, is kept by
every step. -/
theorem step_keeps_channel {P : Channel → Prop} (hstep : ∀ x y, ChanStep x y → P x → P y)
    (hassert : ∀ x, P x → P x.atReset) (hrelease : P Channel.reset) {s t : State} (ht : step s = .next t) (c : Chan)
    (h : P (s.chan c)) : P (t.chan c) := by
  refine step_keeps (P := fun s => P (s.chan c)) ?settled ?outer ?port ?cycle ?assert ?release ?own ht h
  case settled => exact fun _ _ hs => (congrArg P (hs.chan c)).mpr
  case outer => exact fun _ _ _ ho => hstep _ _ (ho.channel c)
  case port => exact fun _ _ => id
  case cycle => exact fun s m hs => by rw [runCycle_mem]; exact hs
  case assert =>
    intro s hs
    have hc : s.assertReset.chan c = (s.chan c).atReset := by simp [State.chan, State.assertReset]
    rw [hc]
    exact hassert _ hs
  case release =>
    intro s gb sc _
    rw [show (s.afterRelease gb sc).chan c = Channel.reset from Vector.getElem_replicate _]
    exact hrelease
  case own => exact fun _ _ _ _ => id

theorem outputsFollow_idle {x : Channel} (h : x.seq = Sequencer.idle) : OutputsFollow x := by
  simp [OutputsFollow, h, Sequencer.idle]

/-- Settles O8: outputs and counts by the updates of one channel, demand state and line by every operation on it. -/
theorem channelsKeepTheirBounds : Obligations.ChannelsKeepTheirBounds := by
  unfold Obligations.ChannelsKeepTheirBounds
  refine fun s t ht => ⟨fun c => ⟨?_, ?_⟩, step_channelsWf ht⟩
  · exact step_keeps_channel (fun _ _ k => k.outputs) (fun _ _ => outputsFollow_idle rfl) (outputsFollow_idle rfl) ht c
  · exact step_keeps_channel (P := DemandBounded) (fun _ _ k => k.demand) (fun _ => id)
      ⟨Nat.zero_le _, Nat.zero_le _⟩ ht c

end Sys2Proof.Machine
end

section
/-! PROOFS. The field inputs (R113 to R115, R118, R124, R128 to R130): a closure of the proof contact, and a pulse of the
odorant meter. -/

namespace Sys2Proof.Machine

open Sys2Proof.Safety

/-! ### An event that takes no time -/

/-- From an operation on one channel to the state after the event that made it. -/
theorem event_answer {s v : State} {c : Chan} {y : Channel} {es : List EventRecord} {fs : List Flag}
    {ks : List PartSlot} (hr : Awake s) (h : ChannelOp c s v y es fs ks) :
    answer s (s.awake (some v)) = .next v.settle ∧ Outside s v.settle ∧ v.settle.uptime = s.uptime ∧
      v.settle.lc = s.lc ∧ v.settle.rv = s.rv ∧ v.settle.rt = s.rt ∧ (∀ k, k ≠ c → v.settle.chan k = s.chan k) ∧
      v.settle.chan c = y ∧ Reports s v.settle es fs ks := by
  have hnow : s.elapseTo 0 = s := by simp [State.elapseTo]
  obtain ⟨hanswer, ⟨hout, hup, hlc⟩, hrv, hrt, hother, hchan, hrep⟩ := timer_answer (n := 0) hr (hnow.symm ▸ h)
  rw [hnow] at hrep
  exact ⟨hanswer, hout, hup.trans (Nat.max_zero _), hlc, hrv, hrt, hother, hchan, hrep⟩

/-- An event without effect, or while RESET_n is asserted, changes nothing. -/
theorem event_ignored {s : State} {e : Option State} (h : e = none ∨ s.lc.resetAsserted = true) :
    answer s (s.awake e) = .next s := by
  rcases h with rfl | hr
  · rw [State.awake, ite_self]; rfl
  · rw [State.awake, if_pos hr]; rfl

/-! ### METER_PULSE (R124, R130) -/

/-- Of what a channel report carries a pulse can change the delivered odorant alone (R163). -/
theorem sameReport_pulse (x : Channel) (volume : Nat) :
    sameReport x (x.pulse volume) = decide ((x.pulse volume).delivered = x.delivered) := by
  have houtcome : x.cal.pulse.lastOutcome = x.cal.lastOutcome ∧ x.cal.pulse.lastMeasured = x.cal.lastMeasured := by
    unfold Calibration.pulse
    split <;> exact ⟨rfl, rfl⟩
  simp [sameReport, Channel.pulse, Channel.nominal, houtcome]

theorem meterPulse_law (s : State) (c : Chan) (volume : Nat) :
    ChannelOp c s (s.putChan c ((s.chan c).pulse volume)) ((s.chan c).pulse volume) [] []
      (if ((s.chan c).pulse volume).delivered = (s.chan c).delivered then [] else [.channel c]) := by
  have hput := (ChannelOp.refl c s).putChan ((s.chan c).pulse volume) (.other rfl rfl rfl)
  rw [sameReport_pulse] at hput
  exact hput.as rfl rfl (fun _ => Iff.rfl) fun k => .inl (by simp)

theorem meterPulse_counted {s : State} {c : Chan} {d : ChannelDescriptor} (hs : (s.chan c).service ≠ .unconfigured)
    (hd : (s.chan c).descriptor = some d) :
    s.meterPulse c = some (s.putChan c ((s.chan c).pulse d.pulseVolume)) := by
  rw [State.meterPulse, hd]
  cases hservice : (s.chan c).service with
  | unconfigured => exact absurd hservice hs
  | _ => rfl

theorem meterPulse_unconfigured {s : State} {c : Chan} (hs : (s.chan c).service = .unconfigured) :
    s.meterPulse c = none := by
  rw [State.meterPulse, hs]

/-- Settles O60: the pulse's arithmetic is that of `Channel.pulse`, and its mark that of a changed report. -/
theorem meterPulsesAreCounted : Obligations.MeterPulsesAreCounted := by
  unfold Obligations.MeterPulsesAreCounted
  refine fun s c => ⟨?_, fun h => event_ignored (h.imp_left meterPulse_unconfigured)⟩
  rintro d x hw hs hd rfl
  have hexec : exec (.meterPulse c) s = answer s (s.awake (s.meterPulse c)) := rfl
  rw [meterPulse_counted hs hd] at hexec
  obtain ⟨hanswer, hout, hup, hlc, hrv, hrt, hother, hchan, hrep⟩ := event_answer hw (meterPulse_law s c d.pulseVolume)
  refine ⟨_, hexec.trans hanswer, hout, hup, hlc, hrv, hrt, hother, hchan, ?_⟩
  rw [hchan]
  exact hrep

/-! ### PROOF_CLOSURE (R113 to R115, R118, R120, R128, R129) -/

theorem awaitsProof_iff (q : Sequencer) :
    q.awaitsProof = true ↔ q.wetting = true ∧ q.proven = false ∧ (q.phase = .drive ∨ q.phase = .proof) := by
  simp [Sequencer.awaitsProof, and_assoc]

theorem proofClosure_ignored {s : State} {c : Chan} (h : ¬(s.chan c).seq.awaitsProof = true) :
    s.proofClosure c = none := if_neg h

/-- A proof changes no deficit: what its demand reports is the line alone. -/
theorem demand_proven {s t : State} {c : Chan} {d : ChannelDescriptor} {line : Bool}
    (hd : (s.chan c).descriptor = some d) (ht : t.chan c = (s.chan c).provenAs d line) :
    demandEvents s t c 0 = lineEvents s c d (s.chan c) ((s.chan c).provenAs d line) ∧
      demandFlags s t c = lineFlags c (s.chan c) ((s.chan c).provenAs d line) := by
  have hdesc : ((s.chan c).provenAs d line).descriptor = some d := hd
  have hdeficit : ¬((s.chan c).deficit = 0 ∧ 0 < ((s.chan c).provenAs d line).deficit) := by
    show ¬((s.chan c).deficit = 0 ∧ 0 < (s.chan c).deficit)
    omega
  simp only [demandEvents, demandFlags, ht, hdesc, if_neg hdeficit, List.nil_append]
  exact ⟨rfl, rfl⟩

/-- The line is evaluated where the delivery changed the owed count (R105). -/
theorem lineAfter_follows (x : Channel) (d : ChannelDescriptor) :
    if (afterDelivery x).owed = x.owed then x.lineAfter d = x.restrict
    else LineFollows d x.restrict (x.provenAs d (x.lineAfter d)) := by
  split
  · next h => exact if_pos h
  · next h => exact if_neg h

/-- Settles O59: the proof as `proveStroke_law` tells it; a closure no stroke awaits is ignored. -/
theorem closuresProveStrokes : Obligations.ClosuresProveStrokes := by
  unfold Obligations.ClosuresProveStrokes
  refine fun s c => ⟨?_, fun h => event_ignored ?_⟩
  · rintro d x y hw hwet hproven hphase hd rfl rfl
    have hexec : exec (.proofClosure c) s = answer s (s.awake (s.proofClosure c)) := rfl
    rw [State.proofClosure, if_pos ((awaitsProof_iff _).mpr ⟨hwet, hproven, hphase⟩)] at hexec
    obtain ⟨hanswer, hout, hup, hlc, hrv, hrt, hother, hchan, hrep⟩ := event_answer hw (proveStroke_law hd hphase)
    obtain ⟨hevents, hflags⟩ := demand_proven hd hchan
    refine ⟨_, hexec.trans hanswer, hout, hup, hlc, hrv, hrt, hother, ?_, ?_, ?_⟩
    · rw [hchan]; rfl
    · rw [hchan]; exact lineAfter_follows _ d
    · rw [hevents, hflags]; exact hrep
  · rcases h with hwet | hproven | ⟨hdrive, hproof⟩ | hr
    · exact .inl (proofClosure_ignored (by simp [awaitsProof_iff, hwet]))
    · exact .inl (proofClosure_ignored (by simp [awaitsProof_iff, hproven]))
    · exact .inl (proofClosure_ignored (by simp [awaitsProof_iff, hdrive, hproof]))
    · exact .inr hr

end Sys2Proof.Machine
end

section
/-! PROOFS. The ends of a stroke's precheck, drive and proof window (R112 to R114, R116, R118, R120, R130, R132). -/

namespace Sys2Proof.Machine

open Sys2Proof.Safety

/-- The report shows a phase that has changed. -/
theorem sameReport_phase {x y : Channel} (h : y.seq.phase ≠ x.seq.phase) : sameReport x y = false := by
  simp only [sameReport, decide_eq_false_iff_not]
  rintro ⟨_, hphase, _⟩
  exact h hphase.symm

/-- An operation that sets the channel to one in another phase: the report is to be rewritten, and no more. -/
theorem phase_law {s : State} {c : Chan} {y : Channel} (hphase : y.seq.phase ≠ (s.chan c).seq.phase)
    (hy : ChanStep (s.chan c) y) : ChannelOp c s (s.putChan c y) y [] [] [.channel c] := by
  have hput := (ChannelOp.refl c s).putChan y hy
  rw [sameReport_phase hphase] at hput
  exact hput

/-! ### The precheck ends (R112, R113, R130) -/

/-- The channel in DRIVE, the measuring window open where the drive is a calibration's own first. -/
def Channel.driving (x : Channel) (now : Nat) : Channel :=
  { x with
    seq := { x.seq with phase := .drive, strokeOut := true, wetting := true, restRef := now }
    cal := if OwnStroke x && !x.cal.windowOpen then { x.cal with windowOpen := true, pulses := 0 } else x.cal }

theorem driving_eq (x : Channel) (now : Nat) : { x.openWindow with seq := x.seq.drive now } = x.driving now := by
  rw [Channel.openWindow, ownStroke_eq, Channel.driving]
  split <;> rfl

theorem startDrive_law {s : State} {c : Chan} (hp : (s.chan c).seq.phase = .precheck) :
    ChannelOp c s (s.startDrive c) ((s.chan c).driving s.uptime) [] [] [.channel c] := by
  rw [State.startDrive, driving_eq]
  exact phase_law (by rw [hp]; simp [Channel.driving]) (.seq (fun _ => by simp [OutputsFollow, Channel.driving]) rfl rfl)

theorem exec_precheckExpiry {s : State} {c : Chan} (hp : (s.chan c).seq.phase = .precheck) (closed : Bool) :
    exec (.precheckExpiry c closed) s = answer s (s.awake (some
      (if closed then (s.elapseTo ((s.chan c).seq.precheckStart + (s.chan c).seq.times.precheck)).missStroke c true
        else (s.elapseTo ((s.chan c).seq.precheckStart + (s.chan c).seq.times.precheck)).startDrive c))) := by
  show answer s (s.awake (s.precheckExpiry c closed)) = _
  rw [State.precheckExpiry, hp]
  rfl

/-- Settles O55: a closed contact is a stroke found STUCK, an open one the start of DRIVE. -/
theorem prechecksEnd : Obligations.PrechecksEnd := by
  unfold Obligations.PrechecksEnd
  rintro s u c closed d hw hp hd rfl
  have hexec := exec_precheckExpiry hp closed
  cases closed with
  | true =>
    obtain ⟨hanswer, hel, hrv, hrt, hother, hchan, hrep⟩ := timer_answer hw (missStroke_law
      (s := s.elapseTo ((s.chan c).seq.precheckStart + (s.chan c).seq.times.precheck)) hd (by simp [hp]) true)
    exact ⟨_, hexec.trans hanswer, hel, hrv, hrt, hother, fun _ => ⟨hchan, hrep⟩, nofun⟩
  | false =>
    obtain ⟨hanswer, hel, hrv, hrt, hother, hchan, hrep⟩ := timer_answer hw (startDrive_law
      (s := s.elapseTo ((s.chan c).seq.precheckStart + (s.chan c).seq.times.precheck)) hp)
    exact ⟨_, hexec.trans hanswer, hel, hrv, hrt, hother, nofun, fun _ => ⟨hchan, hrep⟩⟩

/-! ### The drive ends (R113, R116, R120) -/

theorem endDrive_proven_law {s : State} {c : Chan} (hp : (s.chan c).seq.phase = .drive)
    (hproven : (s.chan c).seq.proven = true) :
    ChannelOp c s (s.endDrive c) (s.chan c).over [] [] [.channel c] := by
  rw [State.endDrive, if_pos hproven]
  have hover := afterOutcome_law (s := s) (c := c) (by simp [hp])
  rwa [if_neg (by simp [hp])] at hover

/-- The channel, its unproven stroke waiting for the rest of its proof window. -/
def Channel.proving (x : Channel) : Channel := { x with seq := { x.seq with phase := .proof, strokeOut := false } }

theorem endDrive_proof_law {s : State} {c : Chan} (hp : (s.chan c).seq.phase = .drive)
    (hproven : (s.chan c).seq.proven = false) (hwindow : (s.chan c).seq.times.drive < (s.chan c).seq.times.window) :
    ChannelOp c s (s.endDrive c) (s.chan c).proving [] [] [.channel c] := by
  rw [State.endDrive, if_neg (by simp [hproven]), if_pos hwindow]
  refine phase_law (by simp [hp, Sequencer.toProof]) (.seq (fun ⟨_, hwetting⟩ => ?_) rfl rfl)
  have hwet : (s.chan c).seq.wetting = true := hwetting.mpr (.inr (.inl hp))
  simp [OutputsFollow, Sequencer.toProof, hwet]

theorem endDrive_missed {s : State} {c : Chan} (hproven : (s.chan c).seq.proven = false)
    (hwindow : (s.chan c).seq.times.window ≤ (s.chan c).seq.times.drive) : s.endDrive c = s.missStroke c false := by
  rw [State.endDrive, if_neg (by simp [hproven]), if_neg (Nat.not_lt.mpr hwindow)]

theorem exec_driveExpiry {s : State} {c : Chan} (hp : (s.chan c).seq.phase = .drive) : exec (.driveExpiry c) s =
    answer s (s.awake (some ((s.elapseTo ((s.chan c).seq.restRef + (s.chan c).seq.times.drive)).endDrive c))) := by
  show answer s (s.awake (s.driveExpiry c)) = _
  rw [State.driveExpiry, hp]
  rfl

/-- DRIVE_EXPIRY: a proven stroke's drive ends in its rest or IDLE, an unproven one's in PROOF or as a miss. -/
theorem driveExpires {s u : State} {c : Chan} {d : ChannelDescriptor} (hw : Awake s)
    (hd : (s.chan c).descriptor = some d) (hp : (s.chan c).seq.phase = .drive)
    (hu : u = s.elapseTo ((s.chan c).seq.restRef + (s.chan c).seq.times.drive)) :
    ∃ t, exec (.driveExpiry c) s = .next t ∧ Elapsed s t ((s.chan c).seq.restRef + (s.chan c).seq.times.drive) ∧
      t.rv = s.rv ∧ t.rt = s.rt ∧ (∀ k, k ≠ c → t.chan k = s.chan k) ∧
      ((s.chan c).seq.proven = true → t.chan c = (s.chan c).over ∧ Reports u t [] [] [.channel c]) ∧
      ((s.chan c).seq.proven = false → (s.chan c).seq.times.drive < (s.chan c).seq.times.window →
        t.chan c = (s.chan c).proving ∧ Reports u t [] [] [.channel c]) ∧
      ((s.chan c).seq.proven = false → (s.chan c).seq.times.window ≤ (s.chan c).seq.times.drive →
        MissedAt u t c d false) := by
  subst hu
  have hexec := exec_driveExpiry hp
  cases hproven : (s.chan c).seq.proven with
  | true =>
    obtain ⟨hanswer, hel, hrv, hrt, hother, hchan, hrep⟩ := timer_answer hw (endDrive_proven_law
      (s := s.elapseTo ((s.chan c).seq.restRef + (s.chan c).seq.times.drive)) hp hproven)
    exact ⟨_, hexec.trans hanswer, hel, hrv, hrt, hother, fun _ => ⟨hchan, hrep⟩, nofun, nofun⟩
  | false =>
    by_cases hwindow : (s.chan c).seq.times.drive < (s.chan c).seq.times.window
    · obtain ⟨hanswer, hel, hrv, hrt, hother, hchan, hrep⟩ := timer_answer hw (endDrive_proof_law
        (s := s.elapseTo ((s.chan c).seq.restRef + (s.chan c).seq.times.drive)) hp hproven hwindow)
      exact ⟨_, hexec.trans hanswer, hel, hrv, hrt, hother, nofun, fun _ _ => ⟨hchan, hrep⟩,
        fun _ hle => absurd hwindow (Nat.not_lt.mpr hle)⟩
    · have hmiss := missStroke_law (s := s.elapseTo ((s.chan c).seq.restRef + (s.chan c).seq.times.drive)) hd
        (by simp [hp]) false
      rw [← endDrive_missed (s := s.elapseTo _) hproven (Nat.not_lt.mp hwindow)] at hmiss
      obtain ⟨hanswer, hel, hrv, hrt, hother, hchan, hrep⟩ := timer_answer hw hmiss
      exact ⟨_, hexec.trans hanswer, hel, hrv, hrt, hother, nofun, fun _ hlt => absurd hlt hwindow,
        fun _ _ => ⟨hchan, hrep⟩⟩

/-! ### The proof window ends (R114, R118) -/

theorem exec_proofWindowExpiry {s : State} {c : Chan} (hp : (s.chan c).seq.phase = .proof) :
    exec (.proofWindowExpiry c) s = answer s (s.awake (some
      ((s.elapseTo ((s.chan c).seq.restRef + (s.chan c).seq.times.window)).missStroke c false))) := by
  show answer s (s.awake (s.proofWindowExpiry c)) = _
  rw [State.proofWindowExpiry, hp]
  rfl

/-- Settles O56: the drive's end by the stroke's proof, the proof window's as a miss. -/
theorem drivesAndProofWindowsEnd : Obligations.DrivesAndProofWindowsEnd := by
  unfold Obligations.DrivesAndProofWindowsEnd
  refine fun s u c d hw hd => ⟨driveExpires hw hd, ?_⟩
  rintro hp rfl
  obtain ⟨hanswer, hel, hrv, hrt, hother, hchan, hrep⟩ := timer_answer hw (missStroke_law
    (s := s.elapseTo ((s.chan c).seq.restRef + (s.chan c).seq.times.window)) hd (by simp [hp]) false)
  exact ⟨_, (exec_proofWindowExpiry hp).trans hanswer, hel, hrv, hrt, hother, hchan, hrep⟩

end Sys2Proof.Machine
end

section
/-! PROOFS. CLEAR_CHANNEL and SET_SERVICE (R109, R111, R119, R120, R133, R149, R151): what each does by the service state
it finds, and the command answered with it. -/

namespace Sys2Proof.Machine

open Sys2Proof.Safety

/-- A command on a channel reaches the channel its argument names. -/
theorem onChan_named {s : State} {a : Word} {c : Chan} (ha : a.toNat = c.val) (f : Chan → State → CommandResult) :
    s.onChan a f = f c s := by
  rw [State.onChan, asChan_val ha]

/-! ### CLEAR_CHANNEL (R149) -/

theorem clearChannel_decided {s : State} {tag a : Word} {c : Chan} (hd : s.lc.device = .running)
    (ha : a.toNat = c.val) :
    (s.beforeDecision 17).decideOutcome ⟨tag, 2, a, 0⟩ = (s.beforeDecision 17).clearChannel c := by
  have hA : argumentA 2 a.toNat = true := by simp [argumentA, ha]
  exact (own_run (x := ⟨tag, 2, a, 0⟩) hd ⟨by simp, by simp⟩ hA rfl).trans (onChan_named ha _)

/-- Of a channel that is not FAILED CLEAR_CHANNEL changes nothing. -/
theorem clearChannel_refused {s : State} {c : Chan} (h : (s.chan c).service ≠ .failed) :
    s.clearChannel c = ⟨.wrongState, (s.chan c).service.code, s⟩ := by
  unfold State.clearChannel
  cases hs : (s.chan c).service with
  | failed => exact absurd hs h
  | _ => rfl

theorem clearChannel_failed {s : State} {c : Chan} (h : (s.chan c).service = .failed) :
    s.clearChannel c = ⟨.done, 0, (s.clearWindow c).goInService c .failed⟩ := by
  rw [State.clearChannel, h]

/-- A FAILED channel returns to IN_SERVICE, its window counts 0 (R109, R149). -/
theorem clearFailed_law {s : State} {c : Chan} {d : ChannelDescriptor} (hd : (s.chan c).descriptor = some d)
    (hs : (s.chan c).service = .failed) (hp : (s.chan c).seq.phase = .idle) :
    ChannelOp c s ((s.clearWindow c).goInService c .failed)
      { s.chan c with
        service := .inService, attempts := 0, misses := 0
        seq := if 0 < (s.chan c).owed then Sequencer.begin .ordinary d s.uptime else (s.chan c).seq }
      [eventNow s .channelService c.val 2 4] [] [.channel c] := by
  have hclear := clearWindow_law s c
  generalize s.clearWindow c = q at hclear
  have hin := goInService_law (hclear.descriptor hd) .failed (by rw [hclear.on.chan, hs]; simp)
  rw [hclear.on.chan, hclear.on.uptime, hclear.on.eventNow] at hin
  refine (hclear.trans hin).as ?_ rfl (fun _ => Iff.rfl) fun k =>
    .inl ((((OfChannel.nil c).append (.ite c _)).append (.one c)).is (by simp) k)
  simp [hp]

/-- Settles O42: a FAILED channel is returned to service, any other left as it is. -/
theorem clearChannelCompletes : Obligations.ClearChannelCompletes := by
  unfold Obligations.ClearChannelCompletes
  intro s tag ch p c h hd hc
  have hdecide := clearChannel_decided (tag := tag) hd hc
  refine ⟨fun hs d hdesc hp => ?_, fun hs => ?_⟩
  · exact command_channel h (hdecide.trans (clearChannel_failed hs))
      (clearFailed_law (s := s.beforeDecision 17) hdesc hs hp)
  · exact command_nothing h (hdecide.trans (clearChannel_refused hs))

/-! ### SET_SERVICE(ch, in) (R151) -/

/-- SET_SERVICE goes by its argument B. -/
theorem setService_decided {s : State} {tag a b : Word} {c : Chan} (hd : s.lc.device = .running)
    (ha : a.toNat = c.val) (hb : b.toNat ≤ 1) : (s.beforeDecision 17).decideOutcome ⟨tag, 5, a, b⟩ =
      (if b = 0 then State.setServiceOut else State.setServiceIn) c (s.beforeDecision 17) := by
  have hA : argumentA 5 a.toNat = true := by simp [argumentA, ha]
  have hB : argumentB 5 b.toNat = true := by simp [argumentB, hb]
  exact (own_run (x := ⟨tag, 5, a, b⟩) hd ⟨by simp, by simp⟩ hA hB).trans (onChan_named ha _)

theorem setServiceIn_outOfService {s : State} {c : Chan} (h : (s.chan c).service = .outOfService) :
    s.setServiceIn c = ⟨.done, 1, s.goInService c .outOfService⟩ := by
  rw [State.setServiceIn, h]
  rfl

/-- Of a channel that is not OUT_OF_SERVICE SET_SERVICE(ch, in) changes nothing. -/
theorem setServiceIn_unchanged {s : State} {c : Chan} (h : (s.chan c).service ≠ .outOfService) :
    s.setServiceIn c =
      ⟨if (s.chan c).service = .inService then .done else .wrongState, (s.chan c).service.code, s⟩ := by
  unfold State.setServiceIn
  cases hs : (s.chan c).service with
  | outOfService => exact absurd hs h
  | _ => rfl

/-! ### SET_SERVICE(ch, out) (R119, R133, R151) -/

/-- Of a channel that is UNCONFIGURED or OUT_OF_SERVICE SET_SERVICE(ch, out) changes nothing. -/
theorem setServiceOut_unchanged {s : State} {c : Chan} {o : CommandOutcome}
    (h : (s.chan c).service = .unconfigured ∧ o = .wrongState ∨ (s.chan c).service = .outOfService ∧ o = .done) :
    s.setServiceOut c = ⟨o, (s.chan c).service.code, s⟩ := by
  rcases h with ⟨hs, rfl⟩ | ⟨hs, rfl⟩ <;> rw [State.setServiceOut, hs]

/-- The channel out of service, its calibration aborted and a FAILED channel's window counts 0 (R109, R119, R133). -/
def Channel.takenOut (x : Channel) : Channel :=
  { x with
    service := .outOfService
    seq := leftService x.seq
    attempts := if x.service = .failed then 0 else x.attempts
    misses := if x.service = .failed then 0 else x.misses
    cal := if x.service = .calibrating then calibrationOver .aborted else x.cal }

/-- An aborted calibration (R133, R134): CAL_FAIL and CALIBRATION_END. -/
theorem abort_law (s : State) (c : Chan) (service : ServiceState) :
    ChannelOp c s (s.endCalibration c .aborted 0 service)
      { s.chan c with cal := calibrationOver .aborted, service := service }
      [eventNow s .calibrationEnd c.val 5 0] [.channel c .calFail] [.channel c] :=
  endCalibration_law s c .aborted 0 service

/-- A channel IN_SERVICE, CALIBRATING or FAILED goes OUT_OF_SERVICE (R119, R133, R151). -/
theorem setServiceOut_law {s : State} {c : Chan} (hu : (s.chan c).service ≠ .unconfigured)
    (ho : (s.chan c).service ≠ .outOfService) :
    ∃ q, s.setServiceOut c = ⟨.done, (s.chan c).service.code, q⟩ ∧ ChannelOp c s q (s.chan c).takenOut
      ((if (s.chan c).service = .calibrating then [eventNow s .calibrationEnd c.val 5 0] else []) ++
        [eventNow s .channelService c.val 1 (s.chan c).service.code])
      ((if (s.chan c).service = .calibrating then [.channel c .calFail] else []) ++ [.channel c .outOfService])
      [.channel c] := by
  unfold State.setServiceOut
  cases hs : (s.chan c).service with
  | unconfigured => exact absurd hs hu
  | outOfService => exact absurd hs ho
  | inService =>
    refine ⟨_, rfl, (goOutOfService_law s c .inService).as ?_ rfl (fun _ => Iff.rfl) fun k => .inl Iff.rfl⟩
    simp [Channel.takenOut, hs]
  | calibrating =>
    have habort := abort_law s c .outOfService
    have hout := goOutOfService_law (s.endCalibration c .aborted 0 .outOfService) c .calibrating
    rw [habort.on.chan, habort.on.eventNow] at hout
    refine ⟨_, rfl, (habort.trans hout).as ?_ rfl (fun _ => Iff.rfl) fun k => .inl (by simp)⟩
    simp [Channel.takenOut, hs]
  | failed =>
    have hclear := clearWindow_law s c
    have hout := goOutOfService_law (s.clearWindow c) c .failed
    rw [hclear.on.chan, hclear.on.eventNow] at hout
    refine ⟨_, rfl, (hclear.trans hout).as ?_ rfl (fun _ => Iff.rfl) fun k =>
      .inl ((((OfChannel.nil c).append (.ite c _)).append (.one c)).is (by simp) k)⟩
    simp [Channel.takenOut, hs]

/-- Settles O44: SET_SERVICE by its argument B and by the service state it finds. -/
theorem setServiceCompletes : Obligations.SetServiceCompletes := by
  unfold Obligations.SetServiceCompletes
  intro s tag ch p c hd hc
  have hin := setService_decided (tag := tag) (b := 1) hd hc le_rfl
  have hout := setService_decided (tag := tag) (b := 0) hd hc (Nat.zero_le 1)
  refine ⟨fun h => ⟨fun d hs hdesc => ?_, ?_⟩, fun h => ⟨fun o hs => ?_, fun hu ho => ?_⟩⟩
  · exact command_channel h (hin.trans (setServiceIn_outOfService hs))
      (goInService_law (s := s.beforeDecision 17) hdesc .outOfService fun hin => nomatch hs.symm.trans hin)
  · rintro hs o rfl
    exact command_nothing h (hin.trans (setServiceIn_unchanged hs))
  · exact command_nothing h (hout.trans (setServiceOut_unchanged hs))
  · obtain ⟨q, hdecide, hop⟩ := setServiceOut_law (s := s.beforeDecision 17) hu ho
    obtain ⟨t, hexec, hout, hup, hrt, hlc, hrv, hchan, hother, hrep⟩ := command_channel h (hout.trans hdecide) hop
    refine ⟨t, hexec, hout, hup, hrt, hlc, hrv, hchan, hother, ?_⟩
    rw [List.append_assoc] at hrep
    exact hrep

end Sys2Proof.Machine
end

section
/-! PROOFS. STATION_DESCRIPTOR accepted (R123, R136, R138 to R140, R177): in force at once, and the drain that follows in
FALLBACK. -/

namespace Sys2Proof.Machine

open Sys2Proof.Safety

/-- The part with the descriptor in force, nothing reported yet. -/
def State.withStation (s : State) (d : StationDescriptor) : State := { s with lc := { s.lc with station := some d } }

/-- The descriptor in force and DESCRIPTOR_APPLIED raised, the device state not yet looked at. -/
def State.stationApplied (s : State) (d : StationDescriptor) (w : Record) : State :=
  (s.putStation (some d)).raise .descriptorApplied 0 (stationChanges s.lc.station d) w[15].toNat

theorem acceptStation_eq (s : State) (d : StationDescriptor) (w : Record) :
    s.acceptStation d w =
      if s.lc.device = .fallback then (s.stationApplied d w).startDrain .stationAccepted else s.stationApplied d w := rfl

/-- A station descriptor within its ranges and for this station is accepted (R138). -/
theorem decideStation_accept {s : State} {w : Record} {d : StationDescriptor} (hr : readStation w = some d)
    (hcode : d.stationCode = s.lc.stationCode.toNat) : s.decideStation w = .accept (s.acceptStation d w) := by
  rw [State.decideStation, hr]
  exact if_pos hcode

/-- The new descriptor's filter governs its own DESCRIPTOR_APPLIED (R139). -/
theorem stationApplied_effects (s : State) (d : StationDescriptor) (w : Record) :
    Effects (s.withStation d) (s.stationApplied d w)
      [eventNow s .descriptorApplied 0 (stationChanges s.lc.station d) w[15].toNat] [] [] :=
  (Effects.evalAttention (s.withStation d)).thenRaise .descriptorApplied 0 (stationChanges s.lc.station d) w[15].toNat

/-- The new descriptor's mask governs the attention line, whatever the line was (R140, R161). -/
theorem stationApplied_attention (s : State) (d : StationDescriptor) (w : Record) :
    (s.stationApplied d w).ru.attention = (s.stationApplied d w).attentionDue :=
  (Effects.raise (s.putStation (some d)) .descriptorApplied 0 (stationChanges s.lc.station d) w[15].toNat).attention rfl

/-- The acceptance, in RUNNING and in FALLBACK. -/
structure StationTaken (s t : State) (d : StationDescriptor) (w : Record) : Prop where
  inner : Inner s t
  uptime : t.uptime = s.uptime
  rt : t.rt = s.rt
  running : s.lc.device = .running →
    t.lc = { s.lc with station := some d } ∧ t.channels = s.channels ∧ t.rv = s.rv
  fallback : s.lc.device = .fallback →
    t.lc = { s.lc with station := some d, device := .draining, cause := .stationAccepted } ∧
    (∀ c, t.chan c = { s.chan c with baseTimer := none }) ∧ t.rv = { s.rv with assembling := [] }
  effects : Effects (s.withStation d) t
    [eventNow s .descriptorApplied 0 (stationChanges s.lc.station d) w[15].toNat] []
    (if s.lc.device = .fallback then [.status] else [])
  attention : t.ru.attention = t.attentionDue

theorem acceptStation_taken (s : State) (d : StationDescriptor) (w : Record) :
    StationTaken s (s.acceptStation d w) d w := by
  have heff := stationApplied_effects s d w
  have hinner : Inner s (s.stationApplied d w) := .raise _ _ _ _ (.station (some d) (.refl s))
  have hatt := stationApplied_attention s d w
  have hlc : (s.stationApplied d w).lc = { s.lc with station := some d } := by simp [State.stationApplied, State.putStation]
  have hch : (s.stationApplied d w).channels = s.channels := by simp [State.stationApplied]
  have hrv : (s.stationApplied d w).rv = s.rv := by simp [State.stationApplied]
  have hrt : (s.stationApplied d w).rt = s.rt := by simp [State.stationApplied]
  have hup : (s.stationApplied d w).uptime = s.uptime := by simp [State.stationApplied]
  rw [acceptStation_eq]
  generalize s.stationApplied d w = q at *
  by_cases hf : s.lc.device = .fallback
  · rw [if_pos hf]
    have hdrain := startDrain_effects q .stationAccepted
    refine ⟨.startDrain _ hinner, hup, hrt, fun h => ?_, fun _ => ⟨?_, fun c => ?_, ?_⟩, ?_, hdrain.attention hatt⟩
    · exact nomatch hf.symm.trans h
    · show ({ q.lc with cause := .stationAccepted, device := .draining } : Loader) = _
      rw [hlc]
    · rw [startDrain_chan, State.chan, hch]; rfl
    · show ({ q.rv with assembling := [] } : Verifier) = _
      rw [hrv]
    · rw [if_pos hf]
      exact heff.trans hdrain
  · rw [if_neg hf]
    refine ⟨hinner, hup, hrt, fun _ => ⟨hlc, hch, hrv⟩, fun h => absurd h hf, ?_, hatt⟩
    rw [if_neg hf]
    exact heff

/-- From an owner's acceptance to the state after the write, for an owner that may change the filter: what is reported
is read off the state y before the Memory Agent and the port go on. -/
theorem record_settled {s u : State} {slot : Slot} {p : Pos} {v : Word} {w : Record} (h : Completes s slot p v w)
    (hc : slotClass slot = .controller) (hd : (s.beforeDecision slot).decideRecord slot w = .accept u)
    (hi : Inner (s.beforeDecision slot) u) :
    ∃ y, y = { u with rv := { u.rv with committing := s.commitsAfter slot w } } ∧
      answer s (s.recordWrite slot p v) = .next y.settle ∧ Outside s y.settle ∧ y.ma = s.ma := by
  have htaken : Taken s { u with rv := { u.rv with committing := s.commitsAfter slot w } } :=
    .pool _ ((Taken.beforeDecision s slot).more hi)
  obtain ⟨-, -, -, -, hma, -⟩ := htaken.port
  obtain ⟨-, -, -, -, -, -, -, hcommits, -⟩ := hi.port
  exact ⟨_, rfl, congrArg (answer s) (recordWrite_accepted h hc hcommits hd), htaken.outside, hma⟩

/-- Settles O37: the acceptance, as the completed record's owner makes it. -/
theorem stationDescriptorsAreAccepted : Obligations.StationDescriptorsAreAccepted := by
  unfold Obligations.StationDescriptorsAreAccepted
  intro s p v w d hc hi hw hr hcode
  have htaken := acceptStation_taken (s.beforeDecision 0) d w
  have hdecide := (decideRecord_station (s := s.beforeDecision 0) hi hw).trans (decideStation_accept hr hcode)
  generalize (s.beforeDecision 0).acceptStation d w = u at htaken hdecide
  obtain ⟨y, hy, hanswer, hout, hma⟩ := record_settled hc (by decide) hdecide htaken.inner
  have hbefore : Effects (s.withStation d) ((s.beforeDecision 0).withStation d) [] [] [] := .same rfl rfl rfl
  have heff := (hbefore.trans htaken.effects).thenSame (u := y) (by rw [hy]) (by rw [hy]) (by rw [hy])
  have hatt : y.ru.attention = y.attentionDue := by rw [hy]; exact htaken.attention
  have hrv : y.settle.rv = { u.rv with committing := s.commitsAfter 0 w } := by rw [(Settled.settle y).rv, hy]
  have hlc : y.settle.lc = u.lc := by rw [(Settled.settle y).lc, hy]
  have hch : y.settle.channels = u.channels := by rw [(Settled.settle y).channels, hy]
  have hup : y.settle.uptime = u.uptime := by rw [(Settled.settle y).uptime, hy]
  have hrt : y.settle.rt = u.rt := by rw [(Settled.settle y).rt, hy]
  have hawake : y.settle.lc.resetAsserted = false := by
    rw [(Settled.settle y).lc, heff.reset]
    exact hc.awake
  refine ⟨_, hanswer, hout, hup.trans htaken.uptime, hrt.trans htaken.rt, fun hd => ?_, fun hd => ?_,
    heff.settle (.inl hma), ?_⟩
  · obtain ⟨hloader, hchannels, hverifier⟩ := htaken.running hd
    exact ⟨hlc.trans hloader, hch.trans hchannels, by rw [hrv, hverifier]; rfl⟩
  · obtain ⟨hloader, hchannels, hverifier⟩ := htaken.fallback hd
    refine ⟨hlc.trans hloader, fun c => ?_, by rw [hrv, hverifier]; rfl⟩
    rw [State.chan, hch]
    exact hchannels c
  · rw [AttentionFollows, (Settled.settle y).attention, (Settled.settle y).attentionDue, hawake, hatt]
    simp

end Sys2Proof.Machine
end

section
/-! PROOFS. The drain completes (R111, R119, R122, R133, R134, R177, R178): the calibrations in progress aborted, channel
by channel, and the reload's first read taken. -/

namespace Sys2Proof.Machine

open Sys2Proof.Safety

/-! ### One channel (R122, R133) -/

/-- The channel, its calibration aborted and the calibration's own stroke treated as by R119. -/
def Channel.aborted (x : Channel) : Channel :=
  { x with
    service := .inService
    cal := calibrationOver .aborted
    seq := if x.seq.kind = some .calibration then leftService x.seq else x.seq }

/-- The channel at the start of a reload: aborted where it was CALIBRATING, the next stroke then begun. -/
def Channel.reloaded (x : Channel) (now : Nat) : Channel :=
  if x.service = .calibrating then
    match x.descriptor with
    | none => x.aborted
    | some d => x.aborted.begun d now
  else x

/-- CALIBRATION_END of the channel's aborted calibration. -/
def abortEvents (s : State) (c : Chan) : List EventRecord :=
  if (s.chan c).service = .calibrating then [eventNow s .calibrationEnd c.val 5 0] else []

/-- CAL_FAIL of the channel's aborted calibration. -/
def abortFlags (s : State) (c : Chan) : List Flag :=
  if (s.chan c).service = .calibrating then [.channel c .calFail] else []

/-- The report of a channel whose calibration is aborted. -/
def abortMarks (s : State) (c : Chan) : List PartSlot :=
  if (s.chan c).service = .calibrating then [.channel c] else []

theorem leave_eq (q : Sequencer) : q.leave = leftService q := by
  unfold Sequencer.leave leftService
  cases q.phase <;> rfl

theorem leaveCalibration_eq (q : Sequencer) :
    q.leaveCalibration = if q.kind = some .calibration then leftService q else q := by
  unfold Sequencer.leaveCalibration
  cases hk : q.kind with
  | none => rfl
  | some k =>
    cases k with
    | ordinary => rfl
    | calibration => rw [if_pos rfl, leave_eq]

theorem ChanStep.aborted (x : Channel) (service : ServiceState) :
    ChanStep { x with cal := calibrationOver .aborted, service := service } x.aborted := by
  refine .seq (fun h => ?_) rfl rfl
  show OutputsFollow { x with seq := if x.seq.kind = some .calibration then leftService x.seq else x.seq }
  split
  · rw [← leave_eq]
    exact outputsFollow_leave h
  · exact h

/-- Without a descriptor no stroke begins (R111). -/
theorem tryBegin_without {s : State} {c : Chan} (hd : (s.chan c).descriptor = none) : s.tryBegin c = s := by
  rw [State.tryBegin, hd]
  split
  · next h => cases h
  · rfl

/-- The test of R111, whether or not a descriptor is in force. -/
theorem tryBegin_reloaded {s : State} {c : Chan} {x : Channel} (hx : x.service = .calibrating)
    (hc : s.chan c = x.aborted) :
    ∃ ks, OfChannel c ks ∧ ChannelOp c s (s.tryBegin c) (x.reloaded s.uptime) [] [] ks := by
  rw [Channel.reloaded, if_pos hx]
  cases hd : x.descriptor with
  | none =>
    rw [tryBegin_without (by rw [hc]; exact hd), ← hc]
    exact ⟨_, .nil c, .refl c s⟩
  | some d =>
    obtain ⟨hon, heff⟩ := tryBegin_law (s := s) (c := c) (d := d) (by rw [hc]; exact hd)
    rw [hc] at hon heff
    exact ⟨_, .ite c _, hon, heff⟩

theorem reloadChannel_calibrating {s : State} {c : Chan} (hs : (s.chan c).service = .calibrating) :
    s.reloadChannel c =
      ((s.endCalibration c .aborted 0 .inService).putChan c (s.chan c).aborted).tryBegin c := by
  rw [State.reloadChannel, hs]
  dsimp only
  rw [(abort_law s c .inService).on.chan, leaveCalibration_eq]
  rfl

theorem reloadChannel_other {s : State} {c : Chan} (hs : (s.chan c).service ≠ .calibrating) :
    s.reloadChannel c = s := by
  rw [State.reloadChannel]
  cases h : (s.chan c).service with
  | calibrating => exact absurd h hs
  | _ => rfl

theorem reloadChannel_law (s : State) (c : Chan) :
    ChannelOp c s (s.reloadChannel c) ((s.chan c).reloaded s.uptime) (abortEvents s c) (abortFlags s c)
      (abortMarks s c) := by
  rw [abortEvents, abortFlags, abortMarks]
  by_cases hs : (s.chan c).service = .calibrating
  · rw [if_pos hs, if_pos hs, if_pos hs, reloadChannel_calibrating hs]
    have hput := (abort_law s c .inService).putChan (s.chan c).aborted (.aborted _ _)
    generalize (s.endCalibration c .aborted 0 .inService).putChan c (s.chan c).aborted = q at hput
    obtain ⟨ks, hks, hbegin⟩ := tryBegin_reloaded hs hput.on.chan
    rw [hput.on.uptime] at hbegin
    exact (hput.trans hbegin).as rfl rfl (fun _ => Iff.rfl) fun k =>
      .inl ((((OfChannel.one c).append (.ite c _)).append hks).is (by simp) k)
  · rw [if_neg hs, if_neg hs, if_neg hs, reloadChannel_other hs, Channel.reloaded, if_neg hs]
    exact .refl c s

/-! ### The channels in turn (R178; log entry 27) -/

/-- The channels of the list l, each once, have been made ready for the reload. -/
structure Reloaded (l : List Chan) (s t : State) : Prop where
  uptime : t.uptime = s.uptime
  lc : t.lc = s.lc
  rv : t.rv = s.rv
  rt : t.rt = s.rt
  done : ∀ c ∈ l, t.chan c = (s.chan c).reloaded s.uptime
  others : ∀ c, c ∉ l → t.chan c = s.chan c
  effects : Effects s t (l.flatMap (abortEvents s)) (l.flatMap (abortFlags s)) (l.flatMap (abortMarks s))

/-- What a channel's abort reports is read off the channel and the time alone. -/
theorem abort_reports_from {s q : State} {c : Chan} (hchan : q.chan c = s.chan c) (htime : q.uptime = s.uptime) :
    abortEvents q c = abortEvents s c ∧ abortFlags q c = abortFlags s c ∧ abortMarks q c = abortMarks s c := by
  simp only [abortEvents, abortFlags, abortMarks, hchan, eventNow, State.count, htime, and_self]

theorem reloadChannels_reloaded {l : List Chan} (hl : l.Nodup) (s : State) :
    Reloaded l s (l.foldl State.reloadChannel s) := by
  induction l generalizing s with
  | nil => exact ⟨rfl, rfl, rfl, rfl, nofun, fun _ _ => rfl, .refl s⟩
  | cons c l ih =>
    obtain ⟨hc, hl⟩ := List.nodup_cons.mp hl
    have hfirst := reloadChannel_law s c
    rw [List.foldl_cons]
    generalize s.reloadChannel c = q at hfirst
    have hrest := ih hl q
    have hsame (k : Chan) (hk : k ∈ l) : q.chan k = s.chan k := hfirst.on.others k fun h => hc (h ▸ hk)
    have hreports (k : Chan) (hk : k ∈ l) := abort_reports_from (hsame k hk) hfirst.on.uptime
    have heff := hfirst.eff.trans hrest.effects
    rw [List.flatMap_congr fun k hk => (hreports k hk).1, List.flatMap_congr fun k hk => (hreports k hk).2.1,
      List.flatMap_congr fun k hk => (hreports k hk).2.2] at heff
    refine ⟨hrest.uptime.trans hfirst.on.uptime, hrest.lc.trans hfirst.on.lc,
      hrest.rv.trans hfirst.on.rv, hrest.rt.trans hfirst.on.rt, fun k hk => ?_, fun k hk => ?_, heff⟩
    · rcases List.mem_cons.mp hk with rfl | hk
      · rw [hrest.others k hc, hfirst.on.chan]
      · rw [hrest.done k hk, hsame k hk, hfirst.on.uptime]
    · obtain ⟨hne, hk⟩ := not_or.mp (fun h => hk (List.mem_cons.mpr h))
      rw [hrest.others k hk, hfirst.on.others k hne]

/-! ### The reload begins (R177, R178) -/

theorem reloadBegun_effects (s : State) : Effects s s.reloadBegun [] [] [.status] := by
  unfold State.reloadBegun
  refine Effects.thenDevice (ks := []) .loading ?_
  exact .same rfl rfl rfl

/-- An idle Memory Agent in LOADING, with no commit queued, takes the read requested (R27, R31). -/
theorem settle_loading {u : State} {k : Slot} (hr : Awake u) (hm : u.ma = none) (hd : u.lc.device = .loading)
    (hc : u.rv.committing = []) (hk : u.lc.loadSlot = some k) :
    u.settle.ma = some ⟨.loadingRead, k, Vector.replicate 16 0, 0⟩ := by
  have htake : u.takeItem.ma = some ⟨.loadingRead, k, Vector.replicate 16 0, 0⟩ := by
    simp only [State.takeItem, hm, State.chooseItem, hd, State.takeLoading, hc, hk]
    rfl
  rw [State.settle, show u.lc.resetAsserted = false from hr, if_neg Bool.false_ne_true, State.arbitrate_ma, htake]

theorem exec_drainComplete {s : State} (hd : s.lc.device = .draining) (hm : s.ma = none)
    (hc : s.rv.committing = []) (hmarks : ∀ k : PartSlot, s.ru.dirty[k] = false) :
    exec .drainComplete s = answer s (s.awake (some s.startReload)) := by
  have hready : s.drainReady = true := (drainReady_iff s).mpr ⟨⟨hd, hm⟩, (drained_iff s).mpr ⟨hc, hmarks⟩⟩
  exact congrArg (fun e => answer s (s.awake e)) (if_pos hready)

/-- Settles O29: the channels in turn, then the Memory Agent's first read. -/
theorem drainsComplete : Obligations.DrainsComplete := by
  unfold Obligations.DrainsComplete
  intro s hw hd hm hc hmarks
  have hfold := reloadChannels_reloaded (List.nodup_finRange 4) s.reloadBegun
  rw [← startReload_eq] at hfold
  have hinner := Inner.startReload (.refl s)
  have heff := (reloadBegun_effects s).trans hfold.effects
  have hexec := exec_drainComplete hd hm hc hmarks
  generalize s.startReload = u at *
  have hs := Settled.settle u
  obtain ⟨-, -, -, -, hma, -⟩ := hinner.port
  rw [hm] at hma
  have hawake : Awake u := heff.reset.trans hw
  have hrep := heff.settle (.inl (hma.trans hm.symm))
  refine ⟨u.settle, ?_, ?_, ?_, ?_, ?_, ?_, hinner.outside, fun c hcal => ?_, ?_, hrep⟩
  · rw [hexec, awake_eq hw]; rfl
  · rw [hs.lc, hfold.lc]; rfl
  · rw [hs.rt, hfold.rt]; rfl
  · rw [hs.rv, hfold.rv]; rfl
  · rw [hs.uptime, hfold.uptime]; rfl
  · exact settle_loading hawake hma (by rw [hfold.lc]; rfl) (by rw [hfold.rv]; exact hc) (by rw [hfold.lc]; rfl)
  · rw [hs.chan, hfold.done c (List.mem_finRange c), Channel.reloaded]
    exact if_neg hcal
  · rintro c d x hcal hdesc rfl
    have hchan : u.settle.chan c = (s.chan c).aborted.begun d s.uptime := by
      rw [hs.chan, hfold.done c (List.mem_finRange c), Channel.reloaded,
        show s.reloadBegun.chan c = s.chan c from rfl, if_pos hcal, hdesc]
      rfl
    rw [hchan]
    exact ⟨rfl, rfl⟩

end Sys2Proof.Machine
end

section
/-! PROOFS. CALIBRATE (R127, R128): the start of a calibration, and the refusals that leave the channel as it is. -/

namespace Sys2Proof.Machine

open Sys2Proof.Safety

/-- In RUNNING a CALIBRATE of a channel, for up to 2^6 strokes, is decided by the service state (R127, R147). -/
theorem calibrate_decided {s : State} {tag a b : Word} {c : Chan} (hd : s.lc.device = .running)
    (ha : a.toNat = c.val) (hb : b.toNat ≤ 6) :
    (s.beforeDecision 17).decideOutcome ⟨tag, 6, a, b⟩ = (s.beforeDecision 17).calibrate c b.toNat := by
  have hA : argumentA 6 a.toNat = true := by simp [argumentA, ha]
  have hB : argumentB 6 b.toNat = true := by simp [argumentB, hb]
  exact (own_run (x := ⟨tag, 6, a, b⟩) hd ⟨by simp, by simp⟩ hA hB).trans (onChan_named ha _)

theorem calibrate_inService {s : State} {c : Chan} (k : Nat) (h : (s.chan c).service = .inService) :
    s.calibrate c k = ⟨.started, 2 ^ k, (s.putChan c ((s.chan c).startCalibration (2 ^ k))).tryBegin c⟩ := by
  rw [State.calibrate, h]

/-- Of a channel that is not IN_SERVICE CALIBRATE changes nothing. -/
theorem calibrate_unchanged {s : State} {c : Chan} (k : Nat) {o : CommandOutcome} {n : Nat}
    (h : (s.chan c).service ≠ .inService)
    (hon : if (s.chan c).service = .calibrating then o = .busy ∧ n = (s.chan c).cal.proven
      else o = .wrongState ∧ n = (s.chan c).service.code) :
    s.calibrate c k = ⟨o, n, s⟩ := by
  unfold State.calibrate
  cases hs : (s.chan c).service with
  | inService => exact absurd hs h
  | calibrating =>
    rw [if_pos hs] at hon
    obtain ⟨rfl, rfl⟩ := hon
    rfl
  | _ =>
    rw [if_neg (by simp [hs]), hs] at hon
    obtain ⟨rfl, rfl⟩ := hon
    rfl

/-- At the start of a calibration a stroke is due, none of the n > 0 being proven (R128). -/
theorem strokeDue_startCalibration (x : Channel) {n : Nat} (h : 0 < n) :
    (x.startCalibration n).strokeDue = some .calibration := by
  simp [Channel.strokeDue, Channel.startCalibration, Channel.calibrationDue, h]

/-- An IDLE sequencer begins the calibration's first stroke, a stroke in progress keeps its course (R111, R127). -/
theorem begun_startCalibration (x : Channel) {n : Nat} (h : 0 < n) (d : ChannelDescriptor) (now : Nat) :
    (x.startCalibration n).begun d now =
      { x with
        service := .calibrating
        cal := ⟨true, n, 0, false, 0, x.cal.lastOutcome, x.cal.lastMeasured⟩
        seq := if x.seq.phase = .idle then Sequencer.begin .calibration d now else x.seq } := by
  rw [Channel.begun, strokeDue_startCalibration x h]
  rfl

/-- The service state is part of the channel's report, which the start of a calibration therefore marks (R163). -/
theorem sameReport_startCalibration {x : Channel} (h : x.service = .inService) (n : Nat) :
    sameReport x (x.startCalibration n) = false := by
  simp [sameReport, Channel.startCalibration, h]

/-- A channel IN_SERVICE starts a calibration of n > 0 strokes and takes the test of R111 (R127). -/
theorem startCalibration_law {s : State} {c : Chan} {d : ChannelDescriptor} {n : Nat} (hn : 0 < n)
    (hd : (s.chan c).descriptor = some d) (hs : (s.chan c).service = .inService) :
    ChannelOp c s ((s.putChan c ((s.chan c).startCalibration n)).tryBegin c)
      { s.chan c with
        service := .calibrating
        cal := ⟨true, n, 0, false, 0, (s.chan c).cal.lastOutcome, (s.chan c).cal.lastMeasured⟩
        seq := if (s.chan c).seq.phase = .idle then Sequencer.begin .calibration d s.uptime else (s.chan c).seq }
      [] [] [.channel c] := by
  have hput := (ChannelOp.refl c s).putChan ((s.chan c).startCalibration n) (.other rfl rfl rfl)
  rw [sameReport_startCalibration hs] at hput
  generalize s.putChan c ((s.chan c).startCalibration n) = q at hput
  obtain ⟨hon, heff⟩ := tryBegin_law (hput.descriptor (d := d) hd)
  rw [hput.on.chan, hput.on.uptime] at hon heff
  rw [← begun_startCalibration _ hn]
  exact (hput.trans ⟨hon, heff⟩).as rfl rfl (fun _ => Iff.rfl) fun k =>
    .inl (((OfChannel.one c).append (.ite c _)).is (by simp) k)

/-- Settles O46: CALIBRATE by the service state it finds. -/
theorem calibrateCompletes : Obligations.CalibrateCompletes := by
  unfold Obligations.CalibrateCompletes
  intro s tag ch k p c h hd hc hk
  have hdecide := calibrate_decided (tag := tag) hd hc hk
  refine ⟨fun d hs hdesc => ?_, fun o n hs hon => ?_⟩
  · exact command_channel h (hdecide.trans (calibrate_inService k.toNat hs))
      (startCalibration_law (s := s.beforeDecision 17) (Nat.two_pow_pos k.toNat) hdesc hs)
  · exact command_nothing h (hdecide.trans (calibrate_unchanged k.toNat hs hon))

end Sys2Proof.Machine
end

section
/-! PROOFS. CHANNEL_DESCRIPTOR accepted by a channel that has one in force (R98, R105, R111, R142, R143). -/

namespace Sys2Proof.Machine

open Sys2Proof.Safety

/-! ### What is reported -/

theorem sameReport_symm {x y : Channel} (h : sameReport x y = true) : sameReport y x = true := by
  simp only [sameReport, decide_eq_true_eq] at h ⊢
  simp [h]

/-- Two operations in turn mark the report exactly where it has changed over both, where none of its fields goes back to
its former value (R163). -/
theorem ChannelOp.transReported {c : Chan} {s t u : State} {x y : Channel} {es es' : List EventRecord}
    {fs fs' : List Flag} (h : ChannelOp c s t x es fs (if sameReport (s.chan c) x then [] else [.channel c]))
    (k : ChannelOp c t u y es' fs' (if sameReport x y then [] else [.channel c]))
    (hfields : sameReport (s.chan c) y = true → sameReport (s.chan c) x = true) :
    ChannelOp c s u y (es ++ es') (fs ++ fs') (if sameReport (s.chan c) y then [] else [.channel c]) :=
  (h.trans k).as rfl rfl (fun _ => Iff.rfl) fun m =>
    .inl (report_split (fun hy => ⟨hfields hy, sameReport_trans (sameReport_symm (hfields hy)) hy⟩) m)

/-- DEFICIT_STARTED of a change of quantum, where the deficit has risen from 0 (R99, R103). -/
def deficitEvents (s : State) (c : Chan) (x y : Channel) : List EventRecord :=
  if x.deficit = 0 ∧ 0 < y.deficit then [eventNow s .deficitStarted c.val 12 y.deficit] else []

/-- The flag that goes with DEFICIT_STARTED (R99). -/
def deficitFlags (c : Chan) (x y : Channel) : List Flag :=
  if x.deficit = 0 ∧ 0 < y.deficit then [.channel c .deficit] else []

theorem demandEvents_eq {s t : State} {c : Chan} {d : ChannelDescriptor} (hd : (t.chan c).descriptor = some d) :
    demandEvents s t c 12 =
      deficitEvents s c (s.chan c) (t.chan c) ++ lineEvents s c d (s.chan c) (t.chan c) := by
  rw [demandEvents, hd]
  rfl

theorem demandFlags_eq (s t : State) (c : Chan) :
    demandFlags s t c = deficitFlags c (s.chan c) (t.chan c) ++ lineFlags c (s.chan c) (t.chan c) := rfl

/-- A deficit that stays reports nothing. -/
theorem deficit_silent (s : State) (c : Chan) {x y : Channel} (h : y.deficit = x.deficit) :
    deficitEvents s c x y = [] ∧ deficitFlags c x y = [] := by
  have hnot : ¬(x.deficit = 0 ∧ 0 < y.deficit) := by omega
  exact ⟨if_neg hnot, if_neg hnot⟩

/-- A restrict line that stays reports nothing. -/
theorem line_silent (s : State) (c : Chan) (d : ChannelDescriptor) {x y : Channel} (h : y.restrict = x.restrict) :
    lineEvents s c d x y = [] ∧ lineFlags c x y = [] := by
  rw [lineEvents, lineFlags, h]
  cases x.restrict <;> simp

/-! ### The quantum (R98, R103, R143) -/

/-- The crossings counted and the residue left: by the new quantum where the nominal displacement changes (R103). -/
def Channel.recount (x : Channel) (o d : ChannelDescriptor) : Nat × Nat :=
  if o.nominal = d.nominal then (0, x.residue) else (x.residue / (d.nominal * 1000), x.residue % (d.nominal * 1000))

/-- The channel with the descriptor d in place of o: the working displacement is the nominal where that changed. -/
def Channel.renominated (x : Channel) (o d : ChannelDescriptor) : Channel :=
  { x with descriptor := some d, working := if o.nominal = d.nominal then x.working else d.nominal }

/-- A working displacement that is the final one shows in the final report (R163). -/
theorem sameReport_of_working {x y : Channel} {n : Nat} (hn : y.working = n) (h : sameReport x y = true) :
    sameReport x { x with working := n } = true := by
  simp only [sameReport, decide_eq_true_eq] at h
  obtain ⟨-, -, -, -, hworking, -⟩ := h
  simp [sameReport, Channel.nominal, hworking, hn]

/-- A nominal displacement that is the final one shows in the final report (R163). -/
theorem sameReport_of_descriptor {x y : Channel} {d : ChannelDescriptor} (hd : y.descriptor = some d)
    (h : sameReport x y = true) : sameReport x { x with descriptor := some d } = true := by
  have hy : y.nominal = d.nominal := by rw [Channel.nominal, hd]
  have hx : ({ x with descriptor := some d } : Channel).nominal = d.nominal := rfl
  simp only [sameReport, decide_eq_true_eq] at h ⊢
  obtain ⟨-, -, -, -, -, hnominal, -⟩ := h
  simp [hnominal, hy, hx]

/-- A changed nominal displacement is the working one, the residue counted against its quantum (R98, R103). -/
theorem takeNominal_reported (s : State) (c : Chan) (d : ChannelDescriptor) :
    ∃ y, ChannelOp c s (s.takeNominal c d) y (deficitEvents s c (s.chan c) y) (deficitFlags c (s.chan c) y)
        (if sameReport (s.chan c) y then [] else [.channel c]) ∧
      Distributed { s.chan c with working := d.nominal } y ((s.chan c).residue / (d.nominal * 1000))
        ((s.chan c).residue % (d.nominal * 1000)) ∧
      y.restrict = (s.chan c).restrict ∧ y.seq = (s.chan c).seq := by
  have hput := (ChannelOp.refl c s).putChan { s.chan c with working := d.nominal } (.other rfl rfl rfl)
  rw [State.takeNominal]
  generalize s.putChan c { s.chan c with working := d.nominal } = q at hput
  obtain ⟨y, hop, hdis, hline, hseq⟩ := countCrossings_law q c 12
  rw [hput.on.chan, hput.on.eventNow] at hop
  rw [hput.on.chan] at hdis hline hseq
  have hworking : y.working = d.nominal := by rw [hdis]
  exact ⟨y, hput.transReported hop (sameReport_of_working hworking), hdis, hline, hseq⟩

/-- The descriptor in force and its quantum; a nominal displacement that stays changes nothing else (R143). -/
theorem renominated_reported (s : State) (c : Chan) (o d : ChannelDescriptor) :
    ∃ y, ChannelOp c s (s.renominated c o d) y (deficitEvents s c (s.chan c) y) (deficitFlags c (s.chan c) y)
        (if sameReport (s.chan c) y then [] else [.channel c]) ∧
      Distributed ((s.chan c).renominated o d) y ((s.chan c).recount o d).1 ((s.chan c).recount o d).2 ∧
      y.restrict = (s.chan c).restrict ∧ y.seq = (s.chan c).seq := by
  have hput := (ChannelOp.refl c s).putChan { s.chan c with descriptor := some d } (.other rfl rfl rfl)
  rw [State.renominated, State.putDescriptor]
  generalize s.putChan c { s.chan c with descriptor := some d } = q at hput
  by_cases hn : o.nominal = d.nominal
  · obtain ⟨hevents, hflags⟩ :=
      deficit_silent s c (x := s.chan c) (y := { s.chan c with descriptor := some d }) rfl
    refine ⟨{ s.chan c with descriptor := some d }, ?_, ?_, rfl, rfl⟩
    · rw [if_pos hn, hevents, hflags]
      exact hput
    · simp [Distributed, Channel.renominated, Channel.recount, hn]
  · obtain ⟨y, hop, hdis, hline, hseq⟩ := takeNominal_reported q c d
    rw [hput.on.chan] at hop hdis hline hseq
    simp only [Channel.renominated, Channel.recount, if_neg hn]
    have hdesc : y.descriptor = some d := by rw [hdis]
    refine ⟨y, (hput.transReported hop (sameReport_of_descriptor hdesc)).as rfl ?_ (fun _ => Iff.rfl)
      fun _ => .inl Iff.rfl, hdis, hline, hseq⟩
    rw [deficitEvents, deficitEvents, hput.on.eventNow]
    rfl

/-! ### The miss window (R143) -/

/-- The window counts after the descriptor d in place of o: 0 where W or M changed (R143). -/
def Channel.rewindowed (x : Channel) (o d : ChannelDescriptor) : Channel :=
  { x with
    attempts := if o.missWindow = d.missWindow ∧ o.missLimit = d.missLimit then x.attempts else 0
    misses := if o.missWindow = d.missWindow ∧ o.missLimit = d.missLimit then x.misses else 0 }

theorem rewindow_law (s : State) (c : Chan) (o d : ChannelDescriptor) :
    ChannelOp c s (if o.missWindow = d.missWindow ∧ o.missLimit = d.missLimit then s else s.clearWindow c)
      ((s.chan c).rewindowed o d) [] []
      (if sameReport (s.chan c) ((s.chan c).rewindowed o d) then [] else [.channel c]) := by
  by_cases hw : o.missWindow = d.missWindow ∧ o.missLimit = d.missLimit
  · have hkept : (s.chan c).rewindowed o d = s.chan c := by simp only [Channel.rewindowed, if_pos hw]
    rw [if_pos hw, hkept, sameReport_refl]
    exact .refl c s
  · have hcleared : (s.chan c).rewindowed o d = { s.chan c with attempts := 0, misses := 0 } := by
      simp only [Channel.rewindowed, if_neg hw]
    rw [if_neg hw, hcleared]
    exact clearWindow_law s c

/-- Window counts that are 0 in the end show in the final report (R163). -/
theorem sameReport_of_rewindowed {x y : Channel} {o d : ChannelDescriptor} (hattempts : y.attempts = x.attempts)
    (hmisses : y.misses = x.misses) (h : sameReport x (y.rewindowed o d) = true) : sameReport x y = true := by
  simp only [sameReport, decide_eq_true_eq] at h ⊢
  obtain ⟨hservice, hphase, houtcome, hmeasured, hworking, hnominal, hresidue, -, -, hrest⟩ := h
  exact ⟨hservice, hphase, houtcome, hmeasured, hworking, hnominal, hresidue, hattempts.symm, hmisses.symm, hrest⟩

/-- The effects of a later descriptor up to the evaluation of the line (R143). -/
theorem reconfigured_reported (s : State) (c : Chan) (o d : ChannelDescriptor) :
    ∃ y, ChannelOp c s (s.reconfigured c o d) y (deficitEvents s c (s.chan c) y) (deficitFlags c (s.chan c) y)
        (if sameReport (s.chan c) y then [] else [.channel c]) ∧
      Distributed (((s.chan c).renominated o d).rewindowed o d) y ((s.chan c).recount o d).1
        ((s.chan c).recount o d).2 ∧
      y.restrict = (s.chan c).restrict ∧ y.seq = (s.chan c).seq := by
  obtain ⟨y, hnominal, hdis, hline, hseq⟩ := renominated_reported s c o d
  rw [State.reconfigured]
  generalize s.renominated c o d = q at hnominal
  have hwindow := rewindow_law q c o d
  rw [hnominal.on.chan] at hwindow
  have hattempts : y.attempts = (s.chan c).attempts := by rw [hdis]; rfl
  have hmisses : y.misses = (s.chan c).misses := by rw [hdis]; rfl
  have hall := hnominal.transReported hwindow (sameReport_of_rewindowed hattempts hmisses)
  refine ⟨y.rewindowed o d, hall.as rfl ?_ ?_ fun _ => .inl Iff.rfl, ?_, hline, hseq⟩
  · exact (List.append_nil _).symm
  · intro f
    rw [List.append_nil]
    rfl
  · rw [Distributed, hdis]
    rfl

/-! ### The line and the sequencer's test (R105, R111, R143) -/

/-- The line is no field of the report, and a stroke that has begun shows in its phase (R163). -/
theorem sameReport_of_begun {x y : Channel} {d : ChannelDescriptor} {now : Nat} (hseq : y.seq = x.seq)
    (h : sameReport x ((y.lineSet d).begun d now) = true) : sameReport x y = true := by
  simp only [sameReport, decide_eq_true_eq] at h ⊢
  obtain ⟨hservice, -, hrest⟩ := h
  exact ⟨hservice, by rw [hseq], hrest⟩

/-- What a later descriptor is followed by: where the owed count and both marks stay nothing, else the line on the new
marks and the sequencer's test (R105, R111). -/
def FollowsMarks (o d : ChannelDescriptor) (now : Nat) (x y : Channel) : Prop :=
  if y.owed = x.owed ∧ o.highMark = d.highMark ∧ o.lowMark = d.lowMark
    then y.restrict = x.restrict ∧ y.seq = x.seq else LineFollows d x.restrict y ∧ Begins d now x y

/-- All the effects of a later descriptor (R143), in the statements' words. -/
theorem reconfigure_law {s t : State} {c : Chan} {o d : ChannelDescriptor} (ht : t = s.reconfigure c o d) :
    ChannelOp c s t (t.chan c) (demandEvents s t c 12) (demandFlags s t c)
        (if sameReport (s.chan c) (t.chan c) then [] else [.channel c]) ∧
      Distributed (((s.chan c).renominated o d).rewindowed o d) (t.chan c) ((s.chan c).recount o d).1
        ((s.chan c).recount o d).2 ∧
      FollowsMarks o d s.uptime (s.chan c) (t.chan c) := by
  obtain ⟨y, hop, hdis, hline, hseq⟩ := reconfigured_reported s c o d
  have hd : y.descriptor = some d := by rw [hdis]; rfl
  rw [reconfigure_eq] at ht
  generalize s.reconfigured c o d = q at hop ht
  rw [hop.on.chan] at ht
  by_cases hsame : y.owed = (s.chan c).owed ∧ o.highMark = d.highMark ∧ o.lowMark = d.lowMark
  · rw [if_pos hsame] at ht
    subst ht
    obtain ⟨hevents, hflags⟩ := line_silent s c d hline
    rw [demandEvents_eq (hop.descriptor hd), demandFlags_eq, hop.on.chan, hevents, hflags, List.append_nil,
      List.append_nil, FollowsMarks, if_pos hsame]
    exact ⟨hop, hdis, hline, hseq⟩
  · rw [if_neg hsame] at ht
    obtain ⟨hon, heff⟩ := owedChanged_law (hop.descriptor hd)
    rw [← ht] at hon heff
    rw [hop.on.chan, hop.on.uptime] at hon heff
    have hchan := hon.chan
    have hall := hop.transReported ⟨hon, heff⟩ (sameReport_of_begun hseq)
    rw [demandEvents_eq (by rw [hchan]; exact hd), demandFlags_eq, hchan]
    refine ⟨hall.as rfl ?_ (fun f => ?_) fun _ => .inl Iff.rfl, ?_, ?_⟩
    · simp only [hop.on.eventNow, hline]
      rfl
    · rw [hline]
      rfl
    · simp only [Distributed] at hdis ⊢
      rw [hdis]
      rfl
    · rw [FollowsMarks, show ((y.lineSet d).begun d s.uptime).owed = y.owed from rfl, if_neg hsame]
      constructor
      · rw [← hline]; rfl
      · rw [Begins, ← hseq]; rfl

/-! ### The acceptance (R136, R142) -/

/-- Only an OUT_OF_SERVICE or UNCONFIGURED channel takes a change of a physics field (R142). -/
theorem configState_passes {x : Channel} {o d : ChannelDescriptor} (ho : x.descriptor = some o)
    (h : PhysicsChange o d → x.service = .outOfService ∨ x.service = .unconfigured) : x.configState d = false := by
  rw [Channel.configState, ho]
  by_cases hp : PhysicsChange o d
  · rcases h hp with hs | hs <;> simp [hs, ServiceState.physicsBarred]
  · simp [mt (physics_iff o d).mp hp]

theorem acceptChannel_later {s : State} {c : Chan} {o : ChannelDescriptor} (ho : (s.chan c).descriptor = some o)
    (d : ChannelDescriptor) (w : Record) : s.acceptChannel c d w =
      (s.reconfigure c o d).raise .descriptorApplied (channelDescriptorSlot c).val (channelChanges (some o) d)
        w[15].toNat := by
  rw [State.acceptChannel, ho]

/-- The acceptance of a later descriptor (R136, R143), in the statements' words. -/
theorem acceptChannel_law {s t : State} {c : Chan} {o d : ChannelDescriptor} {w : Record}
    (ho : (s.chan c).descriptor = some o) (ht : t = s.acceptChannel c d w) :
    ChannelOp c s t (t.chan c)
        (demandEvents s t c 12 ++
          [eventNow s .descriptorApplied (1 + c.val) (channelChanges (some o) d) w[15].toNat])
        (demandFlags s t c) (if sameReport (s.chan c) (t.chan c) then [] else [.channel c]) ∧
      Distributed (((s.chan c).renominated o d).rewindowed o d) (t.chan c) ((s.chan c).recount o d).1
        ((s.chan c).recount o d).2 ∧
      FollowsMarks o d s.uptime (s.chan c) (t.chan c) := by
  rw [acceptChannel_later ho] at ht
  obtain ⟨hop, hdis, hfollow⟩ := reconfigure_law (t := s.reconfigure c o d) rfl
  generalize s.reconfigure c o d = q at *
  have hraise := hop.raise .descriptorApplied (channelDescriptorSlot c).val (channelChanges (some o) d) w[15].toNat
  rw [← ht] at hraise
  have hchan := hraise.on.chan
  rw [demandEvents_chan hchan, demandFlags_chan hchan, hchan]
  exact ⟨hraise, hdis, hfollow⟩

/-- Settles O39: the descriptor's effects, as the completed record's owner makes them. -/
theorem channelDescriptorsReconfigure : Obligations.ChannelDescriptorsReconfigure := by
  unfold Obligations.ChannelDescriptorsReconfigure
  intro s c p v w o d hc hi hw hr ho hphysics
  obtain ⟨hop, hdis, hfollow⟩ :=
    acceptChannel_law (s := s.beforeDecision (channelDescriptorSlot c)) (d := d) (w := w) ho rfl
  have hdecide := chan_accept (s := s.beforeDecision (channelDescriptorSlot c)) hr (configState_passes ho hphysics)
  obtain ⟨t, hanswer, hout, htime, hlc, hrt, hrv, hchan, hother, hrep⟩ :=
    record_channel hc (channelSlot_class c) ((decideRecord_channel hi hw).trans hdecide) hop
  rw [← hchan] at hdis hfollow
  refine ⟨t, ((s.chan c).renominated o d).rewindowed o d, hanswer, hout, htime, hlc, hrt, hrv, hother, rfl,
    fun hn => ?_, fun hn => ?_, hfollow, ?_⟩
  · rw [Channel.recount, if_pos hn] at hdis
    exact hdis
  · rw [Channel.recount, if_neg hn] at hdis
    exact hdis
  · rw [demandEvents_from (q := s.beforeDecision (channelDescriptorSlot c)) (s := s) rfl rfl rfl,
      demandFlags_from (q := s.beforeDecision (channelDescriptorSlot c)) (s := s) rfl rfl,
      demandEvents_chan hchan.symm, demandFlags_chan hchan.symm, ← hchan] at hrep
    exact hrep

end Sys2Proof.Machine
end

section
/-! PROOFS. The commands answered before they execute: lines 1 to 4 of the order of R147. -/

namespace Sys2Proof.Machine

open Sys2Proof.Safety

/-- The executor's test of argument A is the table of R147, for each of the nine codes. -/
theorem argumentA_iff {code : Nat} (hcode : 1 ≤ code ∧ code ≤ 9) (a : Nat) :
    argumentA code a = true ↔ SuitsA code a := by
  obtain ⟨hlow, hhigh⟩ := hcode
  interval_cases code <;> simp [argumentA, SuitsA] <;> omega

/-- The executor's test of argument B is the table of R147, for each of the nine codes. -/
theorem argumentB_iff {code : Nat} (hcode : 1 ≤ code ∧ code ≤ 9) (b : Nat) :
    argumentB code b = true ↔ SuitsB code b := by
  obtain ⟨hlow, hhigh⟩ := hcode
  interval_cases code <;> simp [argumentB, SuitsB]

/-- The first of lines 1 to 4 that applies is the whole outcome: nothing of the command's own is done (R147). -/
theorem decideOutcome_unsuitable {s : State} {x : CommandFields} {o : CommandOutcome} {n : Nat}
    (h : Unsuitable s x.code.toNat x.a.toNat x.b.toNat o n) : s.decideOutcome x = ⟨o, n, s⟩ := by
  rw [State.decideOutcome]
  rcases h with ⟨hcode, rfl, rfl⟩ | ⟨hcode, ha, rfl, rfl⟩ | ⟨hcode, ha, hb, rfl, rfl⟩ |
    ⟨hcode, ha, hb, hdevice, hcapture, hrestart, rfl, rfl⟩
  · rw [if_pos hcode]
    rfl
  · rw [← argumentA_iff hcode, Bool.not_eq_true] at ha
    rw [if_neg (not_not.mpr hcode), if_pos ha]
    rfl
  · rw [← argumentA_iff hcode] at ha
    rw [← argumentB_iff hcode, Bool.not_eq_true] at hb
    rw [if_neg (not_not.mpr hcode), if_neg (by simp [ha]), if_pos hb]
    rfl
  · rw [← argumentA_iff hcode] at ha
    rw [← argumentB_iff hcode] at hb
    rw [if_neg (not_not.mpr hcode), if_neg (by simp [ha]), if_neg (by simp [hb]),
      if_pos ⟨hdevice, hcapture, hrestart⟩]
    rfl

/-- Settles O50: the outcome decided by lines 1 to 4, and the command answered with it. -/
theorem unsuitableCommandsAreAnswered : Obligations.UnsuitableCommandsAreAnswered := by
  unfold Obligations.UnsuitableCommandsAreAnswered
  intro s tag code a b p o n h hu
  exact command_nothing h (decideOutcome_unsuitable (s := s.beforeDecision 17) (x := ⟨tag, code, a, b⟩) hu)

end Sys2Proof.Machine
end

section
/-! PROOFS. The attention line (R139, R157, R159, R161): every update of the latched flags or of the mask evaluates it, and
RESET_n holds it deasserted. -/

namespace Sys2Proof.Machine

open Sys2Proof.Safety

/-- With RESET_n deasserted the line shows the latches and the mask alone (R161). -/
theorem attentionFollows_iff {s : State} (hw : s.lc.resetAsserted = false) :
    AttentionFollows s ↔ s.ru.attention = s.attentionDue := by
  rw [AttentionFollows, hw, Bool.not_false, Bool.and_true]

/-- The empty set has no flag in any group. -/
theorem anyIn_none (e : FlagWords) : anyIn FlagWords.none e = false := by simp [anyIn, FlagWords.none]

namespace AttentionKept
variable {s t : State}

/-- What leaves the Report Unit and the Load Controller alone leaves the line in step. -/
theorem keep (h : AttentionFollows s) (hru : t.ru = s.ru) (hlc : t.lc = s.lc) : AttentionFollows t := by
  simpa only [AttentionFollows, State.attentionDue, State.attentionMask, hru, hlc] using h

/-- The Memory Agent's choice and the grant touch neither the line, nor the latches, nor the mask. -/
theorem settled (hs : Settled s t) (h : AttentionFollows s) : AttentionFollows t := by
  rw [AttentionFollows, hs.attention, hs.attentionDue, hs.lc]
  exact h

/-- Whatever a command does beside the port, with RESET_n deasserted, it evaluates the line where it has to (R161). -/
theorem outer (hw : s.lc.resetAsserted = false) (ho : Outer s t) (h : AttentionFollows s) : AttentionFollows t := by
  obtain ⟨_, _, _, _, hr, _, _⟩ := ho.port
  exact (attentionFollows_iff (hr.trans hw)).mpr (ho.attention ((attentionFollows_iff hw).mp h))

theorem runCycle (m : MemCycle) (h : AttentionFollows s) : AttentionFollows (s.runCycle m) :=
  keep h (runCycle_blocks s m).2 (s.runCycle_lc m)

/-- RESET_n asserted, the line is deasserted whatever is latched (R168). -/
theorem assertReset (s : State) : AttentionFollows s.assertReset := (Bool.and_false _).symm

/-- At the release no flag is latched (R157, R168), so that nothing asserts the line. -/
theorem afterRelease (s : State) (gb : BitVec 4) (sc : BitVec 6) : AttentionFollows (s.afterRelease gb sc) := by
  have nothingDue : (s.afterRelease gb sc).attentionDue = false := anyIn_none _
  exact (attentionFollows_iff rfl).mpr nothingDue.symm

end AttentionKept

/-- Settles O9: each kind of update a step is made of keeps the attention line in step. -/
theorem attentionFollowsTheLatches : Obligations.AttentionFollowsTheLatches := by
  unfold Obligations.AttentionFollowsTheLatches
  intro s t hs h
  exact step_keeps (P := AttentionFollows)
    (hset := fun _ _ => AttentionKept.settled)
    (hout := fun _ _ => AttentionKept.outer)
    (hcp := fun _ _ h => AttentionKept.keep h rfl rfl)
    (hcyc := fun _ => AttentionKept.runCycle)
    (hass := fun _ _ => AttentionKept.assertReset _)
    (hrel := fun _ _ _ _ => AttentionKept.afterRelease _ _ _)
    (hown := fun _ _ _ _ h => AttentionKept.keep h rfl rfl) hs h

end Sys2Proof.Machine
end

section
/-! PROOFS. The pending set (R30, R158): a status rewrite begins with the flags its snapshot shows, the flags only leave
the set while the rewrite writes those words, and its end empties it. -/

namespace Sys2Proof.Machine

open Sys2Proof.Safety

/-- The item is a rewrite of the status record that shows the flag. -/
def ShowsFlag (x : Item) (f : Flag) : Prop :=
  x.kind = .rewrite ∧ x.slot = 19 ∧ (x.words[f.word.val + 2]?.getD 0).getLsbD f.bit = true

theorem pendingFollows_iff {s : State} :
    PendingFollows s ↔ (Awake s → ∀ f, s.ru.pendingShown.has f = true → ∃ x, s.ma = some x ∧ ShowsFlag x f) := Iff.rfl

/-- The rewrite of the status record, begun from a state with the flag latched, shows it (R158, R182). -/
theorem showsFlag_snapshot {s : State} {f : Flag} (hf : s.ru.latched.has f = true) :
    ShowsFlag ⟨.rewrite, PartSlot.status.slot, s.snapshot .status, 0⟩ f := by
  obtain ⟨_, _, hbits, _⟩ := statusRecord_words (snapshot_status s).symm
  exact ⟨rfl, rfl, (hbits f).trans hf⟩

/-- A rewrite's words stay as its snapshot took them, whatever word has been written (R30). -/
theorem ShowsFlag.advance {x : Item} {f : Flag} (h : ShowsFlag x f) (v : Word) : ShowsFlag (x.advance v) f := by
  obtain ⟨hkind, hslot, hbit⟩ := h
  have hwords : (x.advance v).words = x.words := by simp [Item.advance, hkind, ItemKind.writes]
  exact ⟨hkind, hslot, by rw [hwords]; exact hbit⟩

/-- An item that ends adds no flag to the pending set, and a status rewrite leaves none in it (R158). -/
theorem pendingShown_itemDone {s : State} {x : Item} {f : Flag} (hf : (s.itemDone x).ru.pendingShown.has f = true) :
    s.ru.pendingShown.has f = true ∧ ¬(x.kind = .rewrite ∧ x.slot = 19) := by
  cases hk : x.kind with
  | commit =>
    simp only [State.itemDone, hk] at hf
    exact ⟨hf, fun h => by cases h.1⟩
  | eventAppend =>
    simp only [State.itemDone, hk] at hf
    exact ⟨hf, fun h => by cases h.1⟩
  | rewrite =>
    simp only [State.itemDone, hk, State.rewriteDone] at hf
    split at hf
    · rw [FlagWords.has_none] at hf
      cases hf
    · rename_i hs
      exact ⟨hf, fun h => hs (congrArg Fin.val h.2)⟩
  | loadingRead =>
    simp only [State.itemDone, hk] at hf
    exact ⟨(Inner.takeLoad _ _ (.refl s)).pendingShown f hf, fun h => by cases h.1⟩

namespace PendingKept
variable {s t : State}

/-- While the current item and the reset line stay, flags may leave the pending set. -/
theorem keep (h : PendingFollows s) (hr : t.lc.resetAsserted = s.lc.resetAsserted) (hm : t.ma = s.ma)
    (hp : ∀ f, t.ru.pendingShown.has f = true → s.ru.pendingShown.has f = true) : PendingFollows t := by
  intro hw f hf
  rw [hm]
  exact h (hr.symm.trans hw) f (hp f hf)

/-- With no flag pending nothing need be under write. -/
theorem empty (h : ∀ f, t.ru.pendingShown.has f = false) : PendingFollows t := fun _ f hf => by
  rw [h f] at hf
  cases hf

theorem inner (h : PendingFollows s) (hi : Inner s t) : PendingFollows t := by
  obtain ⟨_, _, _, _, hm, _, _, _, hr, _, _⟩ := hi.port
  exact keep h hr hm hi.pendingShown

/-! ### The Memory Agent and the Port Arbiter go on -/

/-- An idle Memory Agent leaves no flag pending, but where it begins the status record's rewrite (R158). -/
theorem takeItem (h : PendingFollows s) : PendingFollows s.takeItem := by
  cases hm : s.ma with
  | some x =>
    rw [State.takeItem_busy hm]
    exact h
  | none =>
    intro hw f hf
    rw [(State.takeItem_chosen hm).pendingShown] at hf
    split at hf
    · rename_i hbegun
      exact ⟨_, hbegun, showsFlag_snapshot hf⟩
    · rw [Awake, (Settled.takeItem s).lc] at hw
      obtain ⟨x, hx, _⟩ := h hw f hf
      rw [hm] at hx
      cases hx

theorem arbitrate (h : PendingFollows s) : PendingFollows s.arbitrate :=
  keep h (congrArg Loader.resetAsserted (Settled.arbitrate s).lc) s.arbitrate_ma fun f hf => by
    rwa [s.arbitrate_dirty] at hf

theorem settle (h : PendingFollows s) : PendingFollows s.settle := by
  unfold State.settle
  split
  · exact h
  · exact arbitrate (takeItem h)

theorem after (h : PendingFollows s) (ha : After s t) : PendingFollows t := by
  cases ha with
  | settle => exact settle h
  | decided hr => exact settle (s := { s with freeUsed := s.freeUsed + 1 }) h
  | opened hr => exact takeItem (s := { s with freeUsed := s.freeUsed + 1 }) h

/-! ### The events at the port -/

/-- A word taken or refused only takes flags from the pending set: those it latches (R157, R158). -/
theorem beginCycle (h : PendingFollows s) (a : Addr) (op : BusOp) : PendingFollows (s.beginCycle a op) := by
  unfold State.beginCycle
  split
  · exact h
  · rename_i k p v _
    have ht := Taken.handWord s k p v
    obtain ⟨_, _, _, _, hm, _, _, hr, _, _⟩ := ht.port
    exact keep h hr hm ht.pendingShown
  · exact inner h (.refuseAtPort _ _ _ (.refl s))

theorem runCycle (h : PendingFollows s) (m : MemCycle) : PendingFollows (s.runCycle m) :=
  keep h (congrArg Loader.resetAsserted (s.runCycle_lc m)) (s.runCycle_ma m) fun f hf => by
    rwa [(runCycle_blocks s m).2] at hf

/-- An item that ends leaves no flag pending: one that is pending is of a status rewrite, whose end empties the set. -/
theorem itemEnds (h : PendingFollows s) (hw : Awake s) {x : Item} (hx : s.ma = some x) (v : Word) :
    PendingFollows (({ s with ma := none } : State).itemDone (x.advance v)) := by
  intro _ f hf
  obtain ⟨hpending, hother⟩ := pendingShown_itemDone hf
  obtain ⟨y, hy, hkind, hslot, _⟩ := h hw f hpending
  rw [hx] at hy
  cases hy
  exact absurd ⟨hkind, hslot⟩ hother

/-- The Memory Agent's word completes: the rewrite goes on with the same words, or the item ends. -/
theorem agentWord (h : PendingFollows s) (hw : Awake s) (v : Word) : PendingFollows (s.agentWord v) := by
  unfold State.agentWord
  split
  · exact h
  · rename_i x hx
    split
    · intro _ f hf
      obtain ⟨y, hy, hshows⟩ := pendingFollows_iff.mp h hw f hf
      rw [hx] at hy
      cases hy
      exact ⟨_, rfl, hshows.advance v⟩
    · exact itemEnds h hw hx v

theorem endCycle (h : PendingFollows s) (op : BusOp) (v : Word) : PendingFollows (s.endCycle op v) := by
  unfold State.endCycle
  split <;> exact h

/-- A read of the status record clears latches and shown flags, and leaves the pending set (R159). -/
theorem reportRead (h : PendingFollows s) (a : Addr) (op : BusOp) (v : Word) : PendingFollows (s.reportRead a op v) := by
  unfold State.reportRead
  split
  · split
    · exact inner h (.statusReadDone _ _ (.refl s))
    · exact h
  · exact h
  · exact h

theorem finishCycle (h : PendingFollows s) (m : MemCycle) : PendingFollows (s.finishCycle m) := by
  cases hr : s.lc.resetAsserted with
  | true =>
    rw [finishCycle_reset m hr]
    exact runCycle h m
  | false =>
    have hw : Awake (s.runCycle m) := (congrArg Loader.resetAsserted (s.runCycle_lc m)).trans hr
    unfold State.finishCycle
    rw [hr]
    cases m.requester with
    | agent => exact agentWord (runCycle h m) hw _
    | controller => exact reportRead (endCycle (runCycle h m) _ _) _ _ _

/-- At the release no flag is pending (R166, R168). -/
theorem resetRelease (s : State) (gb : BitVec 4) (sc : BitVec 6) : PendingFollows (s.resetRelease gb sc) := by
  have h : PendingFollows (s.underReset.afterRelease gb sc) := empty FlagWords.has_none
  unfold State.resetRelease State.retake
  split
  · exact h
  · generalize s.underReset.afterRelease gb sc = v at h
    have hused : PendingFollows { v with freeUsed := v.freeUsed + 1 } := h
    dsimp only
    split
    · exact beginCycle hused _ _
    · exact beginCycle (settle hused) _ _

theorem event (h : PendingFollows s) (he : Event s t) : PendingFollows t := by
  cases he with
  | blocks hr hi => exact inner h hi
  | stopped a op hr => exact h
  | begins a op hc hr => exact beginCycle h a op
  | ends m hm => exact finishCycle h m
  | assert hr => exact fun hw => by cases hw
  | release gb sc => exact resetRelease s gb sc

end PendingKept

/-- Settles O43: every event at the port keeps the pending set within the status record under write, and so does what
follows it. -/
theorem pendingFlagsAreUnderWrite : Obligations.PendingFlagsAreUnderWrite := by
  unfold Obligations.PendingFlagsAreUnderWrite
  intro s t hs h
  rcases step_event hs with ⟨p, n, k, rfl⟩ | ⟨p, u, he, ha⟩
  · exact h
  · have hqueue : PendingFollows { s with pending := p } := h
    exact PendingKept.after (PendingKept.event hqueue he) ha

end Sys2Proof.Machine
end

section
/-! PROOFS. A tally slot below the last is read in the scan (R174). -/

namespace Sys2Proof.Machine

open Sys2Proof.Safety

/-- A record is valid for the scan as one run's (R174). -/
theorem scanValid_unique {s : State} {r q : Run} {w : Record} (hr : ScanValid s r w) (hq : ScanValid s q w) : q = r := by
  obtain ⟨-, -, hr, -⟩ := hr
  obtain ⟨-, -, hq, -⟩ := hq
  exact Fin.ext (hq.symm.trans hr)

/-- What the scan makes of a valid record is the weighing of R174, the slots found so far lying before slot k. -/
theorem weighed_take {s : State} {k : TallySlot} {w : Record} {r : Run} (hr : ScanValid s r w)
    (hbehind : ∀ j ∈ scannedSlots s.lc.scan, j.val < k.val) :
    Weighed s k w (s.lc.scan.take r (scanRecord k (readTally w))) := by
  have before {b : ScanBest} (hb : s.lc.scan.best[r] = some b) : b.slot.val < k.val :=
    hbehind b.slot (mem_scannedSlots (mem_slotsOf_best hb))
  refine ⟨fun h => absurd hr (h r), fun _ _ => Scan.take_valid _ _ _, fun q p hq hp => ?_, fun q hq hb => ?_,
    fun q b hq hb hrep => ?_, fun q b hq hb hrep => ?_⟩ <;> obtain rfl := scanValid_unique hr hq
  · exact Scan.take_others _ _ hp
  · exact Scan.take_first hb _
  · exact Scan.take_better hb ((replaces_iff (before hb)).mp hrep)
  · exact Scan.take_worse hb (Bool.eq_false_iff.mpr fun h => hrep ((replaces_iff (before hb)).mpr h))

/-- A record that is valid for no run is weighed by leaving the scan as it was (R174). -/
theorem weighed_other {s : State} {k : TallySlot} {w : Record} (h : ∀ r, ¬ScanValid s r w) :
    Weighed s k w s.lc.scan where
  absent _ := rfl
  counted r hr := absurd hr (h r)
  others r _ hr := absurd hr (h r)
  first r hr := absurd hr (h r)
  better r _ hr := absurd hr (h r)
  worse r _ hr := absurd hr (h r)

/-- Every tally record read is weighed, valid or not (R174). -/
theorem scanTally_weighs {s : State} {k : TallySlot} (w : Record)
    (hbehind : ∀ j ∈ scannedSlots s.lc.scan, j.val < k.val) :
    ∃ z, Weighed s k w z ∧ s.scanTally k w = { s with lc := { s.lc with scan := z } } := by
  by_cases h : ∃ r, ScanValid s r w
  · obtain ⟨r, hr⟩ := h
    exact ⟨_, weighed_take hr hbehind, scanTally_valid hr⟩
  · have h : ∀ r, ¬ScanValid s r w := fun r hr => h ⟨r, hr⟩
    exact ⟨_, weighed_other h, scanTally_other h⟩

/-- In the order of a load, the slots the scan has found lie before the tally slot being read (R169, R174). -/
theorem scanned_behind {s : State} {x : Item} {w : Record} {k : TallySlot} (hl : LoadWf s) (h : LastRead s x w)
    (hx : x.slot.val = 128 + k.val) : ∀ j ∈ scannedSlots s.lc.scan, j.val < k.val := fun j hj => by
  obtain ⟨⟨hk, -, hma, -⟩, -⟩ := h
  obtain ⟨-, hslot⟩ := hl.reading x hma hk
  have := hl.behind x.slot hslot j hj
  omega

/-- The slot after a tally slot below the last is the next tally slot (R169). -/
theorem afterInLoad_tally {a st : Bool} {j k : Slot} (hj : 128 ≤ j.val) (hk : k.val = j.val + 1) :
    AfterInLoad a st j k := by
  have hlast : j.val ≤ 510 := by omega
  unfold AfterInLoad
  iterate 12 right
  exact ⟨hj, hlast, hk⟩

/-- Settles O57: the slot's record is weighed and the next tally slot requested. -/
theorem tallySlotsAreWeighed : Obligations.TallySlotsAreWeighed := by
  unfold Obligations.TallySlotsAreWeighed
  intro s x w k j hw hl h hx hj
  have hbehind := scanned_behind hl h hx
  obtain ⟨z, hz, hscan⟩ := scanTally_weighs (s := readDone s) w hbehind
  have hv : scanned s z = (readDone s).useRecord x.slot w := by rw [useRecord_tally _ hx, hscan]; rfl
  obtain ⟨t, he, hm, hreq, hlc, hrt, hch, hrv, hru, -⟩ :=
    load_next hw h hv h.2.1 rfl (next_of_after (afterInLoad_tally (by omega) hj))
  exact ⟨t, z, he, hm, hreq, ⟨hz.absent, hz.counted, hz.others, hz.first, hz.better, hz.worse⟩, hlc, hrt, hch, hrv, hru⟩

end Sys2Proof.Machine
end

section
/-! PROOFS. An intact record read from slot 0 (R170): the station descriptor put in force, or none from here on. -/

namespace Sys2Proof.Machine

open Sys2Proof.Safety

/-- The part once slot 0 has been tested: this descriptor in force, or none, and the fallback reason (R161, R170). -/
def State.stationRead (s : State) (d : Option StationDescriptor) (n : Nat) : State :=
  (s.putStation d).putFallbackReason n

/-- A valid station descriptor passes every test (R170). -/
theorem stationLoadReason_valid {s : State} {w : Record} {d : StationDescriptor} (hi : intact w = true)
    (h0 : w[0] = 0x5100) (hd : readStation w = some d) (hcode : d.stationCode = s.lc.stationCode.toNat) :
    s.stationLoadReason w = 0 := by
  obtain ⟨hk, hx⟩ := headWord_kind (n := 0x51) (i := 0) h0 (by decide) (by decide)
  simp [State.stationLoadReason, hi, hk, hx, hd, hcode]

/-- The test that an intact record fails first gives the fallback reason (R170). -/
theorem stationLoadReason_fails {s : State} {w : Record} {n : Nat} (h : StationFails s w n) :
    s.stationLoadReason w = n ∧ n ≠ 0 := by
  have head (h0 : w[0] = 0x5100) := headWord_kind (n := 0x51) (i := 0) h0 (by decide) (by decide)
  obtain ⟨hi, ⟨rfl, hk⟩ | ⟨rfl, hk, hx⟩ | ⟨rfl, h0, hd⟩ | ⟨rfl, h0, d, hd, hcode⟩⟩ := h
  · simp [State.stationLoadReason, hi, hk]
  · simp [State.stationLoadReason, hi, hk, hx]
  · obtain ⟨hk, hx⟩ := head h0
    simp [State.stationLoadReason, hi, hk, hx, hd]
  · obtain ⟨hk, hx⟩ := head h0
    simp [State.stationLoadReason, hi, hk, hx, hd, hcode]

theorem loadStation_valid {s : State} {w : Record} (h : s.stationLoadReason w = 0) :
    s.loadStation w = s.stationRead (readStation w) 0 := by
  rw [State.loadStation, h, if_pos rfl]
  rfl

theorem loadStation_fails {s : State} {w : Record} {n : Nat} (h : s.stationLoadReason w = n) (hn : n ≠ 0) :
    s.loadStation w = s.stationRead none n := by
  rw [State.loadStation, h, if_neg hn]
  rfl

/-- The slot read after slot 0 (R169). -/
theorem afterInLoad_station (c : LoadCause) (st : Bool) :
    AfterInLoad c.afterReset st 0 (if c = .reset then 1 else if st then 5 else 19) := by
  cases c with
  | reset => exact .inl ⟨rfl, rfl, rfl⟩
  | restart tag => exact .inr (.inl ⟨rfl, rfl, by cases st <;> rfl⟩)
  | stationAccepted => exact .inr (.inl ⟨rfl, rfl, by cases st <;> rfl⟩)

/-- Slot 0 has been tested with this outcome, and the next read is requested (R161, R169, R170). -/
theorem station_read {s : State} {x : Item} {w : Record} {d : Option StationDescriptor} {n : Nat} {k : Slot}
    (hw : Awake s) (h : LastRead s x w) (hx : x.slot = 0) (hl : (readDone s).loadStation w = (readDone s).stationRead d n)
    (hk : k = if s.lc.cause = .reset then 1 else if d.isSome then 5 else 19) :
    ∃ t, exec .loadingReadComplete s = .next t ∧ exec .memoryCycleComplete s = .next t ∧ Requested s t k ∧
      t.lc = { s.lc with station := d, fallbackReason := n, loadSlot := some k } ∧ t.rt = s.rt ∧
      t.channels = s.channels ∧ t.rv = s.rv ∧ t.ru = { s.ru with attention := t.ru.attention } ∧
      (AttentionFollows s → AttentionFollows t) := by
  have hv : (readDone s).stationRead d n = (readDone s).useRecord x.slot w := by
    rw [hx, State.useRecord, if_pos (by decide), hl]
  obtain ⟨t, he, hm, hreq, hlc, hrt, hch, hrv, hru, -⟩ :=
    load_next hw h hv h.2.1 rfl (next_of_after (hx ▸ hk ▸ afterInLoad_station s.lc.cause d.isSome))
  refine ⟨t, he, hm, hreq, hlc, hrt, hch, hrv, ?_, fun _ => ?_⟩
  · rw [hru]; rfl
  · have hr : ((readDone s).stationRead d n).lc.resetAsserted = false := hw
    rw [AttentionFollows, State.attentionDue, State.attentionMask, hru, hlc, hr, Bool.not_false, Bool.and_true]
    rfl

/-- Settles O24: a valid station descriptor, and an intact record that fails one of the tests. -/
theorem loadedStationDescriptorsHold : Obligations.LoadedStationDescriptorsHold := by
  unfold Obligations.LoadedStationDescriptorsHold
  refine fun s x w hw h hx => ⟨fun d hi h0 hd hcode => ?_, fun n hn => ?_⟩
  · have hl := loadStation_valid (s := readDone s) (stationLoadReason_valid hi h0 hd hcode)
    rw [hd] at hl
    obtain ⟨t, he, hm, hreq, hrest⟩ := station_read hw h hx hl rfl
    exact ⟨t, _, he, hm, hreq, rfl, hrest⟩
  · obtain ⟨hreason, hne⟩ := stationLoadReason_fails (s := readDone s) hn
    obtain ⟨t, he, hm, hreq, hrest⟩ := station_read hw h hx (loadStation_fails hreason hne) rfl
    exact ⟨t, _, he, hm, hreq, rfl, hrest⟩

end Sys2Proof.Machine
end

section
/-! PROOFS. The run descriptors and run reports read at a load (R172). -/

namespace Sys2Proof.Machine

open Sys2Proof.Safety

/-! ### The step of each slot (R169) -/

theorem useRecord_run (s : State) (r : Run) (w : Record) : s.useRecord (runDescriptorSlot r) w = s.loadRun r w := by
  have hval : (runDescriptorSlot r).val = 5 + r.val := rfl
  have h1 : asChannelSlot (runDescriptorSlot r) = none := dif_neg (by omega)
  have h2 : asRunSlot (runDescriptorSlot r) = some r := by
    rw [asRunSlot, dif_pos (by omega)]
    exact congrArg some (Fin.ext (by dsimp only; omega))
  rw [State.useRecord, if_neg (by omega), if_neg (by omega), if_neg (by omega), h1, h2]

theorem useRecord_runReport (s : State) {k : Slot} {r : Run} (h : k.val = 26 + r.val) (w : Record) :
    s.useRecord k w = s.loadRunReport r k w := by
  have h1 : asChannelSlot k = none := dif_neg (by omega)
  have h2 : asRunSlot k = none := dif_neg (by omega)
  have h3 : asChannelReport k = none := dif_neg (by omega)
  have h4 : asRunReport k = some r := by
    rw [asRunReport, dif_pos (by omega)]
    exact congrArg some (Fin.ext (by dsimp only; omega))
  rw [State.useRecord, if_neg (by omega), if_neg (by omega), if_neg (by omega), h1, h2, h3, h4]

/-- The heads of the run descriptors' slots (section 1.2). -/
theorem expected_runDescriptor : ∀ r : Run,
    expectedKind (runDescriptorSlot r) = 0x53 ∧ expectedIndex (runDescriptorSlot r) = r.val := by decide

/-- The slot of a run report (section 1.2). -/
def runReportSlot (r : Run) : Slot := ⟨26 + r.val, by omega⟩

/-- The heads of the run reports' slots (section 1.2). -/
theorem expected_runReport : ∀ r : Run,
    expectedKind (runReportSlot r) = 0x66 ∧ expectedIndex (runReportSlot r) = r.val := by decide

/-- A run descriptor's record has its slot's frame (R169). -/
theorem frameValid_run {r : Run} {w : Record} (hi : intact w = true) (h0 : w[0] = headWord 0x53 r.val) :
    frameValid (runDescriptorSlot r) w = true := by
  obtain ⟨hk, hx⟩ := expected_runDescriptor r
  exact frameValid_of_head hi (by omega) (by omega) (by rw [hk, hx]; exact h0)

/-- A run report's record has its slot's frame (R169). -/
theorem frameValid_runReport {k : Slot} {r : Run} {w : Record} (hk : k.val = 26 + r.val) (hi : intact w = true)
    (h0 : w[0] = headWord 0x66 r.val) : frameValid k w = true := by
  obtain rfl : k = runReportSlot r := Fin.ext hk
  obtain ⟨hkind, hindex⟩ := expected_runReport r
  exact frameValid_of_head hi (by omega) (by omega) (by rw [hkind, hindex]; exact h0)

/-! ### What each record does -/

/-- A loaded condition or a loaded C is a field of the run report (R163, R172). -/
theorem sameRunReport_loaded (e : RunEntry) (v : RunCondition) (n : Nat) :
    sameRunReport e { e with condition := v, credit := n } = decide ({ e with condition := v, credit := n } = e) := by
  cases e
  simp [sameRunReport, eq_comm]

/-- A valid run descriptor is in force, and its enabled field gives the condition (R172). -/
theorem loadRun_law {s : State} {r : Run} {w : Record} {d : RunDescriptor} (hf : frameValid (runDescriptorSlot r) w = true)
    (hd : readRun w = some d) :
    TableOp s (s.loadRun r w)
      ((s.rt.setDescriptor r d).setRun r { s.run r with condition := if d.enabled then .unbound else .retired }) s.channels
      [] []
      (if { s.run r with condition := if d.enabled then .unbound else .retired } = s.run r then [] else [.run r]) := by
  have hop := (putRunDescriptor_op (.refl s) r d).putRun r
    { s.run r with condition := if d.enabled then .unbound else .retired }
  have hmark := sameRunReport_loaded (s.run r) (if d.enabled then .unbound else .retired) (s.run r).credit
  have hload : s.loadRun r w = (s.putRunDescriptor r d).putRun r
      { s.run r with condition := if d.enabled then .unbound else .retired } := by
    rw [State.loadRun, if_pos hf, hd]
    rfl
  rw [hload]
  refine hop.as rfl rfl (fun _ => Iff.rfl) fun k => .inl ?_
  rw [List.nil_append, show s.rt.runs[r] = s.run r from rfl, hmark]
  simp only [decide_eq_true_eq]

theorem RunTable.setRun_self (x : RunTable) (r : Run) : x.setRun r x.runs[r] = x := by
  rw [RunTable.setRun, Fin.getElem_fin, Vector.set_getElem_self]

/-- A valid run report gives C to an UNBOUND run, and to no other (R172). -/
theorem loadRunReport_law {s : State} {r : Run} {k : Slot} {w : Record} (hf : frameValid k w = true)
    (hc : (w[1].extractLsb' 12 4).toNat ≤ 4) {e : RunEntry}
    (he : e = if (s.run r).condition = .unbound then { s.run r with credit := num3 w[7] w[8] w[9] } else s.run r) :
    TableOp s (s.loadRunReport r k w) (s.rt.setRun r e) s.channels [] [] (if e = s.run r then [] else [.run r]) := by
  have hread : readRunReport w = some (num3 w[7] w[8] w[9]) := if_pos hc
  by_cases hu : (s.run r).condition = .unbound
  · rw [if_pos hu] at he
    have hload : s.loadRunReport r k w = s.putRun r e := by
      rw [State.loadRunReport, if_pos ⟨hf, hu⟩, hread, he]
    have hmark := sameRunReport_loaded (s.run r) (s.run r).condition (num3 w[7] w[8] w[9])
    rw [hload]
    refine ((TableOp.refl s).putRun r e).as rfl rfl (fun _ => Iff.rfl) fun k => .inl ?_
    rw [List.nil_append, he, show s.rt.runs[r] = s.run r from rfl, hmark]
    simp only [decide_eq_true_eq]
  · rw [if_neg hu] at he
    have hload : s.loadRunReport r k w = s := by rw [State.loadRunReport, if_neg fun h => hu h.2]
    rw [hload, he, if_pos rfl]
    exact (TableOp.refl s).as (s.rt.setRun_self r) rfl (fun _ => Iff.rfl) fun _ => .inl Iff.rfl

/-- A loading read that changes the Run Table is handed over, and the next read requested (R31, R169). -/
theorem load_table {s v : State} {x : Item} {w : Record} {k : Slot} {y : RunTable} {es : List EventRecord}
    {fs : List Flag} {ks : List PartSlot} (hw : Awake s) (h : LastRead s x w)
    (hn : AfterInLoad s.lc.cause.afterReset s.lc.station.isSome x.slot k) (hv : v = (readDone s).useRecord x.slot w)
    (hop : TableOp (readDone s) v y s.channels es fs ks) :
    ∃ t, exec .loadingReadComplete s = .next t ∧ exec .memoryCycleComplete s = .next t ∧ Requested s t k ∧
      t.lc = { s.lc with loadSlot := some k } ∧ t.rt = y ∧ t.channels = s.channels ∧ t.rv = s.rv ∧
      Reports s t es fs ks := by
  have hlc : v.lc = s.lc := hop.lc
  obtain ⟨t, he, hm, hreq, htlc, hrt, hch, hrv, -, hrep⟩ :=
    load_next hw h hv (by rw [hlc]; exact h.2.1) hop.uptime (by rw [hlc]; exact next_of_after hn)
  exact ⟨t, he, hm, hreq, hlc ▸ htlc, hrt.trans hop.rt, hch.trans hop.channels, hrv.trans hop.rv,
    hrep _ _ _ ((Effects.same (s := s) (t := readDone s) rfl rfl rfl).trans hop.eff)⟩

/-- Settles O45: a valid run descriptor, and a valid run report. -/
theorem loadedRunsAreConfigured : Obligations.LoadedRunsAreConfigured := by
  unfold Obligations.LoadedRunsAreConfigured
  refine fun s x w r k hw h hi hn => ⟨fun d hx h0 hd => ?_, fun hx h0 hc => ?_⟩
  · obtain ⟨t, he, hm, hreq, hlc, hrt, hch, hrv, hrep⟩ := load_table hw h hn (by rw [hx, useRecord_run])
      (loadRun_law (s := readDone s) (frameValid_run hi h0) hd)
    have hrun : t.run r = { s.run r with condition := if d.enabled then .unbound else .retired } := by
      rw [State.run, hrt, RunTable.setRun_get]
      rfl
    refine ⟨t, he, hm, hreq, hlc, ?_, hrun, fun q hq => ⟨?_, ?_⟩, ?_, hch, hrv, ?_⟩
    · rw [State.runDescriptor, hrt]
      exact RunTable.setDescriptor_get _ _ _
    · rw [State.runDescriptor, hrt]
      exact RunTable.setDescriptor_ne _ _ hq
    · rw [State.run, hrt, RunTable.setRun_ne _ _ hq]
      rfl
    · rw [hrt]; rfl
    · rw [hrun]; exact hrep
  · obtain ⟨t, he, hm, hreq, hlc, hrt, hch, hrv, hrep⟩ := load_table hw h hn (by rw [useRecord_runReport _ hx])
      (loadRunReport_law (s := readDone s) (r := r) (frameValid_runReport hx hi h0) hc rfl)
    obtain ⟨hrun, hother, hdesc, hslots⟩ := run_of_setRun (s := readDone s) hrt
    exact ⟨t, he, hm, hreq, hlc, hrun, hother, hdesc, hslots, hch, hrv, by rw [hrun]; exact hrep⟩

end Sys2Proof.Machine
end

section
/-! PROOFS. The channel descriptors and channel reports read at a load (R171). -/

namespace Sys2Proof.Machine

open Sys2Proof.Safety

/-! ### The step of each slot (R169) -/

theorem useRecord_channel (s : State) (c : Chan) (w : Record) :
    s.useRecord (channelDescriptorSlot c) w = s.loadChannel c w := by
  have hval : (channelDescriptorSlot c).val = 1 + c.val := rfl
  have h1 : asChannelSlot (channelDescriptorSlot c) = some c := by
    rw [asChannelSlot, dif_pos (by omega)]
    exact congrArg some (Fin.ext (by dsimp only; omega))
  rw [State.useRecord, if_neg (by omega), if_neg (by omega), if_neg (by omega), h1]

theorem useRecord_channelReport (s : State) {k : Slot} {c : Chan} (h : k.val = 22 + c.val) (w : Record) :
    s.useRecord k w = s.loadChannelReport c k w := by
  have h1 : asChannelSlot k = none := dif_neg (by omega)
  have h2 : asRunSlot k = none := dif_neg (by omega)
  have h3 : asChannelReport k = some c := by
    rw [asChannelReport, dif_pos (by omega)]
    exact congrArg some (Fin.ext (by dsimp only; omega))
  rw [State.useRecord, if_neg (by omega), if_neg (by omega), if_neg (by omega), h1, h2, h3]

/-- The heads of the channel descriptors' slots (section 1.2). -/
theorem expected_channelDescriptor : ∀ c : Chan,
    expectedKind (channelDescriptorSlot c) = 0x52 ∧ expectedIndex (channelDescriptorSlot c) = c.val := by decide

/-- The slot of a channel report (section 1.2). -/
def channelReportSlot (c : Chan) : Slot := ⟨22 + c.val, by omega⟩

/-- The heads of the channel reports' slots (section 1.2). -/
theorem expected_channelReport : ∀ c : Chan,
    expectedKind (channelReportSlot c) = 0x65 ∧ expectedIndex (channelReportSlot c) = c.val := by decide

/-- A channel descriptor's record has its slot's frame (R169). -/
theorem frameValid_channel {c : Chan} {w : Record} (hi : intact w = true) (h0 : w[0] = headWord 0x52 c.val) :
    frameValid (channelDescriptorSlot c) w = true := by
  obtain ⟨hk, hx⟩ := expected_channelDescriptor c
  exact frameValid_of_head hi (by omega) (by omega) (by rw [hk, hx]; exact h0)

/-- A channel report's record has its slot's frame (R169). -/
theorem frameValid_channelReport {k : Slot} {c : Chan} {w : Record} (hk : k.val = 22 + c.val) (hi : intact w = true)
    (h0 : w[0] = headWord 0x65 c.val) : frameValid k w = true := by
  obtain rfl : k = channelReportSlot c := Fin.ext hk
  obtain ⟨hkind, hindex⟩ := expected_channelReport c
  exact frameValid_of_head hi (by omega) (by omega) (by rw [hkind, hindex]; exact h0)

/-! ### The channel descriptor -/

/-- The channel with the descriptor read at a load (R171). -/
def Channel.loaded (x : Channel) (d : ChannelDescriptor) : Channel :=
  { x with descriptor := some d, working := d.nominal
           service := if d.startInService then .inService else .outOfService }

/-- A valid channel descriptor configures its channel; out of service its flag latches (R171). -/
theorem loadChannel_law {s : State} {c : Chan} {w : Record} {d : ChannelDescriptor}
    (hf : frameValid (channelDescriptorSlot c) w = true) (hd : readChannel w = some d) :
    ChannelOp c s (s.loadChannel c w) ((s.chan c).loaded d) []
      (if d.startInService then [] else [.channel c .outOfService])
      (if sameReport (s.chan c) ((s.chan c).loaded d) then [] else [.channel c]) := by
  have hput := (ChannelOp.refl c s).putChan ((s.chan c).loaded d) (.other rfl rfl rfl)
  have hload : s.loadChannel c w = (s.putChan c ((s.chan c).loaded d)).latchOutOfService c := by
    rw [State.loadChannel, if_pos hf, hd]
    rfl
  rw [hload, State.latchOutOfService, State.putChan_chan]
  cases hs : d.startInService with
  | true =>
    have hservice : ((s.chan c).loaded d).service = .inService := by rw [Channel.loaded, hs]; rfl
    rw [hservice]
    exact hput
  | false =>
    have hservice : ((s.chan c).loaded d).service = .outOfService := by rw [Channel.loaded, hs]; rfl
    rw [hservice]
    exact hput.latch (.channel c .outOfService)

/-! ### The channel report -/

/-- A deficit above 0 latches DEFICIT, and nothing else changes (R171). -/
theorem latchDeficit_law (s : State) (c : Chan) :
    ChannelOp c s (s.latchDeficit c) (s.chan c) [] (if 0 < (s.chan c).deficit then [.channel c .deficit] else []) [] := by
  unfold State.latchDeficit
  split
  · exact (ChannelOp.refl c s).latch _
  · exact .refl c s

/-- The line is evaluated, a deficit above 0 latches DEFICIT, and the sequencer's test is made (R105, R111, R171). -/
theorem settleRestored_law {s : State} {c : Chan} {d : ChannelDescriptor} (hd : (s.chan c).descriptor = some d) :
    ChannelOp c s (((s.evalRestrict c).latchDeficit c).tryBegin c) (((s.chan c).lineSet d).begun d s.uptime)
      (lineEvents s c d (s.chan c) ((s.chan c).lineSet d))
      (lineFlags c (s.chan c) ((s.chan c).lineSet d) ++ if 0 < (s.chan c).deficit then [.channel c .deficit] else [])
      (if sameReport (s.chan c) (((s.chan c).lineSet d).begun d s.uptime) then [] else [.channel c]) := by
  obtain ⟨hon, heff⟩ := evalRestrict_law hd
  have hline : ChannelOp c s (s.evalRestrict c) ((s.chan c).lineSet d) _ _ _ := ⟨hon, heff⟩
  have hlatch := hline.trans (latchDeficit_law (s.evalRestrict c) c)
  rw [hon.chan] at hlatch
  generalize (s.evalRestrict c).latchDeficit c = q at hlatch
  obtain ⟨hbegin, hreport⟩ := tryBegin_law (s := q) (c := c) (d := d) (hlatch.descriptor hd)
  rw [hlatch.on.chan, hlatch.on.uptime] at hbegin hreport
  refine (hlatch.trans ⟨hbegin, hreport⟩).as rfl ?_ (fun f => ?_) fun k => .inl ?_
  · rw [List.append_nil, List.append_nil]; rfl
  · rw [List.append_nil]; rfl
  · rfl

/-- The crossings on the restored residue are distributed with cause 12, and what follows (R98, R99, R105, R111, R171), in
the statements' words. -/
theorem countRestored_law {s t : State} {c : Chan} {d : ChannelDescriptor} (hd : (s.chan c).descriptor = some d)
    (ht : t = (((s.countCrossings c 12).evalRestrict c).latchDeficit c).tryBegin c) :
    ChannelOp c s t (t.chan c) (demandEvents s t c 12)
        ((if 0 < (t.chan c).deficit then [.channel c .deficit] else []) ++ demandFlags s t c)
        (if sameReport (s.chan c) (t.chan c) then [] else [.channel c]) ∧
      Distributed (s.chan c) (t.chan c) ((s.chan c).residue / (s.chan c).quantum)
        ((s.chan c).residue % (s.chan c).quantum) ∧
      LineFollows d (s.chan c).restrict (t.chan c) ∧ Begins d s.uptime (s.chan c) (t.chan c) := by
  obtain ⟨y, hcount, hdis, hline, hseq⟩ := countCrossings_law s c 12
  have hyd : y.descriptor = some d := by rw [hdis]; exact hd
  generalize s.countCrossings c 12 = v at hcount ht
  have hset := settleRestored_law (hcount.descriptor hyd)
  rw [← ht, hcount.on.chan, hcount.on.uptime] at hset
  have hall := hcount.transReported hset (sameReport_of_begun hseq)
  have hchan : t.chan c = (y.lineSet d).begun d s.uptime := hset.on.chan
  refine ⟨?_, ?_, ?_, ?_⟩
  · rw [demandEvents_eq (d := d) (by rw [hchan]; exact hyd), demandFlags_eq, hchan]
    refine hall.as rfl ?_ (fun f => ?_) fun _ => .inl Iff.rfl
    · simp only [lineEvents, hcount.on.eventNow, hline]
      rfl
    · rw [List.mem_append, List.mem_append, List.mem_append, List.mem_append, or_comm, or_assoc, lineFlags, lineFlags,
        hline]
      rfl
  · rw [hchan]
    simp only [Distributed] at hdis ⊢
    rw [hdis]
    rfl
  · rw [hchan, ← hline]; rfl
  · rw [hchan, Begins, ← hseq]; rfl

/-- A valid report restores a configured channel (R171). -/
theorem restoreChannel_law {s t u : State} {c : Chan} {d : ChannelDescriptor} {w : Record} {q : ChannelRestore}
    (hd : (s.chan c).descriptor = some d) (hq : readChannelReport w = some q)
    (hu : u = s.setChan c (restoredFrom (s.chan c) d q)) (ht : t = s.restoreChannel c d q) :
    ChannelOp c s t (t.chan c) (demandEvents u t c 12)
        ((if 0 < (t.chan c).deficit then [.channel c .deficit] else []) ++ demandFlags u t c)
        (if sameReport (s.chan c) (u.chan c) && sameReport (u.chan c) (t.chan c) then [] else [.channel c]) ∧
      Distributed (u.chan c) (t.chan c) (q.residue / ((u.chan c).working * 1000))
        (q.residue % ((u.chan c).working * 1000)) ∧
      LineFollows d (s.chan c).restrict (t.chan c) ∧ Begins d s.uptime (s.chan c) (t.chan c) := by
  have hput := (ChannelOp.refl c s).putChan (restoredFrom (s.chan c) d q) ⟨id, fun _ => readChannelReport_bounds hq⟩
  have ht : t = ((((s.putChan c (restoredFrom (s.chan c) d q)).countCrossings c 12).evalRestrict c).latchDeficit
    c).tryBegin c := ht
  generalize s.putChan c (restoredFrom (s.chan c) d q) = v at hput ht
  have huc : u.chan c = restoredFrom (s.chan c) d q := by rw [hu]; simp [State.chan, State.setChan]
  have hvu : v.chan c = u.chan c := hput.on.chan.trans huc.symm
  have hut : u.uptime = s.uptime := by rw [hu]; rfl
  obtain ⟨hop, hdis, hline, hbegin⟩ := countRestored_law (hput.descriptor hd) ht
  rw [demandEvents_from (s := u) (by rw [hvu]) (by rw [hvu]) (hput.on.uptime.trans hut.symm),
    demandFlags_from (s := u) (by rw [hvu]) (by rw [hvu])] at hop
  have hall := hput.trans hop
  rw [hput.on.uptime] at hbegin
  rw [hvu] at hall hdis hline hbegin
  rw [← huc] at hall
  rw [huc] at hdis hline hbegin ⊢
  refine ⟨hall.as rfl rfl (fun _ => Iff.rfl) fun k => .inl ?_, hdis, hline, hbegin⟩
  rw [huc]
  cases sameReport (s.chan c) (restoredFrom (s.chan c) d q) <;> simp

/-! ### The three readings -/

/-- A loading read that changes one channel is handed over, and the next read requested (R31, R169). -/
theorem load_channel {s v : State} {x : Item} {w : Record} {c : Chan} {k : Slot} {y : Channel} {es : List EventRecord}
    {fs : List Flag} {ks : List PartSlot} (hw : Awake s) (h : LastRead s x w)
    (hn : AfterInLoad s.lc.cause.afterReset s.lc.station.isSome x.slot k) (hv : v = (readDone s).useRecord x.slot w)
    (hop : ChannelOp c (readDone s) v y es fs ks) :
    ∃ t, exec .loadingReadComplete s = .next t ∧ exec .memoryCycleComplete s = .next t ∧ Requested s t k ∧
      t.lc = { s.lc with loadSlot := some k } ∧ t.chan c = y ∧ (∀ j, j ≠ c → t.chan j = s.chan j) ∧ t.rt = s.rt ∧
      t.rv = s.rv ∧ Reports s t es fs ks := by
  have hlc : v.lc = s.lc := hop.on.lc
  obtain ⟨t, he, hm, hreq, htlc, hrt, hch, hrv, -, hrep⟩ :=
    load_next hw h hv (by rw [hlc]; exact h.2.1) hop.on.uptime (by rw [hlc]; exact next_of_after hn)
  have hchan (j : Chan) : t.chan j = v.chan j := by rw [State.chan, hch]; rfl
  exact ⟨t, he, hm, hreq, hlc ▸ htlc, (hchan c).trans hop.on.chan, fun j hj => (hchan j).trans (hop.on.others j hj),
    hrt.trans hop.on.rt, hrv.trans hop.on.rv,
    hrep _ _ _ ((Effects.same (s := s) (t := readDone s) rfl rfl rfl).trans hop.eff)⟩

/-- Settles O25: a valid channel descriptor, a valid report of a configured channel, and an UNCONFIGURED channel's. -/
theorem loadedChannelsAreConfigured : Obligations.LoadedChannelsAreConfigured := by
  unfold Obligations.LoadedChannelsAreConfigured
  refine fun s x w c k hw h hi hn => ⟨fun d hx h0 hd => ?_, fun q d u hx h0 hq hd hu => ?_, fun hx hd => ?_⟩
  · obtain ⟨t, he, hm, hreq, hlc, hchan, hother, hrt, hrv, hrep⟩ := load_channel hw h hn
      (by rw [hx, useRecord_channel]) (loadChannel_law (s := readDone s) (frameValid_channel hi h0) hd)
    exact ⟨t, he, hm, hreq, hlc, hchan, hother, hrt, hrv, by rw [hchan]; exact hrep⟩
  · have hload : (readDone s).loadChannelReport c x.slot w = (readDone s).restoreChannel c d q := by
      have hd : ((readDone s).chan c).descriptor = some d := hd
      rw [State.loadChannelReport, hd]
      dsimp only
      rw [if_pos (frameValid_channelReport hx hi h0), hq]
    have hv : (readDone s).restoreChannel c d q = (readDone s).useRecord x.slot w := by
      rw [useRecord_channelReport _ hx, hload]
    obtain ⟨hop, hdis, hline, hbegin⟩ := restoreChannel_law (s := readDone s) hd hq rfl rfl
    obtain ⟨t, he, hm, hreq, hlc, hchan, hother, hrt, hrv, hrep⟩ := load_channel hw h hn hv hop
    subst hu
    rw [demandEvents_chan hchan.symm, demandFlags_chan hchan.symm, ← hchan] at hrep
    rw [← hchan] at hdis hline hbegin
    exact ⟨t, he, hm, hreq, hlc, hdis, hline, hbegin, hother, hrt, hrv, hrep⟩
  · have hd : ((readDone s).chan c).descriptor = none := hd
    have hv : readDone s = (readDone s).useRecord x.slot w := by
      rw [useRecord_channelReport _ hx, State.loadChannelReport, hd]
    obtain ⟨t, he, hm, hreq, hlc, hrt, hch, hrv, hru, -⟩ := load_next hw h hv h.2.1 rfl (next_of_after hn)
    exact ⟨t, he, hm, hreq, hlc, hch, hrt, hrv, hru⟩

end Sys2Proof.Machine
end

section
/-! PROOFS. The record memory stays in canonical form (log entry 7): the end of a memory cycle alone changes memory
(R18, R23), by a write that keeps the form. -/

namespace Sys2Proof.Machine

open Sys2Proof.Safety

/-- The canonical form is read off the record memory alone. -/
theorem memoryWf_congr {s t : State} (h : t.mem = s.mem) : MemoryWf t ↔ MemoryWf s := by rw [MemoryWf, MemoryWf, h]

/-- The end of a memory cycle leaves memory as it was, or writes one word of it (R18, R23). -/
theorem MemoryWf.runCycle {s : State} (h : MemoryWf s) (m : MemCycle) : MemoryWf (s.runCycle m) := by
  unfold State.runCycle
  split
  · exact h
  · exact Memory.wf_writeWord h

/-- Settles O6: of the updates a step can make, the end of a memory cycle alone reaches memory. -/
theorem memoryStaysCanonical : Obligations.MemoryStaysCanonical := by
  unfold Obligations.MemoryStaysCanonical
  intro s t hs h
  refine step_keeps (P := MemoryWf) ?settled ?outer ?port ?cycle ?assert ?release ?own hs h
  case settled => exact fun _ _ h => (memoryWf_congr h.mem).mpr
  case outer =>
    intro _ _ _ ho
    obtain ⟨_, hmem, _⟩ := ho.port
    exact (memoryWf_congr hmem).mpr
  case port => exact fun _ _ h => h
  case cycle => exact fun _ m h => MemoryWf.runCycle h m
  case assert => exact fun _ h => h
  case release => exact fun _ _ _ h => h
  case own => exact fun _ _ _ _ h => h

end Sys2Proof.Machine
end

section
/-! PROOFS. The machine as a whole: a step and the front of the queue, and every command's answer (log entry 1). -/

namespace Sys2Proof.Machine

/-- Settles O3: a command whose event has no occasion leaves the state unchanged, and any other answers the state its
event leaves. -/
theorem everyCommandAnswers : Obligations.EveryCommandAnswers := by
  unfold Obligations.EveryCommandAnswers
  exact exec_total

/-- Settles O1: the queue is not empty, so that the step is its first command's. -/
theorem stepTakesTheFront : Obligations.StepTakesTheFront := by
  unfold Obligations.StepTakesTheFront
  intro c rest s hpending
  rw [step, hpending]

end Sys2Proof.Machine
end

section
/-! PROOFS. The invariants hold at reset (R24, R32, R168, R169): they hold of the part at its release, and the Memory
Agent's choice and the grant of the first loading read keep them. -/

namespace Sys2Proof.Machine

open Sys2Proof.Safety

/-- The machine after reset is the part at its release, the Memory Agent having taken the first loading read and the
Port Arbiter having granted it (R24, R32). -/
theorem afterRelease_settle : ((State.released 0 0).afterRelease 0 0).settle = State.reset := rfl

/-- What settling leaves is as it was at the release. -/
theorem settled_reset : Settled ((State.released 0 0).afterRelease 0 0) State.reset :=
  afterRelease_settle ▸ Settled.settle _

theorem reset_memoryWf : MemoryWf State.reset := Memory.wf_nil

theorem reset_poolWf : PoolWf State.reset := (poolWf_congr settled_reset.rv).mpr (poolWf_afterRelease _ 0 0)

theorem reset_queueWf : QueueWf State.reset := (queueWf_congr settled_reset.events).mpr (queueWf_afterRelease _ 0 0)

theorem reset_attentionFollows : AttentionFollows State.reset :=
  AttentionKept.settled settled_reset (AttentionKept.afterRelease _ 0 0)

/-- Every channel is at its reset values: the outputs off in IDLE (R117). -/
theorem reset_outputsFollow (c : Chan) : OutputsFollow (State.reset.chan c) := by
  rw [reset_chan]
  exact outputsFollow_idle rfl

/-- Nothing is owed and nothing credited (R92). -/
theorem reset_demandBounded (c : Chan) : DemandBounded (State.reset.chan c) := by
  rw [reset_chan]
  exact ⟨Nat.zero_le _, Nat.zero_le _⟩

theorem reset_channelsBounded : ChannelsBounded State.reset := fun c => by
  rw [reset_chan]
  exact inBounds_reset

/-- The Run Table agrees with its slot map, and the load begins in order (R53, R55, R169). -/
theorem reset_consistent : Consistent State.reset :=
  afterRelease_settle ▸ (consistent_afterRelease (State.released 0 0) 0 0).settle

/-- The first loading read has no word read yet, so that no read is torn (R19). -/
theorem reset_readsWhole : ReadsWhole State.reset :=
  afterRelease_settle ▸ ReadsKept.settle (ReadsKept.idle rfl)

theorem reset_inOrder : InOrder State.reset :=
  afterRelease_settle ▸ (InOrder.afterRelease (State.released 0 0) 0 0).settle

/-- No flag is pending (R158). -/
theorem reset_pendingFollows : PendingFollows State.reset := PendingKept.empty FlagWords.has_none

/-- The Memory Agent has an item, the first loading read (R32). -/
theorem reset_agentBusy : AgentBusy State.reset := fun _ hidle => by cases hidle

/-- Settles O5, invariant by invariant. -/
theorem invariantsHoldAtReset : Obligations.InvariantsHoldAtReset := by
  unfold Obligations.InvariantsHoldAtReset
  obtain ⟨htable, hload⟩ := reset_consistent
  exact ⟨reset_memoryWf, reset_poolWf, reset_queueWf, reset_attentionFollows, reset_outputsFollow, reset_demandBounded,
    reset_channelsBounded.channelsWf, htable, hload, reset_readsWhole, writesInOrder_iff.mpr reset_inOrder,
    reset_pendingFollows, reset_agentBusy⟩

end Sys2Proof.Machine
end
